-- ==== Sys2Proof/Word.lean ====
section
/-!
DEFINITION. The word types of the Ixlon (R5, R25): bytes, 32-bit words, 64-bit words, and the plainest arithmetic on
them.
-/
namespace Sys2Proof

/-- One byte. -/
abbrev Byte := BitVec 8
/-- A 32-bit word: an instruction word, a register row, a wave register (R16, R25). -/
abbrev Word := BitVec 32
/-- A 64-bit value: a register pair, a pointer, a special register (R40). -/
abbrev DWord := BitVec 64

/-- A wave mask over at most 128 slots, slot `s` in bit `s` (R75). -/
abbrev Mask := BitVec 128

/-- One bit as a number. -/
def bitOf (b : Bool) : Nat := if b then 1 else 0

/-- `ceil (a / b)` on naturals. -/
def ceilDiv (a b : Nat) : Nat := (a + b - 1) / b

/-- `x` rounded up to a multiple of `n`. -/
def roundUp (x n : Nat) : Nat := ceilDiv x n * n

/-- The low 32 bits of a 64-bit value (R40: the even register of a pair). -/
def lo32 (v : DWord) : Word := BitVec.ofNat 32 v.toNat

/-- The high 32 bits of a 64-bit value (R40: the odd register of a pair). -/
def hi32 (v : DWord) : Word := BitVec.ofNat 32 (v.toNat / 4294967296)

/-- A pair's value from its even and odd registers (R40). -/
def pair64 (lo hi : Word) : DWord := BitVec.ofNat 64 (hi.toNat * 4294967296 + lo.toNat)

@[simp] theorem lo32_pair64 (l h : Word) : lo32 (pair64 l h) = l := by
  apply BitVec.eq_of_toNat_eq
  simp only [lo32, pair64, BitVec.toNat_ofNat]
  have := l.isLt; have := h.isLt; omega
@[simp] theorem hi32_pair64 (l h : Word) : hi32 (pair64 l h) = h := by
  apply BitVec.eq_of_toNat_eq
  simp only [hi32, pair64, BitVec.toNat_ofNat]
  have := l.isLt; have := h.isLt; omega
@[simp] theorem pair64_lo_hi (v : DWord) : pair64 (lo32 v) (hi32 v) = v := by
  apply BitVec.eq_of_toNat_eq
  simp only [hi32, lo32, pair64, BitVec.toNat_ofNat]
  have := v.isLt; omega

/-- Bits `[lo + n - 1 : lo]` of a word, the `bits` function of R7. -/
def fld (w : Word) (lo n : Nat) : BitVec n := BitVec.ofNat n (w.toNat / 2 ^ lo)

/-- Bit `i` of a word. -/
def bitAt (w : Word) (i : Nat) : Bool := w.toNat / 2 ^ i % 2 == 1

/-- Bits `[lo + n - 1 : lo]` of a natural. -/
def nbits (x lo n : Nat) : Nat := x / 2 ^ lo % 2 ^ n

/-- A natural below `2^n` read as a two's complement number of `n` bits (`sext` of R7). -/
def sextNat (x n : Nat) : Int := if x % 2 ^ n < 2 ^ (n - 1) then ((x % 2 ^ n : Nat) : Int) else ((x % 2 ^ n : Nat) : Int) - 2 ^ n

end Sys2Proof
end

