-- ==== Sys2Proof/Syntax.lean ====
section
/-!
DEFINITION. The instruction syntax: one constructor of `Instr` per row of the opcode table. The 239 instruction
words carry their encoded fields (the chain bit C is no part of an instruction: it ties words into a group, R28); the
93 events carry the names of what they act on.
-/
namespace Sys2Proof

/-- The clause header (R31). -/
structure ClauseF where
  wait : BitVec 12
  seta : BitVec 4
  setb : BitVec 4
  stk : Bool
  yld : Bool
deriving DecidableEq, Repr

/-- Format R, binary vector form: D, A, B and the X bit that makes B a wave selector (R43). -/
structure RBin where
  d : BitVec 7
  a : BitVec 7
  b : BitVec 7
  x : Bool
deriving DecidableEq, Repr

/-- Format R, unary form: D and A, with B and X reserved (R43). -/
structure RUn where
  d : BitVec 7
  a : BitVec 7
deriving DecidableEq, Repr

/-- Format R with D, A and B and X reserved: wave-register forms (R56), QNT and UNPACK (R58). -/
structure R3 where
  d : BitVec 7
  a : BitVec 7
  b : BitVec 7
deriving DecidableEq, Repr

/-- LEA with its shift OP[1:0] (R55). -/
structure LeaF where
  sh : BitVec 2
  d : BitVec 7
  a : BitVec 7
  b : BitVec 7
  x : Bool
deriving DecidableEq, Repr

/-- The wave-register LEA (R56). -/
structure LeaW where
  sh : BitVec 2
  d : BitVec 7
  a : BitVec 7
  b : BitVec 7
deriving DecidableEq, Repr

/-- ICMP with its condition OP[2:0] (R55). -/
structure CmpF where
  n : BitVec 3
  d : BitVec 7
  a : BitVec 7
  b : BitVec 7
  x : Bool
deriving DecidableEq, Repr

/-- The wave-register ICMP, writing predicate `p` (R56). -/
structure CmpW where
  n : BitVec 3
  p : BitVec 3
  a : BitVec 7
  b : BitVec 7
deriving DecidableEq, Repr

/-- MOVI and MOVHI: D and IMM16 (R44). -/
structure MovF where
  imm : BitVec 16
  d : BitVec 7
deriving DecidableEq, Repr

/-- IADD, immediate form: D and IMM15 (R44). -/
structure ImmF where
  d : BitVec 7
  imm : BitVec 15
deriving DecidableEq, Repr

/-- A typed binary floating-point form: T, D, A, B, X (R57). -/
structure FBin where
  t : BitVec 2
  d : BitVec 7
  a : BitVec 7
  b : BitVec 7
  x : Bool
deriving DecidableEq, Repr

/-- A typed unary form: T, D, A (R57, R58, R60). -/
structure FUn where
  t : BitVec 2
  d : BitVec 7
  a : BitVec 7
deriving DecidableEq, Repr

/-- FRND: T, D, A and the mode in B (R57). -/
structure FrndF where
  t : BitVec 2
  d : BitVec 7
  a : BitVec 7
  mode : BitVec 7
deriving DecidableEq, Repr

/-- CVT: destination format code, D, A, source format code, .sat (R58). -/
structure CvtF where
  dst : BitVec 4
  d : BitVec 7
  a : BitVec 7
  src : BitVec 4
  sat : Bool
deriving DecidableEq, Repr

/-- QNT.hx4 with its outlier budget; B is the scale destination (R58). -/
structure QntF where
  n : BitVec 3
  d : BitVec 7
  a : BitVec 7
  b : BitVec 7
deriving DecidableEq, Repr

/-- SHFL with its mode OP[1:0] (R60). -/
structure ShflF where
  m : BitVec 2
  d : BitVec 7
  a : BitVec 7
  b : BitVec 7
  x : Bool
deriving DecidableEq, Repr

/-- VOTE: the wave predicate and A (R60). -/
structure VoteF where
  p : BitVec 3
  a : BitVec 7
deriving DecidableEq, Repr

/-- Format M with a size code in OP[2:0] (R46, R61). -/
structure MemZ where
  z : BitVec 3
  d : BitVec 7
  a : BitVec 7
  h : BitVec 2
  q : BitVec 2
  sc : BitVec 3
  fs : Bool
deriving DecidableEq, Repr

/-- Format M (R46). -/
structure MemF where
  d : BitVec 7
  a : BitVec 7
  h : BitVec 2
  q : BitVec 2
  sc : BitVec 3
  fs : Bool
deriving DecidableEq, Repr

/-- Format N (R47). -/
structure LelF where
  d : BitVec 7
  a : BitVec 7
  l : BitVec 4
  h : BitVec 2
  fs : Bool
  x : Bool
deriving DecidableEq, Repr

/-- FENCE: kind and scope (R61). -/
structure FenceF where
  q : BitVec 2
  sc : BitVec 3
deriving DecidableEq, Repr

/-- PREF: address pair and hint (R61). -/
structure PrefF where
  a : BitVec 7
  h : BitVec 2
deriving DecidableEq, Repr

/-- CWB and CINV: address pair, scope, flag select (R61). -/
structure CacheF where
  a : BitVec 7
  sc : BitVec 3
  fs : Bool
deriving DecidableEq, Repr

/-- LDEF (R48, R182). -/
structure LdefF where
  ld : BitVec 4
  s : BitVec 6
deriving DecidableEq, Repr

/-- LCHAIN (R48, R188). -/
structure LchainF where
  ld : BitVec 4
  la : BitVec 4
  lb : BitVec 4
deriving DecidableEq, Repr

/-- LPART (R48, R185). -/
structure LpartF where
  ld : BitVec 4
  la : BitVec 4
  s : BitVec 6
  k : BitVec 4
deriving DecidableEq, Repr

/-- LTRANS and LSWZ (R48). -/
structure LldF where
  ld : BitVec 4
  la : BitVec 4
  s : BitVec 6
deriving DecidableEq, Repr

/-- LFLAT (R48, R187). -/
structure LflatF where
  ld : BitVec 4
  la : BitVec 4
  k : BitVec 4
deriving DecidableEq, Repr

/-- LGET and LCHK (R48). -/
structure LgetF where
  la : BitVec 4
  s : BitVec 6
  k : BitVec 4
deriving DecidableEq, Repr

/-- HSET (R48, R172). -/
structure HsetF where
  s : BitVec 6
deriving DecidableEq, Repr

/-- TCOPY: format E with its option bits (R49, R263). -/
structure TcopyF where
  ld : BitVec 4
  la : BitVec 4
  s : BitVec 6
  e : BitVec 2
  sat : Bool
  m : BitVec 2
  fp : Bool
  fs : Bool
deriving DecidableEq, Repr

/-- GATHER, SCATTER, MCREAD, TRSEND: format E with OPT[6:5] (R49). -/
structure EngF where
  ld : BitVec 4
  la : BitVec 4
  s : BitVec 6
  e : BitVec 2
  fs : Bool
deriving DecidableEq, Repr

/-- Format E naming a parameter block and FS (R49). -/
structure ObjF where
  s : BitVec 6
  fs : Bool
deriving DecidableEq, Repr

/-- COINIT: parameter block, OPT[0], FS (R49, R260). -/
structure CoinitF where
  s : BitVec 6
  u : Bool
  fs : Bool
deriving DecidableEq, Repr

/-- COWAIT and COTEST (R49, R262). -/
structure WaitF where
  s : BitVec 6
deriving DecidableEq, Repr

/-- MLOOP: format X (R50). -/
structure MloopF where
  t : BitVec 5
  la : BitVec 4
  lb : BitVec 4
  s : BitVec 6
  rb : Bool
  fs : Bool
  x : Bool
deriving DecidableEq, Repr

/-- MZERO (R62). -/
structure MzeroF where
  t : BitVec 5
deriving DecidableEq, Repr

/-- MLDA and MSTA (R62). -/
structure MldF where
  t : BitVec 5
  la : BitVec 4
  fs : Bool
deriving DecidableEq, Repr

/-- MRD and MWR: format V (R51). -/
structure MmovF where
  t : BitVec 5
  v : BitVec 7
  fs : Bool
deriving DecidableEq, Repr

/-- MSTAT (R62). -/
structure MstatF where
  t : BitVec 5
  s : BitVec 6
deriving DecidableEq, Repr

/-- SPAWN and SPAWN.TRY: SD, SA, the dependency count, FS (R52, R316). -/
structure SpawnF where
  sd : BitVec 6
  sa : BitVec 6
  n : BitVec 5
  fs : Bool
deriving DecidableEq, Repr

/-- A format T word with SA only (R52). -/
structure SaF where
  sa : BitVec 6
deriving DecidableEq, Repr

/-- TBSET and TBCLR (R52, R320). -/
structure TbF where
  sd : BitVec 6
  sa : BitVec 6
  n : BitVec 4
  fs : Bool
deriving DecidableEq, Repr

/-- TBTEST (R52, R320). -/
structure TbtF where
  sd : BitVec 6
  sa : BitVec 6
  n : BitVec 4
deriving DecidableEq, Repr

/-- A format T word with SD and SA (R52). -/
structure SdaF where
  sd : BitVec 6
  sa : BitVec 6
deriving DecidableEq, Repr

/-- A format T word with SD only (R52). -/
structure SdF where
  sd : BitVec 6
deriving DecidableEq, Repr

/-- LAUNCH (R52, R339). -/
structure LaunchF where
  sd : BitVec 6
  sa : BitVec 6
  fs : Bool
deriving DecidableEq, Repr

/-- BRA: format B (R45). -/
structure BraF where
  cond : BitVec 4
  qp : BitVec 3
  off : BitVec 15
deriving DecidableEq, Repr

/-- CALL: format B with COND and QP zero (R45). -/
structure CallF where
  off : BitVec 15
deriving DecidableEq, Repr

/-- GIVE and CLAIM: IMM9 (R78). -/
structure GiveF where
  imm : BitVec 9
deriving DecidableEq, Repr

/-- CLAIM.TRY: SD and IMM9 (R78). -/
structure ClaimTryF where
  sd : BitVec 6
  imm : BitVec 9
deriving DecidableEq, Repr

/-- TRAP and BKPT: the unsigned code IMM15 (R44). -/
structure TrapF where
  code : BitVec 15
deriving DecidableEq, Repr

/-- SRD and SWR: format S (R53). -/
structure SrF where
  s : BitVec 6
  srn : BitVec 12
deriving DecidableEq, Repr

/-- PTEW (R52, R380). -/
structure PtewF where
  sd : BitVec 6
  sa : BitVec 6
  force : Bool
  ret : Bool
  lvl : BitVec 2
  fs : Bool
deriving DecidableEq, Repr

/-- POOLPOP (R52, R379). -/
structure PopF where
  sd : BitVec 6
  fs : Bool
deriving DecidableEq, Repr

/-- LPINV, TLBINV and IINV (R52, R381, R383). -/
structure InvF where
  sa : BitVec 6
  all : Bool
  scope : BitVec 2
  fs : Bool
deriving DecidableEq, Repr

/-- A 256-byte flit arriving on a link, as the receiver's checks find it (R401): whether its header and its payload pass,
and the context that the header names. -/
structure FlitIn where
  ctx : Nat
  headerOk : Bool
  payloadOk : Bool
deriving DecidableEq, Repr

/-- A peer package's request arriving at the ingress (R403): where it comes from, the entry and key it uses, its place in
the export, and what it does: `form` 0 reads, 1 writes, 2 is CAS, and 3 + k is atomic form k (R220). -/
structure PeerReq where
  src : Nat
  entry : Nat
  gkey : Nat
  off : Nat
  size : Nat
  form : Nat
  data : List (BitVec 8)
deriving DecidableEq, Repr

/-- The machine's instructions and events, one constructor per row of the opcode table. -/
inductive Instr where
  /-- CLAUSE (R33). -/
  | clause (f : ClauseF)
  /-- IADD (R105). -/
  | iadd (f : RBin)
  /-- ISUB (R105). -/
  | isub (f : RBin)
  /-- IMUL_LO (R105). -/
  | imulLo (f : RBin)
  /-- IMUL_HI_I32 (R105). -/
  | imulHiI32 (f : RBin)
  /-- IMUL_HI_N32 (R105). -/
  | imulHiN32 (f : RBin)
  /-- IMUL_WIDE_I32 (R105). -/
  | imulWideI32 (f : RBin)
  /-- IMUL_WIDE_N32 (R105). -/
  | imulWideN32 (f : RBin)
  /-- IMAD (R105). -/
  | imad (f : RBin)
  /-- IMIN_I32 (R105). -/
  | iminI32 (f : RBin)
  /-- IMIN_N32 (R105). -/
  | iminN32 (f : RBin)
  /-- IMAX_I32 (R105). -/
  | imaxI32 (f : RBin)
  /-- IMAX_N32 (R105). -/
  | imaxN32 (f : RBin)
  /-- IABS_I32 (R105). -/
  | iabsI32 (f : RUn)
  /-- AND (R106). -/
  | and (f : RBin)
  /-- OR (R106). -/
  | or (f : RBin)
  /-- XOR (R106). -/
  | xor (f : RBin)
  /-- SHL (R107). -/
  | shl (f : RBin)
  /-- SHR (R107). -/
  | shr (f : RBin)
  /-- SAR (R107). -/
  | sar (f : RBin)
  /-- ROT (R107). -/
  | rot (f : RBin)
  /-- POPC (R106). -/
  | popc (f : RUn)
  /-- CLZ (R106). -/
  | clz (f : RUn)
  /-- BREV (R106). -/
  | brev (f : RUn)
  /-- BFE_I32 (R108). -/
  | bfeI32 (f : RBin)
  /-- BFE_N32 (R108). -/
  | bfeN32 (f : RBin)
  /-- BFI (R108). -/
  | bfi (f : RBin)
  /-- SEL (R106). -/
  | sel (f : RBin)
  /-- MOV (R109). -/
  | mov (f : RUn)
  /-- LEA (R110). -/
  | lea (f : LeaF)
  /-- ICMP (R111). -/
  | icmp (f : CmpF)
  /-- IADD_I64 (R105). -/
  | iaddI64 (f : RBin)
  /-- ISUB_I64 (R105). -/
  | isubI64 (f : RBin)
  /-- IMUL_LO_I64 (R105). -/
  | imulLoI64 (f : RBin)
  /-- IMIN_I64 (R105). -/
  | iminI64 (f : RBin)
  /-- IMIN_N64 (R105). -/
  | iminN64 (f : RBin)
  /-- IMAX_I64 (R105). -/
  | imaxI64 (f : RBin)
  /-- IMAX_N64 (R105). -/
  | imaxN64 (f : RBin)
  /-- SHL_I64 (R107). -/
  | shlI64 (f : RBin)
  /-- SHR_N64 (R107). -/
  | shrN64 (f : RBin)
  /-- SAR_I64 (R107). -/
  | sarI64 (f : RBin)
  /-- ICMP_I64 (R111). -/
  | icmpI64 (f : CmpF)
  /-- MOV_I64 (R109). -/
  | movI64 (f : RUn)
  /-- IABS_I64 (R105). -/
  | iabsI64 (f : RUn)
  /-- MOVI (R109). -/
  | movi (f : MovF)
  /-- MOVHI (R109). -/
  | movhi (f : MovF)
  /-- IADD_IMM (R109). -/
  | iaddImm (f : ImmF)
  /-- IADD_WAVE (R112). -/
  | iaddWave (f : R3)
  /-- ISUB_WAVE (R112). -/
  | isubWave (f : R3)
  /-- IMUL_LO_WAVE (R112). -/
  | imulLoWave (f : R3)
  /-- IMUL_HI_I32_WAVE (R112). -/
  | imulHiI32Wave (f : R3)
  /-- IMUL_HI_N32_WAVE (R112). -/
  | imulHiN32Wave (f : R3)
  /-- IMUL_WIDE_I32_WAVE (R112). -/
  | imulWideI32Wave (f : R3)
  /-- IMUL_WIDE_N32_WAVE (R112). -/
  | imulWideN32Wave (f : R3)
  /-- IMAD_WAVE (R112). -/
  | imadWave (f : R3)
  /-- IMIN_I32_WAVE (R112). -/
  | iminI32Wave (f : R3)
  /-- IMIN_N32_WAVE (R112). -/
  | iminN32Wave (f : R3)
  /-- IMAX_I32_WAVE (R112). -/
  | imaxI32Wave (f : R3)
  /-- IMAX_N32_WAVE (R112). -/
  | imaxN32Wave (f : R3)
  /-- IABS_I32_WAVE (R112). -/
  | iabsI32Wave (f : RUn)
  /-- AND_WAVE (R112). -/
  | andWave (f : R3)
  /-- OR_WAVE (R112). -/
  | orWave (f : R3)
  /-- XOR_WAVE (R112). -/
  | xorWave (f : R3)
  /-- SHL_WAVE (R112). -/
  | shlWave (f : R3)
  /-- SHR_WAVE (R112). -/
  | shrWave (f : R3)
  /-- SAR_WAVE (R112). -/
  | sarWave (f : R3)
  /-- ROT_WAVE (R112). -/
  | rotWave (f : R3)
  /-- POPC_WAVE (R112). -/
  | popcWave (f : RUn)
  /-- CLZ_WAVE (R112). -/
  | clzWave (f : RUn)
  /-- BREV_WAVE (R112). -/
  | brevWave (f : RUn)
  /-- BFE_I32_WAVE (R112). -/
  | bfeI32Wave (f : R3)
  /-- BFE_N32_WAVE (R112). -/
  | bfeN32Wave (f : R3)
  /-- BFI_WAVE (R112). -/
  | bfiWave (f : R3)
  /-- SEL_WAVE (R112). -/
  | selWave (f : R3)
  /-- MOV_WAVE (R112). -/
  | movWave (f : RUn)
  /-- LEA_WAVE (R112). -/
  | leaWave (f : LeaW)
  /-- ICMP_WAVE (R112). -/
  | icmpWave (f : CmpW)
  /-- IADD_I64_WAVE (R112). -/
  | iaddI64Wave (f : R3)
  /-- ISUB_I64_WAVE (R112). -/
  | isubI64Wave (f : R3)
  /-- IMUL_LO_I64_WAVE (R112). -/
  | imulLoI64Wave (f : R3)
  /-- IMIN_I64_WAVE (R112). -/
  | iminI64Wave (f : R3)
  /-- IMIN_N64_WAVE (R112). -/
  | iminN64Wave (f : R3)
  /-- IMAX_I64_WAVE (R112). -/
  | imaxI64Wave (f : R3)
  /-- IMAX_N64_WAVE (R112). -/
  | imaxN64Wave (f : R3)
  /-- SHL_I64_WAVE (R112). -/
  | shlI64Wave (f : R3)
  /-- SHR_N64_WAVE (R112). -/
  | shrN64Wave (f : R3)
  /-- SAR_I64_WAVE (R112). -/
  | sarI64Wave (f : R3)
  /-- ICMP_I64_WAVE (R112). -/
  | icmpI64Wave (f : CmpW)
  /-- MOV_I64_WAVE (R112). -/
  | movI64Wave (f : RUn)
  /-- IABS_I64_WAVE (R112). -/
  | iabsI64Wave (f : RUn)
  /-- MOVI_WAVE (R112). -/
  | moviWave (f : MovF)
  /-- MOVHI_WAVE (R112). -/
  | movhiWave (f : MovF)
  /-- IADD_IMM_WAVE (R112). -/
  | iaddImmWave (f : ImmF)
  /-- FADD (R124). -/
  | fadd (f : FBin)
  /-- FSUB (R124). -/
  | fsub (f : FBin)
  /-- FMUL (R124). -/
  | fmul (f : FBin)
  /-- FFMA (R124). -/
  | ffma (f : FBin)
  /-- FNMA (R124). -/
  | fnma (f : FBin)
  /-- FMIN (R125). -/
  | fmin (f : FBin)
  /-- FMAX (R125). -/
  | fmax (f : FBin)
  /-- FCMP_EQ (R126). -/
  | fcmpEq (f : FBin)
  /-- FCLASS (R127). -/
  | fclass (f : FUn)
  /-- FRND (R128). -/
  | frnd (f : FrndF)
  /-- FDIV (R129). -/
  | fdiv (f : FBin)
  /-- FSQRT (R129). -/
  | fsqrt (f : FUn)
  /-- FRCP (R130). -/
  | frcp (f : FUn)
  /-- FRSQ (R130). -/
  | frsq (f : FUn)
  /-- FCMP_LT (R126). -/
  | fcmpLt (f : FBin)
  /-- FCMP_LE (R126). -/
  | fcmpLe (f : FBin)
  /-- SIN (R131). -/
  | sin (f : FUn)
  /-- COS (R131). -/
  | cos (f : FUn)
  /-- EXP2 (R131). -/
  | exp2 (f : FUn)
  /-- LOG2 (R131). -/
  | log2 (f : FUn)
  /-- CVT (R144). -/
  | cvt (f : CvtF)
  /-- QNT_HX4 (R141). -/
  | qntHx4 (f : QntF)
  /-- QNT_E4M3 (R142). -/
  | qntE4m3 (f : R3)
  /-- QNT_E5M2 (R142). -/
  | qntE5m2 (f : R3)
  /-- DQ_HX4 (R143). -/
  | dqHx4 (f : RBin)
  /-- DQ_E4M3 (R143). -/
  | dqE4m3 (f : RBin)
  /-- DQ_E5M2 (R143). -/
  | dqE5m2 (f : RBin)
  /-- SPL3 (R149). -/
  | spl3 (f : RUn)
  /-- PACK_B16 (R150). -/
  | packB16 (f : RBin)
  /-- PACK_B8 (R150). -/
  | packB8 (f : RBin)
  /-- UNPACK (R151). -/
  | unpack (f : R3)
  /-- SHFL (R159). -/
  | shfl (f : ShflF)
  /-- PSWAP (R160). -/
  | pswap (f : RUn)
  /-- BCAST (R161). -/
  | bcast (f : RBin)
  /-- BALLOT (R162). -/
  | ballot (f : RUn)
  /-- VOTE_ANY (R162). -/
  | voteAny (f : VoteF)
  /-- VOTE_ALL (R162). -/
  | voteAll (f : VoteF)
  /-- VOTE_UNI (R162). -/
  | voteUni (f : VoteF)
  /-- PPOP (R163). -/
  | ppop (f : RBin)
  /-- ISECT_LIST (R166). -/
  | isectList (f : RBin)
  /-- ISECT_BITS (R165). -/
  | isectBits (f : RBin)
  /-- WRED_ADD (R168). -/
  | wredAdd (f : FUn)
  /-- WRED_MIN (R168). -/
  | wredMin (f : FUn)
  /-- WRED_MAX (R168). -/
  | wredMax (f : FUn)
  /-- WRED_ADD_I32 (R168). -/
  | wredAddI32 (f : RUn)
  /-- WRED_ADD_I64 (R168). -/
  | wredAddI64 (f : RUn)
  /-- WRED_AND_B32 (R168). -/
  | wredAndB32 (f : RUn)
  /-- WRED_OR_B32 (R168). -/
  | wredOrB32 (f : RUn)
  /-- WRED_MIN_I32 (R168). -/
  | wredMinI32 (f : RUn)
  /-- WRED_MAX_I32 (R168). -/
  | wredMaxI32 (f : RUn)
  /-- WRED_MIN_N32 (R168). -/
  | wredMinN32 (f : RUn)
  /-- WRED_MAX_N32 (R168). -/
  | wredMaxN32 (f : RUn)
  /-- LD (R216). -/
  | ld (f : MemZ)
  /-- ST (R216). -/
  | st (f : MemZ)
  /-- LDS (R217). -/
  | lds (f : MemZ)
  /-- STS (R217). -/
  | sts (f : MemZ)
  /-- LDL (R218). -/
  | ldl (f : LelF)
  /-- STL (R218). -/
  | stl (f : LelF)
  /-- LDW (R219). -/
  | ldw (f : MemZ)
  /-- ATOM_ADD_I32 (R220). -/
  | atomAddI32 (f : MemF)
  /-- ATOM_ADD_I64 (R220). -/
  | atomAddI64 (f : MemF)
  /-- ATOM_ADD_F32 (R220). -/
  | atomAddF32 (f : MemF)
  /-- ATOM_ADD_F64 (R220). -/
  | atomAddF64 (f : MemF)
  /-- ATOM_MIN_I32 (R220). -/
  | atomMinI32 (f : MemF)
  /-- ATOM_MAX_I32 (R220). -/
  | atomMaxI32 (f : MemF)
  /-- ATOM_MIN_N32 (R220). -/
  | atomMinN32 (f : MemF)
  /-- ATOM_MAX_N32 (R220). -/
  | atomMaxN32 (f : MemF)
  /-- ATOM_AND_B32 (R220). -/
  | atomAndB32 (f : MemF)
  /-- ATOM_OR_B32 (R220). -/
  | atomOrB32 (f : MemF)
  /-- ATOM_XOR_B32 (R220). -/
  | atomXorB32 (f : MemF)
  /-- ATOM_EXCH_B32 (R220). -/
  | atomExchB32 (f : MemF)
  /-- ATOM_EXCH_B64 (R220). -/
  | atomExchB64 (f : MemF)
  /-- CAS_B32 (R223). -/
  | casB32 (f : MemF)
  /-- CAS_B64 (R223). -/
  | casB64 (f : MemF)
  /-- FENCE (R239). -/
  | fence (f : FenceF)
  /-- POLL (R224). -/
  | poll (f : MemF)
  /-- PREF (R225). -/
  | pref (f : PrefF)
  /-- CWB (R226). -/
  | cwb (f : CacheF)
  /-- CINV (R226). -/
  | cinv (f : CacheF)
  /-- LDEF (R182). -/
  | ldef (f : LdefF)
  /-- LCHAIN (R188). -/
  | lchain (f : LchainF)
  /-- LPART (R185). -/
  | lpart (f : LpartF)
  /-- LTRANS (R186). -/
  | ltrans (f : LldF)
  /-- LFLAT (R187). -/
  | lflat (f : LflatF)
  /-- LSWZ (R184). -/
  | lswz (f : LldF)
  /-- LGET (R183). -/
  | lget (f : LgetF)
  /-- LCHK (R197). -/
  | lchk (f : LgetF)
  /-- HSET (R172). -/
  | hset (f : HsetF)
  /-- TCOPY (R263). -/
  | tcopy (f : TcopyF)
  /-- GATHER (R266). -/
  | gather (f : EngF)
  /-- SCATTER (R266). -/
  | scatter (f : EngF)
  /-- MCREAD (R269). -/
  | mcread (f : EngF)
  /-- RBINIT (R272). -/
  | rbinit (f : ObjF)
  /-- RBPOP (R272). -/
  | rbpop (f : ObjF)
  /-- RBFREE (R272). -/
  | rbfree (f : ObjF)
  /-- COINIT (R260). -/
  | coinit (f : CoinitF)
  /-- COEXPECT (R261). -/
  | coexpect (f : ObjF)
  /-- COARRIVE (R261). -/
  | coarrive (f : ObjF)
  /-- CODROP (R261). -/
  | codrop (f : ObjF)
  /-- COWAIT (R262). -/
  | cowait (f : WaitF)
  /-- COTEST (R262). -/
  | cotest (f : WaitF)
  /-- TRSEND (R274). -/
  | trsend (f : EngF)
  /-- MLOOP_BF16 (R284). -/
  | mloopBf16 (f : MloopF)
  /-- MLOOP_F16 (R284). -/
  | mloopF16 (f : MloopF)
  /-- MLOOP_E4M3 (R284). -/
  | mloopE4m3 (f : MloopF)
  /-- MLOOP_E5M2 (R284). -/
  | mloopE5m2 (f : MloopF)
  /-- MLOOP_I8 (R288). -/
  | mloopI8 (f : MloopF)
  /-- MLOOP_HX4 (R284). -/
  | mloopHx4 (f : MloopF)
  /-- MLOOP_F64 (R289). -/
  | mloopF64 (f : MloopF)
  /-- MZERO (R302). -/
  | mzero (f : MzeroF)
  /-- MLDA (R304). -/
  | mlda (f : MldF)
  /-- MSTA (R304). -/
  | msta (f : MldF)
  /-- MRD (R303). -/
  | mrd (f : MmovF)
  /-- MWR (R303). -/
  | mwr (f : MmovF)
  /-- MSTAT (R301). -/
  | mstat (f : MstatF)
  /-- SPAWN (R316). -/
  | spawn (f : SpawnF)
  /-- SPAWN_TRY (R316). -/
  | spawnTry (f : SpawnF)
  /-- CLOSE (R318). -/
  | close (f : SaF)
  /-- TBSET (R320). -/
  | tbset (f : TbF)
  /-- TBCLR (R320). -/
  | tbclr (f : TbF)
  /-- TBTEST (R320). -/
  | tbtest (f : TbtF)
  /-- JOIN (R325). -/
  | join (f : SdaF)
  /-- LEAVE (R326). -/
  | leave
  /-- BAR (R327). -/
  | bar (f : SdF)
  /-- LAUNCH (R339). -/
  | launch (f : LaunchF)
  /-- VERDICT (R354). -/
  | verdict (f : SaF)
  /-- BRA (R79). -/
  | bra (f : BraF)
  /-- CALL (R80). -/
  | call (f : CallF)
  /-- RET (R80). -/
  | ret
  /-- EXIT (R88). -/
  | exit
  /-- DRAIN (R89). -/
  | drain
  /-- YIELD (R93). -/
  | yield
  /-- GIVE (R97). -/
  | give (f : GiveF)
  /-- CLAIM (R98). -/
  | claim (f : GiveF)
  /-- CLAIM_TRY (R98). -/
  | claimTry (f : ClaimTryF)
  /-- TRAP (R94). -/
  | trap (f : TrapF)
  /-- BKPT (R94). -/
  | bkpt (f : TrapF)
  /-- NOP (R64). -/
  | nop
  /-- SRD (R363). -/
  | srd (f : SrF)
  /-- SWR (R363). -/
  | swr (f : SrF)
  /-- PTEW (R380). -/
  | ptew (f : PtewF)
  /-- POOLPOP (R379). -/
  | poolpop (f : PopF)
  /-- LPINV (R381). -/
  | lpinv (f : InvF)
  /-- TLBINV (R381). -/
  | tlbinv (f : InvF)
  /-- IINV (R383). -/
  | iinv (f : InvF)
  /-- RFT (R373). -/
  | rft
  /-- PARKED_RESTOKE (R91). -/
  | parkedRestoke (wave : Nat)
  /-- VECTOR_PASS (R133). -/
  | vectorPass (quad : Nat) (pipe : Nat)
  /-- RESULT_WRITEBACK (R35). -/
  | resultWriteback (wave : Nat) (idx : Nat)
  /-- HSET_COMPLETE (R173). -/
  | hsetComplete (wave : Nat)
  /-- ENGINE_OP_START (R251). -/
  | engineOpStart (op : Nat)
  /-- ENGINE_OP_ARRIVE (R246). -/
  | engineOpArrive (op : Nat)
  /-- OBJECT_APPLY (R259). -/
  | objectApply (core : Nat) (off : Nat) (n : Nat)
  /-- COWAIT_RESULT (R262). -/
  | cowaitResult (wave : Nat)
  /-- RBPOP_RESULT (R272). -/
  | rbpopResult (wave : Nat)
  /-- MCREAD_REQUEST_ARRIVE (R270). -/
  | mcreadRequestArrive (op : Nat)
  /-- MCREAD_SESSION_TIMEOUT (R270). -/
  | mcreadSessionTimeout (sess : Nat)
  /-- MCREAD_LINE_SEND (R270). -/
  | mcreadLineSend (sess : Nat)
  /-- MCREAD_LINE_WRITE (R279). -/
  | mcreadLineWrite (op : Nat)
  /-- TILE_FETCH_PIN (R293). -/
  | tileFetchPin (op : Nat)
  /-- MATRIX_STEP_START (R296). -/
  | matrixStepStart (quad : Nat)
  /-- MATRIX_STEP_RESULT (R287). -/
  | matrixStepResult (quad : Nat)
  /-- TILE_MOVE_COMPLETE (R303). -/
  | tileMoveComplete (wave : Nat) (idx : Nat)
  /-- TILE_LOAD_STORE_COMPLETE (R304). -/
  | tileLoadStoreComplete (op : Nat)
  /-- SPAWN_ACCEPT (R317). -/
  | spawnAccept (wave : Nat)
  /-- CORD_CLOSE_APPLY (R318). -/
  | cordCloseApply (cord : Nat)
  /-- TILE_BUFFER_APPLY (R320). -/
  | tileBufferApply (n : Nat)
  /-- TASK_ENTER_CORD (R322). -/
  | taskEnterCord
  /-- CREW_OP_APPLY (R328). -/
  | crewOpApply (crew : Nat) (n : Nat)
  /-- BAR_RETURN (R332). -/
  | barReturn (wave : Nat)
  /-- CLAIM_GRANT (R98). -/
  | claimGrant (wave : Nat)
  /-- PTEW_APPLY (R380). -/
  | ptewApply (wave : Nat)
  /-- POOLPOP_COMPLETE (R379). -/
  | poolpopComplete (wave : Nat)
  /-- TRANSLATION_SWEEP_END (R381). -/
  | translationSweepEnd (wave : Nat)
  /-- IINV_SWEEP_END (R383). -/
  | iinvSweepEnd (wave : Nat)
  /-- HANDLER_ENTRY (R369). -/
  | handlerEntry (wave : Nat)
  /-- PAGE_WALK (R376). -/
  | pageWalk (core : Nat) (ctx : Nat) (quad : Nat) (lane : Nat) (ptr : Nat)
  /-- ICACHE_FILL (R383). -/
  | icacheFill (core : Nat) (ctx : Nat) (va : Nat)
  /-- MEMORY_REQUEST_APPLY (R243). -/
  | memoryRequestApply (op : Nat) (slot : Nat)
  /-- MEMORY_RESPONSE (R215). -/
  | memoryResponse (op : Nat)
  /-- STORE_ACK (R215). -/
  | storeAck (op : Nat)
  /-- POLL_REREAD (R224). -/
  | pollReread (op : Nat)
  /-- L2_FILL (R208). -/
  | l2Fill (pa : Nat)
  /-- WRITEBACK_ACK (R209). -/
  | writebackAck (pa : Nat)
  /-- HOST_WRITE_PERFORMED (R244). -/
  | hostWritePerformed (idx : Nat)
  /-- WAVE_RETIRE (R90). -/
  | waveRetire (wave : Nat)
  /-- TILE_COMMIT (R357). -/
  | tileCommit (token : Nat)
  /-- TILE_DISCARD (R358). -/
  | tileDiscard (token : Nat)
  /-- EXACT_ITEMS_ENTER (R358). -/
  | exactItemsEnter (launch : Nat)
  /-- TILE_RESERVE (R351). -/
  | tileReserve (launch : Nat)
  /-- QUEUE_DOORBELL (R338). -/
  | queueDoorbell (q : Nat) (tail : Nat)
  /-- LAUNCH_RECORD_INTAKE (R337). -/
  | launchRecordIntake (q : Nat)
  /-- BIND_RECORD_WRITE (R345). -/
  | bindRecordWrite (cord : Nat) (quad : Nat) (wslot : Nat)
  /-- WAVE_CREATE (R344). -/
  | waveCreate (entry : Nat)
  /-- QUEUE_AGEING (R346). -/
  | queueAgeing (q : Nat)
  /-- GANG_CLOSE_SET (R349). -/
  | gangCloseSet (launch : Nat) (set : Nat)
  /-- PREEMPT_SAVE (R387). -/
  | preemptSave (wave : Nat)
  /-- WAVE_RESUME (R387). -/
  | waveResume (saved : Nat) (quad : Nat) (wslot : Nat)
  /-- LAUNCH_END (R341). -/
  | launchEnd (launch : Nat)
  /-- WATCHDOG_LIMIT (R388). -/
  | watchdogLimit (wave : Nat)
  /-- CREATE_CONTEXT (R399). -/
  | createContext (port : Nat)
  /-- DESTROY_CONTEXT (R399). -/
  | destroyContext (port : Nat)
  /-- SET_CONTEXT_ROOTS (R399). -/
  | setContextRoots (port : Nat)
  /-- WRITE_REGION_BOUNDS (R375). -/
  | writeRegionBounds (port : Nat)
  /-- ADD_POOL_FRAMES (R379). -/
  | addPoolFrames (port : Nat)
  /-- GRANT_TB_WINDOW (R319). -/
  | grantTbWindow (port : Nat)
  /-- SET_PRIORITY_CAP (R399). -/
  | setPriorityCap (port : Nat)
  /-- SET_AGE (R346). -/
  | setAge (port : Nat)
  /-- SET_GANGWAIT (R349). -/
  | setGangwait (port : Nat)
  /-- INSTALL_KEY (R407). -/
  | installKey (port : Nat)
  /-- WRITE_IMPORT_SLOT (R402). -/
  | writeImportSlot (port : Nat)
  /-- WRITE_IMPORT_ENTRY (R403). -/
  | writeImportEntry (port : Nat)
  /-- CONFIGURE_SPAN (R405). -/
  | configureSpan (port : Nat)
  /-- TERMINATE_LAUNCH (R397). -/
  | terminateLaunch (port : Nat)
  /-- RESUME_WAVE (R374). -/
  | resumeWave (port : Nat)
  /-- SET_ROUTE (R404). -/
  | setRoute (port : Nat)
  /-- SET_PACKAGE_NUMBER (R399). -/
  | setPackageNumber (port : Nat)
  /-- QCFG_WRITE (R394). -/
  | qcfgWrite (q : Nat) (v : Nat)
  /-- SEMAPHORE_WRITE (R400). -/
  | semaphoreWrite (port : Nat) (n : Nat) (v : Nat)
  /-- PLIM_WATTS_WRITE (R412). -/
  | plimWattsWrite (port : Nat) (v : Nat)
  /-- RECOVERY_APPEND (R410). -/
  | recoveryAppend (port : Nat) (v : Nat)
  /-- RECOVERY_CHECK (R410). -/
  | recoveryCheck (port : Nat) (v : Nat)
  /-- CONTROL_WINDOW_WRITE (R393). -/
  | controlWindowWrite (port : Nat) (off : Nat) (size : Nat) (v : Nat)
  /-- POWER_ON (R409). -/
  | powerOn
  /-- FUNCTION_READY (R408). -/
  | functionReady (bit : Nat)
  /-- FLIT_RECEIVE (R401). -/
  | flitReceive (link : Nat) (flit : FlitIn)
  /-- IMPORT_INGRESS (R403). -/
  | importIngress (req : PeerReq)
  /-- FABRIC_TIMEOUT (R404). -/
  | fabricTimeout (op : Nat)
  /-- CORRECTED_ERROR (R390). -/
  | correctedError (kind : Nat)
  /-- UNCORRECTABLE_SECTOR_ERROR (R390). -/
  | uncorrectableSectorError (pa : Nat)
  /-- REGISTER_ARRAY_ERROR (R390). -/
  | registerArrayError (wave : Nat)
  /-- SCRATCHPAD_ERROR (R390). -/
  | scratchpadError (core : Nat) (off : Nat)
  /-- CACHE_ARRAY_ERROR (R390). -/
  | cacheArrayError (core : Nat)
  /-- SLOT_TABLE_ERROR (R390). -/
  | slotTableError
  /-- POWER_LIMIT_EXCEEDED (R412). -/
  | powerLimitExceeded
  /-- THERMAL_THROTTLE (R412). -/
  | thermalThrottle
  /-- THERMAL_SHUTDOWN (R412). -/
  | thermalShutdown
  /-- MODULE_POWER_OFF (R409). -/
  | modulePowerOff
  /-- UNKNOWN_COMMAND_CODE (R398). -/
  | unknownCommandCode (port : Nat)
deriving DecidableEq, Repr

end Sys2Proof
end

