-- ==== Sys2Proof/WellFormed.lean ====
section
/-!
DEFINITION. Which instructions an encoding can stand for: the encoded values that checks 2, 5 and 6 of R65 accept. A
field's width is in its type; what is said here is what the width leaves open.
-/
namespace Sys2Proof

/-- SC within a range of scopes (R61). -/
def okScope (sc : BitVec 3) (lo hi : Nat) : Bool := decide (lo ≤ sc.toNat) && decide (sc.toNat ≤ hi)

/-- Q is relaxed with scope 0, or the one ordering `q1` with a scope of 1 to `hi` (R61, R212). -/
def okQSC (q : BitVec 2) (sc : BitVec 3) (q1 hi : Nat) : Bool :=
  (decide (q.toNat = 0) && decide (sc.toNat = 0)) || (decide (q.toNat = q1) && okScope sc 1 hi)

/-- IMM9 of GIVE, CLAIM and CLAIM.TRY: a multiple of 8 from 8 to 96 (R78). -/
def okRegCount (imm : BitVec 9) : Bool :=
  decide (imm.toNat % 8 = 0) && decide (0 < imm.toNat) && decide (imm.toNat ≤ 96)

/-- UNPACK's control: a size of 0 to 2 in [6:5] and an index below 8, 4 or 2 (R151, R152). -/
def okUnpack (b : BitVec 7) : Bool :=
  match b.toNat / 32 with
  | 0 => decide (b.toNat % 16 < 8)
  | 1 => decide (b.toNat % 16 < 4)
  | 2 => decide (b.toNat % 16 < 2)
  | _ => false

/-- The special-register numbers of the table of R364. -/
def srnAssigned (n : Nat) : Bool :=
  decide (n ≤ 0x00A) || (decide (0x010 ≤ n) && decide (n ≤ 0x014)) || (decide (0x020 ≤ n) && decide (n ≤ 0x029))
    || (decide (0x030 ≤ n) && decide (n ≤ 0x033)) || (decide (0x200 ≤ n) && decide (n ≤ 0x3FF))

/-- The encoded values of an instruction are valid (checks 2, 5 and 6 of R65); for an event, its operands name a place
that exists on the larger part. -/
def Instr.wf : Instr → Bool
  | .clause _ => true
  | .iadd _ => true
  | .isub _ => true
  | .imulLo _ => true
  | .imulHiI32 _ => true
  | .imulHiN32 _ => true
  | .imulWideI32 _ => true
  | .imulWideN32 _ => true
  | .imad _ => true
  | .iminI32 _ => true
  | .iminN32 _ => true
  | .imaxI32 _ => true
  | .imaxN32 _ => true
  | .iabsI32 _ => true
  | .and _ => true
  | .or _ => true
  | .xor _ => true
  | .shl _ => true
  | .shr _ => true
  | .sar _ => true
  | .rot _ => true
  | .popc _ => true
  | .clz _ => true
  | .brev _ => true
  | .bfeI32 _ => true
  | .bfeN32 _ => true
  | .bfi _ => true
  | .sel _ => true
  | .mov _ => true
  | .lea _ => true
  | .icmp f => decide (f.n.toNat ≤ 5)
  | .iaddI64 _ => true
  | .isubI64 _ => true
  | .imulLoI64 _ => true
  | .iminI64 _ => true
  | .iminN64 _ => true
  | .imaxI64 _ => true
  | .imaxN64 _ => true
  | .shlI64 _ => true
  | .shrN64 _ => true
  | .sarI64 _ => true
  | .icmpI64 f => decide (f.n.toNat ≤ 5)
  | .movI64 _ => true
  | .iabsI64 _ => true
  | .movi _ => true
  | .movhi _ => true
  | .iaddImm _ => true
  | .iaddWave _ => true
  | .isubWave _ => true
  | .imulLoWave _ => true
  | .imulHiI32Wave _ => true
  | .imulHiN32Wave _ => true
  | .imulWideI32Wave _ => true
  | .imulWideN32Wave _ => true
  | .imadWave _ => true
  | .iminI32Wave _ => true
  | .iminN32Wave _ => true
  | .imaxI32Wave _ => true
  | .imaxN32Wave _ => true
  | .iabsI32Wave _ => true
  | .andWave _ => true
  | .orWave _ => true
  | .xorWave _ => true
  | .shlWave _ => true
  | .shrWave _ => true
  | .sarWave _ => true
  | .rotWave _ => true
  | .popcWave _ => true
  | .clzWave _ => true
  | .brevWave _ => true
  | .bfeI32Wave _ => true
  | .bfeN32Wave _ => true
  | .bfiWave _ => true
  | .selWave _ => true
  | .movWave _ => true
  | .leaWave _ => true
  | .icmpWave f => decide (f.n.toNat ≤ 5)
  | .iaddI64Wave _ => true
  | .isubI64Wave _ => true
  | .imulLoI64Wave _ => true
  | .iminI64Wave _ => true
  | .iminN64Wave _ => true
  | .imaxI64Wave _ => true
  | .imaxN64Wave _ => true
  | .shlI64Wave _ => true
  | .shrN64Wave _ => true
  | .sarI64Wave _ => true
  | .icmpI64Wave f => decide (f.n.toNat ≤ 5)
  | .movI64Wave _ => true
  | .iabsI64Wave _ => true
  | .moviWave _ => true
  | .movhiWave _ => true
  | .iaddImmWave _ => true
  | .fadd _ => true
  | .fsub _ => true
  | .fmul _ => true
  | .ffma _ => true
  | .fnma _ => true
  | .fmin _ => true
  | .fmax _ => true
  | .fcmpEq _ => true
  | .fclass _ => true
  | .frnd f => decide (f.mode.toNat ≤ 4)
  | .fdiv _ => true
  | .fsqrt _ => true
  | .frcp _ => true
  | .frsq _ => true
  | .fcmpLt _ => true
  | .fcmpLe _ => true
  | .sin _ => true
  | .cos _ => true
  | .exp2 _ => true
  | .log2 _ => true
  | .cvt f => decide (f.dst.toNat ≠ 6) && decide (f.src.toNat ≠ 6)
  | .qntHx4 f => decide (f.n.toNat ≤ 4) && decide (f.b ≠ f.d)
  | .qntE4m3 f => decide (f.b ≠ f.d)
  | .qntE5m2 f => decide (f.b ≠ f.d)
  | .dqHx4 _ => true
  | .dqE4m3 _ => true
  | .dqE5m2 _ => true
  | .spl3 _ => true
  | .packB16 _ => true
  | .packB8 _ => true
  | .unpack f => okUnpack f.b
  | .shfl _ => true
  | .pswap _ => true
  | .bcast f => f.x || decide (0x70 ≤ f.b.toNat)
  | .ballot _ => true
  | .voteAny _ => true
  | .voteAll _ => true
  | .voteUni _ => true
  | .ppop _ => true
  | .isectList _ => true
  | .isectBits _ => true
  | .wredAdd _ => true
  | .wredMin _ => true
  | .wredMax _ => true
  | .wredAddI32 _ => true
  | .wredAddI64 _ => true
  | .wredAndB32 _ => true
  | .wredOrB32 _ => true
  | .wredMinI32 _ => true
  | .wredMaxI32 _ => true
  | .wredMinN32 _ => true
  | .wredMaxN32 _ => true
  | .ld f => decide (f.z.toNat ≤ 6) && decide (f.h.toNat ≤ 2) && okQSC f.q f.sc 1 4
  | .st f => decide (f.z.toNat ≤ 4) && decide (f.h.toNat ≤ 2) && okQSC f.q f.sc 2 4
  | .lds f => decide (f.z.toNat ≤ 6) && decide (f.h.toNat ≤ 2) && okQSC f.q f.sc 1 2
  | .sts f => decide (f.z.toNat ≤ 4) && decide (f.h.toNat ≤ 2) && okQSC f.q f.sc 2 2
  | .ldl f => decide (f.h.toNat ≤ 2)
  | .stl f => decide (f.h.toNat ≤ 2)
  | .ldw f => decide (2 ≤ f.z.toNat) && decide (f.z.toNat ≤ 5) && decide (f.h.toNat ≤ 2) && okQSC f.q f.sc 1 4
  | .atomAddI32 f => decide (f.h.toNat ≤ 2) && okScope f.sc 1 4
  | .atomAddI64 f => decide (f.h.toNat ≤ 2) && okScope f.sc 1 4
  | .atomAddF32 f => decide (f.h.toNat ≤ 2) && okScope f.sc 1 4
  | .atomAddF64 f => decide (f.h.toNat ≤ 2) && okScope f.sc 1 4
  | .atomMinI32 f => decide (f.h.toNat ≤ 2) && okScope f.sc 1 4
  | .atomMaxI32 f => decide (f.h.toNat ≤ 2) && okScope f.sc 1 4
  | .atomMinN32 f => decide (f.h.toNat ≤ 2) && okScope f.sc 1 4
  | .atomMaxN32 f => decide (f.h.toNat ≤ 2) && okScope f.sc 1 4
  | .atomAndB32 f => decide (f.h.toNat ≤ 2) && okScope f.sc 1 4
  | .atomOrB32 f => decide (f.h.toNat ≤ 2) && okScope f.sc 1 4
  | .atomXorB32 f => decide (f.h.toNat ≤ 2) && okScope f.sc 1 4
  | .atomExchB32 f => decide (f.h.toNat ≤ 2) && okScope f.sc 1 4
  | .atomExchB64 f => decide (f.h.toNat ≤ 2) && okScope f.sc 1 4
  | .casB32 f => decide (f.h.toNat ≤ 2) && okScope f.sc 1 4
  | .casB64 f => decide (f.h.toNat ≤ 2) && okScope f.sc 1 4
  | .fence f => okScope f.sc 0 4
  | .poll f => decide (f.h.toNat ≤ 2) && okQSC f.q f.sc 1 4
  | .pref f => decide (f.h.toNat ≤ 2)
  | .cwb f => okScope f.sc 3 4
  | .cinv f => okScope f.sc 3 4
  | .ldef f => decide (f.s.toNat ≤ 51)
  | .lchain _ => true
  | .lpart f => decide (f.k.toNat % 8 ≤ 5)
  | .ltrans _ => true
  | .lflat f => decide (f.k.toNat ≤ 4)
  | .lswz _ => true
  | .lget f => decide (f.k.toNat ≤ 13)
  | .lchk f => decide (f.k.toNat ≤ 5)
  | .hset f => decide (f.s.toNat ≤ 55)
  | .tcopy f => decide (f.m.toNat ≤ 2) && decide (f.s.toNat + 2 ≤ 64)
  | .gather f => decide (f.s.toNat + 4 ≤ 64)
  | .scatter f => decide (f.s.toNat + 4 ≤ 64)
  | .mcread f => decide (f.s.toNat + 2 ≤ 64)
  | .rbinit f => decide (f.s.toNat + 3 ≤ 64)
  | .rbpop f => decide (f.s.toNat + 2 ≤ 64)
  | .rbfree f => decide (f.s.toNat + 1 ≤ 64)
  | .coinit f => decide (f.s.toNat + 2 ≤ 64)
  | .coexpect f => decide (f.s.toNat + 2 ≤ 64)
  | .coarrive f => decide (f.s.toNat + 2 ≤ 64)
  | .codrop f => decide (f.s.toNat + 1 ≤ 64)
  | .cowait f => decide (f.s.toNat + 3 ≤ 64)
  | .cotest f => decide (f.s.toNat + 3 ≤ 64)
  | .trsend f => decide (f.s.toNat + 1 ≤ 64)
  | .mloopBf16 f => (f.x || !f.rb)
  | .mloopF16 f => (f.x || !f.rb)
  | .mloopE4m3 f => (f.x || !f.rb)
  | .mloopE5m2 f => (f.x || !f.rb)
  | .mloopI8 f => (f.x || !f.rb)
  | .mloopHx4 f => (f.x || !f.rb)
  | .mloopF64 f => (f.x || !f.rb)
  | .mzero _ => true
  | .mlda _ => true
  | .msta _ => true
  | .mrd _ => true
  | .mwr _ => true
  | .mstat _ => true
  | .spawn f => decide (f.n.toNat ≤ 16) && decide (f.sa.toNat + 4 + f.n.toNat ≤ 64)
  | .spawnTry f => decide (f.n.toNat ≤ 16) && decide (f.sa.toNat + 4 + f.n.toNat ≤ 64)
  | .close _ => true
  | .tbset _ => true
  | .tbclr _ => true
  | .tbtest _ => true
  | .join _ => true
  | .leave => true
  | .bar _ => true
  | .launch _ => true
  | .verdict _ => true
  | .bra f => decide (f.cond.toNat ≤ 6) && (decide (f.cond.toNat = 1) || decide (f.cond.toNat = 2) || decide (f.qp.toNat = 0))
  | .call _ => true
  | .ret => true
  | .exit => true
  | .drain => true
  | .yield => true
  | .give f => okRegCount f.imm
  | .claim f => okRegCount f.imm
  | .claimTry f => okRegCount f.imm
  | .trap _ => true
  | .bkpt _ => true
  | .nop => true
  | .srd f => srnAssigned f.srn.toNat
  | .swr f => srnAssigned f.srn.toNat
  | .ptew f => decide (f.lvl.toNat ≠ 0) && decide (f.sa.toNat + 4 ≤ 64)
  | .poolpop _ => true
  | .lpinv f => decide (f.scope.toNat ≠ 3)
  | .tlbinv f => decide (f.scope.toNat = 1) || decide (f.scope.toNat = 2)
  | .iinv f => decide (f.scope.toNat ≠ 3) && decide (f.sa.toNat + 3 ≤ 64)
  | .rft => true
  | .parkedRestoke _ => true
  | .vectorPass quad pipe => decide (quad < 768) && decide (pipe < 6)
  | .resultWriteback _ _ => true
  | .hsetComplete _ => true
  | .engineOpStart _ => true
  | .engineOpArrive _ => true
  | .objectApply core _ n => decide (core < 192) && decide (0 < n)
  | .cowaitResult _ => true
  | .rbpopResult _ => true
  | .mcreadRequestArrive _ => true
  | .mcreadSessionTimeout _ => true
  | .mcreadLineSend _ => true
  | .mcreadLineWrite _ => true
  | .tileFetchPin _ => true
  | .matrixStepStart quad => decide (quad < 768)
  | .matrixStepResult quad => decide (quad < 768)
  | .tileMoveComplete _ _ => true
  | .tileLoadStoreComplete _ => true
  | .spawnAccept _ => true
  | .cordCloseApply _ => true
  | .tileBufferApply n => decide (0 < n)
  | .taskEnterCord => true
  | .crewOpApply _ n => decide (0 < n)
  | .barReturn _ => true
  | .claimGrant _ => true
  | .ptewApply _ => true
  | .poolpopComplete _ => true
  | .translationSweepEnd _ => true
  | .iinvSweepEnd _ => true
  | .handlerEntry _ => true
  | .pageWalk _ _ _ _ _ => true
  | .icacheFill _ _ _ => true
  | .memoryRequestApply _ _ => true
  | .memoryResponse _ => true
  | .storeAck _ => true
  | .pollReread _ => true
  | .l2Fill _ => true
  | .writebackAck _ => true
  | .hostWritePerformed _ => true
  | .waveRetire _ => true
  | .tileCommit _ => true
  | .tileDiscard _ => true
  | .exactItemsEnter _ => true
  | .tileReserve _ => true
  | .queueDoorbell q _ => decide (q < 64)
  | .launchRecordIntake q => decide (q < 72)
  | .bindRecordWrite _ _ _ => true
  | .waveCreate _ => true
  | .queueAgeing q => decide (q < 72)
  | .gangCloseSet _ _ => true
  | .preemptSave _ => true
  | .waveResume _ _ _ => true
  | .launchEnd _ => true
  | .watchdogLimit _ => true
  | .createContext port => decide (port < 2)
  | .destroyContext port => decide (port < 2)
  | .setContextRoots port => decide (port < 2)
  | .writeRegionBounds port => decide (port < 2)
  | .addPoolFrames port => decide (port < 2)
  | .grantTbWindow port => decide (port < 2)
  | .setPriorityCap port => decide (port < 2)
  | .setAge port => decide (port < 2)
  | .setGangwait port => decide (port < 2)
  | .installKey port => decide (port < 2)
  | .writeImportSlot port => decide (port < 2)
  | .writeImportEntry port => decide (port < 2)
  | .configureSpan port => decide (port < 2)
  | .terminateLaunch port => decide (port < 2)
  | .resumeWave port => decide (port < 2)
  | .setRoute port => decide (port < 2)
  | .setPackageNumber port => decide (port < 2)
  | .qcfgWrite q _ => decide (q < 64)
  | .semaphoreWrite port n _ => decide (port < 2) && decide (n < 16)
  | .plimWattsWrite port _ => decide (port < 2)
  | .recoveryAppend port _ => decide (port < 2)
  | .recoveryCheck port _ => decide (port < 2)
  | .controlWindowWrite port _ size _ => decide (port < 2) && (decide (size = 1) || decide (size = 2) || decide (size = 4) || decide (size = 8))
  | .powerOn => true
  | .functionReady bit => decide (bit < 32)
  | .flitReceive link _ => decide (link < 16)
  | .importIngress _ => true
  | .fabricTimeout _ => true
  | .correctedError _ => true
  | .uncorrectableSectorError _ => true
  | .registerArrayError _ => true
  | .scratchpadError core _ => decide (core < 192)
  | .cacheArrayError core => decide (core < 192)
  | .slotTableError => true
  | .powerLimitExceeded => true
  | .thermalThrottle => true
  | .thermalShutdown => true
  | .modulePowerOff => true
  | .unknownCommandCode port => decide (port < 2)

/-- `WellFormed i`: some instruction word stands for `i` (or, for an event, its operands exist). -/
abbrev WellFormed (i : Instr) : Prop := i.wf = true

end Sys2Proof
end

