-- ==== Sys2Proof/Decode.lean ====
section
/-!
DEFINITION. Decoding and encoding of instruction words (R43 to R63, R65, R66). `decodeWord` is total: a word is an
instruction or is rejected under a name that carries its cause code. The encoder stands after it.
-/
namespace Sys2Proof

/-- Why a word is rejected at decode by the encoding alone (checks 2, 5 and 6 of R65). -/
inductive Reject where
  /-- Unassigned OP value. -/
  | unassigned
  /-- Reserved D field nonzero. -/
  | reservedD
  /-- Reserved A field, or LA, SA or first-source field, nonzero. -/
  | reservedA
  /-- Reserved B field, or LB, K, OPT or IMM9 bits, nonzero. -/
  | reservedB
  /-- Reserved X, RB or FS bit nonzero. -/
  | reservedX
  /-- Other reserved bits of the format nonzero. -/
  | reservedOther
  /-- Invalid encoded value. -/
  | badValue
deriving DecidableEq, Repr

/-- The cause code of R66. -/
def Reject.code : Reject → Nat
  | .unassigned => 0x01
  | .reservedD => 0x02
  | .reservedA => 0x03
  | .reservedB => 0x04
  | .reservedX => 0x05
  | .reservedOther => 0x06
  | .badValue => 0x0B

/-- The first reserved field that is not zero. -/
def firstReserved (w : Word) : List (Nat × Nat × Reject) → Option Reject
  | [] => none
  | (lo, n, r) :: t => if w.toNat / 2 ^ lo % 2 ^ n = 0 then firstReserved w t else some r

/-- Checks 5 and 6 of R65 on the instruction that the fields name. -/
def accept (w : Word) (res : List (Nat × Nat × Reject)) (i : Instr) : Except Reject Instr :=
  match firstReserved w res with
  | some r => .error r
  | none => if i.wf then .ok i else .error .badValue

/-- OP, bits [30:22] (R43). -/
def opOf (w : Word) : Nat := w.toNat / 2 ^ 22 % 512

/-- The chain bit C (R28). -/
def chainBit (w : Word) : Bool := bitAt w 31

/-- The fields of a word of form `ClauseF`. -/
def getClauseF (w : Word) : ClauseF :=
  { wait := fld w 10 12, seta := fld w 6 4, setb := fld w 2 4, stk := bitAt w 1, yld := bitAt w 0 }

/-- The fields of a word of form `RBin`. -/
def getRBin (w : Word) : RBin :=
  { d := fld w 15 7, a := fld w 8 7, b := fld w 1 7, x := bitAt w 0 }

/-- The fields of a word of form `RUn`. -/
def getRUn (w : Word) : RUn :=
  { d := fld w 15 7, a := fld w 8 7 }

/-- The fields of a word of form `LeaF`. -/
def getLeaF (w : Word) : LeaF :=
  { sh := fld w 22 2, d := fld w 15 7, a := fld w 8 7, b := fld w 1 7, x := bitAt w 0 }

/-- The fields of a word of form `CmpF`. -/
def getCmpF (w : Word) : CmpF :=
  { n := fld w 22 3, d := fld w 15 7, a := fld w 8 7, b := fld w 1 7, x := bitAt w 0 }

/-- The fields of a MOVI or MOVHI word; IMM16 is OP[0] : IMM15 (R44). -/
def getMovF (w : Word) : MovF :=
  { imm := BitVec.ofNat 16 (w.toNat / 2 ^ 22 % 2 * 2 ^ 15 + w.toNat % 2 ^ 15), d := fld w 15 7 }

/-- The fields of a word of form `ImmF`. -/
def getImmF (w : Word) : ImmF :=
  { d := fld w 15 7, imm := fld w 0 15 }

/-- The fields of a word of form `R3`. -/
def getR3 (w : Word) : R3 :=
  { d := fld w 15 7, a := fld w 8 7, b := fld w 1 7 }

/-- The fields of a word of form `LeaW`. -/
def getLeaW (w : Word) : LeaW :=
  { sh := fld w 22 2, d := fld w 15 7, a := fld w 8 7, b := fld w 1 7 }

/-- The fields of a word of form `CmpW`. -/
def getCmpW (w : Word) : CmpW :=
  { n := fld w 22 3, p := fld w 15 3, a := fld w 8 7, b := fld w 1 7 }

/-- The fields of a word of form `FBin`. -/
def getFBin (w : Word) : FBin :=
  { t := fld w 22 2, d := fld w 15 7, a := fld w 8 7, b := fld w 1 7, x := bitAt w 0 }

/-- The fields of a word of form `FUn`. -/
def getFUn (w : Word) : FUn :=
  { t := fld w 22 2, d := fld w 15 7, a := fld w 8 7 }

/-- The fields of a word of form `FrndF`. -/
def getFrndF (w : Word) : FrndF :=
  { t := fld w 22 2, d := fld w 15 7, a := fld w 8 7, mode := fld w 1 7 }

/-- The fields of a word of form `CvtF`. -/
def getCvtF (w : Word) : CvtF :=
  { dst := fld w 22 4, d := fld w 15 7, a := fld w 8 7, src := fld w 1 4, sat := bitAt w 0 }

/-- The fields of a word of form `QntF`. -/
def getQntF (w : Word) : QntF :=
  { n := fld w 22 3, d := fld w 15 7, a := fld w 8 7, b := fld w 1 7 }

/-- The fields of a word of form `ShflF`. -/
def getShflF (w : Word) : ShflF :=
  { m := fld w 22 2, d := fld w 15 7, a := fld w 8 7, b := fld w 1 7, x := bitAt w 0 }

/-- The fields of a word of form `VoteF`. -/
def getVoteF (w : Word) : VoteF :=
  { p := fld w 15 3, a := fld w 8 7 }

/-- The fields of a word of form `MemZ`. -/
def getMemZ (w : Word) : MemZ :=
  { z := fld w 22 3, d := fld w 15 7, a := fld w 8 7, h := fld w 6 2, q := fld w 4 2, sc := fld w 1 3, fs := bitAt w 0 }

/-- The fields of a word of form `LelF`. -/
def getLelF (w : Word) : LelF :=
  { d := fld w 15 7, a := fld w 8 7, l := fld w 4 4, h := fld w 2 2, fs := bitAt w 1, x := bitAt w 0 }

/-- The fields of a word of form `MemF`. -/
def getMemF (w : Word) : MemF :=
  { d := fld w 15 7, a := fld w 8 7, h := fld w 6 2, q := fld w 4 2, sc := fld w 1 3, fs := bitAt w 0 }

/-- The fields of a word of form `FenceF`. -/
def getFenceF (w : Word) : FenceF :=
  { q := fld w 4 2, sc := fld w 1 3 }

/-- The fields of a word of form `PrefF`. -/
def getPrefF (w : Word) : PrefF :=
  { a := fld w 8 7, h := fld w 6 2 }

/-- The fields of a word of form `CacheF`. -/
def getCacheF (w : Word) : CacheF :=
  { a := fld w 8 7, sc := fld w 1 3, fs := bitAt w 0 }

/-- The fields of a word of form `LdefF`. -/
def getLdefF (w : Word) : LdefF :=
  { ld := fld w 18 4, s := fld w 4 6 }

/-- The fields of a word of form `LchainF`. -/
def getLchainF (w : Word) : LchainF :=
  { ld := fld w 18 4, la := fld w 14 4, lb := fld w 10 4 }

/-- The fields of a word of form `LpartF`. -/
def getLpartF (w : Word) : LpartF :=
  { ld := fld w 18 4, la := fld w 14 4, s := fld w 4 6, k := fld w 0 4 }

/-- The fields of a word of form `LldF`. -/
def getLldF (w : Word) : LldF :=
  { ld := fld w 18 4, la := fld w 14 4, s := fld w 4 6 }

/-- The fields of a word of form `LflatF`. -/
def getLflatF (w : Word) : LflatF :=
  { ld := fld w 18 4, la := fld w 14 4, k := fld w 0 4 }

/-- The fields of a word of form `LgetF`. -/
def getLgetF (w : Word) : LgetF :=
  { la := fld w 14 4, s := fld w 4 6, k := fld w 0 4 }

/-- The fields of a word of form `HsetF`. -/
def getHsetF (w : Word) : HsetF :=
  { s := fld w 4 6 }

/-- The fields of a word of form `TcopyF`. -/
def getTcopyF (w : Word) : TcopyF :=
  { ld := fld w 18 4, la := fld w 14 4, s := fld w 8 6, e := fld w 6 2, sat := bitAt w 5, m := fld w 3 2, fp := bitAt w 2, fs := bitAt w 0 }

/-- The fields of a word of form `EngF`. -/
def getEngF (w : Word) : EngF :=
  { ld := fld w 18 4, la := fld w 14 4, s := fld w 8 6, e := fld w 6 2, fs := bitAt w 0 }

/-- The fields of a word of form `ObjF`. -/
def getObjF (w : Word) : ObjF :=
  { s := fld w 8 6, fs := bitAt w 0 }

/-- The fields of a word of form `CoinitF`. -/
def getCoinitF (w : Word) : CoinitF :=
  { s := fld w 8 6, u := bitAt w 1, fs := bitAt w 0 }

/-- The fields of a word of form `WaitF`. -/
def getWaitF (w : Word) : WaitF :=
  { s := fld w 8 6 }

/-- The fields of a word of form `MloopF`. -/
def getMloopF (w : Word) : MloopF :=
  { t := fld w 17 5, la := fld w 13 4, lb := fld w 9 4, s := fld w 3 6, rb := bitAt w 2, fs := bitAt w 1, x := bitAt w 0 }

/-- The fields of a word of form `MzeroF`. -/
def getMzeroF (w : Word) : MzeroF :=
  { t := fld w 17 5 }

/-- The fields of a word of form `MldF`. -/
def getMldF (w : Word) : MldF :=
  { t := fld w 17 5, la := fld w 13 4, fs := bitAt w 1 }

/-- The fields of a word of form `MmovF`. -/
def getMmovF (w : Word) : MmovF :=
  { t := fld w 17 5, v := fld w 10 7, fs := bitAt w 1 }

/-- The fields of a word of form `MstatF`. -/
def getMstatF (w : Word) : MstatF :=
  { t := fld w 17 5, s := fld w 3 6 }

/-- The fields of a word of form `SpawnF`. -/
def getSpawnF (w : Word) : SpawnF :=
  { sd := fld w 16 6, sa := fld w 10 6, n := fld w 1 5, fs := bitAt w 0 }

/-- The fields of a word of form `SaF`. -/
def getSaF (w : Word) : SaF :=
  { sa := fld w 10 6 }

/-- The fields of a word of form `TbF`. -/
def getTbF (w : Word) : TbF :=
  { sd := fld w 16 6, sa := fld w 10 6, n := fld w 1 4, fs := bitAt w 0 }

/-- The fields of a word of form `TbtF`. -/
def getTbtF (w : Word) : TbtF :=
  { sd := fld w 16 6, sa := fld w 10 6, n := fld w 1 4 }

/-- The fields of a word of form `SdaF`. -/
def getSdaF (w : Word) : SdaF :=
  { sd := fld w 16 6, sa := fld w 10 6 }

/-- The fields of a word of form `SdF`. -/
def getSdF (w : Word) : SdF :=
  { sd := fld w 16 6 }

/-- The fields of a word of form `LaunchF`. -/
def getLaunchF (w : Word) : LaunchF :=
  { sd := fld w 16 6, sa := fld w 10 6, fs := bitAt w 0 }

/-- The fields of a word of form `BraF`. -/
def getBraF (w : Word) : BraF :=
  { cond := fld w 18 4, qp := fld w 15 3, off := fld w 0 15 }

/-- The fields of a word of form `CallF`. -/
def getCallF (w : Word) : CallF :=
  { off := fld w 0 15 }

/-- The fields of a word of form `GiveF`. -/
def getGiveF (w : Word) : GiveF :=
  { imm := fld w 1 9 }

/-- The fields of a word of form `ClaimTryF`. -/
def getClaimTryF (w : Word) : ClaimTryF :=
  { sd := fld w 16 6, imm := fld w 1 9 }

/-- The fields of a word of form `TrapF`. -/
def getTrapF (w : Word) : TrapF :=
  { code := fld w 0 15 }

/-- The fields of a word of form `SrF`. -/
def getSrF (w : Word) : SrF :=
  { s := fld w 16 6, srn := fld w 4 12 }

/-- The fields of a word of form `PtewF`. -/
def getPtewF (w : Word) : PtewF :=
  { sd := fld w 16 6, sa := fld w 10 6, force := bitAt w 4, ret := bitAt w 3, lvl := fld w 1 2, fs := bitAt w 0 }

/-- The fields of a word of form `PopF`. -/
def getPopF (w : Word) : PopF :=
  { sd := fld w 16 6, fs := bitAt w 0 }

/-- The fields of a word of form `InvF`. -/
def getInvF (w : Word) : InvF :=
  { sa := fld w 10 6, all := bitAt w 3, scope := fld w 1 2, fs := bitAt w 0 }

/-- Group 000 of the opcode map: the low six bits of OP (R55 to R63). -/
def decodeG0 (w : Word) : Nat → Except Reject Instr
  | 0 => accept w [] (.iadd (getRBin w))
  | 1 => accept w [] (.isub (getRBin w))
  | 2 => accept w [] (.imulLo (getRBin w))
  | 3 => accept w [] (.imulHiI32 (getRBin w))
  | 4 => accept w [] (.imulHiN32 (getRBin w))
  | 5 => accept w [] (.imulWideI32 (getRBin w))
  | 6 => accept w [] (.imulWideN32 (getRBin w))
  | 7 => accept w [] (.imad (getRBin w))
  | 8 => accept w [] (.iminI32 (getRBin w))
  | 9 => accept w [] (.iminN32 (getRBin w))
  | 10 => accept w [] (.imaxI32 (getRBin w))
  | 11 => accept w [] (.imaxN32 (getRBin w))
  | 12 => accept w [(1, 7, .reservedB), (0, 1, .reservedX)] (.iabsI32 (getRUn w))
  | 13 => accept w [] (.and (getRBin w))
  | 14 => accept w [] (.or (getRBin w))
  | 15 => accept w [] (.xor (getRBin w))
  | 16 => accept w [] (.shl (getRBin w))
  | 17 => accept w [] (.shr (getRBin w))
  | 18 => accept w [] (.sar (getRBin w))
  | 19 => accept w [] (.rot (getRBin w))
  | 20 => accept w [(1, 7, .reservedB), (0, 1, .reservedX)] (.popc (getRUn w))
  | 21 => accept w [(1, 7, .reservedB), (0, 1, .reservedX)] (.clz (getRUn w))
  | 22 => accept w [(1, 7, .reservedB), (0, 1, .reservedX)] (.brev (getRUn w))
  | 23 => accept w [] (.bfeI32 (getRBin w))
  | 24 => accept w [] (.bfeN32 (getRBin w))
  | 25 => accept w [] (.bfi (getRBin w))
  | 26 => accept w [] (.sel (getRBin w))
  | 27 => accept w [(1, 7, .reservedB), (0, 1, .reservedX)] (.mov (getRUn w))
  | 28 => accept w [] (.lea (getLeaF w))
  | 29 => accept w [] (.lea (getLeaF w))
  | 30 => accept w [] (.lea (getLeaF w))
  | 31 => accept w [] (.lea (getLeaF w))
  | 32 => accept w [] (.icmp (getCmpF w))
  | 33 => accept w [] (.icmp (getCmpF w))
  | 34 => accept w [] (.icmp (getCmpF w))
  | 35 => accept w [] (.icmp (getCmpF w))
  | 36 => accept w [] (.icmp (getCmpF w))
  | 37 => accept w [] (.icmp (getCmpF w))
  | 38 => accept w [] (.iaddI64 (getRBin w))
  | 39 => accept w [] (.isubI64 (getRBin w))
  | 40 => accept w [] (.imulLoI64 (getRBin w))
  | 41 => accept w [] (.iminI64 (getRBin w))
  | 42 => accept w [] (.iminN64 (getRBin w))
  | 43 => accept w [] (.imaxI64 (getRBin w))
  | 44 => accept w [] (.imaxN64 (getRBin w))
  | 45 => accept w [] (.shlI64 (getRBin w))
  | 46 => accept w [] (.shrN64 (getRBin w))
  | 47 => accept w [] (.sarI64 (getRBin w))
  | 48 => accept w [] (.icmpI64 (getCmpF w))
  | 49 => accept w [] (.icmpI64 (getCmpF w))
  | 50 => accept w [] (.icmpI64 (getCmpF w))
  | 51 => accept w [] (.icmpI64 (getCmpF w))
  | 52 => accept w [] (.icmpI64 (getCmpF w))
  | 53 => accept w [] (.icmpI64 (getCmpF w))
  | 54 => accept w [(1, 7, .reservedB), (0, 1, .reservedX)] (.movI64 (getRUn w))
  | 55 => accept w [(1, 7, .reservedB), (0, 1, .reservedX)] (.iabsI64 (getRUn w))
  | 56 => accept w [] (.movi (getMovF w))
  | 57 => accept w [] (.movi (getMovF w))
  | 58 => accept w [] (.movhi (getMovF w))
  | 59 => accept w [] (.movhi (getMovF w))
  | 60 => accept w [] (.iaddImm (getImmF w))
  | _ => .error .unassigned

/-- Group 001 of the opcode map: the low six bits of OP (R55 to R63). -/
def decodeG1 (w : Word) : Nat → Except Reject Instr
  | 0 => accept w [] (.fadd (getFBin w))
  | 1 => accept w [] (.fadd (getFBin w))
  | 2 => accept w [] (.fadd (getFBin w))
  | 3 => accept w [] (.fadd (getFBin w))
  | 4 => accept w [] (.fsub (getFBin w))
  | 5 => accept w [] (.fsub (getFBin w))
  | 6 => accept w [] (.fsub (getFBin w))
  | 7 => accept w [] (.fsub (getFBin w))
  | 8 => accept w [] (.fmul (getFBin w))
  | 9 => accept w [] (.fmul (getFBin w))
  | 10 => accept w [] (.fmul (getFBin w))
  | 11 => accept w [] (.fmul (getFBin w))
  | 12 => accept w [] (.ffma (getFBin w))
  | 13 => accept w [] (.ffma (getFBin w))
  | 14 => accept w [] (.ffma (getFBin w))
  | 15 => accept w [] (.ffma (getFBin w))
  | 16 => accept w [] (.fnma (getFBin w))
  | 17 => accept w [] (.fnma (getFBin w))
  | 18 => accept w [] (.fnma (getFBin w))
  | 19 => accept w [] (.fnma (getFBin w))
  | 20 => accept w [] (.fmin (getFBin w))
  | 21 => accept w [] (.fmin (getFBin w))
  | 22 => accept w [] (.fmin (getFBin w))
  | 23 => accept w [] (.fmin (getFBin w))
  | 24 => accept w [] (.fmax (getFBin w))
  | 25 => accept w [] (.fmax (getFBin w))
  | 26 => accept w [] (.fmax (getFBin w))
  | 27 => accept w [] (.fmax (getFBin w))
  | 28 => accept w [] (.fcmpEq (getFBin w))
  | 29 => accept w [] (.fcmpEq (getFBin w))
  | 30 => accept w [] (.fcmpEq (getFBin w))
  | 31 => accept w [] (.fcmpEq (getFBin w))
  | 32 => accept w [(1, 7, .reservedB), (0, 1, .reservedX)] (.fclass (getFUn w))
  | 33 => accept w [(1, 7, .reservedB), (0, 1, .reservedX)] (.fclass (getFUn w))
  | 34 => accept w [(1, 7, .reservedB), (0, 1, .reservedX)] (.fclass (getFUn w))
  | 35 => accept w [(1, 7, .reservedB), (0, 1, .reservedX)] (.fclass (getFUn w))
  | 36 => accept w [(0, 1, .reservedX)] (.frnd (getFrndF w))
  | 37 => accept w [(0, 1, .reservedX)] (.frnd (getFrndF w))
  | 38 => accept w [(0, 1, .reservedX)] (.frnd (getFrndF w))
  | 39 => accept w [(0, 1, .reservedX)] (.frnd (getFrndF w))
  | 40 => accept w [] (.fdiv (getFBin w))
  | 41 => accept w [] (.fdiv (getFBin w))
  | 42 => accept w [] (.fdiv (getFBin w))
  | 43 => accept w [] (.fdiv (getFBin w))
  | 44 => accept w [(1, 7, .reservedB), (0, 1, .reservedX)] (.fsqrt (getFUn w))
  | 45 => accept w [(1, 7, .reservedB), (0, 1, .reservedX)] (.fsqrt (getFUn w))
  | 46 => accept w [(1, 7, .reservedB), (0, 1, .reservedX)] (.fsqrt (getFUn w))
  | 47 => accept w [(1, 7, .reservedB), (0, 1, .reservedX)] (.fsqrt (getFUn w))
  | 48 => accept w [(1, 7, .reservedB), (0, 1, .reservedX)] (.frcp (getFUn w))
  | 49 => accept w [(1, 7, .reservedB), (0, 1, .reservedX)] (.frcp (getFUn w))
  | 50 => accept w [(1, 7, .reservedB), (0, 1, .reservedX)] (.frcp (getFUn w))
  | 51 => accept w [(1, 7, .reservedB), (0, 1, .reservedX)] (.frcp (getFUn w))
  | 52 => accept w [(1, 7, .reservedB), (0, 1, .reservedX)] (.frsq (getFUn w))
  | 53 => accept w [(1, 7, .reservedB), (0, 1, .reservedX)] (.frsq (getFUn w))
  | 54 => accept w [(1, 7, .reservedB), (0, 1, .reservedX)] (.frsq (getFUn w))
  | 55 => accept w [(1, 7, .reservedB), (0, 1, .reservedX)] (.frsq (getFUn w))
  | 56 => accept w [] (.fcmpLt (getFBin w))
  | 57 => accept w [] (.fcmpLt (getFBin w))
  | 58 => accept w [] (.fcmpLt (getFBin w))
  | 59 => accept w [] (.fcmpLt (getFBin w))
  | 60 => accept w [] (.fcmpLe (getFBin w))
  | 61 => accept w [] (.fcmpLe (getFBin w))
  | 62 => accept w [] (.fcmpLe (getFBin w))
  | 63 => accept w [] (.fcmpLe (getFBin w))
  | _ => .error .unassigned

/-- Group 010 of the opcode map: the low six bits of OP (R55 to R63). -/
def decodeG2 (w : Word) : Nat → Except Reject Instr
  | 0 => accept w [(5, 3, .reservedOther)] (.cvt (getCvtF w))
  | 1 => accept w [(5, 3, .reservedOther)] (.cvt (getCvtF w))
  | 2 => accept w [(5, 3, .reservedOther)] (.cvt (getCvtF w))
  | 3 => accept w [(5, 3, .reservedOther)] (.cvt (getCvtF w))
  | 4 => accept w [(5, 3, .reservedOther)] (.cvt (getCvtF w))
  | 5 => accept w [(5, 3, .reservedOther)] (.cvt (getCvtF w))
  | 6 => accept w [(5, 3, .reservedOther)] (.cvt (getCvtF w))
  | 7 => accept w [(5, 3, .reservedOther)] (.cvt (getCvtF w))
  | 8 => accept w [(5, 3, .reservedOther)] (.cvt (getCvtF w))
  | 9 => accept w [(5, 3, .reservedOther)] (.cvt (getCvtF w))
  | 10 => accept w [(5, 3, .reservedOther)] (.cvt (getCvtF w))
  | 11 => accept w [(5, 3, .reservedOther)] (.cvt (getCvtF w))
  | 12 => accept w [(5, 3, .reservedOther)] (.cvt (getCvtF w))
  | 13 => accept w [(5, 3, .reservedOther)] (.cvt (getCvtF w))
  | 14 => accept w [(5, 3, .reservedOther)] (.cvt (getCvtF w))
  | 15 => accept w [(5, 3, .reservedOther)] (.cvt (getCvtF w))
  | 16 => accept w [(1, 7, .reservedB), (0, 1, .reservedX)] (.sin (getFUn w))
  | 17 => accept w [(1, 7, .reservedB), (0, 1, .reservedX)] (.sin (getFUn w))
  | 18 => accept w [(1, 7, .reservedB), (0, 1, .reservedX)] (.sin (getFUn w))
  | 19 => accept w [(1, 7, .reservedB), (0, 1, .reservedX)] (.sin (getFUn w))
  | 20 => accept w [(1, 7, .reservedB), (0, 1, .reservedX)] (.cos (getFUn w))
  | 21 => accept w [(1, 7, .reservedB), (0, 1, .reservedX)] (.cos (getFUn w))
  | 22 => accept w [(1, 7, .reservedB), (0, 1, .reservedX)] (.cos (getFUn w))
  | 23 => accept w [(1, 7, .reservedB), (0, 1, .reservedX)] (.cos (getFUn w))
  | 24 => accept w [(1, 7, .reservedB), (0, 1, .reservedX)] (.exp2 (getFUn w))
  | 25 => accept w [(1, 7, .reservedB), (0, 1, .reservedX)] (.exp2 (getFUn w))
  | 26 => accept w [(1, 7, .reservedB), (0, 1, .reservedX)] (.exp2 (getFUn w))
  | 27 => accept w [(1, 7, .reservedB), (0, 1, .reservedX)] (.exp2 (getFUn w))
  | 28 => accept w [(1, 7, .reservedB), (0, 1, .reservedX)] (.log2 (getFUn w))
  | 29 => accept w [(1, 7, .reservedB), (0, 1, .reservedX)] (.log2 (getFUn w))
  | 30 => accept w [(1, 7, .reservedB), (0, 1, .reservedX)] (.log2 (getFUn w))
  | 31 => accept w [(1, 7, .reservedB), (0, 1, .reservedX)] (.log2 (getFUn w))
  | 32 => accept w [(0, 1, .reservedX)] (.qntHx4 (getQntF w))
  | 33 => accept w [(0, 1, .reservedX)] (.qntHx4 (getQntF w))
  | 34 => accept w [(0, 1, .reservedX)] (.qntHx4 (getQntF w))
  | 35 => accept w [(0, 1, .reservedX)] (.qntHx4 (getQntF w))
  | 36 => accept w [(0, 1, .reservedX)] (.qntHx4 (getQntF w))
  | 37 => accept w [(0, 1, .reservedX)] (.qntE4m3 (getR3 w))
  | 38 => accept w [(0, 1, .reservedX)] (.qntE5m2 (getR3 w))
  | 40 => accept w [] (.dqHx4 (getRBin w))
  | 41 => accept w [] (.dqE4m3 (getRBin w))
  | 42 => accept w [] (.dqE5m2 (getRBin w))
  | 44 => accept w [(1, 7, .reservedB), (0, 1, .reservedX)] (.spl3 (getRUn w))
  | 45 => accept w [] (.packB16 (getRBin w))
  | 46 => accept w [] (.packB8 (getRBin w))
  | 47 => accept w [(0, 1, .reservedX)] (.unpack (getR3 w))
  | _ => .error .unassigned

/-- Group 011 of the opcode map: the low six bits of OP (R55 to R63). -/
def decodeG3 (w : Word) : Nat → Except Reject Instr
  | 0 => accept w [] (.shfl (getShflF w))
  | 1 => accept w [] (.shfl (getShflF w))
  | 2 => accept w [] (.shfl (getShflF w))
  | 3 => accept w [] (.shfl (getShflF w))
  | 4 => accept w [(1, 7, .reservedB), (0, 1, .reservedX)] (.pswap (getRUn w))
  | 5 => accept w [] (.bcast (getRBin w))
  | 6 => accept w [(1, 7, .reservedB), (0, 1, .reservedX)] (.ballot (getRUn w))
  | 7 => accept w [(18, 4, .reservedD), (1, 7, .reservedB), (0, 1, .reservedX)] (.voteAny (getVoteF w))
  | 8 => accept w [(18, 4, .reservedD), (1, 7, .reservedB), (0, 1, .reservedX)] (.voteAll (getVoteF w))
  | 9 => accept w [(18, 4, .reservedD), (1, 7, .reservedB), (0, 1, .reservedX)] (.voteUni (getVoteF w))
  | 10 => accept w [] (.ppop (getRBin w))
  | 11 => accept w [] (.isectList (getRBin w))
  | 12 => accept w [] (.isectBits (getRBin w))
  | 16 => accept w [(1, 7, .reservedB), (0, 1, .reservedX)] (.wredAdd (getFUn w))
  | 17 => accept w [(1, 7, .reservedB), (0, 1, .reservedX)] (.wredAdd (getFUn w))
  | 18 => accept w [(1, 7, .reservedB), (0, 1, .reservedX)] (.wredAdd (getFUn w))
  | 19 => accept w [(1, 7, .reservedB), (0, 1, .reservedX)] (.wredAdd (getFUn w))
  | 20 => accept w [(1, 7, .reservedB), (0, 1, .reservedX)] (.wredMin (getFUn w))
  | 21 => accept w [(1, 7, .reservedB), (0, 1, .reservedX)] (.wredMin (getFUn w))
  | 22 => accept w [(1, 7, .reservedB), (0, 1, .reservedX)] (.wredMin (getFUn w))
  | 23 => accept w [(1, 7, .reservedB), (0, 1, .reservedX)] (.wredMin (getFUn w))
  | 24 => accept w [(1, 7, .reservedB), (0, 1, .reservedX)] (.wredMax (getFUn w))
  | 25 => accept w [(1, 7, .reservedB), (0, 1, .reservedX)] (.wredMax (getFUn w))
  | 26 => accept w [(1, 7, .reservedB), (0, 1, .reservedX)] (.wredMax (getFUn w))
  | 27 => accept w [(1, 7, .reservedB), (0, 1, .reservedX)] (.wredMax (getFUn w))
  | 28 => accept w [(1, 7, .reservedB), (0, 1, .reservedX)] (.wredAddI32 (getRUn w))
  | 29 => accept w [(1, 7, .reservedB), (0, 1, .reservedX)] (.wredAddI64 (getRUn w))
  | 30 => accept w [(1, 7, .reservedB), (0, 1, .reservedX)] (.wredAndB32 (getRUn w))
  | 31 => accept w [(1, 7, .reservedB), (0, 1, .reservedX)] (.wredOrB32 (getRUn w))
  | 32 => accept w [(1, 7, .reservedB), (0, 1, .reservedX)] (.wredMinI32 (getRUn w))
  | 33 => accept w [(1, 7, .reservedB), (0, 1, .reservedX)] (.wredMaxI32 (getRUn w))
  | 34 => accept w [(1, 7, .reservedB), (0, 1, .reservedX)] (.wredMinN32 (getRUn w))
  | 35 => accept w [(1, 7, .reservedB), (0, 1, .reservedX)] (.wredMaxN32 (getRUn w))
  | _ => .error .unassigned

/-- Group 100 of the opcode map: the low six bits of OP (R55 to R63). -/
def decodeG4 (w : Word) : Nat → Except Reject Instr
  | 0 => accept w [(0, 1, .reservedX)] (.iaddWave (getR3 w))
  | 1 => accept w [(0, 1, .reservedX)] (.isubWave (getR3 w))
  | 2 => accept w [(0, 1, .reservedX)] (.imulLoWave (getR3 w))
  | 3 => accept w [(0, 1, .reservedX)] (.imulHiI32Wave (getR3 w))
  | 4 => accept w [(0, 1, .reservedX)] (.imulHiN32Wave (getR3 w))
  | 5 => accept w [(0, 1, .reservedX)] (.imulWideI32Wave (getR3 w))
  | 6 => accept w [(0, 1, .reservedX)] (.imulWideN32Wave (getR3 w))
  | 7 => accept w [(0, 1, .reservedX)] (.imadWave (getR3 w))
  | 8 => accept w [(0, 1, .reservedX)] (.iminI32Wave (getR3 w))
  | 9 => accept w [(0, 1, .reservedX)] (.iminN32Wave (getR3 w))
  | 10 => accept w [(0, 1, .reservedX)] (.imaxI32Wave (getR3 w))
  | 11 => accept w [(0, 1, .reservedX)] (.imaxN32Wave (getR3 w))
  | 12 => accept w [(1, 7, .reservedB), (0, 1, .reservedX)] (.iabsI32Wave (getRUn w))
  | 13 => accept w [(0, 1, .reservedX)] (.andWave (getR3 w))
  | 14 => accept w [(0, 1, .reservedX)] (.orWave (getR3 w))
  | 15 => accept w [(0, 1, .reservedX)] (.xorWave (getR3 w))
  | 16 => accept w [(0, 1, .reservedX)] (.shlWave (getR3 w))
  | 17 => accept w [(0, 1, .reservedX)] (.shrWave (getR3 w))
  | 18 => accept w [(0, 1, .reservedX)] (.sarWave (getR3 w))
  | 19 => accept w [(0, 1, .reservedX)] (.rotWave (getR3 w))
  | 20 => accept w [(1, 7, .reservedB), (0, 1, .reservedX)] (.popcWave (getRUn w))
  | 21 => accept w [(1, 7, .reservedB), (0, 1, .reservedX)] (.clzWave (getRUn w))
  | 22 => accept w [(1, 7, .reservedB), (0, 1, .reservedX)] (.brevWave (getRUn w))
  | 23 => accept w [(0, 1, .reservedX)] (.bfeI32Wave (getR3 w))
  | 24 => accept w [(0, 1, .reservedX)] (.bfeN32Wave (getR3 w))
  | 25 => accept w [(0, 1, .reservedX)] (.bfiWave (getR3 w))
  | 26 => accept w [(0, 1, .reservedX)] (.selWave (getR3 w))
  | 27 => accept w [(1, 7, .reservedB), (0, 1, .reservedX)] (.movWave (getRUn w))
  | 28 => accept w [(0, 1, .reservedX)] (.leaWave (getLeaW w))
  | 29 => accept w [(0, 1, .reservedX)] (.leaWave (getLeaW w))
  | 30 => accept w [(0, 1, .reservedX)] (.leaWave (getLeaW w))
  | 31 => accept w [(0, 1, .reservedX)] (.leaWave (getLeaW w))
  | 32 => accept w [(18, 4, .reservedD), (0, 1, .reservedX)] (.icmpWave (getCmpW w))
  | 33 => accept w [(18, 4, .reservedD), (0, 1, .reservedX)] (.icmpWave (getCmpW w))
  | 34 => accept w [(18, 4, .reservedD), (0, 1, .reservedX)] (.icmpWave (getCmpW w))
  | 35 => accept w [(18, 4, .reservedD), (0, 1, .reservedX)] (.icmpWave (getCmpW w))
  | 36 => accept w [(18, 4, .reservedD), (0, 1, .reservedX)] (.icmpWave (getCmpW w))
  | 37 => accept w [(18, 4, .reservedD), (0, 1, .reservedX)] (.icmpWave (getCmpW w))
  | 38 => accept w [(0, 1, .reservedX)] (.iaddI64Wave (getR3 w))
  | 39 => accept w [(0, 1, .reservedX)] (.isubI64Wave (getR3 w))
  | 40 => accept w [(0, 1, .reservedX)] (.imulLoI64Wave (getR3 w))
  | 41 => accept w [(0, 1, .reservedX)] (.iminI64Wave (getR3 w))
  | 42 => accept w [(0, 1, .reservedX)] (.iminN64Wave (getR3 w))
  | 43 => accept w [(0, 1, .reservedX)] (.imaxI64Wave (getR3 w))
  | 44 => accept w [(0, 1, .reservedX)] (.imaxN64Wave (getR3 w))
  | 45 => accept w [(0, 1, .reservedX)] (.shlI64Wave (getR3 w))
  | 46 => accept w [(0, 1, .reservedX)] (.shrN64Wave (getR3 w))
  | 47 => accept w [(0, 1, .reservedX)] (.sarI64Wave (getR3 w))
  | 48 => accept w [(18, 4, .reservedD), (0, 1, .reservedX)] (.icmpI64Wave (getCmpW w))
  | 49 => accept w [(18, 4, .reservedD), (0, 1, .reservedX)] (.icmpI64Wave (getCmpW w))
  | 50 => accept w [(18, 4, .reservedD), (0, 1, .reservedX)] (.icmpI64Wave (getCmpW w))
  | 51 => accept w [(18, 4, .reservedD), (0, 1, .reservedX)] (.icmpI64Wave (getCmpW w))
  | 52 => accept w [(18, 4, .reservedD), (0, 1, .reservedX)] (.icmpI64Wave (getCmpW w))
  | 53 => accept w [(18, 4, .reservedD), (0, 1, .reservedX)] (.icmpI64Wave (getCmpW w))
  | 54 => accept w [(1, 7, .reservedB), (0, 1, .reservedX)] (.movI64Wave (getRUn w))
  | 55 => accept w [(1, 7, .reservedB), (0, 1, .reservedX)] (.iabsI64Wave (getRUn w))
  | 56 => accept w [] (.moviWave (getMovF w))
  | 57 => accept w [] (.moviWave (getMovF w))
  | 58 => accept w [] (.movhiWave (getMovF w))
  | 59 => accept w [] (.movhiWave (getMovF w))
  | 60 => accept w [] (.iaddImmWave (getImmF w))
  | _ => .error .unassigned

/-- Group 101 of the opcode map: the low six bits of OP (R55 to R63). -/
def decodeG5 (w : Word) : Nat → Except Reject Instr
  | 0 => accept w [] (.ld (getMemZ w))
  | 1 => accept w [] (.ld (getMemZ w))
  | 2 => accept w [] (.ld (getMemZ w))
  | 3 => accept w [] (.ld (getMemZ w))
  | 4 => accept w [] (.ld (getMemZ w))
  | 5 => accept w [] (.ld (getMemZ w))
  | 6 => accept w [] (.ld (getMemZ w))
  | 8 => accept w [] (.st (getMemZ w))
  | 9 => accept w [] (.st (getMemZ w))
  | 10 => accept w [] (.st (getMemZ w))
  | 11 => accept w [] (.st (getMemZ w))
  | 12 => accept w [] (.st (getMemZ w))
  | 16 => accept w [] (.lds (getMemZ w))
  | 17 => accept w [] (.lds (getMemZ w))
  | 18 => accept w [] (.lds (getMemZ w))
  | 19 => accept w [] (.lds (getMemZ w))
  | 20 => accept w [] (.lds (getMemZ w))
  | 21 => accept w [] (.lds (getMemZ w))
  | 22 => accept w [] (.lds (getMemZ w))
  | 24 => accept w [] (.sts (getMemZ w))
  | 25 => accept w [] (.sts (getMemZ w))
  | 26 => accept w [] (.sts (getMemZ w))
  | 27 => accept w [] (.sts (getMemZ w))
  | 28 => accept w [] (.sts (getMemZ w))
  | 32 => accept w [] (.ldl (getLelF w))
  | 33 => accept w [] (.stl (getLelF w))
  | 34 => accept w [] (.ldw (getMemZ w))
  | 35 => accept w [] (.ldw (getMemZ w))
  | 36 => accept w [] (.ldw (getMemZ w))
  | 37 => accept w [] (.ldw (getMemZ w))
  | 40 => accept w [] (.atomAddI32 (getMemF w))
  | 41 => accept w [] (.atomAddI64 (getMemF w))
  | 42 => accept w [] (.atomAddF32 (getMemF w))
  | 43 => accept w [] (.atomAddF64 (getMemF w))
  | 44 => accept w [] (.atomMinI32 (getMemF w))
  | 45 => accept w [] (.atomMaxI32 (getMemF w))
  | 46 => accept w [] (.atomMinN32 (getMemF w))
  | 47 => accept w [] (.atomMaxN32 (getMemF w))
  | 48 => accept w [] (.atomAndB32 (getMemF w))
  | 49 => accept w [] (.atomOrB32 (getMemF w))
  | 50 => accept w [] (.atomXorB32 (getMemF w))
  | 51 => accept w [] (.atomExchB32 (getMemF w))
  | 52 => accept w [] (.atomExchB64 (getMemF w))
  | 53 => accept w [] (.casB32 (getMemF w))
  | 54 => accept w [] (.casB64 (getMemF w))
  | 56 => accept w [(15, 7, .reservedD), (8, 7, .reservedA), (0, 1, .reservedX), (6, 2, .reservedOther)] (.fence (getFenceF w))
  | 57 => accept w [] (.poll (getMemF w))
  | 58 => accept w [(15, 7, .reservedD), (0, 1, .reservedX), (1, 5, .reservedOther)] (.pref (getPrefF w))
  | 59 => accept w [(15, 7, .reservedD), (4, 4, .reservedOther)] (.cwb (getCacheF w))
  | 60 => accept w [(15, 7, .reservedD), (4, 4, .reservedOther)] (.cinv (getCacheF w))
  | _ => .error .unassigned

/-- Group 110 of the opcode map: the low six bits of OP (R55 to R63). -/
def decodeG6 (w : Word) : Nat → Except Reject Instr
  | 0 => accept w [(14, 4, .reservedA), (0, 4, .reservedB), (10, 4, .reservedB)] (.ldef (getLdefF w))
  | 1 => accept w [(0, 4, .reservedB), (4, 6, .reservedOther)] (.lchain (getLchainF w))
  | 2 => accept w [(10, 4, .reservedB)] (.lpart (getLpartF w))
  | 3 => accept w [(0, 4, .reservedB), (10, 4, .reservedB)] (.ltrans (getLldF w))
  | 4 => accept w [(10, 4, .reservedB), (4, 6, .reservedOther)] (.lflat (getLflatF w))
  | 5 => accept w [(0, 4, .reservedB), (10, 4, .reservedB)] (.lswz (getLldF w))
  | 6 => accept w [(18, 4, .reservedD), (10, 4, .reservedB)] (.lget (getLgetF w))
  | 7 => accept w [(18, 4, .reservedD), (10, 4, .reservedB)] (.lchk (getLgetF w))
  | 8 => accept w [(18, 4, .reservedD), (14, 4, .reservedA), (0, 4, .reservedB), (10, 4, .reservedB)] (.hset (getHsetF w))
  | 16 => accept w (if w.toNat / 2 ^ 3 % 4 = 3 then [(3, 2, .reservedB)] else [(1, 1, .reservedB)]) (.tcopy (getTcopyF w))
  | 17 => accept w [(1, 5, .reservedB)] (.gather (getEngF w))
  | 18 => accept w [(1, 5, .reservedB)] (.scatter (getEngF w))
  | 19 => accept w [(1, 5, .reservedB)] (.mcread (getEngF w))
  | 20 => accept w [(18, 4, .reservedD), (14, 4, .reservedA), (1, 7, .reservedB)] (.rbinit (getObjF w))
  | 21 => accept w [(18, 4, .reservedD), (14, 4, .reservedA), (1, 7, .reservedB)] (.rbpop (getObjF w))
  | 22 => accept w [(18, 4, .reservedD), (14, 4, .reservedA), (1, 7, .reservedB)] (.rbfree (getObjF w))
  | 23 => accept w [(18, 4, .reservedD), (14, 4, .reservedA), (2, 6, .reservedB)] (.coinit (getCoinitF w))
  | 24 => accept w [(18, 4, .reservedD), (14, 4, .reservedA), (1, 7, .reservedB)] (.coexpect (getObjF w))
  | 25 => accept w [(18, 4, .reservedD), (14, 4, .reservedA), (1, 7, .reservedB)] (.coarrive (getObjF w))
  | 26 => accept w [(18, 4, .reservedD), (14, 4, .reservedA), (1, 7, .reservedB)] (.codrop (getObjF w))
  | 27 => accept w [(18, 4, .reservedD), (14, 4, .reservedA), (1, 7, .reservedB), (0, 1, .reservedX)] (.cowait (getWaitF w))
  | 28 => accept w [(18, 4, .reservedD), (14, 4, .reservedA), (1, 7, .reservedB), (0, 1, .reservedX)] (.cotest (getWaitF w))
  | 29 => accept w [(1, 5, .reservedB)] (.trsend (getEngF w))
  | 32 => accept w (if bitAt w 0 then [] else [(2, 1, .reservedX)]) (.mloopBf16 (getMloopF w))
  | 33 => accept w (if bitAt w 0 then [] else [(2, 1, .reservedX)]) (.mloopF16 (getMloopF w))
  | 34 => accept w (if bitAt w 0 then [] else [(2, 1, .reservedX)]) (.mloopE4m3 (getMloopF w))
  | 35 => accept w (if bitAt w 0 then [] else [(2, 1, .reservedX)]) (.mloopE5m2 (getMloopF w))
  | 36 => accept w (if bitAt w 0 then [] else [(2, 1, .reservedX)]) (.mloopI8 (getMloopF w))
  | 37 => accept w (if bitAt w 0 then [] else [(2, 1, .reservedX)]) (.mloopHx4 (getMloopF w))
  | 38 => accept w (if bitAt w 0 then [] else [(2, 1, .reservedX)]) (.mloopF64 (getMloopF w))
  | 40 => accept w [(13, 4, .reservedA), (9, 4, .reservedB), (3, 6, .reservedOther), (0, 3, .reservedX)] (.mzero (getMzeroF w))
  | 41 => accept w [(9, 4, .reservedB), (3, 6, .reservedOther), (2, 1, .reservedX), (0, 1, .reservedX)] (.mlda (getMldF w))
  | 42 => accept w [(9, 4, .reservedB), (3, 6, .reservedOther), (2, 1, .reservedX), (0, 1, .reservedX)] (.msta (getMldF w))
  | 43 => accept w [(2, 8, .reservedOther), (0, 1, .reservedX)] (.mrd (getMmovF w))
  | 44 => accept w [(2, 8, .reservedOther), (0, 1, .reservedX)] (.mwr (getMmovF w))
  | 45 => accept w [(13, 4, .reservedA), (9, 4, .reservedB), (0, 3, .reservedX)] (.mstat (getMstatF w))
  | 48 => accept w [(6, 4, .reservedB)] (.spawn (getSpawnF w))
  | 49 => accept w [(6, 4, .reservedB)] (.spawnTry (getSpawnF w))
  | 50 => accept w [(16, 6, .reservedD), (1, 9, .reservedB), (0, 1, .reservedX)] (.close (getSaF w))
  | 51 => accept w [(5, 5, .reservedB)] (.tbset (getTbF w))
  | 52 => accept w [(5, 5, .reservedB)] (.tbclr (getTbF w))
  | 53 => accept w [(5, 5, .reservedB), (0, 1, .reservedX)] (.tbtest (getTbtF w))
  | 54 => accept w [(1, 9, .reservedB), (0, 1, .reservedX)] (.join (getSdaF w))
  | 55 => accept w [(16, 6, .reservedD), (10, 6, .reservedA), (1, 9, .reservedB), (0, 1, .reservedX)] .leave
  | 56 => accept w [(10, 6, .reservedA), (1, 9, .reservedB), (0, 1, .reservedX)] (.bar (getSdF w))
  | 57 => accept w [(1, 9, .reservedB)] (.launch (getLaunchF w))
  | 58 => accept w [(16, 6, .reservedD), (1, 9, .reservedB), (0, 1, .reservedX)] (.verdict (getSaF w))
  | _ => .error .unassigned

/-- Group 111 of the opcode map: the low six bits of OP (R55 to R63). -/
def decodeG7 (w : Word) : Nat → Except Reject Instr
  | 0 => accept w (if w.toNat / 2 ^ 18 % 16 = 1 ∨ w.toNat / 2 ^ 18 % 16 = 2 then [] else [(15, 3, .reservedD)]) (.bra (getBraF w))
  | 1 => accept w [(15, 7, .reservedD)] (.call (getCallF w))
  | 2 => accept w [(16, 6, .reservedD), (10, 6, .reservedA), (1, 9, .reservedB), (0, 1, .reservedX)] .ret
  | 3 => accept w [(16, 6, .reservedD), (10, 6, .reservedA), (1, 9, .reservedB), (0, 1, .reservedX)] .exit
  | 4 => accept w [(16, 6, .reservedD), (10, 6, .reservedA), (1, 9, .reservedB), (0, 1, .reservedX)] .drain
  | 5 => accept w [(16, 6, .reservedD), (10, 6, .reservedA), (1, 9, .reservedB), (0, 1, .reservedX)] .yield
  | 6 => accept w [(16, 6, .reservedD), (10, 6, .reservedA), (1, 3, .reservedB), (0, 1, .reservedX)] (.give (getGiveF w))
  | 7 => accept w [(16, 6, .reservedD), (10, 6, .reservedA), (1, 3, .reservedB), (0, 1, .reservedX)] (.claim (getGiveF w))
  | 8 => accept w [(10, 6, .reservedA), (1, 3, .reservedB), (0, 1, .reservedX)] (.claimTry (getClaimTryF w))
  | 9 => accept w [(15, 7, .reservedD)] (.trap (getTrapF w))
  | 10 => accept w [(15, 7, .reservedD)] (.bkpt (getTrapF w))
  | 11 => accept w [(16, 6, .reservedD), (10, 6, .reservedA), (1, 9, .reservedB), (0, 1, .reservedX)] .nop
  | 16 => accept w [(0, 4, .reservedOther)] (.srd (getSrF w))
  | 17 => accept w [(0, 4, .reservedOther)] (.swr (getSrF w))
  | 18 => accept w [(5, 5, .reservedB)] (.ptew (getPtewF w))
  | 19 => accept w [(10, 6, .reservedA), (1, 9, .reservedB)] (.poolpop (getPopF w))
  | 20 => accept w [(16, 6, .reservedD), (4, 6, .reservedB)] (.lpinv (getInvF w))
  | 21 => accept w [(16, 6, .reservedD), (4, 6, .reservedB)] (.tlbinv (getInvF w))
  | 22 => accept w [(16, 6, .reservedD), (4, 6, .reservedB)] (.iinv (getInvF w))
  | 23 => accept w [(16, 6, .reservedD), (10, 6, .reservedA), (1, 9, .reservedB), (0, 1, .reservedX)] .rft
  | 63 => accept w [] (.clause (getClauseF w))
  | _ => .error .unassigned

/-- The instruction a word stands for: OP chooses the group by OP[8:6] and the row by OP[5:0] (R54 to R63). -/
def decodeWord (w : Word) : Except Reject Instr :=
  match opOf w / 64 with
  | 0 => decodeG0 w (opOf w % 64)
  | 1 => decodeG1 w (opOf w % 64)
  | 2 => decodeG2 w (opOf w % 64)
  | 3 => decodeG3 w (opOf w % 64)
  | 4 => decodeG4 w (opOf w % 64)
  | 5 => decodeG5 w (opOf w % 64)
  | 6 => decodeG6 w (opOf w % 64)
  | _ => decodeG7 w (opOf w % 64)

/-- The instruction word stored at the lowest addresses in little-endian order (R5): four bytes, low byte first. -/
def wordOfBytes (b0 b1 b2 b3 : Byte) : Word :=
  BitVec.ofNat 32 (b0.toNat + 256 * b1.toNat + 65536 * b2.toNat + 16777216 * b3.toNat)

/-- The four bytes of a word, low byte first (R5). -/
def bytesOfWord (w : Word) : List Byte :=
  [BitVec.ofNat 8 w.toNat, BitVec.ofNat 8 (w.toNat / 256), BitVec.ofNat 8 (w.toNat / 65536),
   BitVec.ofNat 8 (w.toNat / 16777216)]

/-- Decoding of any bytes: the first four are a word (R25); fewer hold no instruction. -/
def decodeBytes : List Byte → Option (Except Reject Instr × List Byte)
  | b0 :: b1 :: b2 :: b3 :: rest => some (decodeWord (wordOfBytes b0 b1 b2 b3), rest)
  | _ => none

/-- The instruction read from an instruction whose bits are `w`, numbered as the opcode table numbers them. Every
instruction is one 32-bit word, laid out in memory with its low byte first (R5, R25). -/
def decodeTableWord (_nbits w : Nat) : Option Instr :=
  match decodeBytes (bytesOfWord (BitVec.ofNat 32 w)) with
  | some (.ok i, _) => some i
  | _ => none

/-! ### The encoder -/

/-- A word from its OP value and its bits [21:0], with C = 0. -/
def mkWord (op body : Nat) : Word := BitVec.ofNat 32 (op * 2 ^ 22 + body)

/-- The bits [21:0] of a word of form `ClauseF`. -/
def putClauseF (f : ClauseF) : Nat := f.wait.toNat * 2 ^ 10 + f.seta.toNat * 2 ^ 6 + f.setb.toNat * 2 ^ 2 + bitOf f.stk * 2 ^ 1 + bitOf f.yld

/-- The bits [21:0] of a word of form `RBin`. -/
def putRBin (f : RBin) : Nat := f.d.toNat * 2 ^ 15 + f.a.toNat * 2 ^ 8 + f.b.toNat * 2 ^ 1 + bitOf f.x

/-- The bits [21:0] of a word of form `RUn`. -/
def putRUn (f : RUn) : Nat := f.d.toNat * 2 ^ 15 + f.a.toNat * 2 ^ 8

/-- The bits [21:0] of a word of form `LeaF`. -/
def putLeaF (f : LeaF) : Nat := f.d.toNat * 2 ^ 15 + f.a.toNat * 2 ^ 8 + f.b.toNat * 2 ^ 1 + bitOf f.x

/-- The bits [21:0] of a word of form `CmpF`. -/
def putCmpF (f : CmpF) : Nat := f.d.toNat * 2 ^ 15 + f.a.toNat * 2 ^ 8 + f.b.toNat * 2 ^ 1 + bitOf f.x

/-- The bits [21:0] of a MOVI or MOVHI word, without OP[0]. -/
def putMovF (f : MovF) : Nat := f.d.toNat * 2 ^ 15 + f.imm.toNat % 2 ^ 15

/-- The bits [21:0] of a word of form `ImmF`. -/
def putImmF (f : ImmF) : Nat := f.d.toNat * 2 ^ 15 + f.imm.toNat

/-- The bits [21:0] of a word of form `R3`. -/
def putR3 (f : R3) : Nat := f.d.toNat * 2 ^ 15 + f.a.toNat * 2 ^ 8 + f.b.toNat * 2 ^ 1

/-- The bits [21:0] of a word of form `LeaW`. -/
def putLeaW (f : LeaW) : Nat := f.d.toNat * 2 ^ 15 + f.a.toNat * 2 ^ 8 + f.b.toNat * 2 ^ 1

/-- The bits [21:0] of a word of form `CmpW`. -/
def putCmpW (f : CmpW) : Nat := f.p.toNat * 2 ^ 15 + f.a.toNat * 2 ^ 8 + f.b.toNat * 2 ^ 1

/-- The bits [21:0] of a word of form `FBin`. -/
def putFBin (f : FBin) : Nat := f.d.toNat * 2 ^ 15 + f.a.toNat * 2 ^ 8 + f.b.toNat * 2 ^ 1 + bitOf f.x

/-- The bits [21:0] of a word of form `FUn`. -/
def putFUn (f : FUn) : Nat := f.d.toNat * 2 ^ 15 + f.a.toNat * 2 ^ 8

/-- The bits [21:0] of a word of form `FrndF`. -/
def putFrndF (f : FrndF) : Nat := f.d.toNat * 2 ^ 15 + f.a.toNat * 2 ^ 8 + f.mode.toNat * 2 ^ 1

/-- The bits [21:0] of a word of form `CvtF`. -/
def putCvtF (f : CvtF) : Nat := f.d.toNat * 2 ^ 15 + f.a.toNat * 2 ^ 8 + f.src.toNat * 2 ^ 1 + bitOf f.sat

/-- The bits [21:0] of a word of form `QntF`. -/
def putQntF (f : QntF) : Nat := f.d.toNat * 2 ^ 15 + f.a.toNat * 2 ^ 8 + f.b.toNat * 2 ^ 1

/-- The bits [21:0] of a word of form `ShflF`. -/
def putShflF (f : ShflF) : Nat := f.d.toNat * 2 ^ 15 + f.a.toNat * 2 ^ 8 + f.b.toNat * 2 ^ 1 + bitOf f.x

/-- The bits [21:0] of a word of form `VoteF`. -/
def putVoteF (f : VoteF) : Nat := f.p.toNat * 2 ^ 15 + f.a.toNat * 2 ^ 8

/-- The bits [21:0] of a word of form `MemZ`. -/
def putMemZ (f : MemZ) : Nat := f.d.toNat * 2 ^ 15 + f.a.toNat * 2 ^ 8 + f.h.toNat * 2 ^ 6 + f.q.toNat * 2 ^ 4 + f.sc.toNat * 2 ^ 1 + bitOf f.fs

/-- The bits [21:0] of a word of form `LelF`. -/
def putLelF (f : LelF) : Nat := f.d.toNat * 2 ^ 15 + f.a.toNat * 2 ^ 8 + f.l.toNat * 2 ^ 4 + f.h.toNat * 2 ^ 2 + bitOf f.fs * 2 ^ 1 + bitOf f.x

/-- The bits [21:0] of a word of form `MemF`. -/
def putMemF (f : MemF) : Nat := f.d.toNat * 2 ^ 15 + f.a.toNat * 2 ^ 8 + f.h.toNat * 2 ^ 6 + f.q.toNat * 2 ^ 4 + f.sc.toNat * 2 ^ 1 + bitOf f.fs

/-- The bits [21:0] of a word of form `FenceF`. -/
def putFenceF (f : FenceF) : Nat := f.q.toNat * 2 ^ 4 + f.sc.toNat * 2 ^ 1

/-- The bits [21:0] of a word of form `PrefF`. -/
def putPrefF (f : PrefF) : Nat := f.a.toNat * 2 ^ 8 + f.h.toNat * 2 ^ 6

/-- The bits [21:0] of a word of form `CacheF`. -/
def putCacheF (f : CacheF) : Nat := f.a.toNat * 2 ^ 8 + f.sc.toNat * 2 ^ 1 + bitOf f.fs

/-- The bits [21:0] of a word of form `LdefF`. -/
def putLdefF (f : LdefF) : Nat := f.ld.toNat * 2 ^ 18 + f.s.toNat * 2 ^ 4

/-- The bits [21:0] of a word of form `LchainF`. -/
def putLchainF (f : LchainF) : Nat := f.ld.toNat * 2 ^ 18 + f.la.toNat * 2 ^ 14 + f.lb.toNat * 2 ^ 10

/-- The bits [21:0] of a word of form `LpartF`. -/
def putLpartF (f : LpartF) : Nat := f.ld.toNat * 2 ^ 18 + f.la.toNat * 2 ^ 14 + f.s.toNat * 2 ^ 4 + f.k.toNat

/-- The bits [21:0] of a word of form `LldF`. -/
def putLldF (f : LldF) : Nat := f.ld.toNat * 2 ^ 18 + f.la.toNat * 2 ^ 14 + f.s.toNat * 2 ^ 4

/-- The bits [21:0] of a word of form `LflatF`. -/
def putLflatF (f : LflatF) : Nat := f.ld.toNat * 2 ^ 18 + f.la.toNat * 2 ^ 14 + f.k.toNat

/-- The bits [21:0] of a word of form `LgetF`. -/
def putLgetF (f : LgetF) : Nat := f.la.toNat * 2 ^ 14 + f.s.toNat * 2 ^ 4 + f.k.toNat

/-- The bits [21:0] of a word of form `HsetF`. -/
def putHsetF (f : HsetF) : Nat := f.s.toNat * 2 ^ 4

/-- The bits [21:0] of a word of form `TcopyF`. -/
def putTcopyF (f : TcopyF) : Nat := f.ld.toNat * 2 ^ 18 + f.la.toNat * 2 ^ 14 + f.s.toNat * 2 ^ 8 + f.e.toNat * 2 ^ 6 + bitOf f.sat * 2 ^ 5 + f.m.toNat * 2 ^ 3 + bitOf f.fp * 2 ^ 2 + bitOf f.fs

/-- The bits [21:0] of a word of form `EngF`. -/
def putEngF (f : EngF) : Nat := f.ld.toNat * 2 ^ 18 + f.la.toNat * 2 ^ 14 + f.s.toNat * 2 ^ 8 + f.e.toNat * 2 ^ 6 + bitOf f.fs

/-- The bits [21:0] of a word of form `ObjF`. -/
def putObjF (f : ObjF) : Nat := f.s.toNat * 2 ^ 8 + bitOf f.fs

/-- The bits [21:0] of a word of form `CoinitF`. -/
def putCoinitF (f : CoinitF) : Nat := f.s.toNat * 2 ^ 8 + bitOf f.u * 2 ^ 1 + bitOf f.fs

/-- The bits [21:0] of a word of form `WaitF`. -/
def putWaitF (f : WaitF) : Nat := f.s.toNat * 2 ^ 8

/-- The bits [21:0] of a word of form `MloopF`. -/
def putMloopF (f : MloopF) : Nat := f.t.toNat * 2 ^ 17 + f.la.toNat * 2 ^ 13 + f.lb.toNat * 2 ^ 9 + f.s.toNat * 2 ^ 3 + bitOf f.rb * 2 ^ 2 + bitOf f.fs * 2 ^ 1 + bitOf f.x

/-- The bits [21:0] of a word of form `MzeroF`. -/
def putMzeroF (f : MzeroF) : Nat := f.t.toNat * 2 ^ 17

/-- The bits [21:0] of a word of form `MldF`. -/
def putMldF (f : MldF) : Nat := f.t.toNat * 2 ^ 17 + f.la.toNat * 2 ^ 13 + bitOf f.fs * 2 ^ 1

/-- The bits [21:0] of a word of form `MmovF`. -/
def putMmovF (f : MmovF) : Nat := f.t.toNat * 2 ^ 17 + f.v.toNat * 2 ^ 10 + bitOf f.fs * 2 ^ 1

/-- The bits [21:0] of a word of form `MstatF`. -/
def putMstatF (f : MstatF) : Nat := f.t.toNat * 2 ^ 17 + f.s.toNat * 2 ^ 3

/-- The bits [21:0] of a word of form `SpawnF`. -/
def putSpawnF (f : SpawnF) : Nat := f.sd.toNat * 2 ^ 16 + f.sa.toNat * 2 ^ 10 + f.n.toNat * 2 ^ 1 + bitOf f.fs

/-- The bits [21:0] of a word of form `SaF`. -/
def putSaF (f : SaF) : Nat := f.sa.toNat * 2 ^ 10

/-- The bits [21:0] of a word of form `TbF`. -/
def putTbF (f : TbF) : Nat := f.sd.toNat * 2 ^ 16 + f.sa.toNat * 2 ^ 10 + f.n.toNat * 2 ^ 1 + bitOf f.fs

/-- The bits [21:0] of a word of form `TbtF`. -/
def putTbtF (f : TbtF) : Nat := f.sd.toNat * 2 ^ 16 + f.sa.toNat * 2 ^ 10 + f.n.toNat * 2 ^ 1

/-- The bits [21:0] of a word of form `SdaF`. -/
def putSdaF (f : SdaF) : Nat := f.sd.toNat * 2 ^ 16 + f.sa.toNat * 2 ^ 10

/-- The bits [21:0] of a word of form `SdF`. -/
def putSdF (f : SdF) : Nat := f.sd.toNat * 2 ^ 16

/-- The bits [21:0] of a word of form `LaunchF`. -/
def putLaunchF (f : LaunchF) : Nat := f.sd.toNat * 2 ^ 16 + f.sa.toNat * 2 ^ 10 + bitOf f.fs

/-- The bits [21:0] of a word of form `BraF`. -/
def putBraF (f : BraF) : Nat := f.cond.toNat * 2 ^ 18 + f.qp.toNat * 2 ^ 15 + f.off.toNat

/-- The bits [21:0] of a word of form `CallF`. -/
def putCallF (f : CallF) : Nat := f.off.toNat

/-- The bits [21:0] of a word of form `GiveF`. -/
def putGiveF (f : GiveF) : Nat := f.imm.toNat * 2 ^ 1

/-- The bits [21:0] of a word of form `ClaimTryF`. -/
def putClaimTryF (f : ClaimTryF) : Nat := f.sd.toNat * 2 ^ 16 + f.imm.toNat * 2 ^ 1

/-- The bits [21:0] of a word of form `TrapF`. -/
def putTrapF (f : TrapF) : Nat := f.code.toNat

/-- The bits [21:0] of a word of form `SrF`. -/
def putSrF (f : SrF) : Nat := f.s.toNat * 2 ^ 16 + f.srn.toNat * 2 ^ 4

/-- The bits [21:0] of a word of form `PtewF`. -/
def putPtewF (f : PtewF) : Nat := f.sd.toNat * 2 ^ 16 + f.sa.toNat * 2 ^ 10 + bitOf f.force * 2 ^ 4 + bitOf f.ret * 2 ^ 3 + f.lvl.toNat * 2 ^ 1 + bitOf f.fs

/-- The bits [21:0] of a word of form `PopF`. -/
def putPopF (f : PopF) : Nat := f.sd.toNat * 2 ^ 16 + bitOf f.fs

/-- The bits [21:0] of a word of form `InvF`. -/
def putInvF (f : InvF) : Nat := f.sa.toNat * 2 ^ 10 + bitOf f.all * 2 ^ 3 + f.scope.toNat * 2 ^ 1 + bitOf f.fs

/-- The word of a well-formed instruction with C = 0; an event has none. -/
def encode : Instr → Option Word
  | .clause f => some (mkWord 0x1FF (putClauseF f))
  | .iadd f => some (mkWord 0x000 (putRBin f))
  | .isub f => some (mkWord 0x001 (putRBin f))
  | .imulLo f => some (mkWord 0x002 (putRBin f))
  | .imulHiI32 f => some (mkWord 0x003 (putRBin f))
  | .imulHiN32 f => some (mkWord 0x004 (putRBin f))
  | .imulWideI32 f => some (mkWord 0x005 (putRBin f))
  | .imulWideN32 f => some (mkWord 0x006 (putRBin f))
  | .imad f => some (mkWord 0x007 (putRBin f))
  | .iminI32 f => some (mkWord 0x008 (putRBin f))
  | .iminN32 f => some (mkWord 0x009 (putRBin f))
  | .imaxI32 f => some (mkWord 0x00A (putRBin f))
  | .imaxN32 f => some (mkWord 0x00B (putRBin f))
  | .iabsI32 f => some (mkWord 0x00C (putRUn f))
  | .and f => some (mkWord 0x00D (putRBin f))
  | .or f => some (mkWord 0x00E (putRBin f))
  | .xor f => some (mkWord 0x00F (putRBin f))
  | .shl f => some (mkWord 0x010 (putRBin f))
  | .shr f => some (mkWord 0x011 (putRBin f))
  | .sar f => some (mkWord 0x012 (putRBin f))
  | .rot f => some (mkWord 0x013 (putRBin f))
  | .popc f => some (mkWord 0x014 (putRUn f))
  | .clz f => some (mkWord 0x015 (putRUn f))
  | .brev f => some (mkWord 0x016 (putRUn f))
  | .bfeI32 f => some (mkWord 0x017 (putRBin f))
  | .bfeN32 f => some (mkWord 0x018 (putRBin f))
  | .bfi f => some (mkWord 0x019 (putRBin f))
  | .sel f => some (mkWord 0x01A (putRBin f))
  | .mov f => some (mkWord 0x01B (putRUn f))
  | .lea f => some (mkWord (0x01C + f.sh.toNat) (putLeaF f))
  | .icmp f => some (mkWord (0x020 + f.n.toNat) (putCmpF f))
  | .iaddI64 f => some (mkWord 0x026 (putRBin f))
  | .isubI64 f => some (mkWord 0x027 (putRBin f))
  | .imulLoI64 f => some (mkWord 0x028 (putRBin f))
  | .iminI64 f => some (mkWord 0x029 (putRBin f))
  | .iminN64 f => some (mkWord 0x02A (putRBin f))
  | .imaxI64 f => some (mkWord 0x02B (putRBin f))
  | .imaxN64 f => some (mkWord 0x02C (putRBin f))
  | .shlI64 f => some (mkWord 0x02D (putRBin f))
  | .shrN64 f => some (mkWord 0x02E (putRBin f))
  | .sarI64 f => some (mkWord 0x02F (putRBin f))
  | .icmpI64 f => some (mkWord (0x030 + f.n.toNat) (putCmpF f))
  | .movI64 f => some (mkWord 0x036 (putRUn f))
  | .iabsI64 f => some (mkWord 0x037 (putRUn f))
  | .movi f => some (mkWord (0x038 + f.imm.toNat / 2 ^ 15) (putMovF f))
  | .movhi f => some (mkWord (0x03A + f.imm.toNat / 2 ^ 15) (putMovF f))
  | .iaddImm f => some (mkWord 0x03C (putImmF f))
  | .iaddWave f => some (mkWord 0x100 (putR3 f))
  | .isubWave f => some (mkWord 0x101 (putR3 f))
  | .imulLoWave f => some (mkWord 0x102 (putR3 f))
  | .imulHiI32Wave f => some (mkWord 0x103 (putR3 f))
  | .imulHiN32Wave f => some (mkWord 0x104 (putR3 f))
  | .imulWideI32Wave f => some (mkWord 0x105 (putR3 f))
  | .imulWideN32Wave f => some (mkWord 0x106 (putR3 f))
  | .imadWave f => some (mkWord 0x107 (putR3 f))
  | .iminI32Wave f => some (mkWord 0x108 (putR3 f))
  | .iminN32Wave f => some (mkWord 0x109 (putR3 f))
  | .imaxI32Wave f => some (mkWord 0x10A (putR3 f))
  | .imaxN32Wave f => some (mkWord 0x10B (putR3 f))
  | .iabsI32Wave f => some (mkWord 0x10C (putRUn f))
  | .andWave f => some (mkWord 0x10D (putR3 f))
  | .orWave f => some (mkWord 0x10E (putR3 f))
  | .xorWave f => some (mkWord 0x10F (putR3 f))
  | .shlWave f => some (mkWord 0x110 (putR3 f))
  | .shrWave f => some (mkWord 0x111 (putR3 f))
  | .sarWave f => some (mkWord 0x112 (putR3 f))
  | .rotWave f => some (mkWord 0x113 (putR3 f))
  | .popcWave f => some (mkWord 0x114 (putRUn f))
  | .clzWave f => some (mkWord 0x115 (putRUn f))
  | .brevWave f => some (mkWord 0x116 (putRUn f))
  | .bfeI32Wave f => some (mkWord 0x117 (putR3 f))
  | .bfeN32Wave f => some (mkWord 0x118 (putR3 f))
  | .bfiWave f => some (mkWord 0x119 (putR3 f))
  | .selWave f => some (mkWord 0x11A (putR3 f))
  | .movWave f => some (mkWord 0x11B (putRUn f))
  | .leaWave f => some (mkWord (0x11C + f.sh.toNat) (putLeaW f))
  | .icmpWave f => some (mkWord (0x120 + f.n.toNat) (putCmpW f))
  | .iaddI64Wave f => some (mkWord 0x126 (putR3 f))
  | .isubI64Wave f => some (mkWord 0x127 (putR3 f))
  | .imulLoI64Wave f => some (mkWord 0x128 (putR3 f))
  | .iminI64Wave f => some (mkWord 0x129 (putR3 f))
  | .iminN64Wave f => some (mkWord 0x12A (putR3 f))
  | .imaxI64Wave f => some (mkWord 0x12B (putR3 f))
  | .imaxN64Wave f => some (mkWord 0x12C (putR3 f))
  | .shlI64Wave f => some (mkWord 0x12D (putR3 f))
  | .shrN64Wave f => some (mkWord 0x12E (putR3 f))
  | .sarI64Wave f => some (mkWord 0x12F (putR3 f))
  | .icmpI64Wave f => some (mkWord (0x130 + f.n.toNat) (putCmpW f))
  | .movI64Wave f => some (mkWord 0x136 (putRUn f))
  | .iabsI64Wave f => some (mkWord 0x137 (putRUn f))
  | .moviWave f => some (mkWord (0x138 + f.imm.toNat / 2 ^ 15) (putMovF f))
  | .movhiWave f => some (mkWord (0x13A + f.imm.toNat / 2 ^ 15) (putMovF f))
  | .iaddImmWave f => some (mkWord 0x13C (putImmF f))
  | .fadd f => some (mkWord (0x040 + f.t.toNat) (putFBin f))
  | .fsub f => some (mkWord (0x044 + f.t.toNat) (putFBin f))
  | .fmul f => some (mkWord (0x048 + f.t.toNat) (putFBin f))
  | .ffma f => some (mkWord (0x04C + f.t.toNat) (putFBin f))
  | .fnma f => some (mkWord (0x050 + f.t.toNat) (putFBin f))
  | .fmin f => some (mkWord (0x054 + f.t.toNat) (putFBin f))
  | .fmax f => some (mkWord (0x058 + f.t.toNat) (putFBin f))
  | .fcmpEq f => some (mkWord (0x05C + f.t.toNat) (putFBin f))
  | .fclass f => some (mkWord (0x060 + f.t.toNat) (putFUn f))
  | .frnd f => some (mkWord (0x064 + f.t.toNat) (putFrndF f))
  | .fdiv f => some (mkWord (0x068 + f.t.toNat) (putFBin f))
  | .fsqrt f => some (mkWord (0x06C + f.t.toNat) (putFUn f))
  | .frcp f => some (mkWord (0x070 + f.t.toNat) (putFUn f))
  | .frsq f => some (mkWord (0x074 + f.t.toNat) (putFUn f))
  | .fcmpLt f => some (mkWord (0x078 + f.t.toNat) (putFBin f))
  | .fcmpLe f => some (mkWord (0x07C + f.t.toNat) (putFBin f))
  | .sin f => some (mkWord (0x090 + f.t.toNat) (putFUn f))
  | .cos f => some (mkWord (0x094 + f.t.toNat) (putFUn f))
  | .exp2 f => some (mkWord (0x098 + f.t.toNat) (putFUn f))
  | .log2 f => some (mkWord (0x09C + f.t.toNat) (putFUn f))
  | .cvt f => some (mkWord (0x080 + f.dst.toNat) (putCvtF f))
  | .qntHx4 f => some (mkWord (0x0A0 + f.n.toNat) (putQntF f))
  | .qntE4m3 f => some (mkWord 0x0A5 (putR3 f))
  | .qntE5m2 f => some (mkWord 0x0A6 (putR3 f))
  | .dqHx4 f => some (mkWord 0x0A8 (putRBin f))
  | .dqE4m3 f => some (mkWord 0x0A9 (putRBin f))
  | .dqE5m2 f => some (mkWord 0x0AA (putRBin f))
  | .spl3 f => some (mkWord 0x0AC (putRUn f))
  | .packB16 f => some (mkWord 0x0AD (putRBin f))
  | .packB8 f => some (mkWord 0x0AE (putRBin f))
  | .unpack f => some (mkWord 0x0AF (putR3 f))
  | .shfl f => some (mkWord (0x0C0 + f.m.toNat) (putShflF f))
  | .pswap f => some (mkWord 0x0C4 (putRUn f))
  | .bcast f => some (mkWord 0x0C5 (putRBin f))
  | .ballot f => some (mkWord 0x0C6 (putRUn f))
  | .voteAny f => some (mkWord 0x0C7 (putVoteF f))
  | .voteAll f => some (mkWord 0x0C8 (putVoteF f))
  | .voteUni f => some (mkWord 0x0C9 (putVoteF f))
  | .ppop f => some (mkWord 0x0CA (putRBin f))
  | .isectList f => some (mkWord 0x0CB (putRBin f))
  | .isectBits f => some (mkWord 0x0CC (putRBin f))
  | .wredAdd f => some (mkWord (0x0D0 + f.t.toNat) (putFUn f))
  | .wredMin f => some (mkWord (0x0D4 + f.t.toNat) (putFUn f))
  | .wredMax f => some (mkWord (0x0D8 + f.t.toNat) (putFUn f))
  | .wredAddI32 f => some (mkWord 0x0DC (putRUn f))
  | .wredAddI64 f => some (mkWord 0x0DD (putRUn f))
  | .wredAndB32 f => some (mkWord 0x0DE (putRUn f))
  | .wredOrB32 f => some (mkWord 0x0DF (putRUn f))
  | .wredMinI32 f => some (mkWord 0x0E0 (putRUn f))
  | .wredMaxI32 f => some (mkWord 0x0E1 (putRUn f))
  | .wredMinN32 f => some (mkWord 0x0E2 (putRUn f))
  | .wredMaxN32 f => some (mkWord 0x0E3 (putRUn f))
  | .ld f => some (mkWord (0x140 + f.z.toNat) (putMemZ f))
  | .st f => some (mkWord (0x148 + f.z.toNat) (putMemZ f))
  | .lds f => some (mkWord (0x150 + f.z.toNat) (putMemZ f))
  | .sts f => some (mkWord (0x158 + f.z.toNat) (putMemZ f))
  | .ldl f => some (mkWord 0x160 (putLelF f))
  | .stl f => some (mkWord 0x161 (putLelF f))
  | .ldw f => some (mkWord (0x160 + f.z.toNat) (putMemZ f))
  | .atomAddI32 f => some (mkWord 0x168 (putMemF f))
  | .atomAddI64 f => some (mkWord 0x169 (putMemF f))
  | .atomAddF32 f => some (mkWord 0x16A (putMemF f))
  | .atomAddF64 f => some (mkWord 0x16B (putMemF f))
  | .atomMinI32 f => some (mkWord 0x16C (putMemF f))
  | .atomMaxI32 f => some (mkWord 0x16D (putMemF f))
  | .atomMinN32 f => some (mkWord 0x16E (putMemF f))
  | .atomMaxN32 f => some (mkWord 0x16F (putMemF f))
  | .atomAndB32 f => some (mkWord 0x170 (putMemF f))
  | .atomOrB32 f => some (mkWord 0x171 (putMemF f))
  | .atomXorB32 f => some (mkWord 0x172 (putMemF f))
  | .atomExchB32 f => some (mkWord 0x173 (putMemF f))
  | .atomExchB64 f => some (mkWord 0x174 (putMemF f))
  | .casB32 f => some (mkWord 0x175 (putMemF f))
  | .casB64 f => some (mkWord 0x176 (putMemF f))
  | .fence f => some (mkWord 0x178 (putFenceF f))
  | .poll f => some (mkWord 0x179 (putMemF f))
  | .pref f => some (mkWord 0x17A (putPrefF f))
  | .cwb f => some (mkWord 0x17B (putCacheF f))
  | .cinv f => some (mkWord 0x17C (putCacheF f))
  | .ldef f => some (mkWord 0x180 (putLdefF f))
  | .lchain f => some (mkWord 0x181 (putLchainF f))
  | .lpart f => some (mkWord 0x182 (putLpartF f))
  | .ltrans f => some (mkWord 0x183 (putLldF f))
  | .lflat f => some (mkWord 0x184 (putLflatF f))
  | .lswz f => some (mkWord 0x185 (putLldF f))
  | .lget f => some (mkWord 0x186 (putLgetF f))
  | .lchk f => some (mkWord 0x187 (putLgetF f))
  | .hset f => some (mkWord 0x188 (putHsetF f))
  | .tcopy f => some (mkWord 0x190 (putTcopyF f))
  | .gather f => some (mkWord 0x191 (putEngF f))
  | .scatter f => some (mkWord 0x192 (putEngF f))
  | .mcread f => some (mkWord 0x193 (putEngF f))
  | .rbinit f => some (mkWord 0x194 (putObjF f))
  | .rbpop f => some (mkWord 0x195 (putObjF f))
  | .rbfree f => some (mkWord 0x196 (putObjF f))
  | .coinit f => some (mkWord 0x197 (putCoinitF f))
  | .coexpect f => some (mkWord 0x198 (putObjF f))
  | .coarrive f => some (mkWord 0x199 (putObjF f))
  | .codrop f => some (mkWord 0x19A (putObjF f))
  | .cowait f => some (mkWord 0x19B (putWaitF f))
  | .cotest f => some (mkWord 0x19C (putWaitF f))
  | .trsend f => some (mkWord 0x19D (putEngF f))
  | .mloopBf16 f => some (mkWord 0x1A0 (putMloopF f))
  | .mloopF16 f => some (mkWord 0x1A1 (putMloopF f))
  | .mloopE4m3 f => some (mkWord 0x1A2 (putMloopF f))
  | .mloopE5m2 f => some (mkWord 0x1A3 (putMloopF f))
  | .mloopI8 f => some (mkWord 0x1A4 (putMloopF f))
  | .mloopHx4 f => some (mkWord 0x1A5 (putMloopF f))
  | .mloopF64 f => some (mkWord 0x1A6 (putMloopF f))
  | .mzero f => some (mkWord 0x1A8 (putMzeroF f))
  | .mlda f => some (mkWord 0x1A9 (putMldF f))
  | .msta f => some (mkWord 0x1AA (putMldF f))
  | .mrd f => some (mkWord 0x1AB (putMmovF f))
  | .mwr f => some (mkWord 0x1AC (putMmovF f))
  | .mstat f => some (mkWord 0x1AD (putMstatF f))
  | .spawn f => some (mkWord 0x1B0 (putSpawnF f))
  | .spawnTry f => some (mkWord 0x1B1 (putSpawnF f))
  | .close f => some (mkWord 0x1B2 (putSaF f))
  | .tbset f => some (mkWord 0x1B3 (putTbF f))
  | .tbclr f => some (mkWord 0x1B4 (putTbF f))
  | .tbtest f => some (mkWord 0x1B5 (putTbtF f))
  | .join f => some (mkWord 0x1B6 (putSdaF f))
  | .leave => some (mkWord 0x1B7 0)
  | .bar f => some (mkWord 0x1B8 (putSdF f))
  | .launch f => some (mkWord 0x1B9 (putLaunchF f))
  | .verdict f => some (mkWord 0x1BA (putSaF f))
  | .bra f => some (mkWord 0x1C0 (putBraF f))
  | .call f => some (mkWord 0x1C1 (putCallF f))
  | .ret => some (mkWord 0x1C2 0)
  | .exit => some (mkWord 0x1C3 0)
  | .drain => some (mkWord 0x1C4 0)
  | .yield => some (mkWord 0x1C5 0)
  | .give f => some (mkWord 0x1C6 (putGiveF f))
  | .claim f => some (mkWord 0x1C7 (putGiveF f))
  | .claimTry f => some (mkWord 0x1C8 (putClaimTryF f))
  | .trap f => some (mkWord 0x1C9 (putTrapF f))
  | .bkpt f => some (mkWord 0x1CA (putTrapF f))
  | .nop => some (mkWord 0x1CB 0)
  | .srd f => some (mkWord 0x1D0 (putSrF f))
  | .swr f => some (mkWord 0x1D1 (putSrF f))
  | .ptew f => some (mkWord 0x1D2 (putPtewF f))
  | .poolpop f => some (mkWord 0x1D3 (putPopF f))
  | .lpinv f => some (mkWord 0x1D4 (putInvF f))
  | .tlbinv f => some (mkWord 0x1D5 (putInvF f))
  | .iinv f => some (mkWord 0x1D6 (putInvF f))
  | .rft => some (mkWord 0x1D7 0)
  | .parkedRestoke _ => none
  | .vectorPass _ _ => none
  | .resultWriteback _ _ => none
  | .hsetComplete _ => none
  | .engineOpStart _ => none
  | .engineOpArrive _ => none
  | .objectApply _ _ _ => none
  | .cowaitResult _ => none
  | .rbpopResult _ => none
  | .mcreadRequestArrive _ => none
  | .mcreadSessionTimeout _ => none
  | .mcreadLineSend _ => none
  | .mcreadLineWrite _ => none
  | .tileFetchPin _ => none
  | .matrixStepStart _ => none
  | .matrixStepResult _ => none
  | .tileMoveComplete _ _ => none
  | .tileLoadStoreComplete _ => none
  | .spawnAccept _ => none
  | .cordCloseApply _ => none
  | .tileBufferApply _ => none
  | .taskEnterCord => none
  | .crewOpApply _ _ => none
  | .barReturn _ => none
  | .claimGrant _ => none
  | .ptewApply _ => none
  | .poolpopComplete _ => none
  | .translationSweepEnd _ => none
  | .iinvSweepEnd _ => none
  | .handlerEntry _ => none
  | .pageWalk _ _ _ _ _ => none
  | .icacheFill _ _ _ => none
  | .memoryRequestApply _ _ => none
  | .memoryResponse _ => none
  | .storeAck _ => none
  | .pollReread _ => none
  | .l2Fill _ => none
  | .writebackAck _ => none
  | .hostWritePerformed _ => none
  | .waveRetire _ => none
  | .tileCommit _ => none
  | .tileDiscard _ => none
  | .exactItemsEnter _ => none
  | .tileReserve _ => none
  | .queueDoorbell _ _ => none
  | .launchRecordIntake _ => none
  | .bindRecordWrite _ _ _ => none
  | .waveCreate _ => none
  | .queueAgeing _ => none
  | .gangCloseSet _ _ => none
  | .preemptSave _ => none
  | .waveResume _ _ _ => none
  | .launchEnd _ => none
  | .watchdogLimit _ => none
  | .createContext _ => none
  | .destroyContext _ => none
  | .setContextRoots _ => none
  | .writeRegionBounds _ => none
  | .addPoolFrames _ => none
  | .grantTbWindow _ => none
  | .setPriorityCap _ => none
  | .setAge _ => none
  | .setGangwait _ => none
  | .installKey _ => none
  | .writeImportSlot _ => none
  | .writeImportEntry _ => none
  | .configureSpan _ => none
  | .terminateLaunch _ => none
  | .resumeWave _ => none
  | .setRoute _ => none
  | .setPackageNumber _ => none
  | .qcfgWrite _ _ => none
  | .semaphoreWrite _ _ _ => none
  | .plimWattsWrite _ _ => none
  | .recoveryAppend _ _ => none
  | .recoveryCheck _ _ => none
  | .controlWindowWrite _ _ _ _ => none
  | .powerOn => none
  | .functionReady _ => none
  | .flitReceive _ _ => none
  | .importIngress _ => none
  | .fabricTimeout _ => none
  | .correctedError _ => none
  | .uncorrectableSectorError _ => none
  | .registerArrayError _ => none
  | .scratchpadError _ _ => none
  | .cacheArrayError _ => none
  | .slotTableError => none
  | .powerLimitExceeded => none
  | .thermalThrottle => none
  | .thermalShutdown => none
  | .modulePowerOff => none
  | .unknownCommandCode _ => none

/-- The word with its chain bit set (R28). -/
def withChain (w : Word) : Word := BitVec.ofNat 32 (w.toNat % 2 ^ 31 + 2 ^ 31)

end Sys2Proof
end

