-- ==== Sys2Proof/Config.lean ====
section
/-!
DEFINITION. What the spec leaves open: free values. Each is a constant with no body, so nothing can be proved of its
value; a counter in the state, or the operands, make each use its own.
-/
namespace Sys2Proof.Config

/-- Which of the actions that can happen next does happen (log 5). -/
opaque choose : Nat → Nat

/-- How many clk pass until the next action (log 5). -/
opaque clkSlack : Nat → Nat

/-- The value a bounded-error function returns for an operand (R130 to R132): the function's number, the format's number
and the operand's bits. It is used only where it lies within the stated bound. -/
opaque approx : Nat → Nat → Nat → Nat

/-- A byte of a sector read under another key than the one that wrote it (R211): by reading key, address, and what the
sector's ciphertext comes from, its plaintext and the label of the key that wrote it. -/
opaque xtsByte : Nat → Nat → Nat → BitVec 8

/-- The set of an L1 read cache, a core TLB or an instruction cache that an address uses, whose index the spec does not give
(R205, R378, R383; log 10): 0 the L1, 1 the TLB, 2 the instruction cache. -/
opaque setIndex : Nat → Nat → Nat

/-- A byte read from host memory or from a peer package: the host and the peer write it as they please (R228). -/
opaque outsideByte : Nat → BitVec 8

/-- How a peer package or the host answers a request: 1 refused, 2 refused for want of write permission, 3 no answer within the time
limit, other: served (R403, R404). -/
opaque peerAnswer : Nat → Nat

/-- PWR, the module's power in the last millisecond (R393, R412). -/
opaque power : Nat → BitVec 32

/-- A 32-bit word whose value the spec does not state. -/
opaque freeWord : Nat → BitVec 32

/-- What a walk reads where a page table lies beyond the installed memory, by address (R376, R395; log 20). -/
opaque strayEntry : Nat → BitVec 64

/-- Whether a firmware image passes the ECDSA and SHA-256 check (R409, R410): the fused key is not given. -/
opaque imageGood : List (BitVec 8) → Bool

/-- Whether the image in the board's flash passes the check at a power-on (R409). -/
opaque flashGood : Nat → Bool

/-- Whether a wrapped key pair unwraps (R407): the wrapping key is not given. -/
opaque unwrapGood : Nat → Bool

end Sys2Proof.Config
end

