-- ==== Sys2Proof/Machine/Num.lean ====
section
/-!
DEFINITION. Exact values of number formats (R115, R134, R136): what a code stands for before any rounding.
-/
namespace Sys2Proof.Machine

/-- The exact value of a code: a NaN (signalling or quiet), an infinity, or (-1)^neg · m · 2^e with its sign kept for
zero. -/
inductive FVal where
  | nan (signalling : Bool)
  | inf (neg : Bool)
  | fin (neg : Bool) (m : Nat) (e : Int)
deriving DecidableEq, Repr

end Sys2Proof.Machine
end

