-- ==== Sys2Proof/Machine/Table.lean ====
section
/-!
DEFINITION. Sparse tables: lists of (key, value) pairs in one canonical form, keys strictly rising and no entry zero.
An unlisted key reads zero. Memory (bytes by physical address) and the register files are such tables.
-/
namespace Sys2Proof.Machine

/-- A sparse table of `n`-bit values. -/
abbrev Table (n : Nat) := List (Nat × BitVec n)

/-- The value at a key; an unlisted key holds zero. -/
def tget {n : Nat} : Table n → Nat → BitVec n
  | [], _ => 0
  | (a, v) :: t, k => if k = a then v else tget t k

/-- The table without its entry at `k`. -/
def terase {n : Nat} : Table n → Nat → Table n
  | [], _ => []
  | (a, v) :: t, k => if k = a then terase t k else (a, v) :: terase t k

/-- An entry put in its place by key. -/
def tinsert {n : Nat} : Table n → Nat → BitVec n → Table n
  | [], k, v => [(k, v)]
  | (a, x) :: t, k, v => if k < a then (k, v) :: (a, x) :: t else (a, x) :: tinsert t k v

/-- The table with `v` at `k`; writing zero removes the entry. -/
def tset {n : Nat} (t : Table n) (k : Nat) (v : BitVec n) : Table n :=
  if v = 0 then terase t k else tinsert (terase t k) k v

/-- Every key at or above a bound. -/
def tabove {n : Nat} (b : Nat) : Table n → Bool
  | [] => true
  | (a, _) :: t => decide (b ≤ a) && tabove b t

/-- The canonical form: keys strictly rising, no entry zero. -/
def twf {n : Nat} : Table n → Bool
  | [] => true
  | (a, v) :: t => decide (v ≠ 0) && tabove (a + 1) t && twf t

/-- Write a run of values at consecutive keys. -/
def tsetRun {n : Nat} (t : Table n) (k : Nat) : List (BitVec n) → Table n
  | [] => t
  | v :: vs => tsetRun (tset t k v) (k + 1) vs

/-- Read a run of values at consecutive keys. -/
def tgetRun {n : Nat} (t : Table n) (k : Nat) : Nat → List (BitVec n)
  | 0 => []
  | m + 1 => tget t k :: tgetRun t (k + 1) m

/-- The entries of a table whose keys fail a test, removed. -/
def tdrop {n : Nat} (p : Nat → Bool) : Table n → Table n
  | [] => []
  | (a, v) :: t => if p a then tdrop p t else (a, v) :: tdrop p t

/-- The first element of a list with a property, with its place. -/
def findIdxFrom {α : Type} (p : α → Bool) (i : Nat) : List α → Option Nat
  | [] => none
  | x :: xs => if p x then some i else findIdxFrom p (i + 1) xs

/-- A list with the element at a place replaced (unchanged beyond its end). -/
def setAt {α : Type} : List α → Nat → α → List α
  | [], _, _ => []
  | _ :: xs, 0, y => y :: xs
  | x :: xs, i + 1, y => x :: setAt xs i y

/-- A list with the element at a place changed by a function. -/
def modAt {α : Type} (f : α → α) : List α → Nat → List α
  | [], _ => []
  | x :: xs, 0 => f x :: xs
  | x :: xs, i + 1 => x :: modAt f xs i

/-- A list without the element at a place. -/
def dropAt {α : Type} : List α → Nat → List α
  | [], _ => []
  | _ :: xs, 0 => xs
  | x :: xs, i + 1 => x :: dropAt xs i

end Sys2Proof.Machine
end

