-- ==== Sys2Proof/Machine/State.lean ====
section
/-!
DEFINITION. The state of the machine: everything the spec gives the device, as plain data. `State.w` is the wave whose
chain group is issuing; `State.waves` are the other resident waves.
-/
namespace Sys2Proof.Machine

/-- The pipes of a quadrant (R10, R22). -/
inductive Pipe where
  | valu | vdp | vmem | wave | xeng | ctrl
deriving DecidableEq, Repr

/-- What a scoreboard mark can lie on (R35). -/
inductive RegId where
  | v (n : Nat)
  | o (n : Nat)
  | lr
  | s (n : Nat)
  | q (n : Nat)
  | tile (n : Nat)
  | lay (n : Nat)
  | fpsr
deriving DecidableEq, Repr

/-- A scoreboard mark (R35): a register, the pass it lies in (`none`: every pass), and the operation that will clear it
(`none`: a pipe's latency). -/
structure Mark where
  reg : RegId
  pass : Option Nat
  op : Option Nat
deriving DecidableEq, Repr

/-- The states of a wave (R92); `none` is the state before a wave exists, `retiring` is R90's wait. -/
inductive WStatus where
  | none | running | blocked | parked | suspended | retiring | retired
deriving DecidableEq, Repr

/-- The word a wave is blocked in (R387), and what it waits for. -/
inductive Blocked where
  | none
  | claim (n : Nat)
  | hset
  | join
  | bar
  | cowait
  | rbpop
deriving DecidableEq, Repr

/-- What one faulting slot reports: its FCAUSE and its FVA (R367, R369). -/
structure SlotFault where
  slot : Nat
  cause : Word
  va : DWord
deriving DecidableEq, Repr

/-- How the continuation of a trap is found (R373). -/
inductive TrapKind where
  /-- The word after FPC's chain group. -/
  | word
  /-- TRAP, BKPT and fetch: the packet that follows (R81). -/
  | packet
  /-- A trap before a header or in a blocked word: FPC itself. -/
  | header
  /-- A fault of a word of RFT's own group (R368): it escalates as one of supervisor mode (R374). -/
  | partner
deriving DecidableEq, Repr

/-- A trap or fault before its delivery: its class, code and KIND, the mask and the faulters (R366 to R369). -/
structure Trap where
  cls : Nat
  mask : Mask
  fpc : DWord
  cont : DWord
  kind : TrapKind
  faults : List SlotFault
  /-- The faulting word, repeated by RFT with ACT 0 (R373). -/
  wordBits : Word
  /-- The trap escalates without entering the handler (R366: causes 0x09). -/
  escalates : Bool
deriving DecidableEq, Repr

/-- The addresses, coordinates and store data of a faulting word, as each slot first formed them (R369): a 64-bit address
by slot, coordinate `k` at `slot * 8 + k`, data word `k` at `slot * 8 + k`. -/
structure Capture where
  addr : Table 64
  coord : Table 32
  data : Table 32
deriving DecidableEq, Repr

/-- The fault frame (R369), with the SETA and SETB of the clause it interrupts (R31). -/
structure Frame where
  lr0 : Table 32
  lr1 : Table 32
  fpcr : Word
  fpsr : Word
  seta : Nat
  setb : Nat
  trap : Trap
  cap : Capture
deriving DecidableEq, Repr

/-- One mode of a layout register (R174). -/
structure LMode where
  ext : Nat
  step : Int
  lev : Nat
  die : Bool
deriving DecidableEq, Repr

/-- A layout register (R174). No modes: the register is empty. `km` is 7 when there is no K mode. -/
structure Layout where
  modes : List LMode
  km : Nat
  hidx : Nat
  sb : Nat
  sm : Nat
  ss : Nat
  origin : Int
  dorg : Int
deriving DecidableEq, Repr

/-- A wave (R17, R42, R75, R361 to R372, R386). Per-thread registers are keyed `reg * 128 + slot`; `o` holds o0..o7 as
registers 0..7 and the supervisor copies of o4..o7 as 8..11; `s` holds s0..s63 and the supervisor copies of s48..s63 as
64..79; bit 8 of `q` is the supervisor q7 and key 12 of `flags` the supervisor f11 (R370). Tiles are keyed
`tile * 256 + element`. `isNew` holds until the first clause header has issued (R310). `placed` orders the
waves by their placement (R347), and `group`, when not 0, numbers the set of waves that a pre-emption takes together (R330, R387).
`engFlags` are the flags that an engine operation has incremented and no header has joined (R205, R246), keyed as `flags` is;
`scSys` holds once the wave has executed a FENCE.sc at system scope (R244). `again`: a JOIN or BAR that the wave was stopped in, and that
issues again alone, as later words of its group have taken effect (R28, R387): its address, and where the wave then goes on. -/
structure Wave where
  uid : Nat
  status : WStatus
  quad : Nat
  wslot : Nat
  ctx : Nat
  launch : Nat
  cord : Nat
  waveNo : Nat
  role : Nat
  width : Nat
  nregs : Nat
  acc : Nat
  nlay : Nat
  args : Nat
  prio : Nat
  polls : Nat
  supervisor : Bool
  draining : Bool
  pc : DWord
  rstack : List DWord
  seta : Nat
  setb : Nat
  exec : Mask
  live : Mask
  fresh : Mask
  v : Table 32
  o : Table 32
  lr0 : Table 32
  lr1 : Table 32
  item : Table 32
  s : Table 32
  q : BitVec 9
  flags : Table 6
  fpcr : Word
  fpsr : Word
  lays : List Layout
  tiles : Table 32
  tstat : Table 32
  hctl : Word
  fpc : DWord
  uexec : Mask
  fmask : Mask
  frame : Frame
  trap : Option Trap
  sbstall : Word
  wdcnt : DWord
  wdArmed : Bool
  trcost : Word
  bcd : Word
  mlstep : Word
  efcause : Word
  efva : DWord
  marks : List Mark
  blocked : Blocked
  blockArg : Nat
  crew : Option Nat
  token : Option Nat
  verdict : Option DWord
  replay : Bool
  isNew : Bool
  placed : Nat
  group : Nat
  engFlags : BitVec 13
  scSys : Bool
  again : Option (DWord × DWord)
deriving DecidableEq, Repr

/-! ### Memory accesses in flight -/

/-- Where an access lands: a byte offset in the launch's scratchpad reservation on a core, device memory under a key
index, the host window, or a byte of the export that an import slot of a context names (R200, R201, R395, R402). -/
inductive Loc where
  | scr (core off : Nat)
  | dev (pa key : Nat)
  | host (pa : Nat)
  | imp (ctx slot off : Nat)
deriving DecidableEq, Repr

/-- One access: a slot's part of a memory word, or one piece of it (R214, R228). `voff` is its byte offset in the slot's
value; `kind` the page kind (R231: 0 RC, 1 SO, 2 UN). `seen`: the waves and slots that have read a store of the core in its L1 before
it is performed (R205, R230). -/
structure Acc where
  slot : Nat
  loc : Loc
  va : DWord
  size : Nat
  voff : Nat
  kind : Nat
  data : List Byte
  got : List Byte
  done : Bool
  acked : Bool
  seen : List (Nat × Nat) := []
deriving DecidableEq, Repr

/-- What a memory operation does at the point that serves it. -/
inductive MKind where
  | load
  | store
  | atom (k : Nat)
  | cas
  | poll
  | pref
  | cwb
  | cinv
deriving DecidableEq, Repr

/-- Where a loaded value goes: nowhere, a per-thread register block (`fmt`: 0 zero-extend, 1 sign-extend from the size),
or wave registers. -/
inductive Dest where
  | none
  | thread (sel n : Nat) (signed : Bool)
  | wave (reg n : Nat)
deriving DecidableEq, Repr

/-- A memory word in flight (R215): one operation of a wave with its accesses in slot order. `seq` is its place in the
wave's program order, `sup` the mode at issue, which chooses the banked registers (R370). `fwd`: its reads may be served by
forwarding (R244). `unsent`: it was saved with its wave before it left the core (R249). -/
structure MemOp where
  id : Nat
  wave : Nat
  launch : Nat
  core : Nat
  quad : Nat
  ctx : Nat
  kind : MKind
  size : Nat
  seq : Nat
  dest : Dest
  q : Nat
  sc : Nat
  hint : Nat
  l1 : Bool
  flag : Option Nat
  entries : Nat
  accs : List Acc
  backoff : Nat
  token : Option Nat
  sup : Bool
  fwd : Bool
  unsent : Bool
deriving DecidableEq, Repr

/-- A write held by a die's fabric port until it is performed at its target (R244, R430); `readers` are the waves that
were served from it, `va` its pointer. -/
structure HeldWrite where
  die : Nat
  op : Nat
  acc : Nat
  loc : Loc
  data : List Byte
  readers : List Nat
  va : DWord
deriving DecidableEq, Repr

/-- A fence in force (R239): no later VMEM or XENG word of the wave issues until its condition holds. -/
structure FenceHold where
  wave : Nat
  kind : Nat
  sc : Nat
  seq : Nat
deriving DecidableEq, Repr

/-- A launch's scratchpad reservation on a core (R201), its sync lines (by line number) and the positions initialised
as objects or rings (by 16-byte position) (R204, R257, R260, R271). -/
structure Resv where
  launch : Nat
  core : Nat
  base : Nat
  size : Nat
  mem : Table 8
  sync : List Nat
  objs : List Nat
  rings : List Nat
deriving DecidableEq, Repr

/-- A 64-byte sector in a core's L1 read cache (R205), most recently used first in `State.l1`. -/
structure L1Line where
  core : Nat
  pa : Nat
  key : Nat
  bytes : List Byte
deriving DecidableEq, Repr

/-- A line in an L2 slice (R206 to R208): its 512-byte address, whether it is held compressed, its priority, the valid
and dirty sectors, its place among the 32 half-frames of its set (32: a tag alone, of banked sectors in the spill area, R352), whether it is
invalidated when its pin is released (R226), the token of a banked copy (R352), and whether it waits for a whole frame to
expand into (R207). Most recently used first in `State.l2`. -/
structure L2Line where
  pa : Nat
  comp : Bool
  prio : Nat
  valid : BitVec 8
  dirty : BitVec 8
  half : Nat
  inv : Bool
  token : Option Nat
  grow : Bool
deriving DecidableEq, Repr

/-- A request entry of a slice's miss table (R209): the line, the sectors on their way, those of them that are written, and
the priority asked for. -/
structure Fill where
  pa : Nat
  sectors : BitVec 8
  dirty : BitVec 8
  prio : Nat
deriving DecidableEq, Repr

/-- A miss that waits at its slice's request input for a free request entry (R209): its address, its priority, whether it writes, and
whether it writes a whole sector. -/
structure Miss where
  pa : Nat
  prio : Nat
  write : Bool
  full : Bool
deriving DecidableEq, Repr

/-- An entry of a core TLB (R378). -/
structure TlbEnt where
  core : Nat
  ctx : Nat
  base : Nat
  size : Nat
  leaf : DWord
deriving DecidableEq, Repr

/-- What a lane's last-page register holds (R378): a leaf, or a marker with the cause, level and first-touch bit. -/
inductive LaneVal where
  | leaf (e : DWord)
  | marker (code level : Nat) (ft : Bool)
deriving DecidableEq, Repr

/-- A lane's last-page register (R378). -/
structure LaneReg where
  quad : Nat
  lane : Nat
  ctx : Nat
  base : Nat
  size : Nat
  val : LaneVal
deriving DecidableEq, Repr

/-- A 192-byte block of an instruction cache, under its context and VA[48:0] (R383). -/
structure IBlock where
  core : Nat
  ctx : Nat
  va : Nat
  bytes : List Byte
deriving DecidableEq, Repr

/-! ### Engines, objects, the matrix unit -/

/-- The words whose operations move data (R251, R304); `mloop` stands for an MLOOP's operand reads (R297). -/
inductive EngKind where
  | tcopy | gather | scatter | mcread | trsend | mlda | msta | mloop
deriving DecidableEq, Repr

/-- An engine operation (R245, R251 to R275, R304): its copies of layouts and handle entries, its parameters, how far it
has come (`left` are the destination elements, blocks or rows still to move; `next` and `total` count the lines of an MCREAD),
and its status bits (R257: OOB, NX, UF, OF, NV, QERR,
FAULT from bit 0). `obj` is the object's core and offset; `sh` and `dh` are the hints of its source and destination; `fpv`
holds, by element, the fingerprinted values in binary64 (R265) or the tile values that an MSTA stores, `xl` an MCREAD's
translated granules as (virtual, physical, key) (R269), `waiting` that it waits for a frame of an empty pool (R275). `fwd`: its
reads may be served by forwarding (R244). `lost`: its object's line has become an ordinary line (R260). -/
structure EngOp where
  id : Nat
  wave : Nat
  launch : Nat
  ctx : Nat
  core : Nat
  quad : Nat
  engine : Nat
  kind : EngKind
  opc : Nat
  ld : Layout
  hd : BitVec 256
  la : Layout
  ha : BitVec 256
  obj : Option (Nat × Nat)
  tag : Nat
  flag : Option Nat
  rel : Nat
  mode : Nat
  sat : Bool
  fp : Bool
  qb : Nat
  rm : Nat
  count : Nat
  list : DWord
  key : Nat
  expm : Nat
  tile : Nat
  seq : Nat
  started : Bool
  next : Nat
  total : Nat
  slot : Option Nat
  ringCore : Nat
  stat : Nat
  joined : Bool
  token : Option Nat
  sh : Nat
  dh : Nat
  fpv : Table 64
  xl : List (Nat × Nat × Nat)
  waiting : Bool
  left : List Nat
  fwd : Bool
  lost : Bool
deriving DecidableEq, Repr

/-- The operations that reach a completion object or a ring descriptor (R259, R272); `void` is an arrival at a former object,
which counts nowhere (R260). -/
inductive ObjKind where
  | coinit (exp : Nat) (unsync : Bool)
  | expect (bytes : Nat)
  | arrive (bytes : Nat)
  | drop
  | engArrive (bytes tag stat : Nat)
  | rbinit (sbase ssize nslot feed : Nat)
  | rbfree
  | void
deriving DecidableEq, Repr

/-- An object or ring operation on its way (R258): in issue order of its wave. -/
structure ObjOp where
  wave : Nat
  quad : Nat
  engine : Option Nat
  launch : Nat
  core : Nat
  off : Nat
  kind : ObjKind
  flag : Option Nat
  seq : Nat
deriving DecidableEq, Repr

/-- A waiting COWAIT, COTEST or RBPOP (R262, R272). -/
inductive WaitKind where
  | cowait | cotest | rbpop
deriving DecidableEq, Repr

/-- The record of a word that waits at an object or ring for its result. -/
structure ObjWait where
  wave : Nat
  launch : Nat
  core : Nat
  off : Nat
  kind : WaitKind
  phase : Nat
  dest : Nat
  flag : Option Nat
  seq : Nat
deriving DecidableEq, Repr

/-- A taker that waits for a ring's next slot (R292): an RBPOP, by the number of its wait, or an operand of an MLOOP. -/
structure RingAsk where
  core : Nat
  pos : Nat
  op : Nat
  isB : Bool
deriving DecidableEq, Repr

/-- A multicast session at a leader slice (R270). `lines` are physical lines with their key indices, `members` its
operations; a `solo` session serves one member without an entry of the slice. -/
structure Session where
  id : Nat
  slice : Nat
  group : Nat
  ctx : Nat
  key : Nat
  solo : Bool
  lines : List (Nat × Nat)
  want : Nat
  members : List Nat
  sending : Bool
  sent : Nat
  replays : List (Nat × Nat)
  opened : Nat
deriving DecidableEq, Repr

/-- A multicast or replayed line on its way to a member (R279): operation, line address, data. -/
structure McLine where
  op : Nat
  line : Nat
  data : List Byte
deriving DecidableEq, Repr

/-- A row of a step tile in the operand collector (R280, R292): its operand, step tile and number, its status bits and its
values. -/
structure OpRow where
  isB : Bool
  unit : Nat
  row : Nat
  stat : Nat
  vals : List FVal
deriving DecidableEq, Repr

/-- An MLOOP in its quadrant's sequencer queue (R280, R284): the type's OP[3:0] in `ty`, its copies, the next step, the
step in flight and its result, the ring slots held, the latched step tiles it reuses (`kept`), whether it waits for a
frame of an empty pool, whether its reads may be served by forwarding (R244), the rows of its next step that the collector
holds, whether it has begun in its quadrant (R294), and the lines of its next step whose pins it has given up again (R293). -/
structure MatOp where
  id : Nat
  wave : Nat
  launch : Nat
  ctx : Nat
  quad : Nat
  ty : Nat
  tile : Nat
  la : Layout
  ha : BitVec 256
  lb : Layout
  hb : BitVec 256
  count : Nat
  step : Nat
  busy : Bool
  result : Table 32
  rflags : Nat
  flag : Option Nat
  latch : Option Bool
  reuseA : Bool
  reuseB : Bool
  slotA : Option Nat
  slotB : Option Nat
  seq : Nat
  token : Option Nat
  kept : List (Nat × List FVal)
  waiting : Bool
  fwd : Bool
  rows : List OpRow
  begun : Bool
  got : List Nat := []
deriving DecidableEq, Repr

/-- A quadrant's reuse latch (R294): whose operand it holds, its step tiles to a step, and the status bits and values of its
step tiles. -/
structure Latch where
  quad : Nat
  wave : Nat
  isB : Bool
  ty : Nat
  lay : Layout
  handle : BitVec 256
  per : Nat
  steps : List (Nat × List FVal)
deriving DecidableEq, Repr

/-- A line pinned by the tile fetch unit for a matrix operation (R293). -/
structure Pin where
  quad : Nat
  op : Nat
  pa : Nat
deriving DecidableEq, Repr

/-- An MRD or MWR in flight (R303). -/
structure TileMove where
  wave : Nat
  toTile : Bool
  flag : Option Nat
  id : Nat
deriving DecidableEq, Repr

/-! ### Tasks, crews, launches -/

/-- A kernel's plan (R308, R335). -/
structure Plan where
  wq : Nat
  nregs : Nat
  acc : Nat
  nlay : Nat
  args : Nat
  scratch : Nat
deriving DecidableEq, Repr

/-- An item: its ordinal and its argument record (R309). -/
structure Item where
  ord : Nat
  args : List Word
deriving DecidableEq, Repr

/-- A cord (R308, R311). A cord number that no entry of `State.cords` holds is Free. `taken` counts range items taken;
`closing` are the waves whose CLOSE is on its way (R318). -/
structure Cord where
  num : Nat
  ctx : Nat
  launch : Nat
  entry : DWord
  plan : Plan
  range : Nat
  taken : Nat
  items : List Item
  nextOrd : Nat
  closed : Bool
  closing : List Nat
  exact : Bool
deriving DecidableEq, Repr

/-- A task (R316): its cord, argument words and tile buffers (indices in the device table), and, once it has left the pen, the
number of the clk in which it did (`batch`, 0 in the pen). -/
structure Task where
  cord : Nat
  args : List Word
  ins : List Nat
  out : Option Nat
  batch : Nat
deriving DecidableEq, Repr

/-- A SPAWN or SPAWN.TRY not yet accepted or refused (R316, R317). -/
structure SpawnOp where
  wave : Nat
  launch : Nat
  ctx : Nat
  sd : Nat
  isTry : Bool
  tmpl : Option Nat
  cord : Nat
  args : List Word
  ins : List Nat
  out : Option Nat
  flag : Option Nat
  seq : Nat
deriving DecidableEq, Repr

/-- A TBSET (0), TBCLR (1) or TBTEST (2) on its way (R320); `idx` is in the device table. -/
structure TbOp where
  wave : Nat
  quad : Nat
  kind : Nat
  idx : Nat
  n : Nat
  sd : Nat
  flag : Option Nat
  seq : Nat
deriving DecidableEq, Repr

/-- A crew and its barrier (R324, R327). `place` is the core or cluster number. `waiting` holds the waves that have
arrived with their SD; `returning` those whose phase is complete, with the phase. -/
structure Crew where
  id : Nat
  launch : Nat
  scope : Nat
  place : Nat
  key : Nat
  members : List Nat
  isOpen : Bool
  pend : Nat
  inPhase : List Nat
  waiting : List (Nat × Nat)
  deferred : List (Nat × Nat)
  phase : Nat
  returning : List (Nat × Nat × Nat)
deriving DecidableEq, Repr

/-- The operations that reach a crew (R325 to R328). -/
inductive CrewKind where
  | join (sd : Nat)
  | leave
  | drop
  | bar (sd : Nat)
deriving DecidableEq, Repr

/-- A crew operation on its way. -/
structure CrewOp where
  wave : Nat
  launch : Nat
  scope : Nat
  place : Nat
  key : Nat
  kind : CrewKind
  seq : Nat
deriving DecidableEq, Repr

/-- A launch's register pool in a quadrant, in rows, and the waves blocked in CLAIM, first in line first (R96, R98). -/
structure Pool where
  launch : Nat
  quad : Nat
  rows : Nat
  line : List (Nat × Nat)
deriving DecidableEq, Repr

/-- A launch (R334 to R341). `ending` holds the END of a terminated launch; `made` is the next wave number; `since`, `sinceX` and
`sinceG` are the clk from which it, its exact cord and its next gang have waited, none when they do not wait (R346, R347, R349);
`blockedBy` that an earlier launch of its SERIAL queue is
live (R338). `tileNext` is the next tile to start, `tileDone` counts resolved tiles, `rerun` the pre-empted ones (R359),
`exactDue` the exact items that have not entered their cord (R358). -/
structure Launch where
  id : Nat
  ctx : Nat
  queue : Option Nat
  prio : Nat
  main : Nat
  exactCord : Option Nat
  roles : DWord
  rper : Nat
  gang : Nat
  gscope : Nat
  sg : Bool
  tol : DWord
  budget : Nat
  titems : Nat
  argt : List Word
  templates : List (DWord × Plan)
  scratch : Nat
  done : DWord
  irq : Bool
  vec : Nat
  stkskip : Word
  sgpass : Word
  sgfail : Word
  range : Nat
  made : Nat
  tileNext : Nat
  tileDone : Nat
  rerun : List Nat
  exactDue : List Item
  ending : Option Nat
  blockedBy : Bool
  since : Option Nat
  sinceX : Option Nat
  sinceG : Option Nat
deriving DecidableEq, Repr

/-- What a tile knows of one of its waves (R356): whether it has held an item, its verdict, whether it has retired. -/
structure TileWave where
  uid : Nat
  held : Bool
  verdict : Option DWord
  gone : Bool
deriving DecidableEq, Repr

/-- A surrogate tile under its token (R350 to R359). Banked bytes are keyed by physical address with bit 8 set in each
entry; `sectors` are the banked sectors with the key each is written under. `bound`: its gang's bind records have been
written. `phase` is 0 running, 1 resolved and to commit, 2 resolved and to discard, 3 pre-empted. `spilled` are the banked
sectors that lie in the token's spill area (R352). -/
structure STile where
  token : Nat
  launch : Nat
  tile : Nat
  next : Nat
  stop : Nat
  waves : List TileWave
  banked : Table 9
  sectors : List (Nat × Nat)
  overrun : Bool
  erred : Bool
  bound : Bool
  phase : Nat
  spilled : List Nat
deriving DecidableEq, Repr

/-- A host launch queue (R338, R394). -/
structure Queue where
  base : DWord
  cfg : Word
  head : Nat
  tail : Nat
deriving DecidableEq, Repr

/-- A launch record waiting in a queue: a LAUNCH word's record (R339) with its wave and result register. -/
structure DevLaunch where
  wave : Nat
  ctx : Nat
  level : Nat
  sd : Nat
  flag : Option Nat
  ptr : DWord
  seq : Nat
deriving DecidableEq, Repr

/-- A context (R364, R375, R379, R402). -/
structure Ctx where
  num : Nat
  span : Nat
  ptroot : DWord
  hentry : DWord
  ctxcfg : Word
  bounds : Table 128
  handles : Table 256
  pool : List DWord
  tbBase : Nat
  tbCount : Nat
  prioCap : Nat
  imports : Table 128
deriving DecidableEq, Repr

/-- A span (R405); `closedToBind` holds after a header error (R406). -/
structure Span where
  shape : Nat
  col0 : Nat
  row0 : Nat
  ncol : Nat
  nrow : Nat
  closedToBind : Bool
deriving DecidableEq, Repr

/-- A command ring (R396). -/
structure Ring where
  base : DWord
  size : Word
  head : Word
  tail : Word
deriving DecidableEq, Repr

/-- A system word in flight: PTEW, POOLPOP, LPINV, TLBINV or IINV (R379 to R383); `swept` is a TLBINV whose sweep has
ended and which waits for accesses that translated through what it removed (R381). -/
inductive SysKind where
  | ptew (ptr entry : DWord) (lvl : Nat) (force ret : Bool)
  | poolpop (val : DWord)
  | lpinv (all : Bool) (scope va : Nat)
  | tlbinv (all : Bool) (scope va : Nat)
  | iinv (all : Bool) (scope va n : Nat)
  | swept (ops : List Nat)
deriving DecidableEq, Repr

/-- A system word in flight, with its result register and flag. -/
structure SysOp where
  wave : Nat
  kind : SysKind
  sd : Nat
  flag : Option Nat
  seq : Nat
deriving DecidableEq, Repr

/-- An HSET on its way to every port (R173). -/
structure HsetOp where
  wave : Nat
  quad : Nat
  ctx : Nat
  idx : Nat
  entry : BitVec 256
deriving DecidableEq, Repr

/-- A pipe held by a multi-pass word: the passes still to begin (R23, R133). -/
structure PipeBusy where
  quad : Nat
  pipe : Pipe
  left : Nat
deriving DecidableEq, Repr

/-- What the Keystone core reports outside the device (R341, R374, R390, R392). -/
inductive Report where
  | msi (vec : Nat)
  | rejected (launch reason : Nat)
  | completion (launch ending : Nat) (va : DWord)
  | escalation (launch wave : Nat) (fpc : DWord) (mask : Mask) (cause : Word) (superFpc : DWord) (superCause : Word)
  | breakpoint (launch wave : Nat) (fpc : DWord)
  | sector (pa : Nat)
  | array (launch : Nat)
  | peer (src code : Nat) (data : List Byte)
  | stop (port : Nat)
  | answer (port value : Nat)
deriving DecidableEq, Repr

/-- An access from outside to the device's registers that no input of the instruction table stands for (R391, R392, R396): a read by
port 0, the host, in one of its BARs, or by port 1, the I3C target, in the control window; a write of BAR4; an AtomicOp of the host
in one of its BARs. -/
inductive BarAccess where
  | read (port bar off size : Nat)
  | write4 (off v : Nat)
  | atomic (bar form off size cmp v : Nat)
deriving DecidableEq, Repr

/-- Faults: reasons the machine stops. -/
inductive Fault where
  /-- Raised by `step` when the module is off and no input waits (R409): the device has no state and does nothing. Safe:
  the machine stops where the hardware does nothing. -/
  | poweredOff
deriving DecidableEq, Repr

/-- Refusals: an instruction without a meaning. -/
inductive Refusal where
  /-- Raised by an arm of `exec` whose instruction is not modelled yet. Safe: nothing follows from it. -/
  | notModelled (mnemonic : String)
deriving DecidableEq, Repr

/-- The state of the machine. Fields marked "model" are the model's own: they carry no register of the spec.

* `w`, `waves`, `saved`: the wave whose chain group issues, the other resident waves, the pre-empted waves (R92, R386).
* `src`: model: the issuing wave as it stood before its chain group (R29). `grpMore`: model: the words of the group after
  the one that executes. `grpFlags`: model: FPSR flags raised in the group (R119). `wordBits`: model: the bits of the
  executing word, whose address is `w.pc`.
* `clk`: the device clk count (R38). `freeN`: model: the counter of free values.
* `asks`: who waits for ring slots, in the order of asking (R292). `spent`: what released reservations have left in the scratchpads, until
new ones take the place (R201).
* `withheld`, `withheldV`: the clk for which issue is withheld from matrix steps, and from the vector pipes (R9, R412). `stale`: sectors
that L2 holds as they were when a new key was installed for them (R407). `turns`: model: what a home slice, a cord or the handle ports
have served in this clk, as unit, place and rank (R84, R173, R243).
* `bars`: accesses from outside to the registers that have not arrived yet (R391, R392).
* `raised`: the queues that ageing has raised, each with the launch at its head (R346). `msix`, `pba`: the MSI-X table and its
  pending bits, by vector (R392).
* `order`: the round-robin orders, wave uids by quadrant and priority (R23). `served`: by level, the queue served last, plus
one (R346). `linkReplay`: failed tries of the flit on a link (R401).
-/
structure State where
  part : Nat
  stepping : Nat
  powered : Bool
  stopped : Bool
  clk : Nat
  freeN : Nat
  nextUid : Nat
  nextOp : Nat
  w : Wave
  waves : List Wave
  saved : List Wave
  src : Option Wave
  grpMore : Nat
  grpFlags : Word
  wordBits : Word
  order : List Nat
  pipes : List PipeBusy
  inputs : List Instr
  bars : List BarAccess
  mem : Table 8
  sectorKey : Table 13
  poison : List Nat
  keys : List Nat
  memOps : List MemOp
  held : List HeldWrite
  fences : List FenceHold
  resvs : List Resv
  spent : List Resv
  l1 : List L1Line
  l2 : List L2Line
  fills : List Fill
  misses : List Miss
  wbacks : List Nat
  tlb : List TlbEnt
  lanes : List LaneReg
  icache : List IBlock
  engOps : List EngOp
  objOps : List ObjOp
  objWaits : List ObjWait
  asks : List RingAsk
  sessions : List Session
  mcLines : List McLine
  matOps : List MatOp
  latches : List Latch
  pins : List Pin
  moves : List TileMove
  cords : List Cord
  pen : List Task
  released : List Task
  spawns : List SpawnOp
  tb : Table 1
  tbOps : List TbOp
  crews : List Crew
  crewOps : List CrewOp
  pools : List Pool
  launches : List Launch
  tiles : List STile
  queues : List Queue
  intake : List DevLaunch
  slotTable : Table 128
  closedSets : List (Nat × Nat × Nat)
  ctxs : List Ctx
  sysOps : List SysOp
  hsets : List HsetOp
  raised : List (Nat × Nat)
  age : Table 16
  gangwait : Table 16
  spans : List Span
  pkg : Nat
  importTable : Table 256
  routes : Table 16
  sems : Table 2
  ready : Word
  watts : Nat
  pwr : Word
  rlen : Nat
  recBuf : Table 8
  image : List Byte
  rings : List Ring
  nextRing : Nat
  msix : Table 128
  pba : Table 1
  reports : List Report
  correctedErrors : Nat
  throttled : Bool
  withheld : Nat
  withheldV : Nat
  stale : List Nat
  turns : List (Nat × Nat × Nat)
  linkReplay : Table 8
  served : Table 8
deriving DecidableEq, Repr

/-- A trap record with nothing in it. -/
def Trap.none : Trap :=
  { cls := 0, mask := 0, fpc := 0, cont := 0, kind := .word, faults := [], wordBits := 0, escalates := false }

/-- A fault frame with nothing in it. -/
def Frame.none : Frame :=
  { lr0 := [], lr1 := [], fpcr := 0, fpsr := 0, seta := 15, setb := 15, trap := Trap.none, cap := { addr := [], coord := [], data := [] } }

/-- A wave as dispatch creates it, before its plan and place are filled in: masks zero, all registers zero, user mode
(R92, R117, R174, R198, R276, R280, R300, R361). -/
def Wave.init : Wave :=
  { uid := 0, status := .none, quad := 0, wslot := 0, ctx := 0, launch := 0, cord := 0, waveNo := 0, role := 0,
    width := 32, nregs := 8, acc := 0, nlay := 0, args := 0, prio := 0, polls := 0, supervisor := false,
    draining := false, pc := 0, rstack := [], seta := 15, setb := 15, exec := 0, live := 0, fresh := 0, v := [],
    o := [], lr0 := [], lr1 := [], item := [], s := [], q := 0, flags := [], fpcr := 0, fpsr := 0, lays := [],
    tiles := [], tstat := [], hctl := 0, fpc := 0, uexec := 0, fmask := 0, frame := Frame.none, trap := .none,
    sbstall := 0, wdcnt := 0, wdArmed := true, trcost := 0, bcd := 0, mlstep := 0, efcause := 0, efva := 0,
    marks := [], blocked := .none, blockArg := 0, crew := .none, token := .none, verdict := .none, replay := false, isNew := true,
    placed := 0, group := 0, engFlags := 0, scSys := false, again := .none }

/-- The machine right after reset, the power-on of the module (R409): no context, no wave, no key but index 0, every
register of the control window at its initial value (R393, R394, R400, R408, R412), span 0 covering the whole grid as a
mesh (R405). -/
def State.reset : State :=
  { part := 0, stepping := 1, powered := true, stopped := false, clk := 0, freeN := 0, nextUid := 1, nextOp := 1,
    w := Wave.init, waves := [], saved := [], src := none, grpMore := 0, grpFlags := 0, wordBits := 0,
    order := [], pipes := [], inputs := [], bars := [], mem := [], sectorKey := [], poison := [], keys := [0], memOps := [],
    held := [], fences := [], resvs := [], spent := [], l1 := [], l2 := [], fills := [], misses := [], wbacks := [], tlb := [], lanes := [],
    icache := [], engOps := [], objOps := [], objWaits := [], asks := [], sessions := [], mcLines := [], matOps := [],
    latches := [], pins := [], moves := [], cords := [], pen := [], released := [], spawns := [], tb := [],
    tbOps := [], crews := [], crewOps := [], pools := [], launches := [], tiles := [],
    queues := List.replicate 64 { base := 0, cfg := 1, head := 0, tail := 0 }, intake := [], slotTable := [],
    closedSets := [], ctxs := [], sysOps := [], hsets := [], raised := [], age := [], gangwait := [],
    spans := { shape := 0, col0 := 0, row0 := 0, ncol := 8, nrow := 6, closedToBind := false } ::
      List.replicate 7 { shape := 0, col0 := 0, row0 := 0, ncol := 0, nrow := 0, closedToBind := false },
    pkg := 0, importTable := [], routes := [], sems := [], ready := 0, watts := 2000, pwr := 0, rlen := 0,
    recBuf := [], image := [],
    rings := List.replicate 2 { base := 0, size := 0, head := 0, tail := 0 }, nextRing := 0, msix := [], pba := [], reports := [],
    correctedErrors := 0, throttled := false, withheld := 0, withheldV := 0, stale := [], turns := [], linkReplay := [], served := [] }

end Sys2Proof.Machine
end

