-- ==== Sys2Proof/Machine/Operands.lean ====
section
/-!
DEFINITION. The operand forms (R36 to R42): reading and writing per-thread registers, wave registers and wave specials,
inline constants, pairs, wave masks, and the banked names of supervisor mode (R370).
-/
namespace Sys2Proof.Machine

/-! ### Inline constants (R39) -/

/-- The integer column of R39 for selector `0x70 + i`. -/
def constInt (i : Nat) : Word :=
  match i with
  | 0 => 0 | 1 => 1 | 2 => 2 | 3 => 3 | 4 => 4 | 5 => 7 | 6 => 8 | 7 => 15
  | 8 => 16 | 9 => 31 | 10 => 32 | 11 => 63 | 12 => 64 | 13 => 0xFFFFFFFF | 14 => 0x7FFFFFFF | _ => 0x80000000

/-- A 32-bit pattern sign-extended to 64 bits (R39). -/
def sext64 (v : Word) : DWord := v.signExtend 64

/-! ### Masks (R75) -/

/-- Mask word `i` (R75). -/
def maskWord (m : Mask) (i : Nat) : Word := BitVec.ofNat 32 (m.toNat / 2 ^ (32 * i))

/-- A mask with word `i` replaced. -/
def setMaskWord (m : Mask) (i : Nat) (v : Word) : Mask :=
  BitVec.ofNat 128 (m.toNat - m.toNat / 2 ^ (32 * i) % 2 ^ 32 * 2 ^ (32 * i) + v.toNat * 2 ^ (32 * i))

/-- The mask whose bit `s` is `f s`, for `s` below `n`. -/
def maskOf (n : Nat) (f : Nat → Bool) : Mask :=
  BitVec.ofNat 128 ((List.range n).foldl (fun a i => if f i then a + 2 ^ i else a) 0)

/-- The slots below the width that are set in a mask, ascending. -/
def slotsIn (m : Mask) (width : Nat) : List Nat := (List.range width).filter fun i => m.getLsbD i

/-- The EXEC slots of a wave, ascending (R75). -/
def Wave.slots (w : Wave) : List Nat := slotsIn w.exec w.width

/-! ### Reading -/

/-- The wave as it stood before its chain group (R29). -/
def State.rd (s : State) : Wave := s.src.getD s.w

/-- The number under which `o(n)` is held: o4..o7 are banked in supervisor mode (R370). -/
def oIdx (w : Wave) (n : Nat) : Nat := if w.supervisor && decide (4 ≤ n) then n + 4 else n

/-- The number under which `s(n)` is held: s48..s63 are banked in supervisor mode (R370). -/
def sIdx (w : Wave) (n : Nat) : Nat := if w.supervisor && decide (48 ≤ n) then n + 16 else n

/-- The bit under which `q(n)` is held: q7 is banked in supervisor mode (R370). -/
def qIdx (w : Wave) (n : Nat) : Nat := if w.supervisor && decide (n = 7) then 8 else n

/-- The key under which `f(n)` is held: f11 is banked in supervisor mode (R370). -/
def fIdx (w : Wave) (n : Nat) : Nat := if w.supervisor && decide (n = 11) then 12 else n

/-- A per-thread selector read in a slot, integer column of the constants (R36, R39). -/
def vRead (w : Wave) (sel : BitVec 7) (slot : Nat) : Word :=
  if sel.toNat < 0x60 then tget w.v (sel.toNat * 128 + slot)
  else if sel.toNat < 0x68 then tget w.o (oIdx w (sel.toNat - 0x60) * 128 + slot)
  else match sel.toNat with
    | 0x68 => tget w.lr0 slot
    | 0x69 => tget w.lr1 slot
    | 0x6A => BitVec.ofNat 32 slot
    | 0x6B => BitVec.ofNat 32 (slot % 32)
    | 0x6C => BitVec.ofNat 32 (slot / 32)
    | 0x6D => tget w.item slot
    | 0x6E => 0
    | 0x6F => 0
    | n => constInt (n - 0x70)

/-- A per-thread 64-bit operand: an even/odd pair, or a constant sign-extended (R39, R40). -/
def vRead64 (w : Wave) (sel : BitVec 7) (slot : Nat) : DWord :=
  if 0x70 ≤ sel.toNat then sext64 (vRead w sel slot)
  else pair64 (vRead w sel slot) (vRead w (sel + 1) slot)

/-- A wave register s0..s63. -/
def sReg (w : Wave) (n : Nat) : Word := tget w.s (sIdx w n)

/-- A wave-register pair named by its even register. -/
def sReg64 (w : Wave) (n : Nat) : DWord := pair64 (sReg w n) (sReg w (n + 1))

/-- A crew's identifier as the wave special CREW reads it (R38, R324). -/
def crewWord (w : Wave) : Word := match w.crew with | some k => BitVec.ofNat 32 k | none => 0xFFFFFFFF

/-- The tile token as the wave special TILE reads it (R38). -/
def tileWord (w : Wave) : Word := match w.token with | some k => BitVec.ofNat 32 k | none => 0xFFFFFFFF

/-- A wave selector read (R38); `clk` is the device clk count. -/
def sRead (clk : Nat) (w : Wave) (sel : BitVec 7) : Word :=
  if sel.toNat < 0x40 then sReg w sel.toNat
  else if 0x70 ≤ sel.toNat then constInt (sel.toNat - 0x70)
  else match sel.toNat with
    | 0x40 => maskWord w.exec 0 | 0x41 => maskWord w.exec 1 | 0x42 => maskWord w.exec 2 | 0x43 => maskWord w.exec 3
    | 0x44 => maskWord w.live 0 | 0x45 => maskWord w.live 1 | 0x46 => maskWord w.live 2 | 0x47 => maskWord w.live 3
    | 0x48 => maskWord w.fresh 0 | 0x49 => maskWord w.fresh 1 | 0x4A => maskWord w.fresh 2
    | 0x4B => maskWord w.fresh 3
    | 0x4C => BitVec.ofNat 32 w.role
    | 0x4D => BitVec.ofNat 32 w.waveNo
    | 0x4E => crewWord w
    | 0x4F => tileWord w
    | 0x50 => BitVec.ofNat 32 w.nregs
    | 0x51 => BitVec.ofNat 32 w.width
    | 0x52 => BitVec.ofNat 32 w.cord
    | 0x53 => BitVec.ofNat 32 w.quad
    | 0x54 => BitVec.ofNat 32 clk
    | 0x55 => BitVec.ofNat 32 (clk / 2 ^ 32)
    | 0x56 => w.fpcr
    | 0x57 => w.fpsr
    | _ => 0

/-- A 64-bit wave operand: an even pair or a sign-extended constant (R39, R40). -/
def sRead64 (clk : Nat) (w : Wave) (sel : BitVec 7) : DWord :=
  if 0x70 ≤ sel.toNat then sext64 (sRead clk w sel) else sReg64 w sel.toNat

/-- The second source of a vector form: per-thread, or the wave's under X = 1 (R43, R101). -/
def bRead (s : State) (b : BitVec 7) (x : Bool) (slot : Nat) : Word :=
  if x then sRead s.clk s.rd b else vRead s.rd b slot

/-- The 64-bit second source of a vector form. -/
def bRead64 (s : State) (b : BitVec 7) (x : Bool) (slot : Nat) : DWord :=
  if x then sRead64 s.clk s.rd b else vRead64 s.rd b slot

/-- A wave predicate. -/
def qRead (w : Wave) (p : Nat) : Bool := w.q.getLsbD (qIdx w p)

/-- A completion flag. -/
def fRead (w : Wave) (f : Nat) : Nat := (tget w.flags (fIdx w f)).toNat

/-! ### Writing -/

/-- Write a per-thread register of a slot; a selector that cannot be written is left (R36). -/
def vWrite (w : Wave) (sel : BitVec 7) (slot : Nat) (v : Word) : Wave :=
  if sel.toNat < 0x60 then { w with v := tset w.v (sel.toNat * 128 + slot) v }
  else if sel.toNat < 0x68 then { w with o := tset w.o (oIdx w (sel.toNat - 0x60) * 128 + slot) v }
  else w

/-- Write consecutive per-thread registers of a slot, the lowest word first (R40). -/
def vWriteRun (w : Wave) (sel : BitVec 7) (slot : Nat) : List Word → Wave
  | [] => w
  | v :: vs => vWriteRun (vWrite w sel slot v) (sel + 1) slot vs

/-- lr1 takes the old lr0 and lr0 the result (R37). -/
def lrPush (w : Wave) (slot : Nat) (v : Word) : Wave :=
  { w with lr1 := tset w.lr1 slot (tget w.lr0 slot), lr0 := tset w.lr0 slot v }

/-- lr0 and lr1 take two results at once (R37: pairs and multi-register results). -/
def lrPair (w : Wave) (slot : Nat) (a b : Word) : Wave :=
  { w with lr0 := tset w.lr0 slot a, lr1 := tset w.lr1 slot b }

/-- The wave's s register written. -/
def sSet (w : Wave) (n : Nat) (v : Word) : Wave := { w with s := tset w.s (sIdx w n) v }

/-- Consecutive s registers written, the lowest word first. -/
def sSetRun (w : Wave) (n : Nat) : List Word → Wave
  | [] => w
  | v :: vs => sSetRun (sSet w n v) (n + 1) vs

/-- Write a wave selector (R38): s0..s63; EXEC words, ANDed with LIVE, words at or beyond WIDTH/32 discarded; FPCR and
FPSR without their reserved bits (R117, R118), FPSR with the flags its own chain group raises (R119). -/
def sWrite (grp : Word) (w : Wave) (sel : BitVec 7) (v : Word) : Wave :=
  if sel.toNat < 0x40 then sSet w sel.toNat v
  else if sel.toNat < 0x44 then
    if 32 * (sel.toNat - 0x40) < w.width then
      { w with exec := setMaskWord w.exec (sel.toNat - 0x40) (v &&& maskWord w.live (sel.toNat - 0x40)) }
    else w
  else match sel.toNat with
    | 0x56 => { w with fpcr := v &&& 3 }
    | 0x57 => { w with fpsr := (v &&& 0x3F) ||| grp }
    | _ => w

/-- A wave predicate written. -/
def qWrite (w : Wave) (p : Nat) (b : Bool) : Wave :=
  { w with q := BitVec.ofNat 9 ((List.range 9).foldl
      (fun a i => if (if i = qIdx w p then b else w.q.getLsbD i) then a + 2 ^ i else a) 0) }

/-- A completion flag set. -/
def fWrite (w : Wave) (f v : Nat) : Wave := { w with flags := tset w.flags (fIdx w f) (BitVec.ofNat 6 v) }

/-- A wave mask written to consecutive wave selectors from `d`, WIDTH/32 words (R40, R77). -/
def maskWrite (grp : Word) (w : Wave) (d : BitVec 7) (m : Mask) : Wave :=
  (List.range (w.width / 32)).foldl (fun w i => sWrite grp w (d + BitVec.ofNat 7 i) (maskWord m i)) w

/-! ### What a word reads and writes, for the checks 7 to 10 of R65 and the scoreboard -/

/-- One operand of a word. `n` is the number of consecutive registers. -/
inductive Opd where
  /-- A per-thread source. -/
  | vr (sel : BitVec 7) (n : Nat)
  /-- A per-thread destination. -/
  | vw (sel : BitVec 7) (n : Nat)
  /-- A per-thread run that need not be aligned (SPL3, CAS.b32): destination or source. -/
  | vrun (sel : BitVec 7) (n : Nat) (write : Bool)
  /-- A block that lies wholly in the main or wholly in the operand file (MRD, MWR, R283). -/
  | vblk (sel : BitVec 7) (n : Nat) (write : Bool)
  /-- A wave source. -/
  | sr (sel : BitVec 7) (n : Nat)
  /-- A wave destination of an integer wave form: s, EXEC, FPCR, FPSR. -/
  | sw (sel : BitVec 7) (n : Nat)
  /-- A wave destination that must be s0..s63 (WRED, LDW). -/
  | sd (sel : BitVec 7) (n : Nat)
  /-- A wave mask destination. -/
  | mask (sel : BitVec 7)
  /-- The mask destination of FCMP: what is not s0..s63 or EXEC0 is not writable, but for 0x6E and 0x6F (R122). -/
  | fmask (sel : BitVec 7)
  /-- Wave registers named by a 6-bit field, read. -/
  | br (n k : Nat)
  /-- Wave registers named by a 6-bit field, written. -/
  | bw (n k : Nat)
  /-- A 6-bit field that must name an even register. -/
  | even (n : Nat)
  | qr (p : Nat)
  | qw (p : Nat)
  | tr (t : Nat)
  | tw (t : Nat)
  /-- A tile that is named but not waited for (MSTAT, R301). -/
  | tnum (t : Nat)
  /-- An even tile of a pair. -/
  | teven (t : Nat)
  | lr (l : Nat)
  | lw (l : Nat)
  /-- Coordinates of LDL and STL, per-thread or (`x`) wave registers: only the first selector is checked at decode. -/
  | crd (sel : BitVec 7) (n : Nat) (x : Bool)
  /-- A special register written (SWR), by its number. -/
  | srw (n : Nat)
deriving DecidableEq, Repr

end Sys2Proof.Machine
end

