-- ==== Sys2Proof/Machine/Ops.lean ====
section
/-!
DEFINITION. The named operations the meanings share: the machine's geometry, waves and their place, memory by physical
address, the page walk, flags and the scoreboard, taking a trap, escalation, and the return from the handler.
-/
namespace Sys2Proof.Machine

/-! ### The part (R2, R3, R10 to R14) -/

/-- Clusters per die: 12 on the IXL-A192 (part 0), 9 on the IXL-B144 (R10, R13). -/
def clustersPerDie (part : Nat) : Nat := if part = 0 then 12 else 9

/-- Cluster columns per die, W of R12. -/
def colsPerDie (part : Nat) : Nat := if part = 0 then 4 else 3

/-- Cores of the part. -/
def numCores (part : Nat) : Nat := 16 * clustersPerDie part

/-- Stacks of the part (R2). -/
def numStacks (part : Nat) : Nat := if part = 0 then 8 else 6

/-- L2 slices per die (R13). -/
def slicesPerDie (part : Nat) : Nat := if part = 0 then 64 else 48

/-- Installed device memory in bytes (R395). -/
def memLimit (part : Nat) : Nat := if part = 0 then 512 * 2 ^ 30 else 384 * 2 ^ 30

/-- Trestle links and the binary64 matrix path are present (R3). -/
def hasTrestle (part : Nat) : Bool := decide (part = 0)

/-- CAPS (R3). -/
def capsValue (part stepping : Nat) : DWord :=
  if part = 0 then BitVec.ofNat 64 (0x40 * 2 ^ 40 + 0xC0 * 2 ^ 32 + 8 * 2 ^ 28 + 12 * 2 ^ 24 + 1 * 2 ^ 16 + stepping % 256 * 2 ^ 8 + 7)
  else BitVec.ofNat 64 (0x20 * 2 ^ 40 + 0x90 * 2 ^ 32 + 6 * 2 ^ 28 + 8 * 2 ^ 24 + 2 * 2 ^ 16 + stepping % 256 * 2 ^ 8 + 4)

/-- The core of a quadrant (R12). -/
def coreOf (quad : Nat) : Nat := quad / 4

/-- The cluster of a core, numbered over the device. -/
def clusterOf (core : Nat) : Nat := core / 4

/-- The die of a core (R12). -/
def dieOf (part core : Nat) : Nat := core / (4 * clustersPerDie part)

/-- The stack of a device address (R210). -/
def stackOf (part pa : Nat) : Nat := pa / 4096 % numStacks part

/-- The die of a stack (R210). -/
def stackDie (part stack : Nat) : Nat :=
  if part = 0 then stack / 2
  else match stack with
    | 0 => 0 | 1 => 0 | 2 => 1 | 3 => 2 | _ => 3

/-- The home slice of a device address: die and slice number (R206). -/
def homeSlice (part pa : Nat) : Nat × Nat :=
  let x := nbits pa 9 6 ^^^ nbits pa 15 6 ^^^ nbits pa 21 6 ^^^ nbits pa 27 6 ^^^ nbits pa 33 6 ^^^ nbits pa 39 6 ^^^
    nbits pa 45 6 ^^^ nbits pa 51 1
  (stackDie part (stackOf part pa), if part = 0 then x else x % 48)

/-- The stack and the home die of an address have reported ready (R210, R408). -/
def stackReady (s : State) (pa : Nat) : Bool :=
  let k := stackOf s.part pa
  s.ready.getLsbD (16 + k) && s.ready.getLsbD (24 + stackDie s.part k)

/-- A cluster's column and row in the package grid (R12, R14); `cl` is numbered over the device. -/
def gridPos (part cl : Nat) : Nat × Nat :=
  let d := cl / clustersPerDie part
  let c := cl % clustersPerDie part
  (colsPerDie part * (d % 2) + c % colsPerDie part, 3 * (d / 2) + c / colsPerDie part)

/-- The cluster at a place of the package grid (R14). -/
def clusterAt (part col row : Nat) : Option Nat :=
  (List.range (4 * clustersPerDie part)).find? fun cl => gridPos part cl == (col, row)

/-- A cluster lies in a span (R405). -/
def Span.holds (p : Span) (part cl : Nat) : Bool :=
  let (col, row) := gridPos part cl
  decide (p.col0 ≤ col) && decide (col < p.col0 + p.ncol) && decide (p.row0 ≤ row) && decide (row < p.row0 + p.nrow)

/-- Units numbered from here on stand for the old places of pre-empted waves (R386). -/
def savedPlace : Nat := 1024

/-! ### Waves -/

/-- A resident wave by number: the issuing one or another. -/
def State.findWave (s : State) (uid : Nat) : Option Wave :=
  if s.w.uid = uid then some s.w else s.waves.find? fun w => w.uid == uid

/-- A resident wave changed. -/
def State.modWave (s : State) (uid : Nat) (f : Wave → Wave) : State :=
  if s.w.uid = uid then { s with w := f s.w }
  else { s with waves := s.waves.map fun w => if w.uid = uid then f w else w }

/-- A wave changed, resident or pre-empted. -/
def State.modAny (s : State) (uid : Nat) (f : Wave → Wave) : State :=
  { s.modWave uid f with saved := s.saved.map fun w => if w.uid = uid then f w else w }

/-- A wave, resident or pre-empted. -/
def State.anyWave (s : State) (uid : Nat) : Option Wave :=
  match s.findWave uid with
  | some w => some w
  | none => s.saved.find? fun w => w.uid == uid

/-- The issuing wave changed. -/
def State.modW (s : State) (f : Wave → Wave) : State := { s with w := f s.w }

/-- Every resident wave, the issuing one first when there is one. -/
def State.allWaves (s : State) : List Wave :=
  if s.w.status = .none then s.waves else s.w :: s.waves

/-- A context by number. -/
def State.ctxOf (s : State) (n : Nat) : Option Ctx := s.ctxs.find? fun c => c.num == n

/-- A cluster lies in the span of a context (R405). -/
def State.inSpan (s : State) (ctx cl : Nat) : Bool :=
  match (s.ctxOf ctx).bind fun c => s.spans[c.span]? with
  | some p => p.holds s.part cl
  | none => false

/-- A launch by identifier. -/
def State.launchOf (s : State) (n : Nat) : Option Launch := s.launches.find? fun l => l.id == n

/-- A launch changed. -/
def State.modLaunch (s : State) (n : Nat) (f : Launch → Launch) : State :=
  { s with launches := s.launches.map fun l => if l.id = n then f l else l }

/-- A context changed. -/
def State.modCtx (s : State) (n : Nat) (f : Ctx → Ctx) : State :=
  { s with ctxs := s.ctxs.map fun c => if c.num = n then f c else c }

/-- A cord by number. -/
def State.cordOf (s : State) (n : Nat) : Option Cord := s.cords.find? fun c => c.num == n

/-- A cord changed. -/
def State.modCord (s : State) (n : Nat) (f : Cord → Cord) : State :=
  { s with cords := s.cords.map fun c => if c.num = n then f c else c }

/-- A surrogate tile by token. -/
def State.tileOf (s : State) (tok : Nat) : Option STile := s.tiles.find? fun t => t.token == tok

/-- A surrogate tile changed. -/
def State.modTile (s : State) (tok : Nat) (f : STile → STile) : State :=
  { s with tiles := s.tiles.map fun t => if t.token = tok then f t else t }

/-- A launch's reservation on a core. -/
def State.resvOf (s : State) (launch core : Nat) : Option Resv :=
  s.resvs.find? fun r => r.launch == launch && r.core == core

/-- A reservation changed. -/
def State.modResv (s : State) (launch core : Nat) (f : Resv → Resv) : State :=
  { s with resvs := s.resvs.map fun r => if r.launch = launch && r.core = core then f r else r }

/-! ### What is served within one clk (R84, R173, R243, R321, R327) -/

/-- A unit may still serve a request of this rank at a place in this clk: it has served none of a higher one there. Unit 0 is the
home slice of a line, 1 a cord, 2 the handle ports of a context, 3 the tile buffers, 4 a crew, 5 the semaphores, 6 the banked
store, 7 the banks of a scratchpad, 8 the host port, 9 an import window; unit 10 notes a walk that its home slice does not take in this
clk. -/
def inTurn (s : State) (unit place rank : Nat) : Bool :=
  s.turns.all fun t => t.1 != unit || t.2.1 != place || decide (t.2.2 ≤ rank)

/-- A request of a rank has been served at a place in this clk. -/
def takeTurn (s : State) (unit place rank : Nat) : State := { s with turns := (unit, place, rank) :: s.turns }

/-- The rank of an engine's requests at a home slice: after those of every quadrant (R243). -/
def engRank (engine : Nat) : Nat := 2 ^ 16 + engine

/-- The rank of the fabric and host ports' requests at a home slice: after those of every engine (R243). -/
def portRank : Nat := 2 ^ 17

/-! ### Bytes and numbers -/

/-- A little-endian number from bytes, lowest first (R5). -/
def leNat : List Byte → Nat
  | [] => 0
  | b :: bs => b.toNat + 256 * leNat bs

/-- The `n` low bytes of a number, lowest first (R5). -/
def leBytes (v : Nat) : Nat → List Byte
  | 0 => []
  | n + 1 => BitVec.ofNat 8 v :: leBytes (v / 256) n

/-- The bytes of a block of words. -/
def wordBytes (ws : List Word) : List Byte := ws.flatMap fun w => leBytes w.toNat 4

/-! ### Device memory by physical address (R200, R211, R431) -/

/-- A byte of device memory as a reader under a key index sees it: plaintext under the key that wrote its sector, and a
free value under another (R211). A sector that nothing has written reads as the table's unlisted value. -/
def devByte (s : State) (key pa : Nat) : Byte :=
  let k := (tget s.sectorKey (pa / 64)).toNat
  if k = 0 || k = key + 1 then tget s.mem pa
  else Config.xtsByte key pa (leNat (tgetRun s.mem (pa / 64 * 64) 64) * 2 ^ 13 + k)

/-- A run of device bytes. -/
def devBytes (s : State) (key pa : Nat) : Nat → List Byte
  | 0 => []
  | n + 1 => devByte s key pa :: devBytes s key (pa + 1) n

/-- The sectors that a run of bytes touches. -/
def sectorsOf (pa n : Nat) : List Nat :=
  if n = 0 then [] else (List.range ((pa + n - 1) / 64 + 1 - pa / 64)).map fun i => pa / 64 + i

/-- A sector comes under a writer's key: what another key wrote there stays as the writer's key decrypts it (R211, R431). -/
def rekey (key : Nat) (s : State) (x : Nat) : State :=
  let k := (tget s.sectorKey x).toNat
  { s with
    mem := if k = 0 || k = key + 1 then s.mem else tsetRun s.mem (64 * x) (devBytes s key (64 * x) 64)
    sectorKey := tset s.sectorKey x (BitVec.ofNat 13 (key + 1)) }

/-- A run of device bytes written under a key; a sector's poison ends when a store writes all 64 bytes of it (R390). -/
def devWrite (s : State) (key pa : Nat) (bs : List Byte) : State :=
  let s1 := (sectorsOf pa bs.length).foldl (rekey key) s
  { s1 with
    mem := tsetRun s1.mem pa bs
    poison := s1.poison.filter fun x => !(decide (pa ≤ 64 * x) && decide (64 * x + 64 ≤ pa + bs.length)) }

/-- Some byte of a run lies in a poisoned sector (R390). -/
def isPoisoned (s : State) (pa n : Nat) : Bool :=
  s.poison.any fun x => decide (64 * x < pa + n) && decide (pa < 64 * x + 64)

/-! ### Translation (R375 to R378) -/

/-- How a walk ends: a leaf with its page's base and size, or the cause, the level it stopped at and the first-touch bit. -/
inductive WalkRes where
  | leaf (e : DWord) (base size : Nat)
  | fail (code level : Nat) (ft : Bool)
deriving DecidableEq, Repr

/-- A page-table entry read at its home slice, or the memory cause with which the walk ends: a stack that is not ready (R210), a
poisoned entry (R390). Beyond the installed memory there is no home slice and the value read is free (log 20). -/
def readPte (s : State) (pa : Nat) : Except Nat DWord :=
  if memLimit s.part < pa + 8 then .ok (Config.strayEntry pa)
  else if !stackReady s pa then .error 9
  else if isPoisoned s pa 8 then .error 3 else .ok (BitVec.ofNat 64 (leNat (tgetRun s.mem pa 8)))

/-- FRAME and [15:8] of an entry as an address (R377). -/
def pteAddr (e : DWord) : Nat := nbits e.toNat 8 44 * 256

/-- A present leaf of a page of `2^k` bytes is well-formed (R377). -/
def leafOk (part : Nat) (e : DWord) (k : Nat) : Bool :=
  let x := e.toNat
  let pa := nbits x 16 36 * 2 ^ 16
  decide (nbits x 7 9 = 0) && decide (nbits x 4 2 ≠ 3) && decide (pa % 2 ^ k = 0) &&
    (decide (2 ≤ pa / 2 ^ 50) || decide (pa + 2 ^ k ≤ memLimit part))

/-- A present table entry, whose table is aligned to `2^k` bytes, is well-formed (R377). -/
def tableOk (e : DWord) (k : Nat) : Bool :=
  let x := e.toNat
  decide (nbits x 52 12 = 0) && decide (nbits x 1 7 = 0) && decide (pteAddr e % 2 ^ k = 0)

/-- The walk of R376 from a table at `level`; `fuel` levels are left. -/
def walkFrom (s : State) (va : Nat) : Nat → Nat → Nat → WalkRes
  | 0, level, _ => .fail 3 level false
  | fuel + 1, level, tbl =>
    let (lo, n, page, next) := match level with
      | 0 => (39, 10, 39, 12)
      | 1 => (30, 9, 30, 12)
      | 2 => (21, 9, 21, 8)
      | _ => (16, 5, 16, 0)
    match readPte s (tbl + 8 * nbits va lo n) with
    | .error c => .fail c level false
    | .ok e =>
      if !e.getLsbD 0 then .fail 3 level (decide (level = 3) && e.getLsbD 3)
      else if decide (level = 3) || (decide (1 ≤ level) && e.getLsbD 6) then
        if leafOk s.part e page then
          .leaf e (va / 2 ^ page * 2 ^ page) (2 ^ page)
        else .fail 3 level false
      else if tableOk e next then walkFrom s va fuel (level + 1) (pteAddr e)
      else .fail 3 level false

/-- The walk of a virtual address in a context (R376). -/
def walk (s : State) (c : Ctx) (va : Nat) : WalkRes := walkFrom s va 4 0 c.ptroot.toNat

/-- The index bits of a level (R376). -/
def levIdx (level va : Nat) : Nat :=
  match level with
  | 0 => nbits va 39 10
  | 1 => nbits va 30 9
  | 2 => nbits va 21 9
  | _ => nbits va 16 5

/-- The physical address of the entry at a level, through present table entries; `n` levels are left (R376, R380). -/
def pteAt (s : State) (va : Nat) : Nat → Nat → Nat → Option Nat
  | 0, level, tbl => some (tbl + 8 * levIdx level va)
  | n + 1, level, tbl =>
    match readPte s (tbl + 8 * levIdx level va) with
    | .error _ => none
    | .ok e =>
      if e.getLsbD 0 && !(decide (1 ≤ level) && e.getLsbD 6) && tableOk e (match level with | 0 => 12 | 1 => 12 | _ => 8) then
        pteAt s va n (level + 1) (pteAddr e)
      else none

/-- The addresses of the entries that a walk reads, in ascending level (R376); `fuel` levels are left. -/
def walkReads (s : State) (va : Nat) : Nat → Nat → Nat → List Nat
  | 0, _, _ => []
  | fuel + 1, level, tbl =>
    let pa := tbl + 8 * levIdx level va
    pa :: match readPte s pa with
      | .error _ => []
      | .ok e =>
        if e.getLsbD 0 && decide (level < 3) && !(decide (1 ≤ level) && e.getLsbD 6) && tableOk e (match level with | 0 => 12 | 1 => 12 | _ => 8) then
          walkReads s va fuel (level + 1) (pteAddr e)
        else []

/-- What the Keystone core reports of a walk that fails at an entry with an uncorrectable error (R390). -/
def walkErrors (s : State) (c : Ctx) (va : Nat) : List Report :=
  match walk s c va with
  | .fail 3 lv false => match pteAt s va lv 0 c.ptroot.toNat with
    | some pa => if isPoisoned s pa 8 then [.sector pa] else []
    | none => []
  | _ => []

/-- The physical address of a leaf's page at a virtual address (R376). -/
def leafPa (e : DWord) (va size : Nat) : Nat := nbits e.toNat 16 36 * 2 ^ 16 / size * size + va % size

/-- A leaf's key index (R377). -/
def leafKey (e : DWord) : Nat := nbits e.toNat 52 12

/-- A leaf's page kind: 0 RC, 1 SO, 2 UN (R377). -/
def leafKind (e : DWord) : Nat := nbits e.toNat 4 2

/-- The region bounds entry of a pointer admits `n` bytes (R375). -/
def regionOk (c : Ctx) (ptr : DWord) (n : Nat) : Bool :=
  let e := (tget c.bounds (ptr.toNat / 2 ^ 56)).toNat
  let va := ptr.toNat % 2 ^ 49
  decide (nbits e 127 1 = 1) && decide (nbits e 0 33 ≤ va / 2 ^ 16) && decide ((va + n - 1) / 2 ^ 16 ≤ nbits e 64 33)

/-- How many bytes of an access that its region does not admit come before the first one outside (R369, R375). -/
def regionOff (c : Ctx) (ptr : DWord) : Nat :=
  let e := (tget c.bounds (ptr.toNat / 2 ^ 56)).toNat
  let va := ptr.toNat % 2 ^ 49
  if nbits e 127 1 = 1 ∧ nbits e 0 33 ≤ va / 2 ^ 16 then (nbits e 64 33 + 1) * 2 ^ 16 - va else 0

/-- The region of a pointer allows writes (R375). -/
def regionW (c : Ctx) (ptr : DWord) : Bool := (tget c.bounds (ptr.toNat / 2 ^ 56)).getLsbD 126

/-- The region of a pointer allows fetches (R375). -/
def regionX (c : Ctx) (ptr : DWord) : Bool := (tget c.bounds (ptr.toNat / 2 ^ 56)).getLsbD 125

/-- The packet of an address may be fetched: its region admits its 12 bytes, and allows fetches (R375). -/
def fetchAllowed (c : Ctx) (ptr : DWord) : Bool :=
  let pk : DWord := BitVec.ofNat 64 (ptr.toNat - ptr.toNat % 12)
  decide (nbits pk.toNat 56 8 ≠ 0xFF) && regionOk c pk 12 && regionX c pk

/-- Why a fetch fails: the fetch cause (R366), the level and the first-touch bit. -/
structure FetchFail where
  cause : Nat
  level : Nat
  ft : Bool
deriving DecidableEq, Repr

/-- The place of code in device memory: physical address and key, or the fetch fault (R366, R376). -/
def codePlace (s : State) (ctx : Nat) (ptr : DWord) : Except FetchFail (Nat × Nat) :=
  match s.ctxOf ctx with
  | none => .error { cause := 2, level := 0, ft := false }
  | some c =>
    if nbits ptr.toNat 56 8 = 0xFF then .error { cause := 2, level := 0, ft := false }
    else if nbits ptr.toNat 49 7 ≠ 0 then .error { cause := 1, level := 0, ft := false }
    else if !fetchAllowed c ptr then .error { cause := 2, level := 0, ft := false }
    else
      let va := ptr.toNat % 2 ^ 49
      match walk s c va with
      | .fail code lv ft => .error { cause := code, level := if code = 3 then lv else 0, ft := ft }
      | .leaf e _ size =>
        let pa := leafPa e va size
        if !e.getLsbD 2 || decide (2 ≤ pa / 2 ^ 50) then .error { cause := 4, level := 0, ft := false }
        else if !stackReady s pa then .error { cause := 9, level := 0, ft := false }
        else .ok (pa, leafKey e)

/-- The instruction-cache block that holds an address, by its context and VA[48:0] (R26, R383). -/
def iblockOf (s : State) (core ctx va : Nat) : Option IBlock :=
  s.icache.find? fun b => b.core == core && b.ctx == ctx && decide (b.va ≤ va) && decide (va < b.va + b.bytes.length)

/-- The word at a pointer, when the core's instruction cache holds it and its region lets it be fetched: region bounds are checked on
every access (R375, R378, R383). -/
def heldWord (s : State) (core ctx : Nat) (ptr : DWord) : Option Word :=
  if (s.ctxOf ctx).any fun c => decide (nbits ptr.toNat 49 7 = 0) && fetchAllowed c ptr then
    (iblockOf s core ctx (ptr.toNat % 2 ^ 49)).map fun b => BitVec.ofNat 32 (leNat ((b.bytes.drop (ptr.toNat % 2 ^ 49 - b.va)).take 4))
  else none

/-- The word at the head of some bytes. -/
def wordAt (bs : List Byte) : Word := BitVec.ofNat 32 (leNat (bs.take 4))

/-- The instruction word at a pointer, as a core would fetch it: from its instruction cache, or from L2; `none` when it
cannot be fetched. -/
def codeWord (s : State) (core ctx : Nat) (ptr : DWord) : Option Word :=
  match heldWord s core ctx ptr with
  | some b => some b
  | none => match codePlace s ctx ptr with
    | .ok (pa, key) => some (wordAt (devBytes s key pa 4))
    | .error _ => none

/-- A word is a clause header (R30, R31). -/
def isHeader (w : Word) : Bool := decide (opOf w = 0x1FF) && !chainBit w

/-- A target that can be fetched and whose word 0 is not a clause header (R34). -/
def badTarget (s : State) (core ctx : Nat) (ptr : DWord) : Bool :=
  match codeWord s core ctx ptr with
  | some w => !isHeader w
  | none => false

/-! ### Flags and the scoreboard -/

/-- A flag counts one more pending operation (R32). -/
def flagInc (w : Wave) (f : Option Nat) : Wave :=
  match f with
  | some i => { w with flags := tset w.flags i (tget w.flags i + 1) }
  | none => w

/-- A flag counts one pending operation less (R32). -/
def flagDec (w : Wave) (f : Option Nat) : Wave :=
  match f with
  | some i => { w with flags := tset w.flags i (tget w.flags i - 1) }
  | none => w

/-- The flag that FS selects: none for SETA or SETB of 12 to 15 (R31, R32). The key is that of the mode's bank. -/
def flagSel (w : Wave) (fs : Bool) : Option Nat :=
  let n := if fs then w.setb else w.seta
  if n < 12 then some (fIdx w n) else none

/-- An engine operation has incremented a flag: a header that waits for it will be a join (R246). -/
def markEng (w : Wave) (f : Option Nat) : Wave :=
  match f with
  | some i => { w with engFlags := w.engFlags ||| BitVec.ofNat 13 (2 ^ i) }
  | none => w

/-- Marks added to the scoreboard (R35). -/
def addMarks (w : Wave) (ms : List Mark) : Wave := { w with marks := w.marks ++ ms }

/-- The marks of an operation cleared. -/
def clearMarks (w : Wave) (op : Nat) : Wave := { w with marks := w.marks.filter fun m => decide (m.op ≠ some op) }

/-- The register that a per-thread selector names on the scoreboard. -/
def vReg (w : Wave) (sel : BitVec 7) : RegId :=
  if sel.toNat < 0x60 then .v sel.toNat else .o (oIdx w (sel.toNat - 0x60))

/-- Latency marks of a vector word on `n` registers from `d`, one for each pass, and on lr0 and lr1 (R35). -/
def vecMarks (w : Wave) (d : BitVec 7) (n : Nat) (lr : Bool) : List Mark :=
  (List.range (w.width / 32)).flatMap fun p =>
    ((List.range n).map fun i => { reg := vReg w (d + BitVec.ofNat 7 i), pass := some p, op := none }) ++
      (if lr then [{ reg := .lr, pass := some p, op := none }] else [])

/-- A pipe held for the passes after the first (R23). -/
def occupy (s : State) (p : Pipe) (passes : Nat) : State :=
  if passes ≤ 1 then s else { s with pipes := s.pipes ++ [{ quad := s.w.quad, pipe := p, left := passes - 1 }] }

/-! ### Causes (R366, R367) -/

/-- FCAUSE of classes other than 0x05 and 0x06 (R367). -/
def fcause (cls code kind : Nat) (ft : Bool) (level size : Nat) : Word :=
  BitVec.ofNat 32 (cls * 2 ^ 24 + code * 2 ^ 16 + kind * 2 ^ 12 + bitOf ft * 2 ^ 11 + level * 2 ^ 9 + size)

/-- FCAUSE of TRAP and BKPT, with IMM15 in [14:0] (R367). -/
def fcauseImm (cls imm : Nat) : Word := BitVec.ofNat 32 (cls * 2 ^ 24 + imm)

/-- HCTL.ACT at handler entry (R366). -/
def trapAct (t : Trap) : Nat :=
  if t.cls = 5 ∨ t.cls = 6 then 1
  else if t.cls = 7 ∧ t.faults.all (fun f => decide (nbits f.cause.toNat 16 16 = 0x0703)) then 0
  else 2

/-- The lowest set slot of a mask within the width. -/
def lowestSlot (m : Mask) (width : Nat) : Option Nat := (slotsIn m width).head?

/-- A mask with one slot. -/
def slotMask (i : Nat) : Mask := BitVec.ofNat 128 (2 ^ i)

/-- The mask of a trap of "every other class": the EXEC of the word, or the lowest LIVE slot when it is empty (R369). -/
def trapMask (w : Wave) : Mask :=
  if w.exec ≠ 0 then w.exec
  else match lowestSlot w.live w.width with
    | some i => slotMask i
    | none => 0

/-- Where the wave goes on after a word at PC that issues again alone (R387). -/
def againOf (w : Wave) : Option DWord :=
  match w.again with
  | some (a, c) => if !w.supervisor && a == w.pc then some c else none
  | none => none

/-- The continuation of the executing word (R373): the word after its chain group; a word that RFT repeats keeps the
continuation of its first fault, and one that issues again after a stop goes on behind its group (R387). -/
def contOf (s : State) : DWord :=
  if s.w.replay then s.w.frame.trap.cont else (againOf s.w).getD (s.w.pc + 4 * BitVec.ofNat 64 (s.grpMore + 1))

/-- A trap of one class and code in every slot of its mask. -/
def mkTrap (s : State) (cls code kind : Nat) : Trap :=
  { cls := cls, mask := trapMask s.rd, fpc := s.w.pc, cont := contOf s, kind := .word,
    faults := (slotsIn (trapMask s.rd) s.w.width).map fun i => { slot := i, cause := fcause cls code kind false 0 0, va := 0 },
    wordBits := s.wordBits, escalates := false }

/-- Faulters of one page: the same 64 KiB granule of the same region (R371). -/
def samePage (a b : DWord) : Bool := decide (a.toNat / 2 ^ 56 = b.toNat / 2 ^ 56) && decide (a.toNat % 2 ^ 49 / 2 ^ 16 = b.toNat % 2 ^ 49 / 2 ^ 16)

/-- FINFO of a faulter (R371): for memory faults the lead of its granule; otherwise the slot itself. -/
def finfo (fs : List SlotFault) (f : SlotFault) : Word :=
  if nbits f.cause.toNat 24 8 = 7 then
    match fs.find? fun g => decide (nbits g.cause.toNat 24 8 = 7) && samePage g.va f.va with
    | some g => BitVec.ofNat 32 (bitOf (g.slot == f.slot) * 2 ^ 31 + g.slot)
    | none => BitVec.ofNat 32 (2 ^ 31 + f.slot)
  else BitVec.ofNat 32 (2 ^ 31 + f.slot)

/-- The faulters' o4 to o7, in the supervisor copies (R369 step 6, R370). -/
def deliverFaults (w : Wave) (fs : List SlotFault) : Wave :=
  fs.foldl (fun w f =>
    { w with o := tset (tset (tset (tset w.o (8 * 128 + f.slot) (lo32 f.va)) (9 * 128 + f.slot) (hi32 f.va))
        (10 * 128 + f.slot) f.cause) (11 * 128 + f.slot) (finfo fs f) }) w

/-- A launch's waves stop and its END is recorded; the retirement, the cords and the completion record follow (R389). -/
def endLaunch (s : State) (launch code : Nat) : State :=
  s.modLaunch launch fun l => { l with ending := some (l.ending.getD code) }

/-- What a trap from user mode records (R369 steps 2 to 4): FPC, FMASK, HCTL.ACT, UEXEC (unless the trap comes from a word that
RFT executes again) and the fault frame. -/
def recordTrap (w : Wave) (t : Trap) : Wave :=
  { w with
    fpc := t.fpc, fmask := t.mask, uexec := if w.replay then w.uexec else w.exec, hctl := BitVec.ofNat 32 (trapAct t)
    frame := { w.frame with
      lr0 := w.lr0, lr1 := w.lr1, fpcr := w.fpcr, fpsr := w.fpsr, seta := w.seta, setb := w.setb, trap := t } }

/-- Escalation (R374): the wave is suspended, its state kept, and the Keystone core reports. From user mode the trap's FPC,
FMASK, UEXEC and frame are the ones kept. A watchdog escalation terminates the launch with END 1. -/
def escalate (s : State) (t : Trap) : State :=
  let w := s.w
  let w1 := if w.supervisor then w else recordTrap w t
  let cause := match t.faults.head? with | some f => f.cause | none => 0
  let first := match w1.frame.trap.faults.head? with | some f => f.cause | none => 0
  let s1 := { s with w := { w1 with status := .suspended, trap := none, replay := false },
                     reports := s.reports ++ [.escalation w.launch w.uid w1.fpc w1.fmask
                       (if w.supervisor then first else cause)
                       (if w.supervisor then t.fpc else 0) (if w.supervisor then cause else 0)] }
  if t.cls = 0x0D then endLaunch s1 w.launch 1 else s1

/-- A fault of the handler in a word of RFT's own group (R368, R374): RFT has acted, and the fault escalates as one of supervisor
mode. -/
def partnerFault (s : State) (t : Trap) : State :=
  (escalate (s.modW fun w => { w with supervisor := true }) t).modW fun w => { w with supervisor := s.w.supervisor }

/-- The context's debug enable (R365). -/
def debugOn (s : State) (ctx : Nat) : Bool :=
  match s.ctxOf ctx with
  | some c => c.ctxcfg.getLsbD 0
  | none => false

/-- A breakpoint with debug enabled (R94): the records of a handler entry are made, the wave is suspended and the Keystone
core reports it. -/
def stopAtBkpt (s : State) (t : Trap) : State :=
  let w := s.w
  { s with
    w := { deliverFaults (recordTrap w t) t.faults with status := .suspended, trap := none, replay := false }
    reports := s.reports ++ [.breakpoint w.launch w.uid t.fpc] }

/-- TAKING A TRAP OR FAULT (R369). In user mode the wave enters its handler: FMASK, FPC and the faulters' o4 to o7 are
set, UEXEC keeps the user EXEC (unless the trap comes from a word that RFT executes again), HCTL.ACT takes its class value,
lr0, lr1, FPCR and FPSR go to the fault frame, lr0 and lr1 become zero, EXEC becomes FMASK, the mode becomes supervisor and
PC becomes HENTRY. A slot that a word of the group has darkened takes no part (R76; log 13). It escalates instead in supervisor
mode or for a word of RFT's own group, for causes 0x09, with an empty mask, or when HENTRY's word 0 is
no clause header (R374); a breakpoint with debug enabled stops the wave (R94). -/
def takeTrap (s : State) (t0 : Trap) : State :=
  let w := s.w
  let t := { t0 with mask := t0.mask &&& w.live, faults := t0.faults.filter fun f => w.live.getLsbD f.slot }
  match s.ctxOf w.ctx with
  | none => escalate s t
  | some c =>
    let headerOk := match codeWord s (coreOf w.quad) w.ctx c.hentry with
      | some x => isHeader x && decide (c.hentry.toNat % 12 = 0)
      | none => false
    if t.kind = .partner then partnerFault s t
    else if !w.supervisor && decide (t.cls = 6) && debugOn s w.ctx then stopAtBkpt s t
    else if w.supervisor || t.escalates || decide (t.mask = 0) || !headerOk then escalate s t
    else
      let w1 := { recordTrap w t with
        lr0 := [], lr1 := [], exec := t.mask, supervisor := true, pc := c.hentry, trap := none, replay := false }
      { s with w := deliverFaults w1 t.faults }

/-- The wave's issued floating-point words have completed all their passes (R119). -/
def fpDone (w : Wave) : Bool := w.marks.all fun m => decide (m.reg ≠ .fpsr)

/-- A trap is taken once the wave's floating-point words have completed (R119, R369 step 1); until then it waits. -/
def meetTrap (s : State) (t : Trap) : State :=
  if fpDone s.w then takeTrap s t else { s with w := { s.w with trap := some t } }

/-- A trap raised by the executing word (R28, R65, R368): the last word of its group meets it; an earlier
word's partners first take effect, and the first trap in PC order stands. -/
def raise (s : State) (t : Trap) : State :=
  let t1 := s.w.trap.getD t
  if s.grpMore = 0 then meetTrap s t1
  else { s with w := { s.w with trap := some t1, pc := s.w.pc + 4 } }

/-- A trap of a class and code, raised in every slot of R369's mask. -/
def trapNow (s : State) (cls code : Nat) : State := raise s (mkTrap s cls code 6)

/-! ### The end of a word -/

/-- The word is done: PC advances to the next word (R27). -/
def State.done (s : State) : State := { s with w := { s.w with pc := s.w.pc + 4 } }

/-! ### Vector and wave results -/

/-- A VALU or VDP word that writes one 32-bit register in every EXEC slot: `f` gives the result of a slot. -/
def vecOut (s : State) (p : Pipe) (d : BitVec 7) (f : Nat → Word) : State :=
  let w1 := s.rd.slots.foldl
    (fun w i => vWrite (if p = .valu then lrPush w i (f i) else w) d i (f i)) s.w
  (occupy { s with w := addMarks w1 (vecMarks s.w d 1 (decide (p = .valu))) } p (s.w.width / 32)).done

/-- A VALU or VDP word that writes a pair in every EXEC slot (R37, R40). -/
def vecOut64 (s : State) (p : Pipe) (d : BitVec 7) (f : Nat → DWord) : State :=
  let w1 := s.rd.slots.foldl
    (fun w i => vWriteRun (if p = .valu then lrPair w i (lo32 (f i)) (hi32 (f i)) else w) d i [lo32 (f i), hi32 (f i)]) s.w
  (occupy { s with w := addMarks w1 (vecMarks s.w d 2 (decide (p = .valu))) } p (s.w.width / 32)).done

/-- A vector word that writes a wave mask (R77): bit `i` is set only for an EXEC slot where `f` holds. -/
def maskOut (s : State) (p : Pipe) (d : BitVec 7) (f : Nat → Bool) : State :=
  let m := maskOf s.w.width fun i => s.rd.exec.getLsbD i && f i
  let w1 := maskWrite s.grpFlags s.w d m
  let marks := (List.range (s.w.width / 32)).filterMap fun i =>
    if d.toNat + i < 64 then some { reg := .s (sIdx s.w (d.toNat + i)), pass := none, op := none } else none
  (occupy { s with w := addMarks w1 marks } p (s.w.width / 32)).done

/-- The marks of `n` wave registers. -/
def sMarks (w : Wave) (d n : Nat) (op : Option Nat) : List Mark :=
  (List.range n).filterMap fun i => if d + i < 64 then some { reg := .s (sIdx w (d + i)), pass := none, op := op } else none

/-- A wave word that writes one wave operand (R100, R112). -/
def waveOut (s : State) (d : BitVec 7) (v : Word) : State :=
  ({ s with w := addMarks (sWrite s.grpFlags s.w d v) (sMarks s.w d.toNat 1 none) }).done

/-- A wave word that writes a wave pair. -/
def waveOut64 (s : State) (d : BitVec 7) (v : DWord) : State :=
  ({ s with w := addMarks (sSetRun s.w d.toNat [lo32 v, hi32 v]) (sMarks s.w d.toNat 2 none) }).done

/-- A word that writes a wave predicate. -/
def predOut (s : State) (p : Pipe) (passes q : Nat) (b : Bool) : State :=
  (occupy { s with w := addMarks (qWrite s.w q b) [{ reg := .q (qIdx s.w q), pass := none, op := none }] } p passes).done

end Sys2Proof.Machine
end

