-- ==== Sys2Proof/Machine/Access.lean ====
section
/-!
DEFINITION. Reaching memory (R200 to R211, R226, R230, R244, R352, R375 to R378): address checks, translation, the L1 and
L2 caches, banked bytes, and reads and writes at a place.
-/
namespace Sys2Proof.Machine

/-! ### Containment of data errors (R359, R390) -/

/-- An uncorrectable error errs a tile; in the clk in which the tile has resolved it still counts, and the tile fails (R359, R360). -/
def errTile (s : State) (token : Nat) : State :=
  s.modTile token fun x =>
    { x with erred := true, phase := if x.phase = 1 && !inTurn s 6 token 0 then 2 else x.phase }

/-- An uncorrectable error in data that a wave reads: it errs the wave's tile, or ends its launch with END 4. -/
def dataError (s : State) (launch : Nat) (token : Option Nat) : State :=
  match token with
  | some t => errTile s t
  | none => endLaunch s launch 4

/-! ### Import slots (R402) -/

/-- A context's import slot is valid. -/
def importValid (s : State) (ctx slot : Nat) : Bool :=
  match s.ctxOf ctx with
  | some c => (tget c.imports slot).getLsbD 127
  | none => false

/-- A request to an import slot's package has a route through a trained link (R404, R408). -/
def routed (s : State) (ctx slot : Nat) : Bool :=
  match s.ctxOf ctx with
  | some c =>
    let r := (tget s.routes (nbits (tget c.imports slot).toNat 112 12)).toNat
    decide (r ≠ 0) && s.ready.getLsbD (r - 1)
  | none => false

/-- Where a place outside the device lies among all of them, as the free values that are read there are told apart. -/
def Loc.outAddr : Loc → Nat
  | .imp ctx slot off => 2 ^ 60 + (ctx * 4096 + slot) * 2 ^ 38 + off
  | .host pa => pa
  | .dev pa _ => pa
  | .scr _ off => off

/-- The unit and the place in it that put the requests of one clk to a place in order (R222, R243). -/
def Loc.turn (launch : Nat) : Loc → Nat × Nat
  | .dev pa _ => (0, pa / 512 * 512)
  | .scr core off => (7, launch * 2 ^ 20 + core * 2 ^ 10 + off / 512)
  | .host pa => (8, pa / 64)
  | .imp ctx slot off => (9, (ctx * 4096 + slot) * 2 ^ 32 + off / 64)

/-- A place can be reached: a peer's memory only by a route. -/
def reached (s : State) (ctx : Nat) (loc : Loc) : Bool :=
  match loc with
  | .imp _ slot _ => routed s ctx slot
  | _ => true

/-! ### The L1 read cache (R205, R230) -/

/-- A core's copy of a sector. -/
def l1Find (s : State) (core pa key : Nat) : Option L1Line :=
  s.l1.find? fun l => l.core == core && l.pa == pa / 64 * 64 && l.key == key

/-- Bytes of a list replaced from a place on. -/
def patch (bs : List Byte) (off : Nat) (new : List Byte) : List Byte :=
  bs.take off ++ new ++ bs.drop (off + new.length)

/-- Bytes at `pa` with those of a run at `x` over them. -/
def overlay (pa : Nat) (bs : List Byte) (x : Nat) (d : List Byte) : List Byte :=
  (List.range bs.length).map fun i => if x ≤ pa + i then (d[pa + i - x]?).getD (bs.getD i 0) else bs.getD i 0

/-- A store of a core to device memory that is not yet performed, with its operation and its number in it (R205). -/
structure CoreStore where
  op : Nat
  acc : Nat
  pa : Nat
  kind : Nat
  data : List Byte
  seen : List (Nat × Nat)
deriving DecidableEq, Repr

/-- The stores of a core under a key that are not yet performed, in the order of their issue. -/
def coreStores (s : State) (core key : Nat) : List CoreStore :=
  (s.memOps.filter fun o => o.kind == .store && o.core == core && o.token.isNone).flatMap fun o =>
    (List.range o.accs.length).filterMap fun i => match o.accs[i]? with
      | some a => match a.loc with
        | .dev pa k => if k = key && !a.done then some { op := o.id, acc := i, pa := pa, kind := a.kind, data := a.data, seen := a.seen } else none
        | _ => none
      | none => none

/-- Bytes as a core's L1 has them beside the home slice: the core's own stores that are not yet performed stand over them, in the
order of their issue (R205); `but` is one that is being performed. -/
def l1Overlay (s : State) (core pa key : Nat) (but : Option (Nat × Nat)) (bs : List Byte) : List Byte :=
  (coreStores s core key).foldl (fun bs c => if but = some (c.op, c.acc) then bs else overlay pa bs c.pa c.data) bs

/-- Bytes that have been written or returned update a core's copy of their sector. -/
def l1Update (s : State) (core pa key : Nat) (bs : List Byte) : State :=
  { s with l1 := s.l1.map fun l =>
      if l.core = core && l.pa = pa / 64 * 64 && l.key = key then { l with bytes := patch l.bytes (pa % 64) bs } else l }

/-- Two sectors use one set of the L1 (R205; log 10). -/
def l1Mates (a b : Nat) : Bool := Config.setIndex 0 a % 512 == Config.setIndex 0 b % 512

/-- A sector filled, most recently used; from a full set of 8 ways the least recently used one leaves (R205). `State.l1` has
the most recently used first. A poisoned sector is not filled (R390). -/
def l1Fill (s : State) (core pa key : Nat) : State :=
  if isPoisoned s (pa / 64 * 64) 64 then s else
  let keep := s.l1.filter fun l => !(l.core == core && l.pa == pa / 64 * 64 && l.key == key)
  let own := keep.filter fun l => l.core == core
  let mates := if own.length < 8 then [] else own.filter fun l => l1Mates l.pa (pa / 64 * 64)
  let keep1 := if mates.length < 8 then keep
    else match mates.getLast? with
      | some v => keep.filter fun l => l != v
      | none => keep
  { s with l1 := { core := core, pa := pa / 64 * 64, key := key, bytes := l1Overlay s core (pa / 64 * 64) key none (devBytes s key (pa / 64 * 64) 64) } :: keep1 }

/-- The whole L1 of a core invalidated (R205). -/
def l1Drop (s : State) (core : Nat) : State := { s with l1 := s.l1.filter fun l => l.core != core }

/-- The wave's crew has members on more than one core (R205). -/
def crewSpans (s : State) (w : Wave) : Bool :=
  match s.crews.find? fun c => c.members.contains w.uid with
  | none => false
  | some c => s.allWaves.any fun x => c.members.contains x.uid && decide (coreOf x.quad ≠ coreOf w.quad)

/-- An acquire at a scope invalidates the L1 of the wave's core: at cluster scope or wider, or at crew scope in a crew
that spans cores (R205, R236). -/
def acquireL1 (s : State) (w : Wave) (sc : Nat) : State :=
  if 2 ≤ sc || (decide (sc = 1) && crewSpans s w) then l1Drop s (coreOf w.quad) else s

/-! ### L2 lines (R206 to R209) -/

/-- The line of an address. -/
def lineOf (pa : Nat) : Nat := pa / 512 * 512

/-- The set of an address within its slice (R206). -/
def l2Set (pa : Nat) : Nat := nbits pa 9 7 ^^^ nbits pa 16 7

/-- Two addresses have one home slice and one set. -/
def sameSet (part a b : Nat) : Bool := homeSlice part a == homeSlice part b && l2Set a == l2Set b

/-- Sixteen words whose differences from the first fit a signed byte (R207). -/
def compressibleBytes (bs : List Byte) : Bool :=
  let word := fun i => leNat ((bs.drop (4 * i)).take 4)
  (List.range 16).all fun i =>
    let d := sextNat (word i + 2 ^ 32 - word 0) 32
    decide (-128 ≤ d) && decide (d ≤ 127)

/-- A byte as a tile's waves see it: its banked copy, or the ordinary byte (R352). -/
def tileByte (s : State) (token : Option Nat) (key pa : Nat) : Byte :=
  match token.bind s.tileOf with
  | none => devByte s key pa
  | some t =>
    let b := tget t.banked pa
    if b.toNat < 256 then devByte s key pa else BitVec.ofNat 8 b.toNat

/-- Bytes as a tile's waves see them. -/
def tileBytes (s : State) (token : Option Nat) (key pa n : Nat) : List Byte :=
  (List.range n).map fun i => tileByte s token key (pa + i)

/-- A byte is banked under a token. -/
def isBanked (s : State) (token : Option Nat) (pa : Nat) : Bool :=
  match token.bind s.tileOf with
  | none => false
  | some t => decide (256 ≤ (tget t.banked pa).toNat)

/-- A sector is compressible (R207), with what a token has banked in it. -/
def compressible (s : State) (token : Option Nat) (pa : Nat) : Bool :=
  compressibleBytes (tileBytes s token ((tget s.sectorKey (pa / 64)).toNat - 1) (pa / 64 * 64) 64)

/-- Every valid sector of a line is compressible (R207). -/
def lineComp (s : State) (token : Option Nat) (pa : Nat) (valid : BitVec 8) : Bool :=
  (List.range 8).all fun i => !valid.getLsbD i || compressible s token (lineOf pa + 64 * i)

/-- The half-frames that a line holds: none for a tag alone (R352). -/
def L2Line.halves (l : L2Line) : List Nat :=
  if l.half = 32 then [] else if l.comp then [l.half] else [l.half, l.half + 1]

/-- A line that may not be a victim: banked or pinned (R208). -/
def protectedLine (s : State) (l : L2Line) : Bool := l.token.isSome || s.pins.any fun p => p.pa == l.pa

/-- The victim: the lowest priority, and the least recently used among equals; lines come most recently used first. -/
def pickVictim (ls : List L2Line) : Option L2Line :=
  ls.foldl (fun v l => match v with
    | none => some l
    | some x => if l.prio ≤ x.prio then some l else some x) none

/-- Room for a line in its set (R207, R208, R352): a half-frame's number and the lines that leave. The lines of `keep` stay in place; a
banked copy takes the place neither of two compressed ordinary lines of one frame nor of the ordinary line of its address. -/
def l2Room (s : State) (pa : Nat) (comp : Bool) (token : Option Nat) (keep : List L2Line) : Option (Nat × List L2Line) :=
  let ls := s.l2.filter fun l => sameSet s.part l.pa pa && decide (l.half < 32)
  let mates := fun (l : L2Line) => ls.filter fun x => x.half / 2 == l.half / 2
  let gives := fun (l : L2Line) => !protectedLine s l && !keep.contains l && (token.isNone ||
    (l.pa != lineOf pa && !((mates l).length == 2 && (mates l).all fun x => x.comp && x.token.isNone)))
  let used := ls.flatMap L2Line.halves
  let free := if comp then (List.range 32).find? fun h => !used.contains h
    else ((List.range 16).find? fun f => !used.contains (2 * f) && !used.contains (2 * f + 1)).map fun f => 2 * f
  match free with
  | some h => some (h, [])
  | none =>
    if comp then
      (pickVictim (ls.filter gives)).map fun v => (v.half, [v])
    else
      (pickVictim (ls.filter fun l => (mates l).all gives)).map fun v => (v.half / 2 * 2, mates v)

/-- Free write-back entries of the slice of an address (R209). -/
def wbackRoom (s : State) (pa n : Nat) : Bool :=
  decide ((s.wbacks.filter fun p => homeSlice s.part p == homeSlice s.part pa).length + n ≤ 4)

/-- Lines evicted, their dirty sectors written back (R208, R209); none when the slice's four write-back entries do not
suffice. -/
def l2Evict (s : State) (vs : List L2Line) : Option State :=
  let dirty := (vs.filter fun v => v.dirty != 0).map fun v => v.pa
  match vs with
  | [] => some s
  | v :: _ =>
    if wbackRoom s v.pa dirty.length then some { s with l2 := s.l2.filter fun l => !vs.contains l, wbacks := s.wbacks ++ dirty }
    else none

/-- A line put into its set, when the set and the write-back entries have room: `l` without its place and form (R207, R208). -/
def l2Place (s : State) (l : L2Line) : Option State :=
  let comp := lineComp s l.token l.pa l.valid
  match l2Room s l.pa comp l.token [] with
  | none => none
  | some (h, vs) => (l2Evict s vs).map fun s1 => { s1 with l2 := { l with comp := comp, half := h, grow := false } :: s1.l2 }

/-- A line held compressed that has become incompressible expands into a whole frame, and the line that shared its old frame stays; it
waits for a frame where its set has none to give (R207, R208). -/
def l2Expand (s : State) (l : L2Line) : State :=
  if !l.comp || lineComp s l.token l.pa l.valid then s
  else
    let s1 := { s with l2 := s.l2.filter fun x => x != l }
    match l2Room s1 l.pa false l.token (s1.l2.filter fun x => sameSet s.part x.pa l.pa && x.half / 2 == l.half / 2) with
    | some (h, vs) => match l2Evict s1 vs with
      | some s2 => { s2 with l2 := { l with comp := false, half := h, grow := false } :: s2.l2 }
      | none => { s1 with l2 := { l with grow := true } :: s1.l2 }
    | none => { s1 with l2 := { l with grow := true } :: s1.l2 }

/-- The sector mask of one address. -/
def sectorBit (pa : Nat) : BitVec 8 := BitVec.ofNat 8 (2 ^ (pa / 64 % 8))

/-- The ordinary line of an address. -/
def l2Find (s : State) (pa : Nat) : Option L2Line := s.l2.find? fun l => l.pa == lineOf pa && l.token.isNone

/-- The sector of an address is held. -/
def l2Holds (s : State) (pa : Nat) : Bool := (l2Find s pa).any fun l => l.valid &&& sectorBit pa != 0

/-- A whole written sector placed with its line, where its set has room (R209). -/
def l2PlaceSector (s : State) (pa prio : Nat) : Option State :=
  l2Place s { pa := lineOf pa, comp := false, prio := prio, valid := sectorBit pa, dirty := sectorBit pa, half := 0, inv := false,
              token := none, grow := false }

/-- An access at a home slice (R206 to R209): a line that is held becomes the most recently used, keeps the highest
priority asked for, and is dirty where written; what is missing enters the slice's miss table. A store of a whole sector
(`full`) fetches nothing: the sector becomes valid at once in its line's place, or waits at the slice's input for one. -/
def l2Touch (s : State) (pa prio : Nat) (write full : Bool) : State :=
  match l2Find s pa with
  | some l =>
    let has := l.valid &&& sectorBit pa != 0 || full
    let l1 := { l with
      prio := max l.prio prio, valid := if has then l.valid ||| sectorBit pa else l.valid
      dirty := if write && has then l.dirty ||| sectorBit pa else l.dirty }
    let s1 := l2Expand { s with l2 := l1 :: s.l2.filter fun x => x != l } l1
    if has then s1 else { s1 with fills := mergeFill s1.fills }
  | none =>
    if full then (l2PlaceSector s pa prio).getD { s with misses := s.misses ++ [{ pa := pa, prio := prio, write := write, full := full }] }
    else { s with fills := mergeFill s.fills }
where
  mergeFill (fs : List Fill) : List Fill :=
    let d : BitVec 8 := if write then sectorBit pa else 0
    if fs.any fun f => f.pa == lineOf pa then
      fs.map fun f => if f.pa = lineOf pa then
        { f with sectors := f.sectors ||| sectorBit pa, dirty := f.dirty ||| d, prio := max f.prio prio } else f
    else fs ++ [{ pa := lineOf pa, sectors := sectorBit pa, dirty := d, prio := prio }]

/-- The miss table of a slice takes an access (R209): the sector is held, or the line has a request entry, or one is free. -/
def missRoom (s : State) (pa : Nat) : Bool :=
  l2Holds s pa || s.fills.any (fun f => f.pa == lineOf pa) ||
    decide ((s.fills.filter fun f => homeSlice s.part f.pa == homeSlice s.part pa).length < 64)

/-- The tag of a sector whose key no index holds any more. -/
def deadKey : BitVec 13 := 8191

/-- Sectors that were clean in L2 when a new key was installed for them (R407): one that has been written since goes out under the new
key; one that has left L2 is, in memory, still as the old key wrote it (R211). -/
def settleKeys (s : State) : State :=
  let kept := s.stale.filter fun x => (l2Find s (64 * x)).any fun l => l.valid &&& sectorBit (64 * x) != 0 && l.dirty &&& sectorBit (64 * x) == 0
  let lost := s.stale.filter fun x => !kept.contains x && !l2Holds s (64 * x)
  { s with stale := kept, sectorKey := lost.foldl (fun t x => tset t x deadKey) s.sectorKey }

/-- A slice takes an access now (R209): its miss table has room, or a whole sector has a place. -/
def l2Takes (s : State) (pa : Nat) (full : Bool) : Bool :=
  if full then (l2Find s pa).isSome || (l2PlaceSector s pa 0).isSome else missRoom s pa

/-- A touch by the Keystone core, a walk, a fetch or a commit: what the slice cannot take yet waits at its request input (R209). Such a
touch carries no hint and has the priority 1, normal (log 32). -/
def l2Soft (s : State) (pa prio : Nat) (write full : Bool) : State :=
  let m : Miss := { pa := pa, prio := prio, write := write, full := full }
  if l2Takes s pa full then l2Touch s pa prio write full
  else { s with misses := if s.misses.contains m then s.misses else s.misses ++ [m] }

/-- The lines that wait for a whole frame try again, and then the misses that wait at a slice's input (R207, R209). -/
def l2Settle (s : State) : State :=
  let s1 := (s.l2.filter fun l => l.grow).foldl l2Expand s
  s1.misses.foldl (fun s m => l2Soft s m.pa m.prio m.write m.full) { s1 with misses := [] }

/-- A hint's priority: evict-first 0, normal 1, evict-last 2 (R208). -/
def hintPrio (h : Nat) : Nat := if h = 1 then 0 else if h = 2 then 2 else 1

/-! ### Banked bytes of a surrogate tile (R247, R352) -/

/-- A token's copy of a line, in the frames of its set (`tag` false) or as a tag alone. -/
def isCopy (token pa : Nat) (tag : Bool) (l : L2Line) : Bool :=
  l.pa == lineOf pa && l.token == some token && (l.half == 32) == tag

/-- The copy of a line under a token gone from its frame. -/
def dropCopy (s : State) (token pa : Nat) : State := { s with l2 := s.l2.filter fun l => !isCopy token pa false l }

/-- A banked sector's copy at its home slice (R352): under a tag of its own that carries the token, in a half-frame, a frame or a
victim's place; where its set cannot hold it, it lies in the token's spill area and its tag stays. -/
def bankLine (s : State) (token pa prio : Nat) : State :=
  match s.l2.find? (isCopy token pa false) with
  | some l =>
    let l1 := { l with prio := max l.prio prio, valid := l.valid ||| sectorBit pa, dirty := l.dirty ||| sectorBit pa }
    let s1 := l2Expand { s with l2 := l1 :: s.l2.filter fun x => x != l } l1
    if s1.l2.any fun x => x.grow && isCopy token pa false x then
      dropCopy (spill s1 l1.valid) token pa
    else s1
  | none => (l2Place s { pa := lineOf pa, comp := false, prio := prio, valid := sectorBit pa, dirty := sectorBit pa, half := 0,
                         inv := false, token := some token, grow := false }).getD (spill s (sectorBit pa))
where
  spill (s : State) (v : BitVec 8) : State :=
    let l2 := match s.l2.find? (isCopy token pa true) with
      | some l => { l with prio := max l.prio prio, valid := l.valid ||| v, dirty := l.dirty ||| v } :: s.l2.filter fun x => x != l
      | none => { pa := lineOf pa, comp := true, prio := prio, valid := v, dirty := v, half := 32, inv := false, token := some token,
                  grow := false } :: s.l2
    ({ s with l2 := l2 } : State).modTile token fun x => { x with
      spilled := (List.range 8).foldl (fun l i =>
        let k := lineOf pa / 64 + i
        if v.getLsbD i && !l.contains k then k :: l else l) x.spilled }

/-- A banked piece (R352): its bytes under the token, its new sectors counted, its copies at their home slice; a piece beyond the
budget is not performed and the tile overruns. -/
def bankWrite (s : State) (token pa key prio : Nat) (bs : List Byte) : State :=
  match s.tileOf token with
  | none => s
  | some t =>
    let budget := match s.launchOf t.launch with | some l => l.budget | none => 0
    let secs := (sectorsOf pa bs.length).foldl
      (fun l x => if l.any fun y => y.1 == x then l else l ++ [(x, key)]) t.sectors
    if budget * 4096 < secs.length * 64 then s.modTile token fun x => { x with overrun := true }
    else
      (sectorsOf pa bs.length).foldl (fun s x => bankLine s token (64 * x) prio)
        (s.modTile token fun x => { x with
          sectors := secs,
          banked := tsetRun x.banked pa (bs.map fun b => BitVec.ofNat 9 (256 + b.toNat)) })

/-! ### Reading and writing at a place -/

/-- Byte `i` of a read at a place, as a held write has it. -/
def heldByte (h : HeldWrite) (loc : Loc) (i : Nat) : Option Byte :=
  match h.loc, loc with
  | .host a, .host b => if a ≤ b + i then h.data[b + i - a]? else none
  | .imp c x a, .imp d y b => if c = d ∧ x = y ∧ a ≤ b + i then h.data[b + i - a]? else none
  | _, _ => none

/-- Bytes read at a home slice update the issuing core's copy of their sector, under the core's own stores that are on their way
(R205, R230); banked bytes are for no one else (R247), and a poisoned sector leaves the L1 (R390). -/
def l1Refresh (s : State) (core : Nat) (token : Option Nat) (pa key : Nat) (bs : List Byte) : State :=
  if isPoisoned s pa bs.length then { s with l1 := s.l1.filter fun l => !(l.core == core && l.pa == pa / 64 * 64) }
  else
    let new := l1Overlay s core pa key none bs
    match token with
    | none => l1Update s core pa key new
    | some _ => (List.range bs.length).foldl (fun s i =>
        if isBanked s token (pa + i) then s else l1Update s core (pa + i) key [new.getD i 0]) s

/-- Bytes read from host or peer memory: free values, but for bytes of a write that the die's fabric port still holds,
when forwarding is allowed (R244, R430). Bytes that one request reads twice are one value (R216). -/
def outsideRead (s : State) (die : Nat) (loc : Loc) (n : Nat) (fwd : Bool) : List Byte :=
  (List.range n).map fun i =>
    let hit := if fwd then s.held.reverse.findSome? fun h => if h.die ≠ die then none else heldByte h loc i else none
    hit.getD (Config.outsideByte (s.freeN * 2 ^ 80 + loc.outAddr + i))

/-- Bytes at a place as an agent of a tile or of none reads them at the point that serves it (R235, R243). -/
def readAt (s : State) (launch die : Nat) (token : Option Nat) (loc : Loc) (n : Nat) (fwd : Bool) : List Byte :=
  match loc with
  | .scr core off => match s.resvOf launch core with
    | some r => tgetRun r.mem off n
    | none => []
  | .dev pa key => tileBytes s token key pa n
  | l => outsideRead s die l n fwd

/-- A read of a line at its home slice (R208, R352): the ordinary line, and for a tile that has banked bytes of the sector its
copy, become the most recently used. -/
def l2Read (s : State) (token : Option Nat) (pa prio : Nat) : State :=
  let s1 := match token with
    | some t => match s.l2.find? (isCopy t pa false) with
      | some l => { s with l2 := { l with prio := max l.prio prio } :: s.l2.filter fun x => x != l }
      | none => s
    | none => s
  if (List.range 64).all fun i => isBanked s token (pa / 64 * 64 + i) then s1 else l2Touch s1 pa prio false false

/-- Bytes written at a place (R243, R244, R247): a scratchpad byte, a device byte (banked in a tile) with the writer's own
L1 copy, or a write handed to the die's fabric port. `full`: the request writes all of its sector (R209, R390). -/
def writeAt (s : State) (launch core die op acc : Nat) (token : Option Nat) (prio : Nat) (full : Bool) (va : DWord) (loc : Loc)
    (bs : List Byte) : State :=
  match loc with
  | .scr c off => s.modResv launch c fun r => { r with mem := tsetRun r.mem off bs }
  | .dev pa key => match token with
    | some t => bankWrite s t pa key prio bs
    | none =>
      let s1 := l2Touch (l1Update (devWrite s key pa bs) core pa key (l1Overlay s core pa key (some (op, acc)) bs)) pa prio true full
      if full then { s1 with poison := s1.poison.filter fun x => decide (x ≠ pa / 64) } else s1
  | l => { s with held := s.held ++ [{ die := die, op := op, acc := acc, loc := l, data := bs, readers := [], va := va }] }

/-- A place lies in a poisoned sector (R390). -/
def poisonedAt (s : State) (loc : Loc) (n : Nat) : Bool :=
  match loc with
  | .dev pa _ => isPoisoned s pa n
  | _ => false

/-! ### Translation through the last-page registers and the core TLB (R378) -/

/-- A virtual address lies in a page. -/
def inPage (base size va : Nat) : Bool := decide (base ≤ va) && decide (va < base + size)

/-- A lane's register, when it matches. -/
def laneHit (s : State) (quad lane ctx va : Nat) : Option LaneReg :=
  s.lanes.find? fun r => r.quad == quad && r.lane == lane && r.ctx == ctx && inPage r.base r.size va

/-- A lane's register loaded. -/
def laneSet (s : State) (r : LaneReg) : State :=
  { s with lanes := r :: s.lanes.filter fun x => !(x.quad == r.quad && x.lane == r.lane) }

/-- An entry put into a core TLB; from a full set of 16 ways one entry leaves, which R378 leaves open (log 10). -/
def tlbFill (s : State) (e : TlbEnt) : State :=
  let own := s.tlb.filter fun x => x.core == e.core
  let mates := if own.length < 16 then []
    else own.filter fun x => Config.setIndex 1 x.base % 128 == Config.setIndex 1 e.base % 128
  let keep := if mates.length < 16 then s.tlb
    else match mates[Config.choose s.freeN % mates.length]? with
      | some v => s.tlb.filter fun x => x != v
      | none => s.tlb
  { s with tlb := e :: keep, freeN := s.freeN + 1 }

/-- A walk's end (R376, R378): a leaf fills the TLB and the lane's register; a failure sets the register to a marker for
the 64 KiB granule, and an error in an entry is reported (R390). -/
def walkEnd (s : State) (quad lane ctx va : Nat) (r : WalkRes) : State :=
  match r with
  | .leaf e base size =>
    laneSet (tlbFill s { core := coreOf quad, ctx := ctx, base := base, size := size, leaf := e })
      { quad := quad, lane := lane, ctx := ctx, base := base, size := size, val := .leaf e }
  | .fail code lv ft =>
    laneSet { s with reports := s.reports ++ match s.ctxOf ctx with | some c => walkErrors s c va | none => [] }
      { quad := quad, lane := lane, ctx := ctx, base := va / 65536 * 65536, size := 65536, val := .marker code lv ft }

/-- The addresses of the entries that the walk of a virtual address reads (R376). -/
def walkPas (s : State) (c : Ctx) (va : Nat) : List Nat := walkReads s va 4 0 c.ptroot.toNat

/-- Reads at the home slices in the order of their clk (R209, R243): of page-table entries by a walk, or of code by a fetch. One that
its slice does not take in this clk, having served a later requester's, is noted at unit 10. -/
def softReads (s : State) (rank : Nat) (pas : List Nat) : State :=
  pas.foldl (fun s pa =>
    if memLimit s.part < pa + 8 || !stackReady s pa then s
    else if inTurn s 0 (lineOf pa) rank then takeTurn (l2Soft s pa 1 false false) 0 (lineOf pa) rank
    else takeTurn s 10 0 0) s

/-- A read of the clk's action has been found too late for its slice: the action waits for the next clk. -/
def lateRead (s : State) : Bool := s.turns.any fun t => t.1 == 10

/-- The note of a late read gone. -/
def dropLate (s : State) : State := { s with turns := s.turns.filter fun t => t.1 != 10 }

/-- A lane's translation (R378): its register, the core TLB, or a walk. The answer is a leaf with the page's size, or the
cause, the level and first-touch bit of a failure. -/
def translate (s : State) (quad lane : Nat) (c : Ctx) (va : Nat) : State × Except (Nat × Nat × Bool) (DWord × Nat) :=
  match laneHit s quad lane c.num va with
  | some r => (s, match r.val with | .leaf e => .ok (e, r.size) | .marker code lv ft => .error (code, lv, ft))
  | none => match s.tlb.find? fun t => t.core == coreOf quad && t.ctx == c.num && inPage t.base t.size va with
    | some t => (laneSet s { quad := quad, lane := lane, ctx := c.num, base := t.base, size := t.size, val := .leaf t.leaf },
        .ok (t.leaf, t.size))
    | none =>
      let r := walk s c va
      (walkEnd (softReads s (quad + 1) (walkPas s c va)) quad lane c.num va r,
        match r with | .leaf e _ size => .ok (e, size) | .fail code lv ft => .error (code, lv, ft))

/-! ### Address checks (R202) -/

/-- A failed check: the memory cause with its level and first-touch bit, and how many bytes of the access come before the
first faulting one. -/
structure AddrFail where
  code : Nat
  level : Nat
  ft : Bool
  off : Nat
deriving DecidableEq, Repr

/-- A plain failure. -/
def AddrFail.of (code : Nat) : AddrFail := { code := code, level := 0, ft := false, off := 0 }

/-- A scratchpad address within the launch's reservation (R201): the core and the offset. -/
def scratchPlace (s : State) (w : Wave) (a n : Nat) : Except AddrFail (Nat × Nat) :=
  if nbits a 23 9 ≠ 0 ∨ nbits a 19 1 ≠ 0 then .error (AddrFail.of 6)
  else
    let core := if nbits a 22 1 = 1 then coreOf w.quad / 4 * 4 + nbits a 20 2 else coreOf w.quad
    match s.resvOf w.launch core with
    | none => .error (AddrFail.of 6)
    | some r =>
      if r.size < nbits a 0 19 + n then .error { AddrFail.of 6 with off := r.size - nbits a 0 19 } else .ok (core, nbits a 0 19)

/-- The place that a leaf gives an address: device memory under its key, the host window or an import slot (R395), with
the checks that belong to it. -/
def leafPlace (s : State) (ctx : Nat) (e : DWord) (va size : Nat) : Except AddrFail Loc :=
  let pa := leafPa e va size
  if pa / 2 ^ 50 < 2 then
    if stackReady s pa then .ok (.dev pa (leafKey e)) else .error (AddrFail.of 9)
  else if pa / 2 ^ 50 = 2 then .ok (.host pa)
  else if importValid s ctx (nbits pa 38 12) then .ok (.imp ctx (nbits pa 38 12) (nbits pa 0 38))
  else .error (AddrFail.of 2)

/-- What an access asks: bytes, writing, alignment needed, and the atomic it is: its form number and named scope. `direct`: it is
an element of a handle in a scratchpad space (R178) and no access through the aperture, so R214 asks no alignment of it. `peers`: a
peer package may refuse it (R403); a word that reads nothing there is refused by none (R225, R226, R339). -/
structure Ask where
  n : Nat
  write : Bool
  aligned : Bool
  atom : Option (Nat × Nat)
  direct : Bool := false
  peers : Bool := true
deriving DecidableEq, Repr

/-- The effective scope of an atomic at a place (R221). -/
def effScope (w : Wave) (loc : Loc) (sc : Nat) : Nat :=
  match loc with
  | .scr core _ => if core = coreOf w.quad then sc else max sc 2
  | .dev _ _ => max sc 3
  | _ => 4

/-- An atomic form that the host target takes: add on integers, exchange, CAS (R221). Forms are numbered as the opcode
table orders them, CAS after them. -/
def hostAtom (k : Nat) : Bool := k = 0 || k = 1 || k = 11 || k = 12 || k = 13 || k = 14

/-- The rules of a surrogate tile, of host atomics and of sync lines (R202 step 7, R203, R353). The order among them, and the place of the
host's atomic forms after them, are the model's choice (log 63). -/
def placeRules (s : State) (w : Wave) (a : Ask) (loc : Loc) (kind : Nat) : Option Nat :=
  match loc with
  | .scr core off =>
    let sync := match s.resvOf w.launch core with
      | some r => (List.range a.n).any fun i => r.sync.contains ((off + i) / 64)
      | none => false
    if a.write && sync then some 7
    else match a.atom with
      | some (_, sc) => if w.token.isSome && decide (3 ≤ effScope w loc sc) then some 8 else none
      | none => none
  | _ =>
    let outside := match loc with | .host _ => true | .imp _ _ _ => true | _ => false
    let host := match loc with | .host _ => true | _ => false
    match a.atom with
    | some (k, sc) =>
      if w.token.isSome && decide (3 ≤ effScope w loc sc) then some 8
      else if host && !hostAtom k then some 0xA
      else none
    | none => if w.token.isSome && a.write && (decide (kind = 1) || outside) then some 8 else none

/-- A piece of an access: its place, kind, length and offset within the access. -/
structure Piece where
  loc : Loc
  va : DWord
  size : Nat
  voff : Nat
  kind : Nat
  leafW : Bool
deriving DecidableEq, Repr

/-- The lengths of the pieces of an access of `n` bytes at `va`, cut at 64-byte sectors (R214). -/
def pieceLens (va n : Nat) : List (Nat × Nat) :=
  let first := min n (64 - va % 64)
  if first = n then [(0, n)] else [(0, first), (first, n - first)]

/-- Translate the pieces of an access in order: the state with its caches, and the pieces or the first failure (R202,
step 4). -/
def translatePieces (s : State) (quad lane : Nat) (c : Ctx) (ptr : DWord) :
    List (Nat × Nat) → State × Except AddrFail (List Piece)
  | [] => (s, .ok [])
  | (off, len) :: rest =>
    let va := ptr.toNat % 2 ^ 49 + off
    let (s1, r) := translate s quad lane c va
    match r with
    | .error (code, lv, ft) => (s1, .error { code := code, level := if code = 3 then lv else 0, ft := ft, off := off })
    | .ok (e, size) => match leafPlace s1 c.num e va size with
      | .error f => (s1, .error { f with off := off })
      | .ok loc =>
        let (s2, r2) := translatePieces s1 quad lane c ptr rest
        (s2, r2.map fun ps =>
          { loc := loc, va := ptr + BitVec.ofNat 64 off, size := len, voff := off, kind := leafKind e, leafW := e.getLsbD 1 } :: ps)

/-- The checks of R202 on one pointer of a wave, in order, made in a lane: the pieces of the access or the failure. The
answer of a peer that refuses an access is known before the wave goes on (log 11); without a route there is none (R404). -/
def checkPtr (s : State) (w : Wave) (lane : Nat) (a : Ask) (ptr : DWord) : State × Except AddrFail (List Piece) :=
  let p := ptr.toNat
  if nbits p 56 8 = 0xFF then
    if nbits p 32 24 ≠ 0 then (s, .error (AddrFail.of 1))
    else match scratchPlace s w (nbits p 0 32) a.n with
      | .error f => (s, .error f)
      | .ok (core, off) =>
        if !a.direct && decide (p % a.n ≠ 0) then (s, .error (AddrFail.of 5))
        else match placeRules s w a (.scr core off) 0 with
          | some code => (s, .error (AddrFail.of code))
          | none => (s, .ok [{ loc := .scr core off, va := ptr, size := a.n, voff := 0, kind := 0, leafW := true }])
  else if nbits p 49 7 ≠ 0 then (s, .error (AddrFail.of 1))
  else match s.ctxOf w.ctx with
    | none => (s, .error (AddrFail.of 2))
    | some c =>
      if !regionOk c ptr a.n then (s, .error { AddrFail.of 2 with off := regionOff c ptr })
      else
        let (s1, r) := translatePieces s w.quad lane c ptr (pieceLens p a.n)
        match r with
        | .error f => (s1, .error f)
        | .ok ps =>
          if a.write && !(regionW c ptr) then (s1, .error (AddrFail.of 4))
          else match (if a.write then ps.find? fun x => !x.leafW else none) with
            | some x => (s1, .error { AddrFail.of 4 with off := x.voff })
            | none =>
              if a.aligned && decide (p % a.n ≠ 0) then (s1, .error (AddrFail.of 5))
              else match ps.findSome? fun x => (placeRules s1 w a x.loc x.kind).map fun code => { AddrFail.of code with off := x.voff } with
                | some f => (s1, .error f)
                | none => peers s1 ps
where
  peers (s1 : State) (ps : List Piece) : State × Except AddrFail (List Piece) :=
    if a.peers && ps.any (fun x => match x.loc with | .imp ctx slot _ => routed s1 ctx slot | _ => false) then
      let ans := Config.peerAnswer s1.freeN
      let s2 := { s1 with freeN := s1.freeN + 1 }
      if ans = 1 then (s2, .error (AddrFail.of 2))
      else if ans = 2 && a.write then (s2, .error (AddrFail.of 4))
      else (s2, .ok ps)
    else (s1, .ok ps)

end Sys2Proof.Machine
end

