-- ==== Sys2Proof/Machine/Cords.lean ====
section
/-!
DEFINITION. Cords and stoking (R75 to R92, R308 to R311): what a cord holds ready, how a wave takes items at a stoke point,
and how waves park, drain and retire.
-/
namespace Sys2Proof.Machine

/-! ### What a cord holds (R308 to R311) -/

/-- Range items are left in a cord (R308). The range of a guarded-surrogate launch's main cord goes through its tiles
(R350). -/
def rangeLeft (s : State) (c : Cord) : Bool :=
  match s.launchOf c.launch with
  | none => decide (c.taken < c.range)
  | some l =>
    if l.sg && decide (c.num = l.main) then
      decide (l.tileNext * l.titems < l.range) || !l.rerun.isEmpty ||
        s.tiles.any fun t => t.launch == l.id && t.phase == 0 && decide (t.next < t.stop)
    else decide (c.taken < c.range)

/-- A cord is empty (R89, R311). -/
def cordEmpty (s : State) (c : Cord) : Bool :=
  c.items.isEmpty && !rangeLeft s c && !(s.pen.any fun t => t.cord == c.num) && !(s.released.any fun t => t.cord == c.num)

/-- The tile of a wave. -/
def waveTile (s : State) (w : Wave) : Option STile := w.token.bind s.tileOf

/-- A wave's cord counts as closed and empty (R86, R88). A cord that has become Free holds nothing. -/
def cordDone (s : State) (w : Wave) : Bool :=
  if w.token.isSome then
    match waveTile s w with
    | some t => decide (t.stop ≤ t.next)
    | none => true
  else match s.cordOf w.cord with
    | some c => c.closed && cordEmpty s c
    | none => true

/-- The argument words of a launch for a plan (R309). -/
def argWords (s : State) (launch args : Nat) : List Word :=
  match s.launchOf launch with
  | some l => l.argt.take args
  | none => []

/-- The next item for a wave, taken from its tile or its cord in cord order (R84, R86, R309): range items first. -/
def takeItem (s : State) (w : Wave) : Option (Item × State) :=
  match w.token with
  | some k => match s.tileOf k with
    | some t =>
      if t.next < t.stop then
        some ({ ord := t.next, args := argWords s w.launch w.args }, s.modTile k fun x => { x with next := x.next + 1 })
      else none
    | none => none
  | none => match s.cordOf w.cord with
    | none => none
    | some c =>
      if c.taken < c.range then
        some ({ ord := c.taken, args := argWords s c.launch c.plan.args },
          s.modCord c.num fun x => { x with taken := x.taken + 1 })
      else match c.items with
        | i :: rest => some (i, s.modCord c.num fun x => { x with items := rest })
        | [] => none

/-- An item is ready for a wave. -/
def itemReady (s : State) (w : Wave) : Bool := (takeItem s w).isSome

/-- An item may still enter a cord in this clk: no header has been served there (R84). -/
def cordOpen (s : State) (cord : Nat) : Bool := inTurn s 1 cord 0

/-- The place of a running wave's stoke header among those that a cord serves in one clk (R84): after the parked waves, by
quadrant, then wave slot. -/
def stokeRank (w : Wave) : Nat := 2 + 16 * w.quad + w.wslot

/-- An item enters a cord (R309): it takes the next ordinal. -/
def enterCord (s : State) (cord : Nat) (args : List Word) : State :=
  s.modCord cord fun c =>
    { c with items := c.items ++ [{ ord := c.nextOrd, args := args ++ List.replicate (c.plan.args - args.length) 0 }],
             nextOrd := c.nextOrd + 1 }

/-- The cord is full (R308): 65,536 ready items. -/
def cordFull (c : Cord) : Bool := decide (65536 ≤ c.items.length)

/-! ### Leaving (R88 to R91) -/

/-- A wave begins to retire (R90): issue stops. -/
def startRetire (w : Wave) : Wave := { w with status := .retiring }

/-- A drain applied to every wave parked on a cord that is Closed and empty (R89, R311), resident or pre-empted. -/
def drainParked (s : State) (cord : Nat) : State :=
  match s.cordOf cord with
  | none => s
  | some c =>
    if c.closed && cordEmpty s c then
      let f := fun (w : Wave) => if w.status = .parked && w.cord = cord && w.token.isNone then
          startRetire { w with draining := true } else w
      { s with w := f s.w, waves := s.waves.map f, saved := s.saved.map f }
    else s

/-- Slots go dark (R76, R88): LIVE, FRESH and EXEC lose them; a slot going dark is progress (R388). -/
def darken (w : Wave) (m : Mask) : Wave :=
  { w with live := w.live &&& ~~~m, fresh := w.fresh &&& ~~~m, exec := w.exec &&& ~~~m,
           wdcnt := if w.live &&& m = 0 then w.wdcnt else 0, wdArmed := w.wdArmed || decide (w.live &&& m ≠ 0) }

/-! ### The stoke step (R82 to R85) -/

/-- A slot refilled with an item (R83). -/
def refillSlot (w : Wave) (slot : Nat) (i : Item) : Wave :=
  { w with
    v := ((List.range w.args).zip i.args).foldl (fun v x => tset v (x.1 * 128 + slot) x.2) w.v
    item := tset w.item slot (BitVec.ofNat 32 i.ord)
    live := w.live ||| slotMask slot, exec := w.exec ||| slotMask slot, fresh := w.fresh ||| slotMask slot
    wdcnt := 0, wdArmed := true }

/-- Dark slots refilled in ascending order while items are ready (R82, R84). -/
def refill : List Nat → State → Wave → State × Wave
  | [], s, w => (s, w)
  | i :: is, s, w =>
    if w.live.getLsbD i then refill is s w
    else match takeItem s w with
      | none => (s, w)
      | some (it, s1) => refill is (noteHeld s1 w) (refillSlot w i it)
where
  noteHeld (s : State) (w : Wave) : State :=
    match w.token with
    | some k => s.modTile k fun t =>
        { t with waves := t.waves.map fun x => if x.uid = w.uid then { x with held := true } else x }
    | none => s

/-- The header makes a refill: it is not in the handler, the wave is not draining, and EXEC is LIVE (R82). -/
def refills (w : Wave) : Bool := !w.supervisor && !w.draining && decide (w.exec = w.live)

/-- The stoke step of R82 for one wave: refill, park or retire. A wave that goes on leaves its header. An item's accesses come
after those that its launch or SPAWN orders before them, so a refill drops the core's L1 lines (R205, R237). -/
def stokeWave (s : State) (uid : Nat) : State :=
  match s.findWave uid with
  | none => s
  | some w =>
    let (s1, w1) :=
      if w.supervisor then (s, w)
      else if w.draining then (s, { w with fresh := 0 })
      else if w.exec ≠ w.live then
        (s.modLaunch w.launch fun l => { l with stkskip := l.stkskip + 1 }, { w with fresh := 0 })
      else refill (List.range w.width) s { w with fresh := 0 }
    let w2 :=
      if w1.live ≠ 0 then { w1 with status := .running, isNew := false, pc := w1.pc + 4 }
      else if w1.draining || cordDone s1 w1 then startRetire { w1 with isNew := false }
      else if w.status = .parked then w1
      else { w1 with status := .parked, blockArg := s1.nextOp }
    let s2 := if refills w then takeTurn s1 1 w.cord (if w.status = .parked then 1 else stokeRank w) else s1
    let s3 := if w1.live = w.live then s2 else l1Drop s2 (coreOf w.quad)
    drainParked ({ s3 with nextOp := s3.nextOp + 1 }.modWave uid fun _ => w2) w.cord

/-- A wave moved to the end of the round-robin order (R23, R33, R93). -/
def moveLast (s : State) (uid : Nat) : State :=
  { s with order := (s.order.filter fun x => x != uid) ++ [uid] }

/-- A parked wave is the first of its cord in line, of those that no pre-emption has marked, and its cord holds a ready item (R84,
R91). -/
def restokeReady (s : State) (w : Wave) : Bool :=
  w.status = .parked && w.group == 0 && (match s.launchOf w.launch with | some l => l.ending.isNone | none => true) &&
    itemReady s w &&
    s.allWaves.all fun x => !(x.status = .parked && x.group == 0 && x.cord == w.cord && decide (x.blockArg < w.blockArg))

/-! ### Register pools (R96 to R99) -/

/-- The launch's pool in a quadrant; it starts empty. -/
def poolOf (s : State) (launch quad : Nat) : Pool :=
  (s.pools.find? fun p => p.launch == launch && p.quad == quad).getD { launch := launch, quad := quad, rows := 0, line := [] }

/-- A pool changed. -/
def setPool (s : State) (p : Pool) : State :=
  { s with pools := p :: s.pools.filter fun x => !(x.launch == p.launch && x.quad == p.quad) }

/-- Rows that `n` registers take in a wave. -/
def poolNeed (w : Wave) (n : Nat) : Nat := n * w.width / 32

/-- A claim can be met: the wave is first in line and the pool suffices (R98). -/
def claimMet (s : State) (w : Wave) (n : Nat) : Bool :=
  let p := poolOf s w.launch w.quad
  decide (poolNeed w n ≤ p.rows) && (match p.line.head? with | none => true | some x => x.1 == w.uid)

/-- The wave blocks in CLAIM and joins the line (R92, R98). -/
def blockClaim (s : State) (n : Nat) : State :=
  let w := s.w
  let p := poolOf s w.launch w.quad
  let s1 := if p.line.any fun x => x.1 == w.uid then s else setPool s { p with line := p.line ++ [(w.uid, n)] }
  { s1 with w := { w with status := .blocked, blocked := .claim n, blockArg := w.pc.toNat } }

/-- The wave takes `n` registers from its pool (R98): they read zero. -/
def takeRegs (s : State) (n : Nat) : State :=
  let w := s.w
  let p := poolOf s w.launch w.quad
  let s1 := setPool s { p with rows := p.rows - poolNeed w n, line := p.line.filter fun x => x.1 != w.uid }
  { s1 with w := { w with nregs := w.nregs + n, v := tdrop (fun k => decide (w.nregs * 128 ≤ k)) w.v,
                          status := .running, blocked := .none } }

end Sys2Proof.Machine
end

