-- ==== Sys2Proof/Machine/IntOps.lean ====
section
/-!
DEFINITION. The integer functions on values (R105 to R111): what each form computes from its operands, once for the
vector form and its wave twin.
-/
namespace Sys2Proof.Machine

/-- The high half of a signed product (R105). -/
def mulHiS (a b : Word) : Word := hi32 (a.signExtend 64 * b.signExtend 64)

/-- The high half of an unsigned product (R105). -/
def mulHiU (a b : Word) : Word := hi32 (a.setWidth 64 * b.setWidth 64)

/-- The whole signed product (R105). -/
def mulWideS (a b : Word) : DWord := a.signExtend 64 * b.signExtend 64

/-- The whole unsigned product (R105). -/
def mulWideU (a b : Word) : DWord := a.setWidth 64 * b.setWidth 64

/-- The smaller of two signed values (R105). -/
def minS {n : Nat} (a b : BitVec n) : BitVec n := if BitVec.sle a b then a else b

/-- The smaller of two unsigned values (R105). -/
def minU {n : Nat} (a b : BitVec n) : BitVec n := if BitVec.ule a b then a else b

/-- The larger of two signed values (R105). -/
def maxS {n : Nat} (a b : BitVec n) : BitVec n := if BitVec.sle a b then b else a

/-- The larger of two unsigned values (R105). -/
def maxU {n : Nat} (a b : BitVec n) : BitVec n := if BitVec.ule a b then b else a

/-- The absolute value, wrapping (R105). -/
def absW {n : Nat} (a : BitVec n) : BitVec n := if a.msb then -a else a

/-- SEL (R106): each 1 bit of the old D takes `a`'s bit, each 0 bit takes `b`'s. -/
def selW (d a b : Word) : Word := (a &&& d) ||| (b &&& ~~~d)

/-- POPC (R106). -/
def popcW (a : Word) : Word := BitVec.ofNat 32 ((List.range 32).foldl (fun n i => n + bitOf (a.getLsbD i)) 0)

/-- CLZ (R106). -/
def clzW (a : Word) : Word := if a = 0 then 32 else BitVec.ofNat 32 (31 - Nat.log2 a.toNat)

/-- BREV (R106). -/
def brevW (a : Word) : Word := a.reverse

/-- SHL (R107): a count of the width or more gives 0. -/
def shlW {n : Nat} (a : BitVec n) (c : Word) : BitVec n := if n ≤ c.toNat then 0 else a <<< c.toNat

/-- SHR (R107). -/
def shrW {n : Nat} (a : BitVec n) (c : Word) : BitVec n := if n ≤ c.toNat then 0 else a >>> c.toNat

/-- SAR (R107): a count of the width or more counts as the width less one. -/
def sarW {n : Nat} (a : BitVec n) (c : Word) : BitVec n := a.sshiftRight (if n ≤ c.toNat then n - 1 else c.toNat)

/-- ROT (R107): left rotate by the count modulo 32. -/
def rotW (a c : Word) : Word := a.rotateLeft (c.toNat % 32)

/-- The width a field control selects, cut at bit 31 (R108). -/
def bfWidth (c : Word) : Nat := min (nbits c.toNat 8 6) (32 - c.toNat % 32)

/-- BFE.n32 (R108). -/
def bfeU (a c : Word) : Word := BitVec.ofNat 32 (nbits a.toNat (c.toNat % 32) (bfWidth c))

/-- BFE.i32 (R108). -/
def bfeS (a c : Word) : Word :=
  if bfWidth c = 0 then 0 else BitVec.ofInt 32 (sextNat (nbits a.toNat (c.toNat % 32) (bfWidth c)) (bfWidth c))

/-- BFI (R108). -/
def bfiW (d a c : Word) : Word :=
  let m : Word := BitVec.ofNat 32 ((2 ^ bfWidth c - 1) * 2 ^ (c.toNat % 32))
  (d &&& ~~~m) ||| ((a <<< (c.toNat % 32)) &&& m)

/-- LEA (R110): the base plus the signed index shifted left by `k`. -/
def leaW (k : Nat) (a : DWord) (b : Word) : DWord := a + (b.signExtend 64 <<< k)

/-- The six conditions of ICMP (R55, R111): eq, ne, lt and le signed, lt and le unsigned. -/
def icmpW {n : Nat} (c : Nat) (a b : BitVec n) : Bool :=
  match c with
  | 0 => a == b
  | 1 => a != b
  | 2 => BitVec.slt a b
  | 3 => BitVec.sle a b
  | 4 => BitVec.ult a b
  | _ => BitVec.ule a b

/-- MOVHI (R109). -/
def movhiW (imm : BitVec 16) (d : Word) : Word := BitVec.ofNat 32 (imm.toNat * 65536 + d.toNat % 65536)

end Sys2Proof.Machine
end

