-- ==== Sys2Proof/Machine/Integer.lean ====
section
/-!
DEFINITION. The integer and address instructions (R100 to R112): the vector forms, which act in each EXEC slot, and
their wave-register twins, which act once.
-/
namespace Sys2Proof.Machine

/-- The outcome of a meaning. -/
abbrev Out := Host.Outcome State Fault Refusal

/-- Something the device can do next: an event's meaning on its operands, or the issue of a chain group. -/
abbrev Act := State → Out

/-! ### The shared shapes -/

/-- A binary 32-bit vector form (R100, R101). -/
def vecBin (s : State) (f : RBin) (g : Word → Word → Word) : State :=
  vecOut s .valu f.d fun i => g (vRead s.rd f.a i) (bRead s f.b f.x i)

/-- A vector form that also reads D (R105, R106, R108). -/
def vecTer (s : State) (f : RBin) (g : Word → Word → Word → Word) : State :=
  vecOut s .valu f.d fun i => g (vRead s.rd f.d i) (vRead s.rd f.a i) (bRead s f.b f.x i)

/-- A vector form with 32-bit sources and a pair result (R105). -/
def vecWide (s : State) (f : RBin) (g : Word → Word → DWord) : State :=
  vecOut64 s .valu f.d fun i => g (vRead s.rd f.a i) (bRead s f.b f.x i)

/-- A vector form on pairs (R105). -/
def vecBin64 (s : State) (f : RBin) (g : DWord → DWord → DWord) : State :=
  vecOut64 s .valu f.d fun i => g (vRead64 s.rd f.a i) (bRead64 s f.b f.x i)

/-- A 64-bit shift: A is a pair, B a 32-bit count (R107). -/
def vecShift64 (s : State) (f : RBin) (g : DWord → Word → DWord) : State :=
  vecOut64 s .valu f.d fun i => g (vRead64 s.rd f.a i) (bRead s f.b f.x i)

/-- A unary 32-bit vector form. -/
def vecUn (s : State) (f : RUn) (g : Word → Word) : State :=
  vecOut s .valu f.d fun i => g (vRead s.rd f.a i)

/-- A unary vector form on pairs. -/
def vecUn64 (s : State) (f : RUn) (g : DWord → DWord) : State :=
  vecOut64 s .valu f.d fun i => g (vRead64 s.rd f.a i)

/-- A binary 32-bit wave form (R112). -/
def wavBin (s : State) (f : R3) (g : Word → Word → Word) : State :=
  waveOut s f.d (g (sRead s.clk s.rd f.a) (sRead s.clk s.rd f.b))

/-- A wave form that also reads D. -/
def wavTer (s : State) (f : R3) (g : Word → Word → Word → Word) : State :=
  waveOut s f.d (g (sRead s.clk s.rd f.d) (sRead s.clk s.rd f.a) (sRead s.clk s.rd f.b))

/-- A wave form with 32-bit sources and a pair result. -/
def wavWide (s : State) (f : R3) (g : Word → Word → DWord) : State :=
  waveOut64 s f.d (g (sRead s.clk s.rd f.a) (sRead s.clk s.rd f.b))

/-- A wave form on pairs. -/
def wavBin64 (s : State) (f : R3) (g : DWord → DWord → DWord) : State :=
  waveOut64 s f.d (g (sRead64 s.clk s.rd f.a) (sRead64 s.clk s.rd f.b))

/-- A 64-bit wave shift. -/
def wavShift64 (s : State) (f : R3) (g : DWord → Word → DWord) : State :=
  waveOut64 s f.d (g (sRead64 s.clk s.rd f.a) (sRead s.clk s.rd f.b))

/-- A unary wave form. -/
def wavUn (s : State) (f : RUn) (g : Word → Word) : State := waveOut s f.d (g (sRead s.clk s.rd f.a))

/-- A unary wave form on pairs. -/
def wavUn64 (s : State) (f : RUn) (g : DWord → DWord) : State := waveOut64 s f.d (g (sRead64 s.clk s.rd f.a))

/-! ### Vector forms -/

/-- IADD (R105). -/
def execIadd (f : RBin) (s : State) : Out := .next (vecBin s f (fun a b => a + b))

/-- ISUB (R105). -/
def execIsub (f : RBin) (s : State) : Out := .next (vecBin s f (fun a b => a - b))

/-- IMUL.lo (R105). -/
def execImulLo (f : RBin) (s : State) : Out := .next (vecBin s f (fun a b => a * b))

/-- IMUL.hi.i32 (R105). -/
def execImulHiI32 (f : RBin) (s : State) : Out := .next (vecBin s f mulHiS)

/-- IMUL.hi.n32 (R105). -/
def execImulHiN32 (f : RBin) (s : State) : Out := .next (vecBin s f mulHiU)

/-- IMUL.wide.i32 (R105). -/
def execImulWideI32 (f : RBin) (s : State) : Out := .next (vecWide s f mulWideS)

/-- IMUL.wide.n32 (R105). -/
def execImulWideN32 (f : RBin) (s : State) : Out := .next (vecWide s f mulWideU)

/-- IMAD (R105). -/
def execImad (f : RBin) (s : State) : Out := .next (vecTer s f (fun d a b => a * b + d))

/-- IMIN.i32 (R105). -/
def execIminI32 (f : RBin) (s : State) : Out := .next (vecBin s f minS)

/-- IMIN.n32 (R105). -/
def execIminN32 (f : RBin) (s : State) : Out := .next (vecBin s f minU)

/-- IMAX.i32 (R105). -/
def execImaxI32 (f : RBin) (s : State) : Out := .next (vecBin s f maxS)

/-- IMAX.n32 (R105). -/
def execImaxN32 (f : RBin) (s : State) : Out := .next (vecBin s f maxU)

/-- IABS.i32 (R105). -/
def execIabsI32 (f : RUn) (s : State) : Out := .next (vecUn s f absW)

/-- AND (R106). -/
def execAnd (f : RBin) (s : State) : Out := .next (vecBin s f (fun a b => a &&& b))

/-- OR (R106). -/
def execOr (f : RBin) (s : State) : Out := .next (vecBin s f (fun a b => a ||| b))

/-- XOR (R106). -/
def execXor (f : RBin) (s : State) : Out := .next (vecBin s f (fun a b => a ^^^ b))

/-- SHL (R107). -/
def execShl (f : RBin) (s : State) : Out := .next (vecBin s f shlW)

/-- SHR (R107). -/
def execShr (f : RBin) (s : State) : Out := .next (vecBin s f shrW)

/-- SAR (R107). -/
def execSar (f : RBin) (s : State) : Out := .next (vecBin s f sarW)

/-- ROT (R107). -/
def execRot (f : RBin) (s : State) : Out := .next (vecBin s f rotW)

/-- POPC (R106). -/
def execPopc (f : RUn) (s : State) : Out := .next (vecUn s f popcW)

/-- CLZ (R106). -/
def execClz (f : RUn) (s : State) : Out := .next (vecUn s f clzW)

/-- BREV (R106). -/
def execBrev (f : RUn) (s : State) : Out := .next (vecUn s f brevW)

/-- BFE.i32 (R108). -/
def execBfeI32 (f : RBin) (s : State) : Out := .next (vecBin s f bfeS)

/-- BFE.n32 (R108). -/
def execBfeN32 (f : RBin) (s : State) : Out := .next (vecBin s f bfeU)

/-- BFI (R108). -/
def execBfi (f : RBin) (s : State) : Out := .next (vecTer s f bfiW)

/-- SEL (R106). -/
def execSel (f : RBin) (s : State) : Out := .next (vecTer s f selW)

/-- MOV (R109). -/
def execMov (f : RUn) (s : State) : Out := .next (vecUn s f id)

/-- LEA (R110). -/
def execLea (f : LeaF) (s : State) : Out :=
  .next (vecOut64 s .valu f.d fun i => leaW f.sh.toNat (vRead64 s.rd f.a i) (bRead s f.b f.x i))

/-- The vector ICMP writes a wave mask (R111, R77). -/
def execIcmp (f : CmpF) (s : State) : Out :=
  .next (maskOut s .valu f.d fun i => icmpW f.n.toNat (vRead s.rd f.a i) (bRead s f.b f.x i))

/-- IADD.i64 (R105). -/
def execIaddI64 (f : RBin) (s : State) : Out := .next (vecBin64 s f (fun a b => a + b))

/-- ISUB.i64 (R105). -/
def execIsubI64 (f : RBin) (s : State) : Out := .next (vecBin64 s f (fun a b => a - b))

/-- IMUL.lo.i64 (R105). -/
def execImulLoI64 (f : RBin) (s : State) : Out := .next (vecBin64 s f (fun a b => a * b))

/-- IMIN.i64 (R105). -/
def execIminI64 (f : RBin) (s : State) : Out := .next (vecBin64 s f minS)

/-- IMIN.n64 (R105). -/
def execIminN64 (f : RBin) (s : State) : Out := .next (vecBin64 s f minU)

/-- IMAX.i64 (R105). -/
def execImaxI64 (f : RBin) (s : State) : Out := .next (vecBin64 s f maxS)

/-- IMAX.n64 (R105). -/
def execImaxN64 (f : RBin) (s : State) : Out := .next (vecBin64 s f maxU)

/-- SHL.i64 (R107). -/
def execShlI64 (f : RBin) (s : State) : Out := .next (vecShift64 s f shlW)

/-- SHR.n64 (R107). -/
def execShrN64 (f : RBin) (s : State) : Out := .next (vecShift64 s f shrW)

/-- SAR.i64 (R107). -/
def execSarI64 (f : RBin) (s : State) : Out := .next (vecShift64 s f sarW)

/-- The 64-bit vector ICMP writes a wave mask (R111, R77). -/
def execIcmpI64 (f : CmpF) (s : State) : Out :=
  .next (maskOut s .valu f.d fun i => icmpW f.n.toNat (vRead64 s.rd f.a i) (bRead64 s f.b f.x i))

/-- MOV.i64 (R109). -/
def execMovI64 (f : RUn) (s : State) : Out := .next (vecUn64 s f id)

/-- IABS.i64 (R105). -/
def execIabsI64 (f : RUn) (s : State) : Out := .next (vecUn64 s f absW)

/-- MOVI (R109). -/
def execMovi (f : MovF) (s : State) : Out := .next (vecOut s .valu f.d fun _ => f.imm.signExtend 32)

/-- MOVHI (R109). -/
def execMovhi (f : MovF) (s : State) : Out := .next (vecOut s .valu f.d fun i => movhiW f.imm (vRead s.rd f.d i))

/-- IADD, immediate form (R109). -/
def execIaddImm (f : ImmF) (s : State) : Out :=
  .next (vecOut s .valu f.d fun i => vRead s.rd f.d i + f.imm.signExtend 32)

/-! ### Wave-register twins (R112) -/

/-- The wave IADD (R105, R112). -/
def execIaddWave (f : R3) (s : State) : Out := .next (wavBin s f (fun a b => a + b))

/-- The wave ISUB (R105, R112). -/
def execIsubWave (f : R3) (s : State) : Out := .next (wavBin s f (fun a b => a - b))

/-- The wave IMUL.lo (R105, R112). -/
def execImulLoWave (f : R3) (s : State) : Out := .next (wavBin s f (fun a b => a * b))

/-- The wave IMUL.hi.i32 (R105, R112). -/
def execImulHiI32Wave (f : R3) (s : State) : Out := .next (wavBin s f mulHiS)

/-- The wave IMUL.hi.n32 (R105, R112). -/
def execImulHiN32Wave (f : R3) (s : State) : Out := .next (wavBin s f mulHiU)

/-- The wave IMUL.wide.i32 (R105, R112). -/
def execImulWideI32Wave (f : R3) (s : State) : Out := .next (wavWide s f mulWideS)

/-- The wave IMUL.wide.n32 (R105, R112). -/
def execImulWideN32Wave (f : R3) (s : State) : Out := .next (wavWide s f mulWideU)

/-- The wave IMAD (R105, R112). -/
def execImadWave (f : R3) (s : State) : Out := .next (wavTer s f (fun d a b => a * b + d))

/-- The wave IMIN.i32 (R105, R112). -/
def execIminI32Wave (f : R3) (s : State) : Out := .next (wavBin s f minS)

/-- The wave IMIN.n32 (R105, R112). -/
def execIminN32Wave (f : R3) (s : State) : Out := .next (wavBin s f minU)

/-- The wave IMAX.i32 (R105, R112). -/
def execImaxI32Wave (f : R3) (s : State) : Out := .next (wavBin s f maxS)

/-- The wave IMAX.n32 (R105, R112). -/
def execImaxN32Wave (f : R3) (s : State) : Out := .next (wavBin s f maxU)

/-- The wave IABS.i32 (R105, R112). -/
def execIabsI32Wave (f : RUn) (s : State) : Out := .next (wavUn s f absW)

/-- The wave AND (R106, R112). -/
def execAndWave (f : R3) (s : State) : Out := .next (wavBin s f (fun a b => a &&& b))

/-- The wave OR (R106, R112). -/
def execOrWave (f : R3) (s : State) : Out := .next (wavBin s f (fun a b => a ||| b))

/-- The wave XOR (R106, R112). -/
def execXorWave (f : R3) (s : State) : Out := .next (wavBin s f (fun a b => a ^^^ b))

/-- The wave SHL (R107, R112). -/
def execShlWave (f : R3) (s : State) : Out := .next (wavBin s f shlW)

/-- The wave SHR (R107, R112). -/
def execShrWave (f : R3) (s : State) : Out := .next (wavBin s f shrW)

/-- The wave SAR (R107, R112). -/
def execSarWave (f : R3) (s : State) : Out := .next (wavBin s f sarW)

/-- The wave ROT (R107, R112). -/
def execRotWave (f : R3) (s : State) : Out := .next (wavBin s f rotW)

/-- The wave POPC (R106, R112). -/
def execPopcWave (f : RUn) (s : State) : Out := .next (wavUn s f popcW)

/-- The wave CLZ (R106, R112). -/
def execClzWave (f : RUn) (s : State) : Out := .next (wavUn s f clzW)

/-- The wave BREV (R106, R112). -/
def execBrevWave (f : RUn) (s : State) : Out := .next (wavUn s f brevW)

/-- The wave BFE.i32 (R108, R112). -/
def execBfeI32Wave (f : R3) (s : State) : Out := .next (wavBin s f bfeS)

/-- The wave BFE.n32 (R108, R112). -/
def execBfeN32Wave (f : R3) (s : State) : Out := .next (wavBin s f bfeU)

/-- The wave BFI (R108, R112). -/
def execBfiWave (f : R3) (s : State) : Out := .next (wavTer s f bfiW)

/-- The wave SEL (R106, R112). -/
def execSelWave (f : R3) (s : State) : Out := .next (wavTer s f selW)

/-- The wave MOV (R109, R112). -/
def execMovWave (f : RUn) (s : State) : Out := .next (wavUn s f id)

/-- The wave LEA (R110, R112). -/
def execLeaWave (f : LeaW) (s : State) : Out :=
  .next (waveOut64 s f.d (leaW f.sh.toNat (sRead64 s.clk s.rd f.a) (sRead s.clk s.rd f.b)))

/-- The wave ICMP writes a predicate (R111, R112). -/
def execIcmpWave (f : CmpW) (s : State) : Out :=
  .next (predOut s .wave 1 f.p.toNat (icmpW f.n.toNat (sRead s.clk s.rd f.a) (sRead s.clk s.rd f.b)))

/-- The wave IADD.i64 (R105, R112). -/
def execIaddI64Wave (f : R3) (s : State) : Out := .next (wavBin64 s f (fun a b => a + b))

/-- The wave ISUB.i64 (R105, R112). -/
def execIsubI64Wave (f : R3) (s : State) : Out := .next (wavBin64 s f (fun a b => a - b))

/-- The wave IMUL.lo.i64 (R105, R112). -/
def execImulLoI64Wave (f : R3) (s : State) : Out := .next (wavBin64 s f (fun a b => a * b))

/-- The wave IMIN.i64 (R105, R112). -/
def execIminI64Wave (f : R3) (s : State) : Out := .next (wavBin64 s f minS)

/-- The wave IMIN.n64 (R105, R112). -/
def execIminN64Wave (f : R3) (s : State) : Out := .next (wavBin64 s f minU)

/-- The wave IMAX.i64 (R105, R112). -/
def execImaxI64Wave (f : R3) (s : State) : Out := .next (wavBin64 s f maxS)

/-- The wave IMAX.n64 (R105, R112). -/
def execImaxN64Wave (f : R3) (s : State) : Out := .next (wavBin64 s f maxU)

/-- The wave SHL.i64 (R107, R112). -/
def execShlI64Wave (f : R3) (s : State) : Out := .next (wavShift64 s f shlW)

/-- The wave SHR.n64 (R107, R112). -/
def execShrN64Wave (f : R3) (s : State) : Out := .next (wavShift64 s f shrW)

/-- The wave SAR.i64 (R107, R112). -/
def execSarI64Wave (f : R3) (s : State) : Out := .next (wavShift64 s f sarW)

/-- The wave 64-bit ICMP writes a predicate (R111, R112). -/
def execIcmpI64Wave (f : CmpW) (s : State) : Out :=
  .next (predOut s .wave 1 f.p.toNat (icmpW f.n.toNat (sRead64 s.clk s.rd f.a) (sRead64 s.clk s.rd f.b)))

/-- The wave MOV.i64 (R109, R112). -/
def execMovI64Wave (f : RUn) (s : State) : Out := .next (wavUn64 s f id)

/-- The wave IABS.i64 (R105, R112). -/
def execIabsI64Wave (f : RUn) (s : State) : Out := .next (wavUn64 s f absW)

/-- The wave MOVI (R109, R112). -/
def execMoviWave (f : MovF) (s : State) : Out := .next (waveOut s f.d (f.imm.signExtend 32))

/-- The wave MOVHI (R109, R112). -/
def execMovhiWave (f : MovF) (s : State) : Out := .next (waveOut s f.d (movhiW f.imm (sRead s.clk s.rd f.d)))

/-- The wave IADD, immediate form (R109, R112). -/
def execIaddImmWave (f : ImmF) (s : State) : Out :=
  .next (waveOut s f.d (sRead s.clk s.rd f.d + f.imm.signExtend 32))

end Sys2Proof.Machine
end

