-- ==== Sys2Proof/Machine/Control.lean ====
section
/-!
DEFINITION. Control instructions (R31 to R34, R64, R78 to R98): the clause header, transfers, leaving, register sharing,
TRAP and BKPT, and the events of the issue stage.
-/
namespace Sys2Proof.Machine

/-! ### Transfers (R27, R34, R79 to R81) -/

/-- The address of the executing word's packet (R79). -/
def pktOf (pc : DWord) : DWord := BitVec.ofNat 64 (pc.toNat - pc.toNat % 12)

/-- The packet after the executing word's. -/
def nextPkt (w : Wave) : DWord := pktOf w.pc + 12

/-- The packet that an offset names: pkt + 12·sext(OFF15) (R79). -/
def branchTarget (pc : DWord) (off : BitVec 15) : DWord := pktOf pc + 12 * off.signExtend 64

/-- The target of a transfer fails R34's check. -/
def badJump (s : State) (t : DWord) : Bool := badTarget s (coreOf s.w.quad) s.w.ctx t

/-- PC goes to a target, which must be a clause header (R34); otherwise `f` takes no effect. -/
def jumpTo (s : State) (t : DWord) (f : Wave → Wave) : State :=
  if badJump s t then trapNow s 1 0x11 else s.modW fun w => { f w with pc := t }

/-- BRA's condition (R79), on the wave as it stood before its chain group. -/
def braTaken (w : Wave) (cond : BitVec 4) (qp : BitVec 3) : Bool :=
  match cond.toNat with
  | 0 => true
  | 1 => qRead w qp.toNat
  | 2 => !qRead w qp.toNat
  | 3 => decide (w.exec = 0)
  | 4 => decide (w.exec ≠ 0)
  | 5 => decide (w.live = 0)
  | _ => decide (w.fresh ≠ 0)

/-- BRA (R79). -/
def execBra (f : BraF) (s : State) : Out :=
  .next (if braTaken s.rd f.cond f.qp then jumpTo s (branchTarget s.w.pc f.off) id else s.done)

/-- CALL (R80). -/
def execCall (f : CallF) (s : State) : Out :=
  .next (if 8 ≤ s.w.rstack.length then trapNow s 4 1
    else jumpTo s (branchTarget s.w.pc f.off) fun w => { w with rstack := nextPkt s.w :: w.rstack })

/-- Items leave (R88): the slots that EXEC held before the group go dark (R29), and EXEC becomes empty; the wave retires or goes on at the next
packet (R81). A next packet that is no clause header traps at the word, which then has no effect (log 14). -/
def exitNow (s : State) : State :=
  let leave := fun (w : Wave) => { darken w s.rd.exec with exec := 0 }
  let w1 := leave s.w
  if decide (w1.live = 0) && (w1.draining || cordDone s w1) then { s with w := startRetire w1 }
  else jumpTo s (nextPkt s.w) leave

/-- RET (R80): the top of the return stack, or EXIT when it is empty. -/
def execRet (s : State) : Out :=
  .next (match s.w.rstack with
    | [] => exitNow s
    | t :: rest => jumpTo s t fun w => { w with rstack := rest })

/-- EXIT (R88). -/
def execExit (s : State) : Out := .next (exitNow s)

/-- The draining state set (R89): a wave with no item retires. -/
def applyDrain (w : Wave) : Wave :=
  if w.live = 0 then startRetire { w with draining := true } else { w with draining := true }

/-- DRAIN (R89). -/
def execDrain (s : State) : Out := .next (s.modW applyDrain).done

/-- YIELD (R93). -/
def execYield (s : State) : Out := .next (moveLast s s.w.uid).done

/-- NOP (R64). -/
def execNop (s : State) : Out := .next s.done

/-! ### The clause header (R31 to R33, R82, R310) -/

/-- The keys of the flags that a header waits for. -/
def waitKeys (w : Wave) (f : ClauseF) : List Nat :=
  ((List.range 12).filter fun i => f.wait.getLsbD i).map (fIdx w)

/-- A header that waits for a flag of engine operations joins them: its core's L1 drops its lines (R205, R246). -/
def joinFlags (s : State) (f : ClauseF) : State :=
  let ks := waitKeys s.w f
  if ks.any fun k => s.w.engFlags.getLsbD k then
    (l1Drop s (coreOf s.w.quad)).modW fun w =>
      { w with engFlags := ks.foldl (fun e k => e &&& ~~~(BitVec.ofNat 13 (2 ^ k))) w.engFlags }
  else s

/-- CLAUSE (R33): it waits for its flags; lr0 and lr1 become zero; SETA and SETB govern; a stoke point, or the first header
of a new wave (R310), makes the stoke step; YLD yields. -/
def execClause (f : ClauseF) (s : State) : Out :=
  .next (if (List.range 12).any fun i => f.wait.getLsbD i && decide (fRead s.w i ≠ 0) then s
    else
      let s1 := (joinFlags s f).modW fun w => { w with lr0 := [], lr1 := [], seta := f.seta.toNat, setb := f.setb.toNat }
      let s2 := if f.stk || s.w.isNew then stokeWave s1 s.w.uid else s1.done
      if f.yld then moveLast s2 s.w.uid else s2)

/-! ### Register sharing (R96 to R98) -/

/-- GIVE (R97). -/
def execGive (f : GiveF) (s : State) : Out :=
  let w := s.w
  let n := f.imm.toNat
  .next (if w.nregs < n + 8 ∨ w.nregs < n + 8 * ceilDiv w.args 8 then trapNow s 1 0x08
    else
      let p := poolOf s w.launch w.quad
      ((setPool s { p with rows := p.rows + poolNeed w n }).modW fun w =>
        { w with nregs := w.nregs - n, v := tdrop (fun k => decide ((w.nregs - n) * 128 ≤ k)) w.v }).done)

/-- CLAIM (R98): it blocks until it is first in line and the pool can meet it. -/
def execClaim (f : GiveF) (s : State) : Out :=
  let n := f.imm.toNat
  .next (if 96 < s.w.nregs + n then trapNow s 1 0x08
    else if claimMet s s.w n then (takeRegs s n).done
    else blockClaim s n)

/-- CLAIM.TRY (R98). -/
def execClaimTry (f : ClaimTryF) (s : State) : Out :=
  let n := f.imm.toNat
  let res := fun (v : Word) (s : State) => s.modW fun w => addMarks (sSet w f.sd.toNat v) (sMarks w f.sd.toNat 1 none)
  .next (if 96 < s.w.nregs + n then trapNow s 1 0x08
    else if claimMet s s.w n then (res 1 (takeRegs s n)).done
    else (res 0 s).done)

/-! ### TRAP and BKPT (R94) -/

/-- The trap of TRAP (class 5) or BKPT (class 6): every EXEC slot reports IMM15; after RFT the next packet follows. -/
def softTrap (s : State) (cls : Nat) (code : BitVec 15) : Trap :=
  { mkTrap s cls 0 6 with
    cont := nextPkt s.w, kind := .packet
    faults := s.rd.slots.map fun i => { slot := i, cause := fcauseImm cls code.toNat, va := 0 } }

/-- TRAP (R94). -/
def execTrap (f : TrapF) (s : State) : Out :=
  .next (if s.rd.exec = 0 then jumpTo s (nextPkt s.w) id else raise s (softTrap s 5 f.code))

/-- BKPT (R94): taking its trap stops the wave when debug is enabled. -/
def execBkpt (f : TrapF) (s : State) : Out :=
  .next (if s.rd.exec = 0 then jumpTo s (nextPkt s.w) id else raise s (softTrap s 6 f.code))

/-! ### Events of the issue stage -/

/-- PARKED_RESTOKE (R91): a parked wave's header issues again, in the order in which the waves of its cord parked. -/
def execParkedRestoke (wave : Nat) (s : State) : Out :=
  .next (match s.findWave wave with
    | some w => if restokeReady s w then stokeWave s wave else s
    | none => s)

/-- CLAIM_GRANT (R92, R98): the claim is first in line and the pool meets it; the wave runs, and CLAIM issues. -/
def execClaimGrant (wave : Nat) (s : State) : Out :=
  .next (match s.findWave wave with
    | some w => match w.blocked with
      | .claim n =>
        if w.status = .blocked && w.group == 0 && claimMet s w n then s.modWave wave fun w => { w with status := .running, blocked := .none }
        else s
      | _ => s
    | none => s)

/-- A pipe by number, in the order of R10. -/
def pipeNo : Nat → Pipe
  | 0 => .valu | 1 => .vdp | 2 => .vmem | 3 => .wave | 4 => .xeng | _ => .ctrl

/-- A held pipe gives up one pass. -/
def passNext : List PipeBusy → Nat → Pipe → List PipeBusy
  | [], _, _ => []
  | b :: bs, q, p =>
    if b.quad = q ∧ b.pipe = p then (if b.left ≤ 1 then bs else { b with left := b.left - 1 } :: bs)
    else b :: passNext bs q p

/-- VECTOR_PASS (R23): the next pass of a vector word begins; after its last pass the pipe is free. -/
def execVectorPass (quad pipe : Nat) (s : State) : Out :=
  .next { s with pipes := passNext s.pipes quad (pipeNo pipe) }

/-- RESULT_WRITEBACK (R35): a result of the wave is readable, and its mark clears. -/
def execResultWriteback (wave idx : Nat) (s : State) : Out :=
  .next (s.modWave wave fun w =>
    match w.marks[idx]? with
    | some m => if m.op.isNone then { w with marks := dropAt w.marks idx } else w
    | none => w)

/-- A pipe's number, in the order of R10. -/
def Pipe.num : Pipe → Nat
  | .valu => 0 | .vdp => 1 | .vmem => 2 | .wave => 3 | .xeng => 4 | .ctrl => 5

/-- The parked waves that stoke again (R91). -/
def restokeEvents (s : State) : List Act := (s.allWaves.filter (restokeReady s)).map fun w => execParkedRestoke w.uid

/-- The other events of the issue stage that can happen now. -/
def controlEvents (s : State) : List Act :=
  (s.allWaves.filter fun w => w.status = .blocked && w.group == 0 &&
      (match w.blocked with | .claim n => claimMet s w n | _ => false)).map (fun w => execClaimGrant w.uid) ++
    s.pipes.map (fun b => execVectorPass b.quad b.pipe.num) ++
    (s.allWaves.flatMap fun w => ((List.range w.marks.length).filter fun i =>
      (w.marks[i]?).any fun m => m.op.isNone).map fun i => execResultWriteback w.uid i)

end Sys2Proof.Machine
end

