-- ==== Sys2Proof/Machine/Float.lean ====
section
/-!
DEFINITION. Floating-point arithmetic (R115 to R132, R134, R135): formats, exact values, rounding, flags, and every
operation on codes. Codes are naturals; a result is a code with its flags: NX 1, UF 2, OF 4, DZ 8, NV 16, QERR 32 (R118).
-/
namespace Sys2Proof.Machine

/-- The floating-point formats (R115, R134). -/
inductive Fmt where
  | f32 | f64 | f16 | bf16 | e4m3 | e5m2
deriving DecidableEq, Repr

/-- The precision: fraction bits and the hidden bit. -/
def Fmt.prec : Fmt → Nat
  | .f32 => 24 | .f64 => 53 | .f16 => 11 | .bf16 => 8 | .e4m3 => 4 | .e5m2 => 3

/-- The width in bits. -/
def Fmt.width : Fmt → Nat
  | .f32 => 32 | .f64 => 64 | .f16 => 16 | .bf16 => 16 | .e4m3 => 8 | .e5m2 => 8

/-- The exponent bias. -/
def Fmt.bias : Fmt → Nat
  | .f32 => 127 | .f64 => 1023 | .f16 => 15 | .bf16 => 127 | .e4m3 => 7 | .e5m2 => 15

/-- The exponent of the smallest normal number. -/
def Fmt.emin (f : Fmt) : Int := 1 - (f.bias : Int)

/-- The largest finite value as `m * 2^e`. -/
def Fmt.maxM : Fmt → Nat
  | .e4m3 => 14
  | f => 2 ^ f.prec - 1

/-- The exponent of the largest finite value's last place. -/
def Fmt.maxE : Fmt → Int
  | .e4m3 => 5
  | f => (f.bias : Int) - (f.prec : Int) + 1

/-- The exponent field's number of codes. -/
def Fmt.expCodes (f : Fmt) : Nat := 2 ^ (f.width - f.prec)

/-- The sign bit's place value. -/
def Fmt.signBit (f : Fmt) : Nat := 2 ^ (f.width - 1)

/-- The canonical quiet NaN (R115, R135). -/
def Fmt.qnan : Fmt → Nat
  | .f32 => 0x7FC00000 | .f64 => 0x7FF8000000000000 | .f16 => 0x7E00 | .bf16 => 0x7FC0 | .e4m3 => 0x7F | .e5m2 => 0x7E

/-- +infinity; E4M3 has none, and NaN stands in its place (R135). -/
def Fmt.infCode : Fmt → Nat
  | .e4m3 => 0x7F
  | f => (f.expCodes - 1) * 2 ^ (f.prec - 1)

/-- The largest finite code. -/
def Fmt.maxCode : Fmt → Nat
  | .e4m3 => 0x7E
  | f => f.infCode - 1

/-- A code with a sign. -/
def Fmt.signed (f : Fmt) (neg : Bool) (code : Nat) : Nat := if neg then f.signBit + code else code

/-- The exact value of a code (R115, R134). -/
def fdecode (f : Fmt) (x : Nat) : FVal :=
  let neg := decide (x / f.signBit % 2 = 1)
  let ef := x / 2 ^ (f.prec - 1) % f.expCodes
  let fr := x % 2 ^ (f.prec - 1)
  if f = .e4m3 && decide (x % 128 = 127) then .nan false
  else if f ≠ .e4m3 && decide (ef = f.expCodes - 1) then
    if fr = 0 then .inf neg else .nan (decide (fr < 2 ^ (f.prec - 2)))
  else if ef = 0 then .fin neg fr (f.emin - (f.prec : Int) + 1)
  else .fin neg (fr + 2 ^ (f.prec - 1)) ((ef : Int) - (f.bias : Int) - (f.prec : Int) + 1)

/-- Rounding modes (R117). -/
inductive RMode where
  | rne | rtz | rup | rdn
deriving DecidableEq, Repr

/-- The rounding mode that FPCR.RM selects. -/
def rmOf (fpcr : Word) : RMode :=
  match fpcr.toNat % 4 with
  | 0 => .rne | 1 => .rtz | 2 => .rup | _ => .rdn

/-- `m * 2^e`, with `sticky` for a nonzero rest below one unit of `m`, rounded to a multiple of `2^q`: the multiple and
whether it is inexact (R7, `round`). -/
def roundAt (mode : RMode) (neg : Bool) (m : Nat) (e q : Int) (sticky : Bool) : Nat × Bool :=
  if q ≤ e then (m * 2 ^ (e - q).toNat, sticky)
  else
    let d := 2 ^ (q - e).toNat
    let r := m / d
    let rest := m % d
    let inexact := decide (rest ≠ 0) || sticky
    let up := match mode with
      | .rne => decide (d < 2 * rest) || (decide (2 * rest = d) && (sticky || decide (r % 2 = 1)))
      | .rtz => false
      | .rup => inexact && !neg
      | .rdn => inexact && neg
    (if up then r + 1 else r, inexact)

/-- The code of `r * 2^q` where `q` is a place of the format and the value is finite in it. -/
def fencode (f : Fmt) (neg : Bool) (r : Nat) (q : Int) : Nat :=
  if r < 2 ^ (f.prec - 1) then f.signed neg r
  else if r = 2 ^ f.prec then f.signed neg ((q + 1 + (f.prec : Int) - 1 + (f.bias : Int)).toNat * 2 ^ (f.prec - 1))
  else f.signed neg ((q + (f.prec : Int) - 1 + (f.bias : Int)).toNat * 2 ^ (f.prec - 1) + (r - 2 ^ (f.prec - 1)))

/-- What an overflow delivers (R120, R135). -/
def foverflow (f : Fmt) (mode : RMode) (sat neg : Bool) : Nat :=
  let big := match mode with
    | .rne => true | .rtz => false | .rup => !neg | .rdn => neg
  if sat then f.signed neg f.maxCode else f.signed neg (if big then f.infCode else f.maxCode)

/-- A nonzero exact magnitude `m * 2^e` (and a rest if `sticky`) rounded once into a format, with its flags: overflow,
underflow after rounding, inexact (R120, R135). -/
def fround (f : Fmt) (mode : RMode) (sat neg : Bool) (m : Nat) (e : Int) (sticky : Bool) : Nat × Nat :=
  if m = 0 && !sticky then (f.signed neg 0, 0)
  else
    let top := (Nat.log2 m : Int) + e
    let place := top - (f.prec : Int) + 1
    let low := f.emin - (f.prec : Int) + 1
    let q := if low ≤ place && decide (m ≠ 0) then place else low
    let (r, inexact) := roundAt mode neg m e q sticky
    let big := if f.maxE ≤ q then decide (f.maxM < r * 2 ^ (q - f.maxE).toNat)
               else decide (f.maxM * 2 ^ (f.maxE - q).toNat < r)
    if big then (foverflow f mode sat neg, 5)
    else
      let tiny := decide (top < f.emin) &&
        (let (r2, _) := roundAt mode neg m e place sticky
         decide (m = 0) || decide (r2 < 2 ^ f.prec) || decide (place + (f.prec : Int) < f.emin))
      (fencode f neg r q, (if inexact then 1 else 0) + (if inexact && tiny then 2 else 0))

/-- The exact sum of two finite values, with the sign of a zero sum by R121. -/
def finAdd (mode : RMode) (n1 : Bool) (m1 : Nat) (e1 : Int) (n2 : Bool) (m2 : Nat) (e2 : Int) : FVal :=
  let e := min e1 e2
  let a := (m1 * 2 ^ (e1 - e).toNat : Int) * (if n1 then -1 else 1)
  let b := (m2 * 2 ^ (e2 - e).toNat : Int) * (if n2 then -1 else 1)
  let c := a + b
  if c = 0 then .fin (if m1 = 0 && m2 = 0 && n1 == n2 then n1 else decide (mode = .rdn)) 0 e
  else .fin (decide (c < 0)) c.natAbs e

/-- A value is a NaN. -/
def FVal.isNan : FVal → Bool
  | .nan _ => true | _ => false

/-- A value is a signalling NaN. -/
def FVal.isSnan : FVal → Bool
  | .nan b => b | _ => false

/-- The sign of a value, false for a NaN. -/
def FVal.neg : FVal → Bool
  | .nan _ => false | .inf n => n | .fin n _ _ => n

/-- The value with its sign inverted. -/
def FVal.flip : FVal → FVal
  | .nan b => .nan b | .inf n => .inf (!n) | .fin n m e => .fin (!n) m e

/-- The value is a zero. -/
def FVal.isZero : FVal → Bool
  | .fin _ m _ => decide (m = 0) | _ => false

/-- The value is infinite. -/
def FVal.isInf : FVal → Bool
  | .inf _ => true | _ => false

/-- A value rounded into a format, with no more flags than its rounding raises; a NaN becomes canonical (R120). -/
def fput (f : Fmt) (mode : RMode) : FVal → Nat × Nat
  | .nan sn => (f.qnan, if sn then 16 else 0)
  | .inf n => (f.signed n f.infCode, 0)
  | .fin n m e => fround f mode false n m e false

/-- `a + b` (R124, R120, R121). -/
def faddV (f : Fmt) (mode : RMode) (a b : FVal) : Nat × Nat :=
  match a, b with
  | .nan s, y => (f.qnan, if s || y.isSnan then 16 else 0)
  | _, .nan s => (f.qnan, if s then 16 else 0)
  | .inf n, .inf k => if n == k then (f.signed n f.infCode, 0) else (f.qnan, 16)
  | .inf n, _ => (f.signed n f.infCode, 0)
  | _, .inf k => (f.signed k f.infCode, 0)
  | .fin n1 m1 e1, .fin n2 m2 e2 => fput f mode (finAdd mode n1 m1 e1 n2 m2 e2)

/-- `a · b` exactly; `none` for 0 · ∞. NaN operands are handled before. -/
def mulV (a b : FVal) : Option FVal :=
  match a, b with
  | .fin n1 m1 e1, .fin n2 m2 e2 => some (.fin (n1 != n2) (m1 * m2) (e1 + e2))
  | x, y => if x.isZero || y.isZero then none else some (.inf (x.neg != y.neg))

/-- `a · b` rounded once (R124). -/
def fmulV (f : Fmt) (mode : RMode) (a b : FVal) : Nat × Nat :=
  if a.isNan || b.isNan then (f.qnan, if a.isSnan || b.isSnan then 16 else 0)
  else match mulV a b with
    | none => (f.qnan, 16)
    | some v => fput f mode v

/-- `a · b + d`, or `-(a · b) + d`, with one rounding (R124). A product 0 · ∞ raises NV whatever `d` holds (R120). Under
`negate` the sum of zeros is that of the negated product and `d` (R121; log 58). -/
def ffmaV (f : Fmt) (mode : RMode) (negate : Bool) (a b d : FVal) : Nat × Nat :=
  let sn := a.isSnan || b.isSnan || d.isSnan
  if a.isNan || b.isNan then (f.qnan, if sn then 16 else 0)
  else match mulV a b with
    | none => (f.qnan, 16)
    | some v =>
      match (if negate then v.flip else v), d with
      | _, .nan _ => (f.qnan, if sn then 16 else 0)
      | .inf n, .inf k => if n == k then (f.signed n f.infCode, 0) else (f.qnan, 16)
      | .inf n, _ => (f.signed n f.infCode, 0)
      | _, .inf k => (f.signed k f.infCode, 0)
      | .fin n1 m1 e1, .fin n2 m2 e2 => fput f mode (finAdd mode n1 m1 e1 n2 m2 e2)
      | _, _ => (f.qnan, 0)

/-- Numeric order of two values that are no NaN, with -0 equal to +0: `a < b`. -/
def ltV (a b : FVal) : Bool :=
  match a, b with
  | .inf n, .inf k => n && !k
  | .inf n, _ => n
  | _, .inf k => !k
  | .fin n1 m1 e1, .fin n2 m2 e2 =>
    let e := min e1 e2
    let x := (m1 * 2 ^ (e1 - e).toNat : Int) * (if n1 then -1 else 1)
    let y := (m2 * 2 ^ (e2 - e).toNat : Int) * (if n2 then -1 else 1)
    decide (x < y)
  | _, _ => false

/-- Equality of two values that are no NaN, with -0 equal to +0. -/
def eqV (a b : FVal) : Bool := !a.isNan && !b.isNan && !ltV a b && !ltV b a

/-- FMIN or FMAX on codes (R125): the operand itself is returned, -0 lies below +0. -/
def fminmax (f : Fmt) (isMax : Bool) (x y : Nat) : Nat × Nat :=
  let a := fdecode f x
  let b := fdecode f y
  let fl := if a.isSnan || b.isSnan then 16 else 0
  if a.isNan && b.isNan then (f.qnan, fl)
  else if a.isNan then (y, fl)
  else if b.isNan then (x, fl)
  else
    let aLess := ltV a b || (a.isZero && b.isZero && a.neg && !b.neg)
    (if aLess != isMax then x else y, fl)

/-- FCMP: 0 eq, 1 lt, 2 le, with its NV (R126). -/
def fcmp (f : Fmt) (c : Nat) (x y : Nat) : Bool × Nat :=
  let a := fdecode f x
  let b := fdecode f y
  let nan := a.isNan || b.isNan
  let fl := if c = 0 then (if a.isSnan || b.isSnan then 16 else 0) else (if nan then 16 else 0)
  (if nan then false else if c = 0 then eqV a b else if c = 1 then ltV a b else !ltV b a, fl)

/-- FCLASS's mask (R127). -/
def fclass (f : Fmt) (x : Nat) : Nat :=
  match fdecode f x with
  | .inf n => if n then 1 else 128
  | .nan s => if s then 256 else 512
  | .fin n m e =>
    if m = 0 then (if n then 8 else 16)
    else
      let sub := decide ((Nat.log2 m : Int) + e < f.emin)
      if n then (if sub then 4 else 2) else (if sub then 32 else 64)

/-- FRND: a code rounded to an integral value (R128). -/
def frnd (f : Fmt) (mode : RMode) (x : Nat) : Nat × Nat :=
  match fdecode f x with
  | .nan s => (f.qnan, if s then 16 else 0)
  | .inf _ => (x, 0)
  | .fin n m e =>
    if m = 0 || decide (0 ≤ e) then (x, 0)
    else
      let (r, _) := roundAt mode n m e 0 false
      ((fround f .rne false n r 0 false).1, 0)

/-- The integer square root by bits: `fuel` bits of the root, highest first. -/
def isqrtFrom (n : Nat) : Nat → Nat → Nat
  | 0, r => r
  | k + 1, r => if (r + 2 ^ k) * (r + 2 ^ k) ≤ n then isqrtFrom n k (r + 2 ^ k) else isqrtFrom n k r

/-- The integer square root. -/
def isqrt (n : Nat) : Nat := isqrtFrom n (Nat.log2 n / 2 + 1) 0

/-- FDIV (R129). -/
def fdiv (f : Fmt) (mode : RMode) (x y : Nat) : Nat × Nat :=
  let a := fdecode f x
  let b := fdecode f y
  match a, b with
  | .nan s, v => (f.qnan, if s || v.isSnan then 16 else 0)
  | _, .nan s => (f.qnan, if s then 16 else 0)
  | .inf _, .inf _ => (f.qnan, 16)
  | .inf n, v => (f.signed (n != v.neg) f.infCode, 0)
  | v, .inf k => (f.signed (v.neg != k) 0, 0)
  | .fin n1 m1 e1, .fin n2 m2 e2 =>
    let n := n1 != n2
    if m2 = 0 then if m1 = 0 then (f.qnan, 16) else (f.signed n f.infCode, 8)
    else
      let k : Nat := 128
      fround f mode false n (m1 * 2 ^ k / m2) (e1 - e2 - (k : Int)) (decide (m1 * 2 ^ k % m2 ≠ 0))

/-- FSQRT (R129). -/
def fsqrt (f : Fmt) (mode : RMode) (x : Nat) : Nat × Nat :=
  match fdecode f x with
  | .nan s => (f.qnan, if s then 16 else 0)
  | .inf n => if n then (f.qnan, 16) else (x, 0)
  | .fin n m e =>
    if m = 0 then (x, 0)
    else if n then (f.qnan, 16)
    else
      let sh := 128 + (e % 2).toNat
      let v := m * 2 ^ sh
      let r := isqrt v
      fround f mode false false r ((e - (sh : Int)) / 2) (decide (r * r ≠ v))

/-! ### The approximate and special functions (R130 to R132)

The exact result is found to far more bits than the bound needs, as an integer `Y` and an exponent `E` with
`|y| = Y · 2^E` to within `slack` units. -/

/-- π · 2^1400, rounded down. -/
def piFix : Nat := 0x3243F6A8885A308D313198A2E03707344A4093822299F31D0082EFA98EC4E6C89452821E638D01377BE5466CF34E90C6CC0AC29B7C97C50DD3F84D5B5B54709179216D5D98979FB1BD1310BA698DFB5AC2FFD72DBD01ADFB7B8E1AFED6A267E96BA7C9045F12C7F9924A19947B3916CF70801F2E2858EFC16636920D871574E69A458FEA3F4933D7E0D95748F728EB658718BCD5882154AEE7B54A41DC25A59B59C30D5392AF26013C5D1B023286085

/-- ln 2 · 2^320, rounded down. -/
def ln2Fix : Nat := 0xB17217F7D1CF79ABC9E3B39803F2F6AF40F343267298B62D8A0D175B8BAAFA2BE7B876206DEBAC98

/-- The Taylor sum of sin (`odd`) or cos at a fixed-point argument of 320 bits. -/
def trigSum (r2 : Nat) : Nat → Nat → Nat → Int → Int → Int
  | 0, _, _, _, acc => acc
  | k + 1, i, term, sgn, acc =>
    let t := term * r2 / 2 ^ 320 / (i * (i + 1))
    trigSum r2 k (i + 2) t (-sgn) (acc - sgn * t)

/-- sin of a fixed-point argument below π/2. -/
def sinFix (r : Nat) : Nat := (trigSum (r * r / 2 ^ 320) 48 2 r 1 r).toNat

/-- cos of a fixed-point argument below π/2. -/
def cosFix (r : Nat) : Nat := (trigSum (r * r / 2 ^ 320) 48 1 (2 ^ 320) 1 (2 ^ 320 : Nat)).toNat

/-- exp of a fixed-point argument below ln 2: the Taylor sum. -/
def expSum (z : Nat) : Nat → Nat → Nat → Nat → Nat
  | 0, _, _, acc => acc
  | k + 1, i, term, acc =>
    let t := term * z / 2 ^ 320 / i
    expSum z k (i + 1) t (acc + t)

/-- The sum of u^(2k+1)/(2k+1): atanh of a fixed-point argument of at most 1/3. -/
def atanhSum (u2 : Nat) : Nat → Nat → Nat → Nat → Nat
  | 0, _, _, acc => acc
  | k + 1, i, pow, acc =>
    let p := pow * u2 / 2 ^ 320
    atanhSum u2 k (i + 2) p (acc + p / i)

/-- The six functions. -/
inductive SFn where
  | frcp | frsq | sin | cos | exp2 | log2
deriving DecidableEq, Repr

/-- The function's number for the free value. -/
def SFn.num : SFn → Nat
  | .frcp => 0 | .frsq => 1 | .sin => 2 | .cos => 3 | .exp2 => 4 | .log2 => 5

/-- Twice the bound of R132, in ulp. -/
def sbound2 (fn : SFn) (f : Fmt) : Nat :=
  match f with
  | .f64 => 2
  | .f32 => if fn = .frsq then 4 else 2
  | _ => 1

/-- The value of sin or cos of a finite nonzero argument: sign, Y, E. Of one below 2^-40 it stands just below the argument or 1
(log 58). -/
def trigVal (isCos neg : Bool) (m : Nat) (e : Int) : Bool × Nat × Int :=
  if (Nat.log2 m : Int) + e < -40 then
    if isCos then (false, 2 ^ 320 - 1, -320) else (neg, m * 2 ^ 320 - 1, e - 320)
  else
    let t := m * 2 ^ (e + 1401).toNat
    let k := t / piFix
    let r := (t % piFix) / 2 ^ 1081
    let j := if isCos then k + 1 else k
    let y := if j % 2 = 0 then sinFix r else cosFix r
    (decide (j % 4 ≥ 2) != (neg && !isCos), y, -320)

/-- The value of 2^x for a finite nonzero argument below 2^20 in magnitude: Y, E. -/
def exp2Val (neg : Bool) (m : Nat) (e : Int) : Nat × Int :=
  let fx : Int := Int.ofNat (if 0 ≤ e + 320 then m * 2 ^ (e + 320).toNat else m / 2 ^ (-(e + 320)).toNat)
  let x : Int := if neg then -fx - (if e + 320 < 0 then 1 else 0) else fx
  let n := x / 2 ^ 320
  let fr := (x % 2 ^ 320).toNat
  (expSum (fr * ln2Fix / 2 ^ 320) 80 1 (2 ^ 320) (2 ^ 320), n - 320)

/-- The value of log2 of a positive finite argument: sign, Y, E. -/
def log2Val (m : Nat) (e : Int) : Bool × Nat × Int :=
  let b := Nat.log2 m
  let u := (m - 2 ^ b) * 2 ^ 320 / (m + 2 ^ b)
  let l : Nat := 2 * (atanhSum (u * u / 2 ^ 320) 104 3 u u) * 2 ^ 320 / ln2Fix
  let y : Int := ((b : Int) + e) * 2 ^ 320 + (l : Int)
  (decide (y < 0), y.natAbs, -320)

/-- The result for an exact magnitude `Y · 2^E`, known to lie within `slack` units: the nearest code where the bound is a
half, and otherwise the free value where it lies within the bound, and the nearest code where it does not (R130 to R132).
The result is inexact. -/
def sfinish (fn : SFn) (f : Fmt) (x : Nat) (neg : Bool) (y : Nat) (e : Int) : Nat × Nat :=
  let near := fround f .rne false neg y e true
  if sbound2 fn f = 1 then near
  else
    let c := Config.approx fn.num f.width x % 2 ^ f.width
    match fdecode f c with
    | .fin n m e2 =>
      let lo := min e e2
      let a := m * 2 ^ (e2 - lo).toNat
      let b := y * 2 ^ (e - lo).toNat
      let ulpE := max ((Nat.log2 y : Int) + e) f.emin - (f.prec : Int) + 1
      let slack := 2 ^ 24 * 2 ^ (e - lo).toNat
      if n == neg && decide (lo + 1 ≤ ulpE) && decide (near.2 / 4 % 2 = 0) &&
          decide ((if a ≤ b then b - a else a - b) + slack ≤ sbound2 fn f * 2 ^ (ulpE - lo - 1).toNat) then
        (c, if (decide (m = 0) || decide ((Nat.log2 m : Int) + e2 < f.emin)) then 3 else 1)
      else near
    | _ => near

/-- FRCP, FRSQ, SIN, COS, EXP2 and LOG2 on a code (R130, R131). Where EXP2 underflows, and where the exact value lies within the slack of the
bound, the correctly rounded value stands (log 58). -/
def sfunc (fn : SFn) (f : Fmt) (x : Nat) : Nat × Nat :=
  match fn, fdecode f x with
  | _, .nan s => (f.qnan, if s then 16 else 0)
  | .frcp, .inf n => (f.signed n 0, 0)
  | .frcp, .fin n m e =>
    if m = 0 then (f.signed n f.infCode, 8)
    else
      let exact := decide (m = 2 ^ Nat.log2 m)
      let r := fround f .rne false n (2 ^ 256 / m) (-256 - e) (!exact)
      if exact then r else sfinish fn f x n (2 ^ 256 / m) (-256 - e)
  | .frsq, .inf n => if n then (f.qnan, 16) else (0, 0)
  | .frsq, .fin n m e =>
    if m = 0 then (f.signed n f.infCode, 8)
    else if n then (f.qnan, 16)
    else
      let b := Nat.log2 m
      if m = 2 ^ b && ((b : Int) + e) % 2 = 0 then fround f .rne false false 1 (-(((b : Int) + e) / 2)) false
      else
        let k := 512 + (e % 2).toNat
        sfinish fn f x false (isqrt (2 ^ k / m)) ((-(k : Int) - e) / 2)
  | .sin, .inf _ => (f.qnan, 16)
  | .sin, .fin n m e =>
    if m = 0 then (x, 0)
    else let (s, y, q) := trigVal false n m e; sfinish fn f x s y q
  | .cos, .inf _ => (f.qnan, 16)
  | .cos, .fin n m e =>
    if m = 0 then fround f .rne false false 1 0 false
    else let (s, y, q) := trigVal true n m e; sfinish fn f x s y q
  | .exp2, .inf n => if n then (0, 0) else (f.infCode, 0)
  | .exp2, .fin n m e =>
    if m = 0 then fround f .rne false false 1 0 false
    else if 20 ≤ (Nat.log2 m : Int) + e then
      if n then fround f .rne false false 1 (f.emin - 200) true else (f.infCode, 5)
    else if decide (0 ≤ e) || decide (m % 2 ^ (-e).toNat = 0) then
      let v : Int := Int.ofNat (if 0 ≤ e then m * 2 ^ e.toNat else m / 2 ^ (-e).toNat)
      fround f .rne false false 1 (if n then -v else v) false
    else let (y, q) := exp2Val n m e; sfinish fn f x false y q
  | .log2, .inf n => if n then (f.qnan, 16) else (x, 0)
  | .log2, .fin n m e =>
    if m = 0 then (f.signed true f.infCode, 8)
    else if n then (f.qnan, 16)
    else if m = 2 ^ Nat.log2 m then
      let v : Int := (Nat.log2 m : Int) + e
      fround f .rne false (decide (v < 0)) v.natAbs 0 false
    else let (s, y, q) := log2Val m e; sfinish fn f x s y q

/-- The float column of R39 for selector `0x70 + i`, encoded in a format. -/
def constFloat (f : Fmt) (i : Nat) : Nat :=
  let v := fun (n : Bool) (m : Nat) (e : Int) => (fround f .rne false n m e false).1
  match i with
  | 0 => 0 | 1 => v false 1 0 | 2 => v false 2 0 | 3 => v false 3 0 | 4 => v false 4 0 | 5 => v false 8 0
  | 6 => v false 16 0 | 7 => v false 1 (-1) | 8 => v false 1 (-2) | 9 => v false 1 (-3) | 10 => v true 1 (-1)
  | 11 => v true 1 0 | 12 => v true 2 0 | 13 => f.infCode | 14 => f.maxCode | _ => f.qnan

/-- The canonical tree sum of R167 over codes: one level of the tree. -/
def sumLevel (f : Fmt) : List Nat → List Nat × Nat
  | a :: b :: t =>
    let (r, fl) := faddV f .rne (fdecode f a) (fdecode f b)
    let (rs, fs) := sumLevel f t
    (r :: rs, fl ||| fs)
  | [a] =>
    let (r, fl) := faddV f .rne (fdecode f a) (fdecode f 0)
    ([r], fl)
  | [] => ([], 0)

/-- The levels of the canonical tree: `fuel` levels (R167). -/
def sumTree (f : Fmt) : Nat → List Nat → Nat → Nat × Nat
  | 0, xs, fl => (xs.headD 0, fl)
  | k + 1, xs, fl =>
    let (ys, fs) := sumLevel f xs
    sumTree f k ys (fl ||| fs)

/-- The number of levels of the tree over `n` leaves: the least `k` with `n ≤ 2^k`. -/
def treeDepth (n : Nat) : Nat := if n ≤ 1 then 0 else Nat.log2 (n - 1) + 1

/-- canonical_sum of R167: the value and the flags. A missing right leaf is padding, +0. -/
def canonicalSum (f : Fmt) (xs : List Nat) : Nat × Nat := sumTree f (treeDepth xs.length) xs 0

end Sys2Proof.Machine
end

