-- ==== Sys2Proof/Machine/Flags.lean ====
section
/-!
DEFINITION. The sticky flags of FPSR (R118, R119): how a word's flags are gathered over its slots and ORed in, and the
operands of floating-point words (R116, R39).
-/
namespace Sys2Proof.Machine

/-- FPSR flags raised by a word: ORed into FPSR and remembered for a write of FPSR in the same group (R119). -/
def State.raiseFlags (s : State) (fl : Nat) : State :=
  { s with w := { s.w with fpsr := s.w.fpsr ||| BitVec.ofNat 32 fl }, grpFlags := s.grpFlags ||| BitVec.ofNat 32 fl }

/-- The flags raised in any EXEC slot (R119). -/
def slotFlags (s : State) (r : Nat → Nat × Nat) : Nat := s.rd.slots.foldl (fun a i => a ||| (r i).2) 0

/-- The format that the type field T names (R57). -/
def fmtT (t : BitVec 2) : Fmt :=
  match t.toNat with
  | 0 => .f32 | 1 => .f64 | 2 => .f16 | _ => .bf16

/-- A format that packs two elements in a register (R116). -/
def Fmt.packed : Fmt → Bool
  | .f16 => true | .bf16 => true | _ => false

/-- An inline constant as a floating-point operand: the float column, in both halves for packed forms (R39, R116). -/
def fConst (f : Fmt) (i : Nat) : Nat :=
  if f.packed then constFloat f i + 65536 * constFloat f i else constFloat f i

/-- A per-thread floating-point operand in a slot: its register or pair, or a float constant (R116). -/
def fpRead (w : Wave) (f : Fmt) (sel : BitVec 7) (slot : Nat) : Nat :=
  if 0x70 ≤ sel.toNat then fConst f (sel.toNat - 0x70)
  else if f = .f64 then (vRead64 w sel slot).toNat else (vRead w sel slot).toNat

/-- The second floating-point operand: under X = 1 the wave register's or wave constant's pattern (R116, R39; log 6). -/
def fpReadB (s : State) (f : Fmt) (b : BitVec 7) (x : Bool) (slot : Nat) : Nat :=
  if x then (if f = .f64 then (sRead64 s.clk s.rd b).toNat else (sRead s.clk s.rd b).toNat)
  else fpRead s.rd f b slot

/-- An operation on elements, made on both halves of a packed operand (R116). -/
def lift1 (f : Fmt) (g : Nat → Nat × Nat) (a : Nat) : Nat × Nat :=
  if f.packed then
    ((g (a % 65536)).1 + 65536 * (g (a / 65536)).1, (g (a % 65536)).2 ||| (g (a / 65536)).2)
  else g a

/-- A two-operand operation on elements. -/
def lift2 (f : Fmt) (g : Nat → Nat → Nat × Nat) (a b : Nat) : Nat × Nat :=
  if f.packed then
    ((g (a % 65536) (b % 65536)).1 + 65536 * (g (a / 65536) (b / 65536)).1,
      (g (a % 65536) (b % 65536)).2 ||| (g (a / 65536) (b / 65536)).2)
  else g a b

/-- A three-operand operation on elements. -/
def lift3 (f : Fmt) (g : Nat → Nat → Nat → Nat × Nat) (a b d : Nat) : Nat × Nat :=
  if f.packed then
    ((g (a % 65536) (b % 65536) (d % 65536)).1 + 65536 * (g (a / 65536) (b / 65536) (d / 65536)).1,
      (g (a % 65536) (b % 65536) (d % 65536)).2 ||| (g (a / 65536) (b / 65536) (d / 65536)).2)
  else g a b d

/-- A floating-point or conversion word marks FPSR until it completes (R119). -/
def markFpsr (s : State) : State := s.modW fun w => addMarks w [{ reg := .fpsr, pass := none, op := none }]

/-- A floating-point word's results: written in every EXEC slot, to a pair when `wide`, with its flags (R119, R120). -/
def fpOut (s : State) (p : Pipe) (wide : Bool) (d : BitVec 7) (r : Nat → Nat × Nat) : State :=
  let s1 := if wide then vecOut64 s p d fun i => BitVec.ofNat 64 (r i).1
            else vecOut s p d fun i => BitVec.ofNat 32 (r i).1
  (markFpsr s1).raiseFlags (slotFlags s r)

end Sys2Proof.Machine
end

