-- ==== Sys2Proof/Machine/FloatOps.lean ====
section
/-!
DEFINITION. The floating-point instructions (R115 to R133).
-/
namespace Sys2Proof.Machine

/-- The pipe of the ten VALU operations: VDP for .f64 (R57). -/
def fpPipe (t : BitVec 2) : Pipe := if t.toNat = 1 then .vdp else .valu

/-- A binary floating-point form on one element operation. -/
def fpBin (s : State) (p : Pipe) (f : FBin) (g : Nat → Nat → Nat × Nat) : State :=
  fpOut s p (decide (fmtT f.t = .f64)) f.d fun i =>
    lift2 (fmtT f.t) g (fpRead s.rd (fmtT f.t) f.a i) (fpReadB s (fmtT f.t) f.b f.x i)

/-- A form that also reads D (R124). -/
def fpTer (s : State) (f : FBin) (g : Nat → Nat → Nat → Nat × Nat) : State :=
  fpOut s (fpPipe f.t) (decide (fmtT f.t = .f64)) f.d fun i =>
    lift3 (fmtT f.t) g (fpRead s.rd (fmtT f.t) f.a i) (fpReadB s (fmtT f.t) f.b f.x i) (fpRead s.rd (fmtT f.t) f.d i)

/-- A unary floating-point form. -/
def fpUn (s : State) (p : Pipe) (f : FUn) (g : Nat → Nat × Nat) : State :=
  fpOut s p (decide (fmtT f.t = .f64)) f.d fun i => lift1 (fmtT f.t) g (fpRead s.rd (fmtT f.t) f.a i)

/-- FCMP on element 0 of each operand (R126). -/
def fpCmp (s : State) (f : FBin) (c : Nat) : State :=
  let k := fun i =>
    let m := 2 ^ (fmtT f.t).width
    fcmp (fmtT f.t) c (fpRead s.rd (fmtT f.t) f.a i % m) (fpReadB s (fmtT f.t) f.b f.x i % m)
  (markFpsr (maskOut s (fpPipe f.t) f.d fun i => (k i).1)).raiseFlags (slotFlags s fun i => (0, (k i).2))

/-- The wave's rounding mode as latched at issue (R119). -/
def State.rm (s : State) : RMode := rmOf s.rd.fpcr

/-- FADD (R124). -/
def execFadd (f : FBin) (s : State) : Out :=
  .next (fpBin s (fpPipe f.t) f fun a b => faddV (fmtT f.t) s.rm (fdecode (fmtT f.t) a) (fdecode (fmtT f.t) b))

/-- FSUB is FADD with the sign of b inverted (R124). -/
def execFsub (f : FBin) (s : State) : Out :=
  .next (fpBin s (fpPipe f.t) f fun a b =>
    faddV (fmtT f.t) s.rm (fdecode (fmtT f.t) a) (fdecode (fmtT f.t) b).flip)

/-- FMUL (R124). -/
def execFmul (f : FBin) (s : State) : Out :=
  .next (fpBin s (fpPipe f.t) f fun a b => fmulV (fmtT f.t) s.rm (fdecode (fmtT f.t) a) (fdecode (fmtT f.t) b))

/-- FFMA (R124): one rounding of the exact product and sum. -/
def execFfma (f : FBin) (s : State) : Out :=
  .next (fpTer s f fun a b d =>
    ffmaV (fmtT f.t) s.rm false (fdecode (fmtT f.t) a) (fdecode (fmtT f.t) b) (fdecode (fmtT f.t) d))

/-- FNMA (R124): the exact product is negated before the addition. -/
def execFnma (f : FBin) (s : State) : Out :=
  .next (fpTer s f fun a b d =>
    ffmaV (fmtT f.t) s.rm true (fdecode (fmtT f.t) a) (fdecode (fmtT f.t) b) (fdecode (fmtT f.t) d))

/-- FMIN (R125). -/
def execFmin (f : FBin) (s : State) : Out := .next (fpBin s (fpPipe f.t) f (fminmax (fmtT f.t) false))

/-- FMAX (R125). -/
def execFmax (f : FBin) (s : State) : Out := .next (fpBin s (fpPipe f.t) f (fminmax (fmtT f.t) true))

/-- FCMP.eq (R126). -/
def execFcmpEq (f : FBin) (s : State) : Out := .next (fpCmp s f 0)

/-- FCLASS (R127): a class mask for each element, in one register. -/
def execFclass (f : FUn) (s : State) : Out :=
  .next (fpOut s (fpPipe f.t) false f.d fun i =>
    lift1 (fmtT f.t) (fun a => (fclass (fmtT f.t) a, 0)) (fpRead s.rd (fmtT f.t) f.a i))

/-- FRND's mode (R128). -/
def frndMode (s : State) (mode : BitVec 7) : RMode :=
  match mode.toNat with
  | 0 => s.rm | 1 => .rne | 2 => .rtz | 3 => .rup | _ => .rdn

/-- FRND (R128). -/
def execFrnd (f : FrndF) (s : State) : Out :=
  .next (fpUn s (fpPipe f.t) { t := f.t, d := f.d, a := f.a } (frnd (fmtT f.t) (frndMode s f.mode)))

/-- FDIV (R129). -/
def execFdiv (f : FBin) (s : State) : Out := .next (fpBin s .vdp f (fdiv (fmtT f.t) s.rm))

/-- FSQRT (R129). -/
def execFsqrt (f : FUn) (s : State) : Out := .next (fpUn s .vdp f (fsqrt (fmtT f.t) s.rm))

/-- FRCP (R130). -/
def execFrcp (f : FUn) (s : State) : Out := .next (fpUn s .vdp f (sfunc .frcp (fmtT f.t)))

/-- FRSQ (R130). -/
def execFrsq (f : FUn) (s : State) : Out := .next (fpUn s .vdp f (sfunc .frsq (fmtT f.t)))

/-- FCMP.lt (R126). -/
def execFcmpLt (f : FBin) (s : State) : Out := .next (fpCmp s f 1)

/-- FCMP.le (R126). -/
def execFcmpLe (f : FBin) (s : State) : Out := .next (fpCmp s f 2)

/-- SIN (R131). -/
def execSin (f : FUn) (s : State) : Out := .next (fpUn s .vdp f (sfunc .sin (fmtT f.t)))

/-- COS (R131). -/
def execCos (f : FUn) (s : State) : Out := .next (fpUn s .vdp f (sfunc .cos (fmtT f.t)))

/-- EXP2 (R131). -/
def execExp2 (f : FUn) (s : State) : Out := .next (fpUn s .vdp f (sfunc .exp2 (fmtT f.t)))

/-- LOG2 (R131). -/
def execLog2 (f : FUn) (s : State) : Out := .next (fpUn s .vdp f (sfunc .log2 (fmtT f.t)))

end Sys2Proof.Machine
end

