-- ==== Sys2Proof/Machine/NarrowOps.lean ====
section
/-!
DEFINITION. The narrow formats on values (R134 to R149): UE8 scales, the HX4 block and its decoder, the quantisers, and
the conversions of one element. Results are codes with FPSR flags.
-/
namespace Sys2Proof.Machine

/-- A value times a power of two, exactly. -/
def FVal.scale (v : FVal) (k : Int) : FVal :=
  match v with
  | .fin n m e => .fin n m (e + k)
  | x => x

/-- +0. -/
def FVal.zero : FVal := .fin false 0 0

/-- An integer's exact value. -/
def FVal.ofInt (v : Int) : FVal := .fin (decide (v < 0)) v.natAbs 0

/-- A UE8 code's exact value (R136). -/
def ue8V (c : Nat) : FVal := if c % 256 = 255 then .nan false else .fin false 1 ((c % 256 : Nat) - 127)

/-- The scan of R139 over the slots that are left, under scale `2^k`: the values and qerr. A decoded zero is +0. -/
def hxScan (k : Int) : List Nat → List FVal × Bool
  | [] => ([], false)
  | [c] => if c = 8 then ([FVal.zero], true) else ([(FVal.ofInt (sextNat c 4)).scale k], false)
  | [c, d] =>
    if c = 8 then
      let r := hxScan k [d]
      (FVal.zero :: r.1, true)
    else
      let r := hxScan k [d]
      ((FVal.ofInt (sextNat c 4)).scale k :: r.1, r.2)
  | c :: d :: b :: t =>
    if c = 8 then
      let r := hxScan k t
      let v := match fdecode .e4m3 (d % 16 * 16 + b % 16) with
        | .fin n m e => if m = 0 then FVal.zero else .fin n m (e + k)
        | x => x
      (v :: FVal.zero :: FVal.zero :: r.1, r.2)
    else
      let r := hxScan k (d :: b :: t)
      ((FVal.ofInt (sextNat c 4)).scale k :: r.1, r.2)

/-- hx4_decode (R139): the exact values of a block's 32 slots under a UE8 scale, and qerr. -/
def hx4Decode (slots : List Nat) (sc : Nat) : List FVal × Bool :=
  if sc % 256 = 255 then (slots.map fun _ => .nan false, false)
  else hxScan ((sc % 256 : Nat) - 127) slots

/-- The 32 slots of a block held in four words (R138). -/
def hxSlots (ws : List Nat) : List Nat := ws.flatMap fun w => (List.range 8).map fun j => nbits w (4 * j) 4

/-- The least `j` with `n ≤ 2^j`. -/
def clog2 (n : Nat) : Nat := if n ≤ 1 then 0 else Nat.log2 (n - 1) + 1

/-- max(ceil(log2(m / F)), -127) for a magnitude `m` in units of 2^-149 (R141, R142). -/
def qntExp (m F : Nat) : Int :=
  if m = 0 then -127 else max ((clog2 (ceilDiv (m * 2 ^ 20) F) : Int) - 169) (-127)

/-- A finite binary32 value as sign and magnitude in units of 2^-149. -/
def mag32 (x : Nat) : Bool × Nat :=
  match fdecode .f32 x with
  | .fin n m e => (n, m * 2 ^ (e + 149).toNat)
  | _ => (false, 0)

/-- An element put in its place: decreasing magnitude, equal magnitudes by increasing place. -/
def insMag (x : Nat × Nat) : List (Nat × Nat) → List (Nat × Nat)
  | [] => [x]
  | y :: t => if y.2 < x.2 || (y.2 == x.2 && decide (x.1 < y.1)) then x :: y :: t else y :: insMag x t

/-- Step 1 of R141: the candidates placed. -/
def qntPlaced (n : Nat) (mags : List Nat) : List Nat :=
  let order := ((List.range 32).map fun i => (i, mags.getD i 0)).foldl (fun l x => insMag x l) []
  order.foldl (fun pl x =>
    if decide (pl.length < n) && decide (x.1 ≤ 29) && pl.all (fun j => decide (2 < (if j < x.1 then x.1 - j else j - x.1)))
    then pl ++ [x.1] else pl) []

/-- The E4M3 payload of a kept outlier (R141, step 4). -/
def qntPayload (mags : List (Bool × Nat)) (e : Int) (i : Nat) : Nat :=
  (fround .e4m3 .rne true (mags.getD i (false, 0)).1 (mags.getD i (false, 0)).2 (-149 - e) false).1

/-- The code of place `i` (R141, steps 4 and 5): a marker, the payload halves of the kept place before, or a clamped
integer. -/
def qntCode (mags : List (Bool × Nat)) (kept : List Nat) (e : Int) (i : Nat) : Nat :=
  if kept.contains i then 8
  else if 1 ≤ i && kept.contains (i - 1) then nbits (qntPayload mags e (i - 1)) 4 4
  else if 2 ≤ i && kept.contains (i - 2) then nbits (qntPayload mags e (i - 2)) 0 4
  else
    let (neg, m) := mags.getD i (false, 0)
    let k := min (roundAt .rne neg m (-149 - e) 0 false).1 7
    if neg && decide (k ≠ 0) then 16 - k else k

/-- QNT.hx4 on a block of 32 binary32 codes (R141): the codes, the scale, NV, and the values they decode to. -/
def qntHx4 (n : Nat) (xs : List Nat) : List Nat × Nat × Bool × List FVal :=
  if xs.any (fun x => (fdecode .f32 x).isNan || (fdecode .f32 x).isInf) then
    (List.replicate 32 0, 255, true, List.replicate 32 (.nan false))
  else
    let mags := xs.map mag32
    let placed := qntPlaced n (mags.map fun x => x.2)
    let excl := placed.flatMap fun i => [i, i + 1, i + 2]
    let m := (List.range 32).foldl (fun a i => if excl.contains i then a else max a (mags.getD i (false, 0)).2) 0
    let e := qntExp m 7
    let kept := placed.filter fun i => decide (15 * 2 ^ (e + 149).toNat < 2 * (mags.getD i (false, 0)).2)
    let codes := (List.range 32).map (qntCode mags kept e)
    (codes, (e + 127).toNat, false, (hx4Decode codes (e + 127).toNat).1)

/-- QNT.e4m3 and QNT.e5m2 on a block (R142). -/
def qntFp8 (f : Fmt) (xs : List Nat) : List Nat × Nat × Bool × List FVal :=
  if xs.any (fun x => (fdecode .f32 x).isNan || (fdecode .f32 x).isInf) then
    (List.replicate 32 0, 255, true, List.replicate 32 (.nan false))
  else
    let mags := xs.map mag32
    let m := mags.foldl (fun a x => max a x.2) 0
    let e := qntExp m (if f = .e4m3 then 448 else 57344)
    let codes := mags.map fun x => (fround f .rne true x.1 x.2 (-149 - e) false).1
    (codes, (e + 127).toNat, false, codes.map fun c => (fdecode f c).scale e)

/-! ### One element converted (R144 to R148) -/

/-- The float format of a format code (R59). -/
def fmtCode (c : Nat) : Option Fmt :=
  match c with
  | 0 => some .f64 | 1 => some .f32 | 2 => some .f16 | 3 => some .bf16 | 4 => some .e4m3 | 5 => some .e5m2 | _ => none

/-- The width of an integer code 8..15 (R59). -/
def intWidth (c : Nat) : Nat := 8 * 2 ^ (c % 4)

/-- An integer code is signed (R59). -/
def intSigned (c : Nat) : Bool := decide (c < 12)

/-- An integer source read by its code (R137). -/
def intSrc (c raw : Nat) : Int := if intSigned c then sextNat raw (intWidth c) else ((raw % 2 ^ intWidth c : Nat) : Int)

/-- The exact value of a source element (R137, R146). -/
def cvtSrc (c raw : Nat) : FVal :=
  match fmtCode c with
  | some f => fdecode f (raw % 2 ^ f.width)
  | none => if c = 7 then ue8V raw else FVal.ofInt (intSrc c raw)

/-- A value converted to a float format (R145). -/
def toFloat (f : Fmt) (mode : RMode) (sat : Bool) (v : FVal) : Nat × Nat :=
  match v with
  | .nan sn => (f.qnan, if sn then 16 else 0)
  | .inf n =>
    if f = .e4m3 then (if sat then (f.signed n f.maxCode, 1) else (f.signed n f.infCode, 16))
    else (f.signed n f.infCode, 0)
  | .fin n m e => fround f mode sat n m e false

/-- A value converted to UE8 (R146; log 7 on +infinity with .sat). -/
def toUe8 (mode : RMode) (sat : Bool) (v : FVal) : Nat × Nat :=
  match v with
  | .nan _ => (0xFF, 16)
  | .inf n => (if sat && !n then 0xFE else 0xFF, 16)
  | .fin n m e =>
    if n || decide (m = 0) then (0xFF, 16)
    else
      let b := Nat.log2 m
      let exact := decide (m = 2 ^ b)
      let k : Int := (b : Int) + e
      let up := match mode with
        | .rne => decide (3 * 2 ^ b < 2 * m) || (decide (2 * m = 3 * 2 ^ b) && decide ((k + 127) % 2 ≠ 0))
        | .rtz => false
        | .rup => !exact
        | .rdn => false
      let r := if up then k + 1 else k
      if r < -127 then (0, 3)
      else if 127 < r then (if sat then 0xFE else 0xFF, 5)
      else ((r + 127).toNat, if exact then 0 else 1)

/-- The range of an integer code. -/
def intLo (c : Nat) : Int := if intSigned c then -(2 ^ (intWidth c - 1)) else 0
def intHi (c : Nat) : Int := if intSigned c then 2 ^ (intWidth c - 1) - 1 else 2 ^ intWidth c - 1

/-- An integer as the register holds it: extended by its sign, to 64 bits for the 64-bit codes (R137). -/
def intReg (c : Nat) (v : Int) : Nat :=
  (BitVec.ofInt (if intWidth c = 64 then 64 else 32)
    (if intSigned c then sextNat (BitVec.ofInt 64 v).toNat (intWidth c)
     else (((BitVec.ofInt 64 v).toNat % 2 ^ intWidth c : Nat) : Int))).toNat

/-- What an integer conversion out of range gives (R147). -/
def intBad (c : Nat) : Nat := intReg c (if intSigned c then intLo c else intHi c)

/-- A float or UE8 value converted to an integer (R147). -/
def toInt (c : Nat) (mode : RMode) (sat : Bool) (v : FVal) : Nat × Nat :=
  match v with
  | .nan _ => (if sat then 0 else intBad c, 16)
  | .inf n => (if sat then intReg c (if n then intLo c else intHi c) else intBad c, 16)
  | .fin n m e =>
    let (r, inexact) := if 0 ≤ e then (m * 2 ^ e.toNat, false) else roundAt mode n m e 0 false
    let x : Int := if n then -(r : Int) else r
    if x < intLo c then (if sat then intReg c (intLo c) else intBad c, 16)
    else if intHi c < x then (if sat then intReg c (intHi c) else intBad c, 16)
    else (intReg c x, if inexact then 1 else 0)

/-- CVT of one element (R144 to R148): destination code, source code, raw source. -/
def cvtElem (dst src : Nat) (mode : RMode) (sat : Bool) (raw : Nat) : Nat × Nat :=
  match fmtCode dst with
  | some f => toFloat f mode sat (cvtSrc src raw)
  | none =>
    if dst = 7 then toUe8 mode sat (cvtSrc src raw)
    else if 8 ≤ src then
      let v := intSrc src raw
      (intReg dst (if sat then max (intLo dst) (min (intHi dst) v) else v), 0)
    else toInt dst mode sat (cvtSrc src raw)

/-- A value as an exact number of units 2^-300, for exact differences of binary32 and BF16 values. -/
def unitsV (v : FVal) : Int :=
  match v with
  | .fin n m e => (m * 2 ^ (e + 300).toNat : Nat) * (if n then -1 else 1)
  | _ => 0

/-- SPL3 of a binary32 code (R149): the three BF16 parts and the flags. -/
def spl3 (x : Nat) : Nat × Nat × Nat × Nat :=
  match fdecode .f32 x with
  | .nan sn => (0x7FC0, 0, 0, if sn then 16 else 0)
  | .inf n => (Fmt.bf16.signed n Fmt.bf16.infCode, 0, 0, 0)
  | .fin n m e =>
    let rnd := fun (neg : Bool) (v : Int) =>
      (fround .bf16 .rne false (if v = 0 then neg else decide (v < 0)) v.natAbs (-300) false).1
    let a := unitsV (.fin n m e)
    let hi0 := (fround .bf16 .rne false n m e false).1
    let hi := if (fdecode .bf16 hi0).isInf then Fmt.bf16.signed n Fmt.bf16.maxCode else hi0
    let r1 := a - unitsV (fdecode .bf16 hi)
    let mid := rnd (decide (m = 0) && n) r1
    let r2 := r1 - unitsV (fdecode .bf16 mid)
    let lo := rnd (decide (m = 0) && n) r2
    (hi, mid, lo, if r2 = unitsV (fdecode .bf16 lo) then 0 else 1)

/-- UNPACK (R151). -/
def unpackW (a : Word) (ctrl : Nat) : Word :=
  let w := 4 * 2 ^ (nbits ctrl 5 2)
  let x := nbits a.toNat (w * nbits ctrl 0 4) w
  if nbits ctrl 4 1 = 1 then BitVec.ofInt 32 (sextNat x w) else BitVec.ofNat 32 x

end Sys2Proof.Machine
end

