-- ==== Sys2Proof/Machine/Narrow.lean ====
section
/-!
DEFINITION. The conversion, quantisation and packing instructions (R140 to R154).
-/
namespace Sys2Proof.Machine

/-- The block of a pass: 32 binary32 codes, +0 for a slot outside EXEC (R140). -/
def qntBlock (s : State) (a : BitVec 7) (p : Nat) : List Nat :=
  (List.range 32).map fun i =>
    if s.rd.exec.getLsbD (32 * p + i) then fpRead s.rd .f32 a (32 * p + i) else 0

/-- A block's elements differ in value from what its codes decode to, in some EXEC slot (R141, R142). -/
def qntInexact (s : State) (p : Nat) (xs : List Nat) (vals : List FVal) : Bool :=
  (List.range 32).any fun i =>
    s.rd.exec.getLsbD (32 * p + i) && !eqV (fdecode .f32 (xs.getD i 0)) (vals.getD i FVal.zero)

/-- The packed word of a lane: nibbles or bytes of its part of the block (R140). -/
def qntWord (bits : Nat) (codes : List Nat) (lane : Nat) : Word :=
  let per := 32 / bits
  let k := lane % bits
  BitVec.ofNat 32 ((List.range per).foldl (fun a j => a + codes.getD (per * k + j) 0 * 2 ^ (bits * j)) 0)

/-- QNT over the passes: each block's packed words go to D and its scale to B of the EXEC slots (R140). lr0 takes D's word
and lr1 the scale (R37). `bits` is 4 for nibbles and 8 for bytes. -/
def qntOut (s : State) (d a b : BitVec 7) (bits : Nat) (q : List Nat → List Nat × Nat × Bool × List FVal) : State :=
  let s1 := (List.range (s.w.width / 32)).foldl (fun s1 p =>
      if (List.range 32).any (fun i => s.rd.exec.getLsbD (32 * p + i)) then
        let xs := qntBlock s a p
        let r := q xs
        let w1 := ((List.range 32).filter fun i => s.rd.exec.getLsbD (32 * p + i)).foldl (fun w i =>
            let x := qntWord bits r.1 i
            let c : Word := BitVec.ofNat 32 r.2.1
            vWrite (vWrite (lrPair w (32 * p + i) x c) d (32 * p + i) x) b (32 * p + i) c) s1.w
        ({ s1 with w := w1 }).raiseFlags (if r.2.2.1 then 16 else bitOf (qntInexact s p xs r.2.2.2))
      else s1) s
  (occupy (markFpsr { s1 with w := addMarks s1.w (vecMarks s.w d 1 true ++ vecMarks s.w b 1 false) }) .valu
    (s.w.width / 32)).done

/-- QNT.hx4 (R141). -/
def execQntHx4 (f : QntF) (s : State) : Out := .next (qntOut s f.d f.a f.b 4 (qntHx4 f.n.toNat))

/-- QNT.e4m3 (R142). -/
def execQntE4m3 (f : R3) (s : State) : Out := .next (qntOut s f.d f.a f.b 8 (qntFp8 .e4m3))

/-- QNT.e5m2 (R142). -/
def execQntE5m2 (f : R3) (s : State) : Out := .next (qntOut s f.d f.a f.b 8 (qntFp8 .e5m2))

/-- An element under a scale, rounded to binary32 (R143): NaN when either is NaN; a signalling code raises NV. -/
def dqElem (s : State) (v : FVal) (sc : Nat) : Nat × Nat :=
  if sc = 255 then (Fmt.qnan .f32, if v.isSnan then 16 else 0)
  else fput .f32 s.rm (v.scale ((sc : Int) - 127))

/-- DQ.hx4 (R143): the block's words lie in lanes 0 to 3 of the pass; each slot decodes with its own scale. -/
def execDqHx4 (f : RBin) (s : State) : Out :=
  .next (fpOut s .valu false f.d fun i =>
    let base := i / 32 * 32
    let ws := (List.range 4).map fun k => (vRead s.rd f.a (base + k)).toNat
    let sc := (bRead s f.b f.x i).toNat % 256
    let r := hx4Decode (hxSlots ws) sc
    let (c, fl) := fput .f32 s.rm (r.1.getD (i % 32) FVal.zero)
    (c, fl ||| (if r.2 then 32 else 0)))

/-- The byte of a slot's element in an FP8 block (R143). -/
def dqByte (s : State) (a : BitVec 7) (i : Nat) : Nat :=
  nbits (vRead s.rd a (i / 32 * 32 + i % 32 / 4)).toNat (8 * (i % 4)) 8

/-- DQ.e4m3 (R143). -/
def execDqE4m3 (f : RBin) (s : State) : Out :=
  .next (fpOut s .valu false f.d fun i =>
    dqElem s (fdecode .e4m3 (dqByte s f.a i)) ((bRead s f.b f.x i).toNat % 256))

/-- DQ.e5m2 (R143). -/
def execDqE5m2 (f : RBin) (s : State) : Out :=
  .next (fpOut s .valu false f.d fun i =>
    dqElem s (fdecode .e5m2 (dqByte s f.a i)) ((bRead s f.b f.x i).toNat % 256))

/-- A format code whose values are 64-bit (R137). -/
def code64 (c : Nat) : Bool := c = 0 || c = 0xB || c = 0xF

/-- CVT's source in a slot: the float column for the four wide float codes, else the integer column (R39). -/
def cvtRaw (w : Wave) (src : Nat) (a : BitVec 7) (i : Nat) : Nat :=
  match src with
  | 0 => fpRead w .f64 a i
  | 1 => fpRead w .f32 a i
  | 2 => fpRead w .f16 a i
  | 3 => fpRead w .bf16 a i
  | _ => if code64 src then (vRead64 w a i).toNat else (vRead w a i).toNat

/-- CVT (R144). -/
def execCvt (f : CvtF) (s : State) : Out :=
  .next (fpOut s (if f.dst.toNat = 0 || f.src.toNat = 0 then .vdp else .valu) (code64 f.dst.toNat) f.d fun i =>
    cvtElem f.dst.toNat f.src.toNat s.rm f.sat (cvtRaw s.rd f.src.toNat f.a i))

/-- SPL3 (R149): three registers; lr0 takes the first part and lr1 the second. -/
def execSpl3 (f : RUn) (s : State) : Out :=
  let r := fun i => spl3 (fpRead s.rd .f32 f.a i)
  let w1 := s.rd.slots.foldl (fun w i =>
      let hi : Word := BitVec.ofNat 32 (r i).1
      let mid : Word := BitVec.ofNat 32 (r i).2.1
      let lo : Word := BitVec.ofNat 32 (r i).2.2.1
      vWriteRun (lrPair w i hi mid) f.d i [hi, mid, lo]) s.w
  .next ((markFpsr (occupy { s with w := addMarks w1 (vecMarks s.w f.d 3 true) } .valu (s.w.width / 32))).done.raiseFlags
    (slotFlags s fun i => (0, (r i).2.2.2)))

/-- PACK.b16 (R150). -/
def execPackB16 (f : RBin) (s : State) : Out :=
  .next (vecBin s f fun a b => BitVec.ofNat 32 (a.toNat % 65536 + b.toNat % 65536 * 65536))

/-- PACK.b8 (R150). -/
def execPackB8 (f : RBin) (s : State) : Out :=
  .next (vecTer s f fun d a b =>
    BitVec.ofNat 32 (a.toNat % 256 + b.toNat % 256 * 256 + d.toNat % 65536 * 65536))

/-- UNPACK (R151). -/
def execUnpack (f : R3) (s : State) : Out :=
  .next (vecOut s .valu f.d fun i => unpackW (vRead s.rd f.a i) f.b.toNat)

end Sys2Proof.Machine
end

