-- ==== Sys2Proof/Machine/LayoutOps.lean ====
section
/-!
DEFINITION. Storage handles, layout registers, the offset function and port acceptance (R169 to R199, R416), on values:
layouts and handle entries.
-/
namespace Sys2Proof.Machine

/-! ### Handle entries (R169, R170) -/

/-- A field of an entry. -/
def hfld (h : BitVec 256) (lo n : Nat) : Nat := nbits h.toNat lo n

def hV (h : BitVec 256) : Bool := h.getLsbD 255
def hRO (h : BitVec 256) : Bool := h.getLsbD 254
def hDshift (h : BitVec 256) : Nat := hfld h 232 6
def hScstep (h : BitVec 256) : Nat := hfld h 224 8
def hOobz (h : BitVec 256) : Bool := h.getLsbD 218
def hSparse (h : BitVec 256) : Bool := h.getLsbD 217
def hScaled (h : BitVec 256) : Bool := h.getLsbD 216
def hFmt (h : BitVec 256) : Nat := hfld h 196 4
def hSpace (h : BitVec 256) : Nat := hfld h 192 4
def hScb (h : BitVec 256) : Nat := hfld h 128 64
def hBound (h : BitVec 256) : Nat := hfld h 64 48
def hBase (h : BitVec 256) : Nat := hfld h 0 64

/-- Twice the element size of a format in bytes: an HX4 element is half a byte (R170). -/
def size2 (fmt : Nat) : Nat :=
  match fmt with
  | 0 => 16 | 1 => 8 | 2 => 4 | 3 => 4 | 4 => 2 | 5 => 2 | 6 => 1 | 7 => 2
  | 8 => 2 | 9 => 4 | 10 => 8 | 11 => 16 | 12 => 2 | 13 => 4 | 14 => 8 | _ => 16

/-- The whole bytes an element touches. -/
def esize (fmt : Nat) : Nat := ceilDiv (size2 fmt) 2

/-- The handle names a trestle ring (R170). -/
def isTrestle (h : BitVec 256) : Bool := decide (hSpace h = 6) && decide (hfld h 20 4 ≠ 0)

/-- An entry is ill-formed (R171). A ring direction that R170 does not list counts as a reserved field (log 30). -/
def illFormed (h : BitVec 256) : Bool :=
  hV h &&
    (decide (hfld h 238 16 ≠ 0) || decide (hfld h 219 5 ≠ 0) || decide (hfld h 200 16 ≠ 0) ||
      decide (hfld h 112 16 ≠ 0) || decide (6 < hSpace h) || decide (hBound h = 0) ||
      (match hSpace h with
        | 0 => decide (hBase h / 2 ^ 7 ≠ 0) || decide (95 < hBase h)
        | 1 => decide (hBase h / 2 ^ 19 ≠ 0) || decide (0x80000 < hBase h + hBound h)
        | 2 => decide (hfld h 19 1 ≠ 0) || decide (hBase h / 2 ^ 22 ≠ 0) || decide (0x80000 < hfld h 0 19 + hBound h)
        | 5 => decide (hfld h 48 4 ≠ 0)
        | 6 => decide (hfld h 19 1 ≠ 0) || decide (hBase h / 2 ^ 24 ≠ 0) || decide (4 < hfld h 20 4)
        | _ => false) ||
      (if hSpace h = 4 then decide (hDshift h < 16) || decide (46 < hDshift h) else decide (hDshift h ≠ 0)) ||
      (decide (hFmt h = 6) && !hScaled h) ||
      (hScaled h && (!(decide (hFmt h = 4) || decide (hFmt h = 5) || decide (hFmt h = 6)) || decide (hSpace h = 0) ||
        decide (hSpace h = 6))) ||
      (hSparse h && (hScaled h || !(decide (hFmt h = 2) || decide (hFmt h = 3) || decide (hFmt h = 4) ||
        decide (hFmt h = 5) || decide (hFmt h = 8) || decide (hFmt h = 12)))))

/-! ### Layout registers (R174, R175) -/

/-- An empty layout register. -/
def Layout.empty : Layout :=
  { modes := [], km := 7, hidx := 0, sb := 0, sm := 0, ss := 0, origin := 0, dorg := 0 }

/-- The product of the extents. -/
def Layout.count (l : Layout) : Nat := l.modes.foldl (fun n m => n * m.ext) 1

/-- The coordinates of an index in layout order, mode 0 fastest (R174). -/
def coordsOf : List LMode → Nat → List Nat
  | [], _ => []
  | m :: ms, n => n % m.ext :: coordsOf ms (n / m.ext)

/-- The element offset and die that a layout gives, without handle or swizzle (R176). -/
def layPoint (l : Layout) (c : List Nat) : Int × Int :=
  (l.modes.zip c).foldl
    (fun a x => if x.1.die then (a.1, a.2 + (x.2 : Int) * x.1.step) else (a.1 + (x.2 : Int) * x.1.step, a.2))
    (l.origin, l.dorg)

/-- The signed 48-bit range (R176). -/
def in48 (x : Int) : Bool := decide (-(2 ^ 47) ≤ x) && decide (x < 2 ^ 47)

/-- The signed 32-bit range. -/
def in32 (x : Int) : Bool := decide (-(2 ^ 31) ≤ x) && decide (x < 2 ^ 31)

/-- The swizzle on a nonnegative byte offset (R177). -/
def swz (l : Layout) (b : Nat) : Nat :=
  if l.ss = 0 then b else b ^^^ (nbits b (l.sb + l.sm) l.ss * 2 ^ l.sb)

/-- The swizzle on a byte offset that may be negative: only bits of its two's complement pattern change (R177). -/
def swzInt (l : Layout) (b : Int) : Int :=
  if l.ss = 0 then b
  else
    let k : Int := 2 ^ (l.sb + l.sm + l.ss)
    b - b % k + (swz l (b % k).toNat : Nat)

/-- Where layout_locate leads: a place (die, byte offset, nibble, unswizzled element offset), outside BOUND under OOBZ,
or a layout fault. -/
inductive LocRes where
  | at (die b nib : Nat) (e : Int)
  | oob
  | fault (cause : Nat)
deriving DecidableEq, Repr

/-- layout_locate (R176). The die sum has no 48-bit check of its own: outside 0 to 3 it is cause 0x0C (log 30). -/
def layoutLocate (l : Layout) (h : BitVec 256) (c : List Nat) : LocRes :=
  if (l.modes.zip c).any (fun x => decide (x.1.ext ≤ x.2)) then .fault 0x0A
  else
    let (e, die) := layPoint l c
    if !in48 e then .fault 0x0D
    else if !hV h then .fault 0x08
    else if (decide (die ≠ 0) || l.modes.any (fun m => m.die)) && decide (hSpace h ≠ 4) then .fault 0x0C
    else if die < 0 ∨ 3 < die then .fault 0x0C
    else
      let b := swzInt l (e * (size2 (hFmt h) : Int) / 2)
      if b < 0 ∨ (hBound h : Int) < b + (esize (hFmt h) : Int) then (if hOobz h then .oob else .fault 0x0B)
      else .at die.toNat b.toNat (e % 2).toNat e

/-- Descriptor word `k` of a layout register, and its count for 13 (R175, R183). -/
def lgetWord (l : Layout) (k : Nat) : Word :=
  let m := fun i => l.modes.getD i { ext := 1, step := 0, lev := 0, die := false }
  if l.modes.isEmpty then 0
  else if k < 6 then BitVec.ofInt 32 (m k).step
  else if k < 9 then BitVec.ofNat 32 ((m (2 * (k - 6))).ext - 1 + ((m (2 * (k - 6) + 1)).ext - 1) * 65536)
  else if k = 9 then
    BitVec.ofNat 32 ((List.range 6).foldl (fun a i => a + bitOf (m i).die * 2 ^ (6 + i) + (m i).lev * 2 ^ (12 + 2 * i))
      (l.modes.length + l.km * 8))
  else if k = 10 then BitVec.ofNat 32 (l.hidx + l.sb * 2 ^ 12 + l.sm * 2 ^ 16 + l.ss * 2 ^ 20 + l.dorg.toNat * 2 ^ 24)
  else if k = 11 then BitVec.ofInt 32 l.origin
  else if k = 12 then BitVec.ofInt 32 (l.origin / 2 ^ 32)
  else BitVec.ofNat 32 (min l.count 0xFFFFFFFF)

/-- LDEF's descriptor (R175, R182): a layout, or the cause. -/
def ldefOf (d : Nat → Nat) : Except Nat Layout :=
  let nm := nbits (d 9) 0 3
  let km := nbits (d 9) 3 3
  let ext := fun i => nbits (d (6 + i / 2)) (16 * (i % 2)) 16 + 1
  let lev := fun i => nbits (d 9) (12 + 2 * i) 2
  let die := fun i => decide (nbits (d 9) (6 + i) 1 = 1)
  let ss := nbits (d 10) 20 4
  let sm := nbits (d 10) 16 4
  if nbits (d 9) 24 8 ≠ 0 ∨ nbits (d 10) 26 6 ≠ 0 ∨ nbits (d 12) 16 16 ≠ 0 then .error 1
  else if ss ≠ 0 ∧ sm < ss then .error 3
  else if nm = 0 ∨ 6 < nm ∨ (nm ≤ km ∧ km ≠ 7) then .error 2
  else if (List.range 6).any (fun i =>
      if nm ≤ i then decide (d i % 2 ^ 32 ≠ 0) || decide (ext i ≠ 1) || decide (lev i ≠ 0) || die i
      else decide (lev i = 3) || (decide (i ≠ 0) && decide (lev i < lev (i - 1)))) then .error 2
  else .ok { modes := (List.range nm).map fun i => { ext := ext i, step := sextNat (d i) 32, lev := lev i, die := die i },
             km := km, hidx := nbits (d 10) 0 12, sb := nbits (d 10) 12 4, sm := sm, ss := ss,
             origin := sextNat (d 11 % 2 ^ 32 + nbits (d 12) 0 16 * 2 ^ 32) 48, dorg := (nbits (d 10) 24 2 : Nat) }

/-- LSWZ (R184). -/
def lswzOf (l : Layout) (p : Nat) : Except Nat Layout :=
  if l.modes.isEmpty then .error 2
  else if p / 2 ^ 12 ≠ 0 then .error 1
  else if nbits p 8 4 ≠ 0 ∧ nbits p 4 4 < nbits p 8 4 then .error 3
  else .ok { l with sb := nbits p 0 4, sm := nbits p 4 4, ss := nbits p 8 4 }

/-- LPART (R185). -/
def lpartOf (l : Layout) (p k : Nat) : Except Nat Layout :=
  if l.modes.isEmpty then .error 2
  else match l.modes[k % 8]? with
    | none => .error 5
    | some m =>
      let f := p % 65536 + 1
      let part := p / 65536
      if m.ext % f ≠ 0 ∨ f ≤ part then .error 5
      else
        let n := m.ext / f
        let cyclic := decide (8 ≤ k)
        let step := if cyclic then m.step * (f : Int) else m.step
        let shift := if cyclic then (part : Int) * m.step else (part : Int) * (n : Int) * m.step
        if !in32 step then .error 0x0D
        else
          let l1 := { l with modes := setAt l.modes (k % 8) { m with ext := n, step := step } }
          if m.die then
            if l.dorg + shift < 0 ∨ 3 < l.dorg + shift then .error 0x0C else .ok { l1 with dorg := l.dorg + shift }
          else if !in48 (l.origin + shift) then .error 0x0D else .ok { l1 with origin := l.origin + shift }

/-- Levels do not decrease in mode order (R174). -/
def levelsUp : List LMode → Bool
  | a :: b :: t => decide (a.lev ≤ b.lev) && levelsUp (b :: t)
  | _ => true

/-- LTRANS (R186). -/
def ltransOf (l : Layout) (p : Nat) : Except Nat Layout :=
  let nm := l.modes.length
  if nm = 0 then .error 2
  else if p / 2 ^ (3 * nm) ≠ 0 then .error 1
  else
    let perm := (List.range nm).map fun i => nbits p (3 * i) 3
    if !((List.range nm).all fun j => perm.contains j) then .error 6
    else
      let ms := perm.filterMap fun j => l.modes[j]?
      if !levelsUp ms then .error 6
      else .ok { l with modes := ms, km := if l.km = 7 then 7 else (findIdxFrom (fun j => j == l.km) 0 perm).getD 7 }

/-- LFLAT (R187). -/
def lflatOf (l : Layout) (k : Nat) : Except Nat Layout :=
  if l.modes.isEmpty then .error 2
  else match l.modes[k]?, l.modes[k + 1]? with
    | some a, some b =>
      if a.lev = b.lev ∧ a.die = b.die ∧ b.step = a.step * (a.ext : Int) ∧ a.ext * b.ext ≤ 65536 ∧ l.km ≠ k ∧ l.km ≠ k + 1
      then .ok { l with modes := dropAt (setAt l.modes k { a with ext := a.ext * b.ext }) (k + 1),
                        km := if l.km ≠ 7 ∧ k + 1 < l.km then l.km - 1 else l.km }
      else .error 7
    | _, _ => .error 7

/-- LCHAIN's division of mode list `a` by `t` (R188). Modes that are used up are dropped: only later ones are taken. -/
def chainDiv : List LMode → Nat → Option (List LMode)
  | ms, 0 => some ms
  | [], t => if t ≤ 1 then some [] else none
  | m :: ms, t =>
    if t ≤ 1 then some (m :: ms)
    else if t % m.ext = 0 then chainDiv ms (t / m.ext)
    else if m.ext % t = 0 then some ({ m with ext := m.ext / t, step := m.step * (t : Int) } :: ms)
    else none

/-- LCHAIN's taking of `e` coordinates from what is left (R188). -/
def chainTake (lv : Nat) : List LMode → Nat → Option (List LMode)
  | [], e => if e ≤ 1 then some [] else none
  | m :: ms, e =>
    if e ≤ 1 then some []
    else if m.ext = 1 then chainTake lv ms e
    else if e % m.ext = 0 then (chainTake lv ms (e / m.ext)).map fun r => { m with lev := lv } :: r
    else if m.ext % e = 0 then some [{ m with ext := e, lev := lv }]
    else none

/-- The modes that one mode of LB yields (R188). -/
def chainMode (a : List LMode) (b : LMode) : Option (List LMode) :=
  if b.step < 0 then none
  else if b.ext = 1 ∨ b.step = 0 then some [{ ext := b.ext, step := 0, lev := b.lev, die := false }]
  else (chainDiv a b.step.toNat).bind fun r => chainTake b.lev r b.ext

/-- The modes of all of LB, with the place of the first mode made from each. -/
def chainModes (a : List LMode) : List LMode → Nat → Option (List LMode × List Nat)
  | [], _ => some ([], [])
  | b :: bs, at0 =>
    match chainMode a b with
    | none => none
    | some ms => match chainModes a bs (at0 + ms.length) with
      | none => none
      | some (rest, places) => some (ms ++ rest, at0 :: places)

/-- LCHAIN (R188). An LB outside its preconditions is cause 0x04, an ORIGIN outside 48 bits 0x0D, a DORG outside 0 to 3 0x0C (log 30). -/
def lchainOf (a b : Layout) : Except Nat Layout :=
  if a.modes.isEmpty || b.modes.isEmpty then .error 2
  else if b.modes.any (fun m => m.die) || decide (b.dorg ≠ 0) || decide (b.ss ≠ 0) || decide (b.origin < 0) ||
      decide ((a.count : Int) ≤ b.origin) then .error 4
  else match chainModes a.modes b.modes 0 with
    | none => .error 4
    | some (ms, places) =>
      if 6 < ms.length then .error 4
      else if ms.any (fun m => !in32 m.step) then .error 0x0D
      else
        let (e, die) := layPoint a (coordsOf a.modes b.origin.toNat)
        if !in48 e then .error 0x0D
        else if die < 0 ∨ 3 < die then .error 0x0C
        else .ok { a with modes := ms, origin := e, dorg := die, km := if b.km = 7 then 7 else places.getD b.km 7 }

/-! ### Port acceptance (R190 to R199) -/

/-- What a port says of a pair (R190, R197): verdict 0 conforms, 1 convertible, 2 rejected; the truss cost; the reason and
the layout cause of a rejection; the degree; a trestle ring on a part without links. -/
structure Verdict where
  verd : Nat
  cost : Nat
  why : Nat
  cause : Nat
  bcd : Nat
  port : Nat
  absent : Bool
deriving DecidableEq, Repr

/-- A rejection; its COST and BCD are 0 (log 30). -/
def reject (port why cause : Nat) : Verdict :=
  { verd := 2, cost := 0, why := why, cause := cause, bcd := 0, port := port, absent := false }

/-- The spaces a port accepts (R191). -/
def portSpace (port space : Nat) : Bool :=
  match port with
  | 0 => space = 1 || space = 3 || space = 4 || space = 6
  | 1 => space = 1 || space = 3 || space = 4 || space = 6
  | 2 => decide (space ≤ 5)
  | 3 => decide (space ≤ 6)
  | 4 => decide (1 ≤ space) && decide (space ≤ 4)
  | _ => space = 3 || space = 4

/-- The k elements of a feeder row for a format; none when the feeders reject it (R192). -/
def feederK (fmt : Nat) : Option Nat :=
  match fmt with
  | 0 => some 4 | 2 => some 16 | 3 => some 16 | 4 => some 32 | 5 => some 32 | 6 => some 64 | 8 => some 32 | 12 => some 32
  | _ => none

/-- The k-mode and the row mode of a feeder layout, by number (R192, R416). -/
def feederModes (l : Layout) (fmt : Nat) : Option (Nat × Nat) :=
  match feederK fmt, (List.range l.modes.length).filter fun i => decide ((l.modes[i]?.map fun m => m.lev) = some 0) with
  | some k, [i, j] =>
    let e := fun n => (l.modes[n]?.map fun m => m.ext).getD 0
    if k = 16 then (if e i = 16 ∧ e j = 16 then some (i, j) else none)
    else if e i = k ∧ e j = 16 then some (i, j)
    else if e j = k ∧ e i = 16 then some (j, i)
    else none
  | _, _ => none

/-- The feeders' judgement of the mode structure: the cost, or the reason (R192, R196; log 9). -/
def feederShape (l : Layout) (h : BitVec 256) : Except Nat Nat :=
  let z2 := size2 (hFmt h)
  match feederModes l (hFmt h), l.modes[l.km]? with
  | some (ki, ri), some km =>
    let kstep := (l.modes[ki]?.map fun m => m.step).getD 0
    let rstep := (l.modes[ri]?.map fun m => m.step).getD 0
    if km.lev ≠ 1 then .error 5
    else if (List.range l.modes.length).any (fun i =>
        decide (i ≠ ki) && decide (i ≠ ri) && decide (i ≠ l.km) && decide ((l.modes[i]?.map fun m => m.ext) ≠ some 1)) then
      .error 5
    else if km.step * (z2 : Int) % 64 ≠ 0 then .error 6
    else
      let base : Int := (if hSpace h = 6 then 0 else 2 * (hBase h : Int)) + l.origin * (z2 : Int)
      let wide := decide (l.ss = 0) || decide (5 ≤ l.sb)
      let narrow := decide (l.ss ≠ 0) && decide (2 ≤ l.sb) && decide (l.sb ≤ 4)
      if !wide && !narrow then .error 7
      else if kstep = 1 ∧ 0 ≤ rstep ∧ rstep * (z2 : Int) % 4 = 0 ∧ base % 4 = 0 then
        let aligned := decide (rstep * (z2 : Int) % 64 = 0) && decide (base % 64 = 0)
        if aligned then .ok (bitOf narrow)
        else if narrow || decide (hSpace h = 6) then .error 6
        else .ok 1
      else if rstep = 1 ∧ 0 < kstep ∧ kstep % 16 = 0 ∧ hFmt h ≠ 6 ∧ base % 4 = 0 then
        .ok ((if z2 = 4 then 1 else 2) + bitOf (decide (base % 64 ≠ 0)) + bitOf narrow)
      else .error 6
  | _, _ => .error 5

/-- The copy ports' judgement (R193, R196). -/
def copyShape (l : Layout) (h : BitVec 256) : Except Nat Nat :=
  match l.modes with
  | [] => .error 5
  | m :: _ =>
    let z2 := size2 (hFmt h)
    if hFmt h = 6 ∧ (m.step ≠ 1 ∨ m.ext % 32 ≠ 0 ∨ l.origin % 32 ≠ 0) then .error 6
    else
      .ok ((if m.step = 1 then 0 else if 8 ≤ z2 then 1 else if z2 = 4 then 2 else 4) +
        bitOf (decide (l.ss ≠ 0) && decide (l.sb < 2)))

/-- The row bytes of a gather pair, doubled. -/
def rowBytes2 (l : Layout) (h : BitVec 256) : Nat := (l.modes.headD { ext := 0, step := 0, lev := 0, die := false }).ext * size2 (hFmt h)

/-- The gather packer's judgement (R195, R196). -/
def gatherShape (l : Layout) (h : BitVec 256) : Except Nat Nat :=
  match l.modes with
  | [] => .error 5
  | m :: ms =>
    if m.lev ≠ 0 ∨ (l.modes.filter fun x => decide (x.lev = 1)).length ≠ 1 ∨
        (ms.any fun x => decide (x.lev ≠ 1) && decide (x.ext ≠ 1)) = true then .error 5
    else if m.step ≠ 1 then .error 6
    else if l.ss ≠ 0 then .error 7
    else
      let r := rowBytes2 l h
      if r = 8 ∨ r = 16 ∨ r = 32 ∨ r = 64 ∨ r = 128 then .ok 0
      else if 8 ≤ r ∧ r ≤ 128 then .ok 1
      else .error 5

/-- The least and greatest element offset and die over every coordinate; `steps` limits the KM coordinates (R179,
log 30): coordinates beyond the layout's extent are no part of the range. -/
def layRange (l : Layout) (steps : Option Nat) : Int × Int × Int × Int :=
  let ext := fun i (m : LMode) => if i = l.km then (match steps with | some n => max 1 (min n m.ext) | none => m.ext) else m.ext
  ((List.range l.modes.length).zip l.modes).foldl (fun a x =>
    let span : Int := ((ext x.1 x.2 : Nat) - 1 : Int) * x.2.step
    if x.2.die then (a.1, a.2.1, a.2.2.1 + min 0 span, a.2.2.2 + max 0 span)
    else (a.1 + min 0 span, a.2.1 + max 0 span, a.2.2.1, a.2.2.2)) (l.origin, l.origin, l.dorg, l.dorg)

/-- The bytes from the first to behind the last that a layout reaches (R179): under a swizzle, whole aligned blocks of the bits
that it may change. -/
def layBytes (l : Layout) (h : BitVec 256) (steps : Option Nat) : Int × Int :=
  let (lo, hi, _, _) := layRange l steps
  let z2 : Int := size2 (hFmt h)
  let blk : Int := 2 ^ (l.sb + l.ss)
  let b0 := lo * z2 / 2
  let b1 := hi * z2 / 2 + (esize (hFmt h) : Int)
  if l.ss = 0 then (b0, b1) else (b0 / blk * blk, (b1 + blk - 1) / blk * blk)

/-- The offset range lies inside BOUND, or OOBZ admits it (R179); a count of 0 has no offset. -/
def rangeOk (l : Layout) (h : BitVec 256) (steps : Option Nat) : Bool :=
  let b := layBytes l h steps
  hOobz h || decide (steps = some 0) || (decide (0 ≤ b.1) && decide (b.2 ≤ (hBound h : Int)))

/-- The largest number of distinct words a group of word addresses has in one bank (R199); from 2^40 on a word's number tells its
core. -/
def bankDegree (words : List Nat) : Nat :=
  let ws := words.eraseDups
  ws.foldl (fun d w => max d (ws.filter fun x => x % 128 == w % 128 && x / 2 ^ 40 == w / 2 ^ 40).length) 0

/-- The BASE of a global handle is a pointer into the scratchpad aperture (R170, R200). -/
def aperBase (h : BitVec 256) : Bool := (hSpace h == 3 || hSpace h == 4) && hfld h 56 8 == 0xFF

/-- The elements of a handle lie in the banks of a scratchpad (R199). -/
def reachesBanks (h : BitVec 256) : Bool := hSpace h == 1 || hSpace h == 2 || aperBase h

/-- The scratchpad words of an element, when the pair has a scratchpad side (R199). -/
def elemWords (l : Layout) (h : BitVec 256) (c : List Nat) : List Nat :=
  match layoutLocate l h c with
  | .at die b _ _ =>
    let p := hBase h + (if hSpace h = 4 then die * 2 ^ hDshift h else 0) + b
    let a := if aperBase h then p % 2 ^ 19 else (if hSpace h = 6 then 0 else hfld h 0 19) + b
    let core := if aperBase h && decide (nbits p 22 1 = 1) then 1 + nbits p 20 2 else 0
    (List.range ((a + esize (hFmt h) - 1) / 4 + 1 - a / 4)).map fun i => core * 2 ^ 40 + (a / 4 + i)
  | _ => []

/-- Runs of 128 successive words (R199); `fuel` runs at most. -/
def runs128 : Nat → List Nat → List (List Nat)
  | 0, _ => []
  | n + 1, ws => if ws.isEmpty then [] else ws.take 128 :: runs128 n (ws.drop 128)

/-- The bank-conflict degree of a pair at a port other than the lane load units (R199). -/
def portDegree (port : Nat) (l : Layout) (h : BitVec 256) (steps : Option Nat) : Nat :=
  if !(reachesBanks h || hSpace h == 6) || decide (4 ≤ port) then 0
  else if port ≤ 1 then
    match feederModes l (hFmt h), l.modes[l.km]? with
    | some (ki, ri), some km =>
      let n := min (steps.getD km.ext) km.ext
      (List.range n).foldl (fun d t =>
        let words := (List.range 16).flatMap fun r =>
          (List.range ((feederK (hFmt h)).getD 0)).flatMap fun k =>
            elemWords l h ((List.range l.modes.length).map fun i =>
              if i = ki then k else if i = ri then r else if i = l.km then t else 0)
        max d (bankDegree words)) 0
    | _, _ => 0
  else
    let words := ((List.range l.count).flatMap fun i => elemWords l h (coordsOf l.modes i)).eraseDups
    (runs128 (words.length / 128 + 1) words).foldl (fun d g => max d (bankDegree g)) 0

/-- Validation at a port (R190): `writes` for a port that writes, `regs` the wave's registers times 4·WIDTH bytes,
`tres` for trestle links present, `steps` the K-step count. DORG other than 0 on a handle that is not die-distributed is rejected with
a die mode's WHY and cause (log 30). -/
def portCheck (tres : Bool) (wavBytes : Nat → Nat) (l : Layout) (h : BitVec 256) (port : Nat) (writes : Bool)
    (steps : Option Nat) : Verdict :=
  if l.modes.isEmpty then reject port 1 0x02
  else if !hV h then reject port 2 0x08
  else if !portSpace port (hSpace h) then reject port 3 0x09
  else if isTrestle h && !tres then { reject port 3 0x09 with absent := true }
  else if (decide (port ≤ 1) && (feederK (hFmt h)).isNone) || (decide (port = 4) && decide (hFmt h = 6)) ||
      (decide (port = 5) && (decide (hFmt h = 6) || decide (hFmt h = 7))) then reject port 4 0x09
  else if (hSparse h && decide (port ≠ 0)) || (hRO h && writes) then reject port 9 0x09
  else match (if port ≤ 1 then feederShape l h else if port ≤ 3 then copyShape l h
              else if port = 4 then .ok 0 else gatherShape l h) with
    | .error why => reject port why 0x09
    | .ok cost =>
      if hSpace h = 6 ∧ port ≤ 1 ∧ cost ≠ 0 then reject port 6 0x09
      else if port ≠ 4 ∧ hSpace h ≠ 4 ∧ (l.dorg ≠ 0 ∨ (l.modes.any fun m => m.die) = true) then reject port 8 0x09
      else
        let r := layRange l steps
        if hSpace h = 0 ∧ wavBytes (hBase h) < hBound h then reject port 10 0x0B
        else if port ≠ 4 ∧ (!rangeOk l h steps) = true then reject port 10 0x0B
        else if port ≠ 4 ∧ steps ≠ some 0 ∧ (r.2.2.1 < 0 ∨ 3 < r.2.2.2) then reject port 10 0x0C
        else { verd := bitOf (decide (cost ≠ 0)), cost := min cost 255, why := 0, cause := 0,
               bcd := portDegree port l h steps, port := port, absent := false }

/-- The values written for a word of two ports (R190). -/
def Verdict.worse (a b : Verdict) : Verdict :=
  let pick := if a.verd ≠ b.verd then (if a.verd < b.verd then b else a)
    else if a.cost ≠ b.cost then (if a.cost < b.cost then b else a)
    else if b.port < a.port then b else a
  { pick with cost := max a.cost b.cost, bcd := max a.bcd b.bcd }

/-- TRCOST (R198). -/
def Verdict.trcost (v : Verdict) : Word := BitVec.ofNat 32 (v.why * 2 ^ 24 + v.cost * 2 ^ 8 + v.port * 4 + v.verd)

/-- The word that LCHK writes (R197). -/
def Verdict.lchk (v : Verdict) : Word := BitVec.ofNat 32 (v.why * 2 ^ 24 + v.bcd * 2 ^ 16 + v.cost * 2 ^ 8 + v.verd)

end Sys2Proof.Machine
end

