-- ==== Sys2Proof/Machine/MemOps.lean ====
section
/-!
DEFINITION. Memory words in flight (R215, R220 to R226, R229 to R244): how a word is issued, when each of its accesses may
be performed, what that does, and how the word completes.
-/
namespace Sys2Proof.Machine

/-! ### Order (R229, R231, R232, R236) -/

/-- Two places share a byte. -/
def overlaps (a : Loc) (n : Nat) (b : Loc) (m : Nat) : Bool :=
  match a, b with
  | .scr c x, .scr d y => c == d && decide (x < y + m) && decide (y < x + n)
  | .dev x _, .dev y _ => decide (x < y + m) && decide (y < x + n)
  | .host x, .host y => decide (x < y + m) && decide (y < x + n)
  | .imp e c x, .imp f d y => e == f && c == d && decide (x < y + m) && decide (y < x + n)
  | _, _ => false

/-- The operation writes memory at its acknowledgement. -/
def MKind.isStore : MKind → Bool
  | .store => true | _ => false

/-- The operation has a read whose value counts for acquires. -/
def MKind.reads : MKind → Bool
  | .load => true | .atom _ => true | .cas => true | .poll => true | _ => false

/-- The operation reads and writes at once. -/
def MKind.isAtomic : MKind → Bool
  | .atom _ => true | .cas => true | _ => false

/-- The operation maintains the line of its address. -/
def MKind.isLine : MKind → Bool
  | .cwb => true | .cinv => true | _ => false

/-- An access has been performed at every scope that orders it (R235). -/
def Acc.complete (k : MKind) (a : Acc) : Bool := a.done && (!k.isStore || a.acked)

/-- What an access concerns: the whole line of a CWB or CINV (R226), otherwise its bytes. -/
def Acc.span (k : MKind) (a : Acc) : Loc × Nat :=
  match a.loc with
  | .dev pa key => if k.isLine then (.dev (lineOf pa) key, 512) else (a.loc, a.size)
  | l => (l, a.size)

/-- Two accesses share a byte. -/
def Acc.meets (e : Acc) (ek : MKind) (l : Acc) (lk : MKind) : Bool :=
  overlaps (e.span ek).1 (e.span ek).2 (l.span lk).1 (l.span lk).2

/-- A place outside the device. -/
def Loc.outside : Loc → Bool
  | .host _ => true | .imp _ _ _ => true | _ => false

/-- Two accesses belong to one slot; 128 stands for every LIVE slot (R228). -/
def sameAgent (a b : Acc) : Bool := a.slot == b.slot || a.slot == 128 || b.slot == 128

/-- A qualifier acquires. -/
def qAcq (q : Nat) : Bool := q = 1 || q = 3
/-- A qualifier releases. -/
def qRel (q : Nat) : Bool := q = 2 || q = 3

/-- An earlier access has come so far that a later one of its bytes may follow it: it is performed at its point, or, where the
later one cannot be served from a write that a fabric port holds, at its target (R229 item 1, R244, R430). -/
def Acc.ahead (e : Acc) (ek : MKind) (l : Acc) (lk : MKind) (lfwd : Bool) : Bool :=
  if l.loc.outside && (lk.isAtomic || decide (l.kind = 1) || (lk.reads && !lfwd)) then e.complete ek else e.done

/-- An earlier access lets a later one of its slot be performed (R229 items 1 to 3, R232, R236). -/
def lets (ek : MKind) (eq : Nat) (e : Acc) (lk : MKind) (lq : Nat) (lfwd : Bool) (l : Acc) : Bool :=
  !sameAgent e l ||
    ((e.ahead ek l lk lfwd || !e.meets ek l lk || (e.kind = 2 && l.kind = 2)) &&
      (e.complete ek || !(e.kind = 1 && l.kind = 1)) &&
      (e.done || !(qAcq eq && ek.reads)) &&
      (e.complete ek || !(qRel lq && !(lk = .load || lk = .poll))))

/-- An access waits to be performed: a POLL's slot that has been read in this round does not (R224). -/
def Acc.waits (k : MKind) (a : Acc) : Bool := !a.done && !(k = .poll && a.acked)

/-- Two places lie in one sector under one key, or in one 512-byte row of a core's 128 banks, the bank group of R215 (log 61). -/
def sameSector (a b : Loc) : Bool :=
  match a, b with
  | .dev x j, .dev y i => x / 64 == y / 64 && j == i
  | .scr c x, .scr d y => c == d && x / 512 == y / 512
  | .host x, .host y => x / 64 == y / 64
  | .imp c x a, .imp d y b => c == d && x == y && a / 64 == b / 64
  | _, _ => false

/-- Two accesses of a word belong to one request (R215): of one pass, in one sector of one page or one bank group, both still to be
performed. -/
def oneRequest (k : MKind) (a b : Acc) : Bool :=
  a.slot / 32 == b.slot / 32 && sameSector a.loc b.loc && a.kind == b.kind && a.waits k && b.waits k

/-- Two accesses of a word are performed at one moment: those of one request (R204, R215), and loads that read a byte in common, which
all read one value (R216). -/
def together (k : MKind) (a b : Acc) : Bool :=
  oneRequest k a b || (k == .load && a.waits k && b.waits k && overlaps a.loc a.size b.loc b.size)

/-- The accesses that go together with some of `is`, and with those, up to `n` times. -/
def growRequest (op : MemOp) : Nat → List Nat → List Nat
  | 0, is => is
  | n + 1, is =>
    let js := (List.range op.accs.length).filter fun j => (op.accs[j]?).any fun b =>
      is.any fun i => (op.accs[i]?).any fun a => together op.kind a b
    if js.length ≤ is.length then is else growRequest op n js

/-- The accesses that the request of access `i` carries, in slot order. -/
def requestOf (op : MemOp) (i : Nat) : List Nat := growRequest op op.accs.length [i]

/-- A request of stores writes every byte of its sector (R209). -/
def writesAll (op : MemOp) (is : List Nat) : Bool :=
  op.kind.isStore && (List.range 64).all fun k => is.any fun i => (op.accs[i]?).any fun a => match a.loc with
    | .dev pa _ => decide (pa % 64 ≤ k) && decide (k < pa % 64 + a.size)
    | _ => false

/-- A load's copy in the L1 (R205). -/
def l1Hit (s : State) (op : MemOp) (a : Acc) : Option L1Line :=
  match a.loc with
  | .dev pa key => if op.kind = .load && op.l1 && op.token.isNone && decide (a.kind ≠ 1) then l1Find s op.core pa key else none
  | _ => none

/-- The unit that serves a request takes it now: in the order of its clk (R222, R243), a home slice with room in its miss table (R209),
and for CWB and CINV with no fill of the line on its way and room for a write-back (R226). An L1 hit asks for none of this. -/
def sliceMay (s : State) (op : MemOp) (is : List Nat) (a : Acc) : Bool :=
  (l1Hit s op a).isSome ||
    (is.all (fun j => (op.accs[j]?).all fun b => inTurn s (b.loc.turn op.launch).1 (b.loc.turn op.launch).2 (op.quad + 1)) &&
      match a.loc with
      | .dev pa _ =>
        if op.kind.isLine then
          !(s.fills.any fun f => f.pa == lineOf pa) && (!((l2Find s pa).any fun l => l.dirty != 0) || wbackRoom s pa 1)
        else l2Takes s pa (writesAll op is)
      | _ => true)

/-- The wave's launch or tile has ended before it, or it has retired: what it still waits to see holds back nothing that it has issued,
as its stores are performed and its operations run to completion (R356, R389). -/
def waveEnded (s : State) (uid : Nat) : Bool :=
  match s.anyWave uid with
  | none => true
  | some w => (match s.launchOf w.launch with | some l => l.ending.isSome | none => true) ||
      (w.token.bind s.tileOf).any fun t => t.overrun || t.erred || decide (t.phase ≠ 0)

/-- The wave's acquires that are not memory words and stand before `seq` have been made: a TBTEST's (R321), the read of a
LAUNCH's record (R236, R339), and the observations of COWAIT, COTEST and RBPOP (R246, R272). A wave that has ended waits for none. -/
def acqMet (s : State) (uid seq : Nat) : Bool :=
  ((s.fences.all fun h => h.wave != uid || h.kind != 4 || decide (seq ≤ h.seq)) &&
    (s.intake.all fun o => o.wave != uid || decide (seq ≤ o.seq)) &&
    s.objWaits.all fun o => o.wave != uid || decide (seq ≤ o.seq)) || waveEnded s uid

/-- A POLL holds nothing back when its wave has ended (R389). -/
def pollOver (s : State) (o : MemOp) : Bool := o.kind == .poll && waveEnded s o.wave

/-- The coherence order of the bytes that a core's L1 has shown (R229 item 1, R230): a slot that has read a store of its core in the
L1 reaches its bytes elsewhere only when that store is performed, and of two such stores that one slot has read the later one follows
the earlier. -/
def seenMet (s : State) (op : MemOp) (a : Acc) : Bool :=
  (l1Hit s op a).isSome || op.kind == .pref || op.kind.isLine ||
    s.memOps.all fun o => o.accs.all fun b => b.done || b.seen.isEmpty || !overlaps b.loc b.size a.loc a.size ||
      (((b.kind == 2 && a.kind == 2) || !(b.seen.any fun x => x.1 == op.wave && (x.2 == a.slot || x.2 == 128 || a.slot == 128))) &&
        !(op.kind.isStore && decide (o.id < op.id) && b.seen.any fun x => a.seen.contains x))

/-- Access `i` of an operation may be performed now: after its word's earlier accesses to the same bytes, but those that its
request carries with it (R229 item 7), and after what R229 orders before it. PREF, CWB and CINV need no route to a peer (R225, R226). -/
def mayAcc (s : State) (op : MemOp) (is : List Nat) (i : Nat) : Bool :=
  match op.accs[i]? with
  | none => false
  | some a =>
    a.waits op.kind &&
      (List.range i).all (fun j => is.contains j || (op.accs[j]?).all fun b =>
        b.done || op.kind = .poll || !b.meets op.kind a op.kind) &&
      s.memOps.all (fun o => o.wave != op.wave || decide (op.seq ≤ o.seq) ||
        (o.accs.all fun e => lets o.kind o.q e op.kind op.q op.fwd a) || pollOver s o) &&
      acqMet s op.wave op.seq && seenMet s op a && (op.kind == .pref || op.kind.isLine || reached s op.ctx a.loc)

/-- An entry that was saved before it left the core is sent once its wave has resumed, or its launch is ending (R389), after the saved
entries before it (R249). -/
def sendTurn (s : State) (op : MemOp) (i : Nat) : Bool :=
  !op.unsent || (((s.findWave op.wave).isSome || (s.launchOf op.launch).any fun l => l.ending.isSome) &&
    (s.memOps.all fun o => o.wave != op.wave || !o.unsent || decide (op.seq ≤ o.seq)) &&
    (op.accs.take i).all fun b => !b.waits op.kind || (op.accs[i]?).any fun a => a.slot / 32 == b.slot / 32)

/-- The request that access `i` of an operation leads may be performed now. -/
def mayApply (s : State) (op : MemOp) (i : Nat) : Bool :=
  let is := requestOf op i
  decide (is.head? = some i) && is.all (mayAcc s op is) && (op.accs[i]?).any (sliceMay s op is) && sendTurn s op i

/-! ### Performing an access -/

/-- An access of an operation changed. -/
def modAcc (s : State) (op i : Nat) (f : Acc → Acc) : State :=
  { s with memOps := s.memOps.map fun o => if o.id = op then { o with accs := modAt f o.accs i } else o }

/-- The new value of an atomic form on bytes (R220). -/
def atomNew (k : Nat) (old opnd : List Byte) : List Byte :=
  let n := opnd.length
  let a : Word := BitVec.ofNat 32 (leNat old)
  let b : Word := BitVec.ofNat 32 (leNat opnd)
  match k with
  | 0 => leBytes (leNat old + leNat opnd) n
  | 1 => leBytes (leNat old + leNat opnd) n
  | 2 => leBytes (faddV .f32 .rne (fdecode .f32 (leNat old)) (fdecode .f32 (leNat opnd))).1 n
  | 3 => leBytes (faddV .f64 .rne (fdecode .f64 (leNat old)) (fdecode .f64 (leNat opnd))).1 n
  | 4 => leBytes (minS a b).toNat n
  | 5 => leBytes (maxS a b).toNat n
  | 6 => leBytes (minU a b).toNat n
  | 7 => leBytes (maxU a b).toNat n
  | 8 => leBytes (a &&& b).toNat n
  | 9 => leBytes (a ||| b).toNat n
  | 10 => leBytes (a ^^^ b).toNat n
  | _ => opnd

/-- The wave of an operation, for the L1 rules. -/
def opWave (s : State) (op : MemOp) : Wave := (s.anyWave op.wave).getD s.w

/-- A read served at its point: the bytes; the caches follow (R205, R208, R230); a poisoned sector is contained (R390). -/
def servedRead (s : State) (op : MemOp) (a : Acc) : State × List Byte :=
  let die := dieOf s.part op.core
  let fwd := op.fwd && decide (a.kind ≠ 1)
  let bs := readAt s op.launch die op.token a.loc a.size fwd
  let s1 := if poisonedAt s a.loc a.size then dataError s op.launch op.token else s
  match a.loc with
  | .dev pa key =>
    let s2 := l1Refresh (l2Read s1 op.token pa (hintPrio op.hint)) op.core op.token pa key bs
    if op.l1 && op.token.isNone && decide (a.kind ≠ 1) && decide (op.hint ≠ 1) then (l1Fill s2 op.core pa key, bs)
    else (s2, bs)
  | .scr _ _ => (s1, bs)
  | loc =>
    ({ s1 with held := s1.held.map fun h =>
                 if fwd && h.die = die && overlaps h.loc h.data.length loc a.size then { h with readers := op.wave :: h.readers }
                 else h }, bs)

/-- The stores of a core on their way that a read of its L1 returns bytes of: the latest one of each byte. -/
def shownStores (s : State) (core pa key n : Nat) : List CoreStore :=
  ((List.range n).filterMap fun i =>
    (coreStores s core key).reverse.find? fun c => decide (c.pa ≤ pa + i) && decide (pa + i < c.pa + c.data.length)).eraseDups

/-- A slot has read stores of its core in the L1 before they are performed (R205, R230); on UN pages no order follows (R231). -/
def markSeen (s : State) (op : MemOp) (a : Acc) (pa key : Nat) : State :=
  ((shownStores s op.core pa key a.size).filter fun c => !(c.kind == 2 && a.kind == 2)).foldl (fun s c =>
    modAcc s c.op c.acc fun x =>
      { x with seen := if x.seen.contains (op.wave, a.slot) then x.seen else (op.wave, a.slot) :: x.seen }) s

/-- A load (R216): a relaxed load of a cached page may be served from the L1 (R205). -/
def applyLoad (s : State) (op : MemOp) (i : Nat) (a : Acc) : State :=
  match l1Hit s op a, a.loc with
  | some l, .dev pa key =>
    modAcc { markSeen s op a pa key with l1 := l :: s.l1.filter fun x => x != l } op.id i fun x =>
      { x with got := (l.bytes.drop (pa % 64)).take x.size, done := true }
  | _, _ =>
    let (s1, bs) := servedRead s op a
    let s2 := modAcc s1 op.id i fun x => { x with got := bs, done := true }
    if qAcq op.q then acquireL1 s2 (opWave s op) op.sc else s2

/-- A store (R216, R243, R244): applied at its point; a write to host or peer memory is acknowledged when it is performed
there. `full`: its request writes all of its sector. -/
def applyStore (s : State) (op : MemOp) (i : Nat) (full : Bool) (a : Acc) : State :=
  let s1 := writeAt s op.launch op.core (dieOf s.part op.core) op.id i op.token (hintPrio op.hint) full a.va a.loc a.data
  modAcc s1 op.id i fun x => { x with done := true, acked := !a.loc.outside }

/-- An atomic or CAS, indivisible (R220 to R223). `data` is the operand, or comparand and new value. At host and peer
memory the value read is free and the write is performed there at once. An acquire acts at the effective scope (R221, R233). -/
def applyAtom (s : State) (op : MemOp) (i : Nat) (a : Acc) (new : List Byte → Option (List Byte)) : State :=
  let (s1, old) := servedRead s { op with l1 := false } { a with kind := 1 }
  let s2 := match new old with
    | none => s1
    | some bs => match a.loc with
      | .host pa => { s1 with mem := tsetRun s1.mem pa bs }
      | .imp _ _ _ => s1
      | loc => writeAt s1 op.launch op.core (dieOf s.part op.core) op.id i op.token (hintPrio op.hint) false a.va loc bs
  let s3 := modAcc { s2 with freeN := if a.loc.outside then s2.freeN + 1 else s2.freeN } op.id i fun x => { x with got := old, done := true }
  if qAcq op.q then acquireL1 s3 (opWave s op) (effScope (opWave s op) a.loc op.sc) else s3

/-- One slot's read of a POLL (R224): the slot is done when the word differs from its comparand, and otherwise waits for
the next round. -/
def applyPoll (s : State) (op : MemOp) (i : Nat) (a : Acc) : State :=
  let (s1, bs) := servedRead s { op with l1 := false } a
  if bs = a.data then modAcc s1 op.id i fun x => { x with acked := true }
  else
    let s2 := modAcc s1 op.id i fun x => { x with got := bs, done := true }
    if qAcq op.q then acquireL1 s2 (opWave s op) op.sc else s2

/-- CWB or CINV on a line (R226): the dirty sectors are written back; CINV also invalidates the line, or marks it while
it is pinned, and drops the core's L1 sectors of it. Banked copies are not affected. Host and import addresses are not cached, and
neither are those of the aperture, of which R226 says nothing (log 65): the word completes there without effect. -/
def applyLine (s : State) (op : MemOp) (i : Nat) (a : Acc) (inv : Bool) : State :=
  match a.loc with
  | .dev pa _ =>
    let isLine := fun (l : L2Line) => l.pa == lineOf pa && l.token.isNone
    let pinned := s.pins.any fun p => p.pa == lineOf pa
    let dirty := s.l2.any fun l => isLine l && l.dirty != 0
    let l2 := s.l2.filterMap fun l =>
      if isLine l then
        if inv && !pinned then none else some { l with dirty := 0, inv := l.inv || inv }
      else some l
    let l1 := if inv then s.l1.filter fun x => !(x.core == op.core && lineOf x.pa == lineOf pa) else s.l1
    modAcc { s with l2 := l2, l1 := l1, wbacks := if dirty then s.wbacks ++ [lineOf pa] else s.wbacks } op.id i
      fun x => { x with done := true }
  | _ => modAcc s op.id i fun x => { x with done := true }

/-- A prefetch (R225): the sector is asked for in L2, and in the L1 unless the hint is evict-first. -/
def applyPref (s : State) (op : MemOp) (i : Nat) (a : Acc) : State :=
  match a.loc with
  | .dev pa key =>
    let s1 := l2Touch s pa (hintPrio op.hint) false false
    modAcc (if op.hint ≠ 1 then l1Fill s1 op.core pa key else s1) op.id i fun x => { x with done := true }
  | _ => modAcc s op.id i fun x => { x with done := true }

/-- Access `i` of an operation performed (R243). -/
def applyAcc (s : State) (op : MemOp) (full : Bool) (i : Nat) : State :=
  match op.accs[i]? with
  | none => s
  | some a => match op.kind with
    | .load => applyLoad s op i a
    | .store => applyStore s op i full a
    | .atom k => applyAtom s op i a fun old => some (atomNew k old a.data)
    | .cas => applyAtom s op i a fun old =>
        if old = a.data.take a.size then some (a.data.drop a.size) else none
    | .poll => applyPoll s op i a
    | .pref => applyPref s op i a
    | .cwb => applyLine s op i a false
    | .cinv => applyLine s op i a true

/-- The request that access `i` leads performed: its accesses in slot order, in one place in the order of its home slice, its banks or
its port (R215, R222, R243). A saved entry that has been sent is one no longer (R249). -/
def applyRequest (s : State) (op : MemOp) (i : Nat) : State :=
  let is := requestOf op i
  let as := is.filterMap fun j => op.accs[j]?
  let s1 := if (op.accs[i]?).any fun a => (l1Hit s op a).isSome then s
    else as.foldl (fun s a => takeTurn s (a.loc.turn op.launch).1 (a.loc.turn op.launch).2 (op.quad + 1)) s
  let s0 := is.foldl (fun s j => applyAcc s op (writesAll op is) j) s1
  let s2 := { s0 with freeN := if as.any fun a => a.loc.outside then s0.freeN + 1 else s0.freeN }
  if op.unsent then
    { s2 with memOps := s2.memOps.map fun o => if o.id = op.id then { o with unsent := o.accs.any fun a => a.waits o.kind } else o }
  else s2

/-! ### Completion (R215) -/

/-- The bytes a slot has received, its pieces put together. -/
def slotBytes (accs : List Acc) (slot n : Nat) : List Byte :=
  (accs.filter fun a => a.slot == slot).foldl (fun bs a => patch bs a.voff a.got) (List.replicate n 0)

/-- The words of a loaded value: extended by its sign or by zero, or word by word (R216). -/
def loadWords (n : Nat) (signed : Bool) (bs : List Byte) : List Word :=
  if n < 4 then [if signed then BitVec.ofInt 32 (sextNat (leNat bs) (8 * n)) else BitVec.ofNat 32 (leNat bs)]
  else (List.range (n / 4)).map fun i => BitVec.ofNat 32 (leNat ((bs.drop (4 * i)).take 4))

/-- A function of the wave run with the register banks of a mode (R370). -/
def inBank (sup : Bool) (f : Wave → Wave) (w : Wave) : Wave :=
  { f { w with supervisor := sup } with supervisor := w.supervisor }

/-- The destinations of a completed operation written. -/
def writeDest (op : MemOp) (w : Wave) : Wave :=
  match op.dest with
  | .none => w
  | .thread sel n signed =>
    inBank op.sup (fun w => ((op.accs.map fun a => a.slot).eraseDups).foldl
      (fun w i => vWriteRun w (BitVec.ofNat 7 sel) i (loadWords n signed (slotBytes op.accs i n))) w) w
  | .wave reg n => inBank op.sup (fun w => sSetRun w reg (loadWords n false (slotBytes op.accs 128 n))) w

/-- An operation leaves: its flag falls, its marks clear. -/
def retireOp (s : State) (op : MemOp) : State :=
  ({ s with memOps := s.memOps.filter fun o => o.id != op.id } : State).modAny op.wave fun w =>
    clearMarks (flagDec w op.flag) op.id

/-- Every access has what the word's completion needs (R215, R226): CWB and CINV at system scope wait for Shudor memory. -/
def opReady (s : State) (op : MemOp) : Bool :=
  op.accs.all (fun a => a.complete op.kind) &&
    (!((op.kind = .cwb || op.kind = .cinv) && op.sc = 4) ||
      op.accs.all fun a => match a.loc with | .dev pa _ => !s.wbacks.contains (lineOf pa) | _ => true)

/-! ### Fences (R239 to R244) -/

/-- A fence's condition holds (R239, R242, R244). Kind 4 is the acquire of a TBTEST, which holds until it is applied (R321). -/
def fenceMet (s : State) (h : FenceHold) : Bool :=
  if h.kind = 4 then s.tbOps.all fun o => o.wave != h.wave || o.seq != h.seq
  else
  let early := s.memOps.filter fun o => o.wave == h.wave && decide (o.seq < h.seq)
  (h.kind = 2 || early.all fun o => !o.kind.reads || o.accs.all fun a => a.done) &&
    (h.kind = 1 || early.all fun o => o.accs.all fun a => a.complete o.kind) &&
    (!(h.kind = 0 && h.sc = 4) || s.held.all fun x => !x.readers.contains h.wave)

/-- The fences whose condition has come to hold let go; an acquiring one invalidates the L1 at its scope (R236, R239). -/
def settleFences (s : State) : State :=
  let met := s.fences.filter (fenceMet s)
  met.foldl (fun s h => match s.findWave h.wave with
    | some w => if h.kind = 2 then s else acquireL1 s w h.sc
    | none => s) { s with fences := s.fences.filter fun h => !(met.contains h) }

/-! ### Issuing a word -/

/-- What a memory word is: its kind, the KIND of its FCAUSE (R367), what its checks ask, where its value goes, qualifier,
scope, hint, whether it may use the L1, and its flag. -/
structure MemW where
  kind : MKind
  fk : Nat
  ask : Ask
  dest : Dest
  q : Nat
  sc : Nat
  hint : Nat
  l1 : Bool
  flag : Option Nat
deriving DecidableEq, Repr

/-- The 32-bit words of some bytes. -/
def toWords : Nat → List Byte → List Word
  | 0, _ => []
  | n + 1, bs => if bs.isEmpty then [] else BitVec.ofNat 32 (leNat (bs.take 4)) :: toWords n (bs.drop 4)

/-- A slot's store data as the fault frame holds it, eight words to a slot (R369). -/
def capData (t : Table 32) (slot : Nat) (bs : List Byte) : Table 32 := tsetRun t (slot * 8) (toWords 8 bs)

/-- A slot's data read back from the fault frame. -/
def capBytes (c : Capture) (slot n : Nat) : List Byte := (wordBytes (tgetRun c.data (slot * 8) 8)).take n

/-- The slots' accesses formed and checked, pass by pass in ascending slot order (R202): the state with its caches, the
accesses of the slots that pass, and the failures. -/
def memSlots (m : MemW) (ptr : Nat → DWord) (data : Nat → List Byte) (lane agent : Nat → Nat) (w : Wave) :
    List Nat → State → State × List Acc × List (Nat × AddrFail)
  | [], s => (s, [], [])
  | i :: is, s =>
    let (s1, r) := checkPtr s w (lane i) m.ask (ptr i)
    let (s2, accs, fails) := memSlots m ptr data lane agent w is s1
    match r with
    | .error f => (s2, accs, (i, f) :: fails)
    | .ok ps =>
      (s2, ps.map (fun p =>
        { slot := agent i, loc := p.loc, va := p.va, size := p.size, voff := p.voff, kind := p.kind,
          data := if m.kind = .store then ((data i).drop p.voff).take p.size else data i,
          got := [], done := false, acked := false }) ++ accs, fails)

/-- The marks on the destination of a word in flight (R35). -/
def destMarks (w : Wave) (d : Dest) (op : Nat) : List Mark :=
  match d with
  | .none => []
  | .thread sel n _ => (List.range (max 1 (n / 4))).map fun i =>
      { reg := vReg w (BitVec.ofNat 7 sel + BitVec.ofNat 7 i), pass := none, op := some op }
  | .wave reg n => sMarks w reg (n / 4) (some op)

/-- The store-buffer entries that an operation still holds (R215): one for each pass of a store that is not acknowledged, and one
for each pass of an atomic, CAS or POLL until its old value returns. -/
def MemOp.holds (o : MemOp) : Nat :=
  if o.entries = 0 then 0
  else ((List.range 4).filter fun p => o.accs.any fun a => a.slot / 32 == p && !a.complete o.kind).length

/-- The store-buffer entries of a word: one for each pass (R215). -/
def entriesOf (m : MemW) (passes : Nat) : Nat :=
  match m.kind with
  | .store => passes | .atom _ => passes | .cas => passes | .poll => passes | _ => 0

/-- A memory word's operation in flight (R215): it takes its flag, its marks and its entries; a store updates its core's
own L1 copies as it passes its checks (R205). -/
def queueOp (s : State) (m : MemW) (accs : List Acc) : State :=
  let id := s.nextOp
  let w := s.w
  let op : MemOp :=
    { id := id, wave := w.uid, launch := w.launch, core := coreOf w.quad, quad := w.quad, ctx := w.ctx, kind := m.kind,
      size := m.ask.n, seq := id, dest := m.dest, q := m.q, sc := m.sc, hint := m.hint, l1 := m.l1, flag := m.flag,
      entries := entriesOf m (w.width / 32), accs := accs, backoff := 0, token := w.token, sup := w.supervisor,
      fwd := !w.scSys, unsent := false }
  let s1 := { s with nextOp := id + 1, memOps := s.memOps ++ [op],
                     w := addMarks (flagInc w m.flag) (destMarks w m.dest id) }
  if m.kind.isStore && w.token.isNone then
    accs.foldl (fun s a => match a.loc with
      | .dev pa key => l1Update s (coreOf w.quad) pa key a.data
      | _ => s) s1
  else s1

/-- The trap of a memory word's failing slots (R202, R367, R369). Memory cause 0x09 escalates (R366). -/
def memTrap (s : State) (m : MemW) (ptr : Nat → DWord) (fails : List (Nat × AddrFail)) (mask : Mask) : Trap :=
  { cls := 7, mask := mask, fpc := s.w.pc, cont := contOf s, kind := .word,
    faults := fails.map fun x =>
      { slot := x.1, cause := fcause 7 x.2.code m.fk x.2.ft x.2.level m.ask.n, va := ptr x.1 + BitVec.ofNat 64 x.2.off },
    wordBits := s.wordBits, escalates := fails.any fun x => decide (x.2.code = 9) }

/-- The mask of the slots of a list. -/
def maskOfSlots (l : List Nat) : Mask := l.foldl (fun m i => m ||| slotMask i) 0

/-- The addresses and data of the failing slots kept in the fault frame, unless an earlier fault of the wave is still the
one that the frame describes (R369, R374). -/
def capture (s : State) (ptr : Nat → DWord) (coord : Nat → List Word) (data : Nat → List Byte) (slots : List Nat) : State :=
  if s.w.supervisor || s.w.trap.isSome then s
  else
    let c := slots.foldl (fun (c : Capture) i =>
      { addr := tset c.addr i (ptr i), coord := tsetRun c.coord (i * 8) (coord i), data := capData c.data i (data i) })
      { addr := [], coord := [], data := [] }
    { s with w := { s.w with frame := { s.w.frame with cap := c } } }

/-- A per-slot memory word (R202, R215): the slots that pass perform their accesses, the others fault. A word that RFT
repeats uses the captured addresses and data (R373). -/
def memWord (s : State) (m : MemW) (ptr0 : Nat → DWord) (data0 : Nat → List Byte) (dlen : Nat) : State :=
  let cap := s.rd.frame.cap
  let ptr := fun i => if s.rd.replay then tget cap.addr i else ptr0 i
  let data := fun i => if s.rd.replay then capBytes cap i dlen else data0 i
  let (s1, accs, fails) := memSlots m ptr data (fun i => i % 32) id s.rd s.rd.slots s
  let s2 := if accs.isEmpty && !fails.isEmpty then s1 else queueOp s1 m accs
  if fails.isEmpty then (occupy s2 .vmem (s.w.width / 32)).done
  else
    raise (capture s2 ptr (fun _ => []) data (fails.map fun x => x.1))
      (memTrap s m ptr fails (maskOfSlots (fails.map fun x => x.1)))

end Sys2Proof.Machine
end

