-- ==== Sys2Proof/Machine/CrossLane.lean ====
section
/-!
DEFINITION. The cross-lane and sparse instructions (R155 to R168).
-/
namespace Sys2Proof.Machine

/-! ### Moving values between slots -/

/-- The source slot of SHFL: idx, up, down, xor (R159). -/
def shflFrom (m width slot c : Nat) : Int :=
  match m with
  | 0 => (c % width : Nat)
  | 1 => (slot : Int) - (c : Int)
  | 2 => (slot : Int) + (c : Int)
  | _ => (slot ^^^ (c % width) : Nat)

/-- The A of a source slot, or the slot's own when the source is no slot of EXEC (R155). -/
def fromSlot (s : State) (a : BitVec 7) (j : Int) (own : Nat) : Word :=
  if 0 ≤ j ∧ j < (s.w.width : Int) ∧ s.rd.exec.getLsbD j.toNat = true then vRead s.rd a j.toNat else vRead s.rd a own

/-- SHFL (R159). -/
def execShfl (f : ShflF) (s : State) : Out :=
  .next (vecOut s .valu f.d fun i => fromSlot s f.a (shflFrom f.m.toNat s.w.width i (bRead s f.b f.x i).toNat) i)

/-- PSWAP (R160). -/
def execPswap (f : RUn) (s : State) : Out :=
  .next (vecOut s .valu f.d fun i =>
    let own := vRead s.rd f.a i
    let other := vRead s.rd f.a (i ^^^ 1)
    if !s.rd.exec.getLsbD (i ^^^ 1) then own
    else if i % 2 = 0 then BitVec.ofNat 32 (own.toNat % 65536 + other.toNat % 65536 * 65536)
    else BitVec.ofNat 32 (other.toNat / 65536 + own.toNat / 65536 * 65536))

/-- BCAST (R161). -/
def execBcast (f : RBin) (s : State) : Out :=
  .next (vecOut s .valu f.d fun i => fromSlot s f.a ((bRead s f.b f.x i).toNat : Nat) i)

/-! ### Condensing the wave -/

/-- BALLOT (R162). -/
def execBallot (f : RUn) (s : State) : Out :=
  .next (maskOut s .valu f.d fun i => vRead s.rd f.a i != 0)

/-- VOTE.any (R162). -/
def execVoteAny (f : VoteF) (s : State) : Out :=
  .next (predOut s .valu (s.w.width / 32) f.p.toNat (s.rd.slots.any fun i => vRead s.rd f.a i != 0))

/-- VOTE.all (R162). -/
def execVoteAll (f : VoteF) (s : State) : Out :=
  .next (predOut s .valu (s.w.width / 32) f.p.toNat (s.rd.slots.all fun i => vRead s.rd f.a i != 0))

/-- VOTE.uni (R162). -/
def execVoteUni (f : VoteF) (s : State) : Out :=
  .next (predOut s .valu (s.w.width / 32) f.p.toNat
    (s.rd.slots.all fun i => s.rd.slots.all fun j => vRead s.rd f.a i == vRead s.rd f.a j))

/-- PPOP (R163): the bits counted in the EXEC slots below. -/
def execPpop (f : RBin) (s : State) : Out :=
  .next (vecOut s .valu f.d fun i =>
    bRead s f.b f.x i +
      ((s.rd.slots.filter fun t => decide (t < i)).foldl (fun n t => n + popcW (vRead s.rd f.a t)) 0))

/-! ### Intersection -/

/-- The lowest set bit of a word, 0 for 0 (R165). -/
def lowBit (m : Word) : Nat := ((List.range 32).find? fun i => m.getLsbD i).getD 0

/-- The count word (R164). -/
def countWord (adva advb ncom first : Nat) : Word :=
  BitVec.ofNat 32 (adva + advb * 2 ^ 8 + ncom * 2 ^ 16 + first * 2 ^ 24 + bitOf (decide (ncom = 0)) * 2 ^ 31)

/-- ISECT.bits (R165). -/
def execIsectBits (f : RBin) (s : State) : Out :=
  .next (vecOut64 s .valu f.d fun i =>
    let a := vRead s.rd f.a i
    let b := bRead s f.b f.x i
    pair64 (a &&& b)
      (countWord (popcW a).toNat (popcW b).toNat (popcW (a &&& b)).toNat (lowBit (a &&& b))))

/-- The slot that holds a first-list element in the second list, lowest first (R166). -/
def isectHit (s : State) (f : RBin) (i : Nat) : Option Nat :=
  s.rd.slots.find? fun t => bRead s f.b f.x t == vRead s.rd f.a i

/-- The count word of ISECT.list (R166). -/
def isectCount (s : State) (f : RBin) : Word :=
  let sl := s.rd.slots
  let a := fun t => (vRead s.rd f.a t).toNat
  let b := fun t => (bRead s f.b f.x t).toNat
  let lim := min (sl.foldl (fun m t => max m (a t)) 0) (sl.foldl (fun m t => max m (b t)) 0)
  let hits := sl.filter fun i => (isectHit s f i).isSome
  countWord (sl.filter fun t => decide (a t ≤ lim)).length (sl.filter fun t => decide (b t ≤ lim)).length hits.length
    (hits.headD 0)

/-- ISECT.list (R166). -/
def execIsectList (f : RBin) (s : State) : Out :=
  let c := isectCount s f
  .next (vecOut64 s .valu f.d fun i =>
    pair64 (match isectHit s f i with | some t => BitVec.ofNat 32 t | none => 0xFFFFFFFF) c)

/-! ### Reduction over the canonical tree (R167, R168) -/

/-- One level of the tree: pairs of neighbours joined, with the flags of the nodes. -/
def treeLevel (node : Nat → Nat → Nat × Nat) : List Nat → List Nat × Nat
  | a :: b :: t =>
    let r := node a b
    let rest := treeLevel node t
    (r.1 :: rest.1, r.2 ||| rest.2)
  | l => (l, 0)

/-- The root of a tree of `k` levels. -/
def treeRoot (node : Nat → Nat → Nat × Nat) : Nat → List Nat → Nat → Nat × Nat
  | 0, xs, fl => (xs.headD 0, fl)
  | k + 1, xs, fl => treeRoot node k (treeLevel node xs).1 (fl ||| (treeLevel node xs).2)

/-- WRED over the wave's slots: the leaves are A in EXEC and `ident` outside (R168). -/
def wredRoot (s : State) (node : Nat → Nat → Nat × Nat) (ident : Nat) (a : Nat → Nat) : Nat × Nat :=
  treeRoot node (Nat.log2 s.w.width)
    ((List.range s.w.width).map fun i => if s.rd.exec.getLsbD i then a i else ident) 0

/-- A wave result written to s registers by a word on VALU (R168). -/
def wredOut (s : State) (d : BitVec 7) (vs : List Word) (fl : Nat) : State :=
  ((occupy { s with w := addMarks (sSetRun s.w d.toNat vs) (sMarks s.w d.toNat vs.length none) } .valu
    (s.w.width / 32)).done).raiseFlags fl

/-- A float reduction: packed elements are two trees (R168). -/
def wredFloat (s : State) (f : FUn) (node : Nat → Nat → Nat × Nat) (ident : Nat) : State :=
  let fm := fmtT f.t
  let a := fun i => fpRead s.rd fm f.a i
  if fm.packed then
    let r0 := wredRoot s node ident fun i => a i % 65536
    let r1 := wredRoot s node ident fun i => a i / 65536
    markFpsr (wredOut s f.d [BitVec.ofNat 32 (r0.1 + 65536 * r1.1)] (r0.2 ||| r1.2))
  else
    let r := wredRoot s node ident a
    let v : DWord := BitVec.ofNat 64 r.1
    markFpsr (wredOut s f.d (if fm = .f64 then [lo32 v, hi32 v] else [lo32 v]) r.2)

/-- WRED.add on float types (R168). -/
def execWredAdd (f : FUn) (s : State) : Out :=
  .next (wredFloat s f (fun a b => faddV (fmtT f.t) .rne (fdecode (fmtT f.t) a) (fdecode (fmtT f.t) b)) 0)

/-- WRED.min on float types (R168). -/
def execWredMin (f : FUn) (s : State) : Out :=
  .next (wredFloat s f (fminmax (fmtT f.t) false) (fmtT f.t).infCode)

/-- WRED.max on float types (R168). -/
def execWredMax (f : FUn) (s : State) : Out :=
  .next (wredFloat s f (fminmax (fmtT f.t) true) ((fmtT f.t).signed true (fmtT f.t).infCode))

/-- An integer reduction on 32-bit words. -/
def wredWord (s : State) (f : RUn) (g : Word → Word → Word) (ident : Word) : State :=
  let r := wredRoot s (fun a b => ((g (BitVec.ofNat 32 a) (BitVec.ofNat 32 b)).toNat, 0)) ident.toNat
    fun i => (vRead s.rd f.a i).toNat
  wredOut s f.d [BitVec.ofNat 32 r.1] 0

/-- WRED.add.i32 (R168). -/
def execWredAddI32 (f : RUn) (s : State) : Out := .next (wredWord s f (fun a b => a + b) 0)

/-- WRED.add.i64 (R168). -/
def execWredAddI64 (f : RUn) (s : State) : Out :=
  let r := wredRoot s (fun a b => ((BitVec.ofNat 64 a + BitVec.ofNat 64 b : DWord).toNat, 0)) 0
    fun i => (vRead64 s.rd f.a i).toNat
  .next (wredOut s f.d [lo32 (BitVec.ofNat 64 r.1), hi32 (BitVec.ofNat 64 r.1)] 0)

/-- WRED.and.b32 (R168). -/
def execWredAndB32 (f : RUn) (s : State) : Out := .next (wredWord s f (fun a b => a &&& b) 0xFFFFFFFF)

/-- WRED.or.b32 (R168). -/
def execWredOrB32 (f : RUn) (s : State) : Out := .next (wredWord s f (fun a b => a ||| b) 0)

/-- WRED.min.i32 (R168). -/
def execWredMinI32 (f : RUn) (s : State) : Out := .next (wredWord s f minS 0x7FFFFFFF)

/-- WRED.max.i32 (R168). -/
def execWredMaxI32 (f : RUn) (s : State) : Out := .next (wredWord s f maxS 0x80000000)

/-- WRED.min.n32 (R168). -/
def execWredMinN32 (f : RUn) (s : State) : Out := .next (wredWord s f minU 0xFFFFFFFF)

/-- WRED.max.n32 (R168). -/
def execWredMaxN32 (f : RUn) (s : State) : Out := .next (wredWord s f maxU 0)

end Sys2Proof.Machine
end

