-- ==== Sys2Proof/Machine/Memory.lean ====
section
/-!
DEFINITION. The memory instructions (R200 to R226, R238 to R244): LD, ST, LDS, STS, LDL, STL, LDW, ATOM, CAS, POLL, PREF,
CWB, CINV, FENCE.
-/
namespace Sys2Proof.Machine

/-- A per-thread pointer pair (R46). -/
def ptrV (w : Wave) (a : BitVec 7) (i : Nat) : DWord := vRead64 w a i

/-- The aperture pointer of a scratchpad address (R200, R369). -/
def aperture (a : Word) : DWord := BitVec.ofNat 64 (0xFF * 2 ^ 56 + a.toNat)

/-- The size of a load code (R61): n8, i8, n16, i16, b32, b64, b128; and whether it is signed. -/
def ldSize (z : Nat) : Nat × Bool :=
  match z with
  | 0 => (1, false) | 1 => (1, true) | 2 => (2, false) | 3 => (2, true) | 4 => (4, false) | 5 => (8, false) | _ => (16, false)

/-- The size of a store code (R61). -/
def stSize (z : Nat) : Nat :=
  match z with
  | 0 => 1 | 1 => 2 | 2 => 4 | 3 => 8 | _ => 16

/-- The bytes of D that a store writes (R216). The upper half of a 16-byte store from a constant is free: the spec gives
constants 64 bits (R39; log 12). -/
def stBytes (s : State) (d : BitVec 7) (n i : Nat) : List Byte :=
  if n ≤ 4 then leBytes (vRead s.rd d i).toNat n
  else if n = 8 then leBytes (vRead64 s.rd d i).toNat 8
  else if 0x70 ≤ d.toNat then
    leBytes (vRead64 s.rd d i).toNat 8 ++ wordBytes [Config.freeWord (2 * s.freeN), Config.freeWord (2 * s.freeN + 1)]
  else leBytes (vRead64 s.rd d i).toNat 8 ++ leBytes (vRead64 s.rd (d + 2) i).toNat 8

/-- What LD and LDS ask of memory. -/
def ldAsk (s : State) (f : MemZ) (aligned l1 : Bool) : MemW :=
  { kind := .load, fk := 0, ask := { n := (ldSize f.z.toNat).1, write := false, aligned := aligned, atom := none },
    dest := .thread f.d.toNat (ldSize f.z.toNat).1 (ldSize f.z.toNat).2, q := f.q.toNat, sc := f.sc.toNat,
    hint := f.h.toNat, l1 := l1, flag := flagSel s.w f.fs }

/-- What ST and STS ask of memory. -/
def stAsk (s : State) (f : MemZ) (aligned : Bool) : MemW :=
  { kind := .store, fk := 1, ask := { n := stSize f.z.toNat, write := true, aligned := aligned, atom := none },
    dest := .none, q := f.q.toNat, sc := f.sc.toNat, hint := f.h.toNat, l1 := false, flag := flagSel s.w f.fs }

/-- LD (R216): relaxed loads may be unaligned and may use the L1 (R214, R205). -/
def execLd (f : MemZ) (s : State) : Out :=
  .next (memWord s (ldAsk s f (decide (f.q.toNat = 1)) (decide (f.q.toNat = 0))) (ptrV s.rd f.a) (fun _ => []) 0)

/-- ST (R216). -/
def execSt (f : MemZ) (s : State) : Out :=
  .next (memWord { s with freeN := s.freeN + 1 } (stAsk s f (decide (f.q.toNat = 2))) (ptrV s.rd f.a)
    (stBytes s f.d (stSize f.z.toNat)) (stSize f.z.toNat))

/-- LDS (R217): a scratchpad address in one register. -/
def execLds (f : MemZ) (s : State) : Out :=
  .next (memWord s (ldAsk s f true false) (fun i => aperture (vRead s.rd f.a i)) (fun _ => []) 0)

/-- STS (R217). -/
def execSts (f : MemZ) (s : State) : Out :=
  .next (memWord { s with freeN := s.freeN + 1 } (stAsk s f true) (fun i => aperture (vRead s.rd f.a i))
    (stBytes s f.d (stSize f.z.toNat)) (stSize f.z.toNat))

/-- LDW (R215, R219): its address is formed in every pass, and it acts once for the wave, an access of every LIVE slot; its fault is taken in the lowest LIVE slot. -/
def execLdw (f : MemZ) (s : State) : Out :=
  let n := 4 * 2 ^ (f.z.toNat - 2)
  let m : MemW :=
    { kind := .load, fk := 4, ask := { n := n, write := false, aligned := true, atom := none },
      dest := .wave f.d.toNat n, q := f.q.toNat, sc := f.sc.toNat, hint := f.h.toNat,
      l1 := decide (f.q.toNat = 0), flag := flagSel s.w f.fs }
  let low := lowestSlot s.rd.live s.w.width
  let k := low.getD 0
  let ptr := fun (_ : Nat) => if s.rd.replay then tget s.rd.frame.cap.addr k else sReg64 s.rd f.a.toNat
  let (s1, accs, fails) := memSlots m ptr (fun _ => []) (fun i => i % 32) (fun _ => 128) s.rd [k] s
  .next (if fails.isEmpty then (occupy (queueOp s1 m accs) .vmem (s.w.width / 32)).done
    else raise (capture s1 ptr (fun _ => []) (fun _ => []) [k])
      (memTrap s m ptr fails (match low with | some i => slotMask i | none => 0)))

/-- An atomic or CAS (R220 to R223): always aligned, its form for the checks. `k` is the form's number. -/
def atomWord (s : State) (f : MemF) (kind : MKind) (k n dlen : Nat) (data : Nat → List Byte) : State :=
  memWord s
    { kind := kind, fk := 2, ask := { n := n, write := true, aligned := true, atom := some (k, f.sc.toNat) },
      dest := .thread f.d.toNat n false, q := f.q.toNat, sc := f.sc.toNat, hint := f.h.toNat, l1 := false,
      flag := flagSel s.w f.fs } (ptrV s.rd f.a) data dlen

/-- A 4-byte atomic whose operand is D. -/
def atom32 (s : State) (f : MemF) (k : Nat) : State :=
  atomWord s f (.atom k) k 4 4 fun i => leBytes (vRead s.rd f.d i).toNat 4

/-- An 8-byte atomic whose operand is the pair D. -/
def atom64 (s : State) (f : MemF) (k : Nat) : State :=
  atomWord s f (.atom k) k 8 8 fun i => leBytes (vRead64 s.rd f.d i).toNat 8

/-- ATOM.add.i32 (R220). -/
def execAtomAddI32 (f : MemF) (s : State) : Out := .next (atom32 s f 0)

/-- ATOM.add.i64 (R220). -/
def execAtomAddI64 (f : MemF) (s : State) : Out := .next (atom64 s f 1)

/-- ATOM.add.f32 (R220). -/
def execAtomAddF32 (f : MemF) (s : State) : Out := .next (atom32 s f 2)

/-- ATOM.add.f64 (R220). -/
def execAtomAddF64 (f : MemF) (s : State) : Out := .next (atom64 s f 3)

/-- ATOM.min.i32 (R220). -/
def execAtomMinI32 (f : MemF) (s : State) : Out := .next (atom32 s f 4)

/-- ATOM.max.i32 (R220). -/
def execAtomMaxI32 (f : MemF) (s : State) : Out := .next (atom32 s f 5)

/-- ATOM.min.n32 (R220). -/
def execAtomMinN32 (f : MemF) (s : State) : Out := .next (atom32 s f 6)

/-- ATOM.max.n32 (R220). -/
def execAtomMaxN32 (f : MemF) (s : State) : Out := .next (atom32 s f 7)

/-- ATOM.and.b32 (R220). -/
def execAtomAndB32 (f : MemF) (s : State) : Out := .next (atom32 s f 8)

/-- ATOM.or.b32 (R220). -/
def execAtomOrB32 (f : MemF) (s : State) : Out := .next (atom32 s f 9)

/-- ATOM.xor.b32 (R220). -/
def execAtomXorB32 (f : MemF) (s : State) : Out := .next (atom32 s f 10)

/-- ATOM.exch.b32 (R220). -/
def execAtomExchB32 (f : MemF) (s : State) : Out := .next (atom32 s f 11)

/-- ATOM.exch.b64 (R220). -/
def execAtomExchB64 (f : MemF) (s : State) : Out := .next (atom64 s f 12)

/-- CAS.b32 (R223): comparand D, new value D+1. -/
def execCasB32 (f : MemF) (s : State) : Out :=
  .next (atomWord s f .cas 13 4 8 fun i =>
    leBytes (vRead s.rd f.d i).toNat 4 ++ leBytes (vRead s.rd (f.d + 1) i).toNat 4)

/-- CAS.b64 (R223): comparand D:D+1, new value D+2:D+3. -/
def execCasB64 (f : MemF) (s : State) : Out :=
  .next (atomWord s f .cas 14 8 16 fun i =>
    leBytes (vRead64 s.rd f.d i).toNat 8 ++ leBytes (vRead64 s.rd (f.d + 2) i).toNat 8)

/-- POLL (R224): each slot waits until its word differs from D. -/
def execPoll (f : MemF) (s : State) : Out :=
  .next (memWord s
    { kind := .poll, fk := 0, ask := { n := 4, write := false, aligned := true, atom := none },
      dest := .thread f.d.toNat 4 false, q := f.q.toNat, sc := f.sc.toNat, hint := f.h.toNat, l1 := false,
      flag := flagSel s.w f.fs } (ptrV s.rd f.a) (fun i => leBytes (vRead s.rd f.d i).toNat 4) 4)

/-- PREF (R225): slots whose checks fail do nothing. -/
def execPref (f : PrefF) (s : State) : Out :=
  let m : MemW :=
    { kind := .pref, fk := 6, ask := { n := 1, write := false, aligned := false, atom := none, peers := false }, dest := .none, q := 0,
      sc := 0, hint := f.h.toNat, l1 := false, flag := none }
  let (s1, accs, _) := memSlots m (ptrV s.rd f.a) (fun _ => []) (fun i => i % 32) id s.rd s.rd.slots s
  .next (occupy (queueOp s1 m accs) .vmem (s.w.width / 32)).done

/-- CWB and CINV ask for an address without the write check (R226). -/
def lineAsk (s : State) (f : CacheF) (kind : MKind) : MemW :=
  { kind := kind, fk := 6, ask := { n := 1, write := false, aligned := false, atom := none, peers := false }, dest := .none, q := 0,
    sc := f.sc.toNat, hint := 0, l1 := false, flag := flagSel s.w f.fs }

/-- CWB (R226). -/
def execCwb (f : CacheF) (s : State) : Out :=
  .next (memWord s (lineAsk s f .cwb) (ptrV s.rd f.a) (fun _ => []) 0)

/-- CINV (R226). -/
def execCinv (f : CacheF) (s : State) : Out :=
  .next (memWord s (lineAsk s f .cinv) (ptrV s.rd f.a) (fun _ => []) 0)

/-- FENCE (R239): later VMEM and XENG words of the wave wait until its condition holds. Reads issued after a FENCE.sc at system scope
are never served by forwarding (R244). -/
def execFence (f : FenceF) (s : State) : Out :=
  .next (({ s with
    fences := s.fences ++ [{ wave := s.w.uid, kind := f.q.toNat, sc := f.sc.toNat, seq := s.nextOp }],
    nextOp := s.nextOp + 1 } : State).modW fun w => { w with scSys := w.scSys || (f.q.toNat = 0 && f.sc.toNat = 4) }).done

/-! ### Layout-addressed elements (R218) -/

/-- A wave's layout register. -/
def layOf (w : Wave) (n : Nat) : Layout := w.lays.getD n Layout.empty

/-- The handle entry that a layout names in the wave's context (R169, R173). -/
def handleOf (s : State) (ctx : Nat) (l : Layout) : BitVec 256 :=
  match s.ctxOf ctx with
  | some c => tget c.handles l.hidx
  | none => 0

/-- The registers of a wave from v(base) on, in bytes over all slots (R178). -/
def wavBytes (w : Wave) (base : Nat) : Nat := 4 * w.width * (w.nregs - base)

/-- A pair validated at a port for a wave of the machine (R190). -/
def portOf (s : State) (w : Wave) (l : Layout) (port : Nat) (writes : Bool) (steps : Option Nat) : Verdict :=
  portCheck (hasTrestle s.part) (wavBytes w) l (handleOf s w.ctx l) port writes steps

/-- TRCOST and BCD written (R198). -/
def setCost (s : State) (v : Verdict) : State :=
  s.modW fun w => { w with trcost := v.trcost, bcd := BitVec.ofNat 32 v.bcd }

/-- The byte of memory that an element's place names, as a global or aperture pointer, for the spaces of the lane load
units (R178). -/
def elemPtr (w : Wave) (h : BitVec 256) (die b : Nat) : DWord :=
  match hSpace h with
  | 1 => BitVec.ofNat 64 (0xFF * 2 ^ 56 + hfld h 0 19 + b)
  | 2 => BitVec.ofNat 64 (0xFF * 2 ^ 56 + (if coreOf w.quad % 4 = hfld h 20 2 then 0 else 2 ^ 22 + hfld h 20 2 * 2 ^ 20) + hfld h 0 19 + b)
  | 4 => BitVec.ofNat 64 (hBase h + die * 2 ^ hDshift h + b)
  | _ => BitVec.ofNat 64 (hBase h + b)

/-- What an LDL or STL finds for a slot: a pointer, an element outside BOUND, or a layout cause. -/
inductive Elem where
  | ptr (p : DWord)
  | oob
  | fault (cause : Nat)
deriving DecidableEq, Repr

/-- The element of a slot (R176, R218). -/
def elemOf (w : Wave) (l : Layout) (h : BitVec 256) (c : List Word) : Elem :=
  match layoutLocate l h (c.map fun x => x.toNat) with
  | .at die b _ _ => .ptr (elemPtr w h die b)
  | .oob => .oob
  | .fault k => .fault k

/-- The bank-conflict degree of the lane load units over the slots that reach an element: those of one pass (R199). -/
def laneDegree (w : Wave) (slots : List Nat) (l : Layout) (h : BitVec 256) (c : Nat → List Word) : Nat :=
  if reachesBanks h then
    (List.range (w.width / 32)).foldl (fun d p =>
      max d (bankDegree ((slots.filter fun i => i / 32 == p).flatMap fun i =>
        elemWords l h ((c i).map fun x => x.toNat)))) 0
  else 0

/-- A format whose narrow integers are sign-extended in a register (R137). -/
def fmtSigned (fmt : Nat) : Bool := fmt = 8 || fmt = 9

/-- LDL or STL (R218). The pair is validated at port 4; each slot evaluates its own element; an element outside BOUND
under OOBZ reads as +0 and is not written; failing slots fault alone, with layout or memory causes. -/
def lelWord (s : State) (f : LelF) (store : Bool) : State :=
  let w := s.rd
  let l := layOf w f.l.toNat
  let h := handleOf s w.ctx l
  let nm := l.modes.length
  let pair := decide (size2 (hFmt h) = 16) && !l.modes.isEmpty && hV h
  if decide (!f.x && (f.a.toNat < 0x60) && (w.nregs < f.a.toNat + nm)) ||
      pair && decide (f.d.toNat < 0x60) && decide (w.nregs < f.d.toNat + 2) then trapNow s 1 0x08
  else if pair && decide (f.d.toNat % 2 = 1) then trapNow s 1 0x0A
  else
    let v := portOf s w l 4 store none
    if v.verd = 2 then raise (setCost s v) (mkTrap s 8 v.cause 3)
    else
      let coord0 := fun i => (List.range nm).map fun k =>
        if f.x then sRead s.clk w (f.a + BitVec.ofNat 7 k) else vRead w (f.a + BitVec.ofNat 7 k) i
      let cap := w.frame.cap
      let coord := fun i => if w.replay then tgetRun cap.coord (i * 8) nm else coord0 i
      let n := esize (hFmt h)
      let data := fun i => if w.replay then capBytes cap i n
        else if store then (if n = 8 then leBytes (vRead64 w f.d i).toNat 8 else leBytes (vRead w f.d i).toNat n) else []
      let s0 := setCost s { v with bcd := laneDegree w w.slots l h coord }
      let m : MemW :=
        { kind := if store then .store else .load, fk := 3,
          ask := { n := n, write := store, aligned := false, atom := none, direct := hSpace h = 1 || hSpace h = 2 },
          dest := if store then .none else .thread f.d.toNat n (fmtSigned (hFmt h)), q := 0, sc := 0, hint := f.h.toNat,
          l1 := !store, flag := flagSel s.w f.fs }
      let elem := fun i => elemOf w l h (coord i)
      let ptr := fun i => match elem i with | .ptr p => p | _ => 0
      let isPtr := fun i => match elem i with | .ptr _ => true | _ => false
      let (sm, accs, fails) := memSlots m ptr data (fun i => i % 32) id w (w.slots.filter isPtr) s0
      let s1 := if fails.isEmpty then sm
        else setCost sm { v with bcd := laneDegree w (w.slots.filter fun i => fails.all fun x => x.1 != i) l h coord }
      let zeros := if store then [] else (w.slots.filter fun i => elem i == .oob).map fun i =>
        ({ slot := i, loc := .scr 0 0, va := 0, size := n, voff := 0, kind := 2, data := [],
           got := List.replicate n 0, done := true, acked := true } : Acc)
      let bad := w.slots.filterMap fun i => match elem i with | .fault c => some (i, c) | _ => none
      let s2 := if accs.isEmpty && zeros.isEmpty && !(fails.isEmpty && bad.isEmpty) then s1 else queueOp s1 m (accs ++ zeros)
      if fails.isEmpty && bad.isEmpty then (occupy s2 .vmem (s.w.width / 32)).done
      else
        let slots := w.slots.filter fun i => fails.any (fun x => x.1 == i) || bad.any (fun x => x.1 == i)
        let t := memTrap s m ptr fails (maskOfSlots slots)
        let lf := bad.map fun x => ({ slot := x.1, cause := fcause 8 x.2 3 false 0 0, va := 0 } : SlotFault)
        let fs := slots.filterMap fun i => (t.faults ++ lf).find? fun g => g.slot == i
        raise (capture s2 ptr coord data slots) { t with cls := if fails.isEmpty then 8 else 7, faults := fs }

/-- LDL (R218). -/
def execLdl (f : LelF) (s : State) : Out := .next (lelWord s f false)

/-- STL (R218). -/
def execStl (f : LelF) (s : State) : Out := .next (lelWord s f true)

/-! ### The events of memory -/

/-- MEMORY_REQUEST_APPLY: the request led by access `slot` (its place in the operation) reaches the point that serves it (R215,
R243). -/
def execMemoryRequestApply (op slot : Nat) (s : State) : Out :=
  .next (match s.memOps.find? fun o => o.id == op with
    | some o => if mayApply s o slot then applyRequest s o slot else s
    | none => s)

/-- MEMORY_RESPONSE: every destination of the operation is written, its flag falls (R215). A POLL gives the wave its issue
priority back (R224). -/
def execMemoryResponse (op : Nat) (s : State) : Out :=
  .next (match s.memOps.find? fun o => o.id == op with
    | some o =>
      if !o.kind.isStore && opReady s o then
        (retireOp s o).modAny o.wave fun w =>
          let w1 := writeDest o w
          if o.kind = .poll then { w1 with polls := 0 } else w1
      else s
    | none => s)

/-- STORE_ACK: every piece of a store is acknowledged; its entries are free and its flag falls (R215). -/
def execStoreAck (op : Nat) (s : State) : Out :=
  .next (match s.memOps.find? fun o => o.id == op with
    | some o => if o.kind.isStore && opReady s o then retireOp s o else s
    | none => s)

/-- A POLL whose pending slots have all been read in this round (R224). -/
def pollRound (o : MemOp) : Bool :=
  o.kind = .poll && !o.unsent && o.accs.all (fun a => a.done || a.acked) && o.accs.any fun a => !a.done

/-- POLL_REREAD: the next round of a POLL begins; the wave's issue priority has fallen by one step (R224); its
place in the order stays (log 39). -/
def execPollReread (op : Nat) (s : State) : Out :=
  .next (match s.memOps.find? fun o => o.id == op with
    | some o =>
      if pollRound o then
        ({ s with memOps := s.memOps.map fun x =>
             if x.id = op then { x with backoff := x.backoff + 1, accs := x.accs.map fun a => { a with acked := false } }
             else x } : State).modWave o.wave fun w => { w with polls := w.polls + 1 }
      else s
    | none => s)

/-- L2_FILL: the missed sectors of a line come from Shudor memory and are placed in their set, taking a victim if needed; a fill
that finds no room waits (R207 to R209). -/
def execL2Fill (pa : Nat) (s : State) : Out :=
  .next (match s.fills.find? fun f => f.pa == lineOf pa with
    | none => s
    | some f =>
      let s0 := { s with fills := s.fills.filter fun x => x != f }
      match l2Find s f.pa with
      | some l =>
        let l1 := { l with valid := l.valid ||| f.sectors, dirty := l.dirty ||| f.dirty, prio := max l.prio f.prio }
        l2Expand { s0 with l2 := l1 :: s.l2.filter fun x => x != l } l1
      | none =>
        (l2Place s0 { pa := f.pa, comp := false, prio := f.prio, valid := f.sectors, dirty := f.dirty, half := 0, inv := false,
                      token := none, grow := false }).getD s)

/-- WRITEBACK_ACK: the Shudor controller acknowledges a write-back, and its entry is free (R209). -/
def execWritebackAck (pa : Nat) (s : State) : Out :=
  .next (match findIdxFrom (fun p => p == lineOf pa) 0 s.wbacks with
    | some i => { s with wbacks := dropAt s.wbacks i }
    | none => s)

/-- A held write has a route to its target (R404, R408). -/
def heldRoute (s : State) (h : HeldWrite) : Bool :=
  match h.loc with
  | .imp ctx slot _ => routed s ctx slot
  | _ => true

/-- A held write may be performed: it has a route, and no earlier held write of its die has the same bytes (R229, R244, R404). -/
def heldFirst (s : State) (i : Nat) : Bool :=
  match s.held[i]? with
  | none => false
  | some h => heldRoute s h && (s.held.take i).all fun g => !(g.die == h.die && overlaps g.loc g.data.length h.loc h.data.length)

/-- HOST_WRITE_PERFORMED: a write held by a fabric port is performed at its target and acknowledged (R235, R244). -/
def execHostWritePerformed (idx : Nat) (s : State) : Out :=
  .next (match s.held[idx]? with
    | none => s
    | some h =>
      if heldFirst s idx then
        let s1 := { s with held := dropAt s.held idx,
                           mem := match h.loc with | .host pa => tsetRun s.mem pa h.data | _ => s.mem }
        modAcc s1 h.op h.acc fun a => { a with acked := true }
      else s)

/-- The events of memory that can happen now. -/
def memEvents (s : State) : List Act :=
  (s.memOps.flatMap fun o => ((List.range o.accs.length).filter (mayApply s o)).map fun i => execMemoryRequestApply o.id i) ++
    (s.memOps.filter fun o => !o.kind.isStore && opReady s o).map (fun o => execMemoryResponse o.id) ++
    (s.memOps.filter fun o => o.kind.isStore && opReady s o).map (fun o => execStoreAck o.id) ++
    (s.memOps.filter pollRound).map (fun o => execPollReread o.id) ++
    s.fills.map (fun f => execL2Fill f.pa) ++ s.wbacks.map execWritebackAck ++
    ((List.range s.held.length).filter (heldFirst s)).map execHostWritePerformed

end Sys2Proof.Machine
end

