-- ==== Sys2Proof/Machine/EngineOps.lean ====
section
/-!
DEFINITION. What the engines share (R245 to R278, R298 to R305): completion objects and rings as bytes of the scratchpad,
what an operation waits for, how it reaches its elements, and how it records faults.
-/
namespace Sys2Proof.Machine

/-! ### The wave of an operation -/

/-- Every access that the wave issued before `seq` has been performed (R245, R261, R316, R321); a POLL of a wave that has ended is not
waited for (R389). -/
def releaseMet (s : State) (uid seq : Nat) : Bool :=
  s.memOps.all fun o => o.wave != uid || decide (seq ≤ o.seq) || (o.accs.all fun a => a.complete o.kind) || pollOver s o

/-- Wave registers of the user bank written by an operation that ends (R370). -/
def sSetUser (w : Wave) (n : Nat) (vs : List Word) : Wave := inBank false (fun w => sSetRun w n vs) w

/-! ### Scratchpad positions -/

/-- A scratchpad address of the issuing wave, as a core and an absolute byte of its scratchpad (R201). -/
def absPlace (s : State) (w : Wave) (a n : Nat) : Option (Nat × Nat) :=
  match scratchPlace s w a n with
  | .error _ => none
  | .ok (core, off) => (s.resvOf w.launch core).map fun r => (core, r.base + off)

/-- The reservation that holds an absolute byte of a core's scratchpad. -/
def resvAt (s : State) (core a : Nat) : Option Resv :=
  s.resvs.find? fun r => r.core == core && decide (r.base ≤ a) && decide (a < r.base + r.size)

/-- Sixteen bytes at an absolute position as a number. -/
def posRead (s : State) (core a : Nat) : Nat :=
  match resvAt s core a with
  | some r => leNat (tgetRun r.mem (a - r.base) 16)
  | none => 0

/-- Sixteen bytes at an absolute position written. -/
def posWrite (s : State) (core a v : Nat) : State :=
  match resvAt s core a with
  | some r => s.modResv r.launch core fun x => { x with mem := tsetRun x.mem (a - r.base) (leBytes v 16) }
  | none => s

/-- An initialised object stands at a position (R257, R260). -/
def isObject (s : State) (core a : Nat) : Bool :=
  match resvAt s core a with
  | some r => r.objs.contains (a - r.base)
  | none => false

/-- An initialised ring stands at a position (R271). -/
def isRing (s : State) (core a : Nat) : Bool :=
  match resvAt s core a with
  | some r => r.rings.contains (a - r.base)
  | none => false

/-! ### Completion objects (R257, R259) -/

/-- The fields of a completion object. -/
structure Obj where
  stale : Nat
  stl : Bool
  ep : Bool
  lstat : Nat
  stat : Nat
  phase : Nat
  exp : Nat
  arr : Int
  bal : Int
deriving DecidableEq, Repr

/-- An object read from its 16 bytes (R257). -/
def objOf (v : Nat) : Obj :=
  { stale := nbits v 104 16, stl := decide (nbits v 97 1 = 1), ep := decide (nbits v 96 1 = 1), lstat := nbits v 88 8,
    stat := nbits v 80 7, phase := nbits v 64 16, exp := nbits v 48 16, arr := sextNat (nbits v 32 16) 16,
    bal := sextNat (nbits v 0 32) 32 }

/-- An object as its 16 bytes (R257). -/
def Obj.num (o : Obj) : Nat :=
  (BitVec.ofInt 32 o.bal).toNat + (BitVec.ofInt 16 o.arr).toNat * 2 ^ 32 + o.exp % 2 ^ 16 * 2 ^ 48 + o.phase % 2 ^ 16 * 2 ^ 64 +
    o.stat % 2 ^ 7 * 2 ^ 80 + o.lstat % 2 ^ 8 * 2 ^ 88 + bitOf o.ep * 2 ^ 96 + bitOf o.stl * 2 ^ 97 + o.stale % 2 ^ 16 * 2 ^ 104

/-- The end of a phase (R259). -/
def Obj.finish (o : Obj) (ovf : Bool) : Obj :=
  { o with lstat := o.stat + bitOf ovf * 2 ^ 7, phase := (o.phase + 1) % 65536, bal := 0, arr := o.exp, ep := false, stat := 0 }

/-- ARR falls by one; it saturates (R257). -/
def Obj.less (o : Obj) : Int := max (o.arr - 1) (-32768)

/-- One operation applied to an object (R259, R260). -/
def Obj.apply (o : Obj) : ObjKind → Obj
  | .coinit e _ => { o with phase := (o.phase + 1) % 65536, arr := e, exp := e, bal := 0, ep := false, stat := 0 }
  | .expect n => { o with bal := o.bal + n, ep := true }
  | .arrive n => { o with bal := o.bal - n, arr := o.less }
  | .drop => if 0 < o.exp then { o with exp := o.exp - 1, arr := o.less } else { o with stat := o.stat ||| 64 }
  | .engArrive n tag st =>
    if tag ≠ o.phase then { o with stale := min (o.stale + 1) 65535, stl := true }
    else { o with bal := o.bal - n, arr := o.less, stat := o.stat ||| st }
  | _ => o

/-- Completion tested once, after the operations of a clk (R259). -/
def Obj.test (o : Obj) : Obj :=
  if o.ep && (decide (o.bal < 0) || decide (o.arr < 0)) then o.finish true
  else if o.ep && decide (o.bal = 0) && decide (o.arr = 0) then o.finish false
  else o

/-! ### Rings (R271 to R273) -/

/-- The fields of a ring descriptor. -/
structure RingD where
  feed : Nat
  inuse : Nat
  filled : Nat
  free : Nat
  reti : Nat
  cons : Nat
  prod : Nat
  nslot : Nat
  ssize : Nat
  sbase : Nat
deriving DecidableEq, Repr

/-- A descriptor read from its 16 bytes (R271). -/
def ringOf (v : Nat) : RingD :=
  { feed := nbits v 124 3, inuse := nbits v 114 9, filled := nbits v 105 9, free := nbits v 96 9, reti := nbits v 80 8,
    cons := nbits v 72 8, prod := nbits v 64 8, nslot := nbits v 48 16, ssize := nbits v 32 16, sbase := nbits v 0 19 }

/-- A descriptor as its 16 bytes (R271). -/
def RingD.num (r : RingD) : Nat :=
  r.sbase % 2 ^ 19 + r.ssize % 2 ^ 16 * 2 ^ 32 + r.nslot % 2 ^ 16 * 2 ^ 48 + r.prod % 2 ^ 8 * 2 ^ 64 + r.cons % 2 ^ 8 * 2 ^ 72 +
    r.reti % 2 ^ 8 * 2 ^ 80 + r.free % 2 ^ 9 * 2 ^ 96 + r.filled % 2 ^ 9 * 2 ^ 105 + r.inuse % 2 ^ 9 * 2 ^ 114 +
    r.feed % 2 ^ 3 * 2 ^ 124

/-- Slots reserved by producers (R271). -/
def RingD.reserved (r : RingD) : Nat := r.nslot - r.free - r.filled - r.inuse

/-- A producer reserves slot PROD (R273). -/
def RingD.reserve (r : RingD) : RingD := { r with prod := (r.prod + 1) % r.nslot, free := r.free - 1 }

/-- The next slot in reservation order becomes filled (R273). -/
def RingD.fill (r : RingD) : RingD := { r with filled := r.filled + 1 }

/-- The slot that is next to be filled. -/
def RingD.nextFill (r : RingD) : Nat := (r.cons + r.filled) % r.nslot

/-- A slot is taken (R272, R292). -/
def RingD.take (r : RingD) : RingD :=
  { r with cons := (r.cons + 1) % r.nslot, filled := r.filled - 1, inuse := r.inuse + 1 }

/-- A slot is freed; with INUSE = 0 nothing happens (R272). -/
def RingD.release (r : RingD) : RingD :=
  if r.inuse = 0 then r else { r with reti := (r.reti + 1) % r.nslot, inuse := r.inuse - 1, free := r.free + 1 }

/-! ### Reaching the elements of a handle (R170, R178, R275) -/

/-- Why a piece is not done: a recorded fault with its class, code and pointer (R276), a wait for a frame, or a home slice that
does not take it in this clk. -/
inductive EFail where
  | flt (cls code : Nat) (va : DWord)
  | wait
  | busy
deriving DecidableEq, Repr

/-- Where bytes lie for an operation: registers of its wave, or pieces: offset, length, place, page kind. -/
inductive EPlace where
  | regs (base b : Nat)
  | pieces (l : List (Nat × Nat × Loc × Nat))
deriving DecidableEq, Repr

/-- Eight bytes of a page table written at their home slice. -/
def pteWrite (s : State) (pa : Nat) (e : DWord) : State :=
  if memLimit s.part < pa + 8 then s else l2Soft { s with mem := tsetRun s.mem pa (leBytes e.toNat 8) } pa 1 true false

/-- The rank of an operation's requests at a home slice: the matrix unit's are its quadrant's (R243). -/
def EngOp.rank (op : EngOp) : Nat :=
  match op.kind with
  | .mlda => op.quad + 1
  | .msta => op.quad + 1
  | .mloop => op.quad + 1
  | _ => engRank op.engine

/-- A walk for an operation, its entries read in the order of their slices' clk (R243): a first-touch page takes a frame of the
context's pool (R275). -/
def engWalk (s0 : State) (op : EngOp) (c : Ctx) (va : Nat) (ptr : DWord) : State × Except EFail (DWord × Nat) :=
  let s := softReads s0 op.rank (walkPas s0 c va)
  if lateRead s then (dropLate s, .error .busy)
  else match walk s c va with
    | .leaf e _ size => (s, .ok (e, size))
    | .fail code _ false => ({ s with reports := s.reports ++ walkErrors s c va }, .error (.flt 1 code ptr))
    | .fail _ _ true => match c.pool, pteAt s va 3 0 c.ptroot.toNat with
      | t :: rest, some pa =>
        (pteWrite (s.modCtx c.num fun x => { x with pool := rest }) pa (t + 3), .ok (t + 3, 65536))
      | [], _ => (s, .error .wait)
      | _, none => (s, .error (.flt 1 3 ptr))

/-- A peer package's answer to an access of an operation (R403): the memory cause with which it refuses. Without a route nobody answers
(R404, R408). -/
def engPeer (s : State) (op : EngOp) (slot : Nat) (write : Bool) : State × Option Nat :=
  if !routed s op.ctx slot then (s, none)
  else
    let ans := Config.peerAnswer s.freeN
    ({ s with freeN := s.freeN + 1 }, if ans = 1 then some 2 else if ans = 2 ∧ write = true then some 4 else none)

/-- The pieces of a run translated in order. -/
def engPieces (s : State) (op : EngOp) (c : Ctx) (ptr : DWord) (write : Bool) :
    List (Nat × Nat) → State × Except EFail (List (Nat × Nat × Loc × Nat))
  | [] => (s, .ok [])
  | (off, len) :: rest =>
    let p := ptr + BitVec.ofNat 64 off
    let (s1, r) := engWalk s op c (ptr.toNat % 2 ^ 49 + off) p
    match r with
    | .error f => (s1, .error f)
    | .ok (e, size) => match leafPlace s1 c.num e (ptr.toNat % 2 ^ 49 + off) size with
      | .error f => (s1, .error (.flt 1 f.code p))
      | .ok loc =>
        if write && !e.getLsbD 1 then (s1, .error (.flt 1 4 p))
        else if write && op.token.isSome && (decide (leafKind e = 1) || (match loc with | .dev _ _ => false | _ => true)) then
          (s1, .error (.flt 1 8 p))
        else match (match loc with | .imp _ slot _ => engPeer s1 op slot write | _ => (s1, none)) with
          | (s2, some code) => (s2, .error (.flt 1 code p))
          | (s2, none) =>
            let (s3, r2) := engPieces s2 op c ptr write rest
            (s3, r2.map fun l => (off, len, loc, leafKind e) :: l)

/-- A wave that stands for the operation in the address checks. -/
def EngOp.asWave (op : EngOp) : Wave :=
  { Wave.init with quad := op.quad, launch := op.launch, ctx := op.ctx, token := op.token }

/-- A core's scratchpad byte as an aperture pointer. -/
def engAperture (op : EngOp) (core off : Nat) : DWord :=
  BitVec.ofNat 64 (0xFF * 2 ^ 56 + (if core = op.core then 0 else 2 ^ 22 + core % 4 * 2 ^ 20) + off)

/-- Bytes of a launch's reservation on a core; none of a sync line is written (R204, R257, R275). -/
def engScr (s : State) (op : EngOp) (core off n : Nat) (write : Bool) : State × Except EFail EPlace :=
  match s.resvOf op.launch core with
  | none => (s, .error (.flt 1 6 (engAperture op core off)))
  | some r => if r.size < off + n then (s, .error (.flt 1 6 (engAperture op core off)))
    else if write && (List.range n).any (fun i => r.sync.contains ((off + i) / 64)) then (s, .error (.flt 1 7 (engAperture op core off)))
    else (s, .ok (.pieces [(0, n, .scr core off, 0)]))

/-- A pointer of an operation checked and translated (R202, R275): the run of `n` bytes in pieces. One into the aperture is aligned
(R214), and none of a sync line is written through it (R204, R257). -/
def engPtr (s : State) (op : EngOp) (ptr : DWord) (n : Nat) (write : Bool) :
    State × Except EFail (List (Nat × Nat × Loc × Nat)) :=
  let p := ptr.toNat
  if nbits p 56 8 = 0xFF then
    if nbits p 32 24 ≠ 0 then (s, .error (.flt 1 1 ptr))
    else match scratchPlace s op.asWave (nbits p 0 32) n with
      | .error f => (s, .error (.flt 1 f.code ptr))
      | .ok (core, off) =>
        if p % n ≠ 0 then (s, .error (.flt 1 5 ptr))
        else if write && (s.resvOf op.launch core).any fun r => (List.range n).any fun i => r.sync.contains ((off + i) / 64) then
          (s, .error (.flt 1 7 ptr))
        else (s, .ok [(0, n, .scr core off, 0)])
  else if nbits p 49 7 ≠ 0 then (s, .error (.flt 1 1 ptr))
  else match s.ctxOf op.ctx with
    | none => (s, .error (.flt 1 2 ptr))
    | some c =>
      if !regionOk c ptr n then (s, .error (.flt 1 2 ptr))
      else if write && !regionW c ptr then (s, .error (.flt 1 4 ptr))
      else engPieces s op c ptr write (pieceLens p n)

/-- Byte `b` of die `die` from a base of the handle's space, as a place (R170, R178). -/
def engAt (s : State) (op : EngOp) (h : BitVec 256) (base die b n : Nat) (write : Bool) : State × Except EFail EPlace :=
  match hSpace h with
  | 0 => (s, .ok (.regs base b))
  | 1 => engScr s op op.core (base % 2 ^ 19 + b) n write
  | 2 => engScr s op (op.core / 4 * 4 + nbits base 20 2) (base % 2 ^ 19 + b) n write
  | 5 =>
    let slot := nbits base 52 12
    let off := base % 2 ^ 48 + b
    let ptr := BitVec.ofNat 64 (slot * 2 ^ 52 + off)
    if !importValid s op.ctx slot then (s, .error (.flt 1 2 ptr))
    else match engPeer s op slot write with
      | (s1, some code) => (s1, .error (.flt 1 code ptr))
      | (s1, none) => (s1, .ok (.pieces [(0, n, .imp op.ctx slot off, 0)]))
  | 6 =>
    match s.resvOf op.launch op.ringCore with
    | some r =>
      let d := ringOf (posRead s op.ringCore (r.base + base % 2 ^ 19))
      engScr s op op.ringCore (d.sbase + op.slot.getD 0 * d.ssize + b) n write
    | none => (s, .error (.flt 1 6 0))
  | _ =>
    let (s1, r) := engPtr s op (BitVec.ofNat 64 (base + (if hSpace h = 4 then die * 2 ^ hDshift h else 0) + b)) n write
    (s1, r.map .pieces)

/-- A word of the wave's register-space run: register and slot of word `k` (R178). -/
def regWord (w : Wave) (base k : Nat) : Nat := (base + k / w.width) * 128 + k % w.width

/-- Bytes of the register space. -/
def regBytes (w : Wave) (base b n : Nat) : List Byte :=
  (List.range n).map fun i =>
    let x := tget w.v (regWord w base ((b + i) / 4))
    BitVec.ofNat 8 (x.toNat / 2 ^ (8 * ((b + i) % 4)))

/-- A byte of the register space written. -/
def regSet (w : Wave) (base b : Nat) (v : Byte) : Wave :=
  let k := regWord w base (b / 4)
  let x := (tget w.v k).toNat
  let sh := 2 ^ (8 * (b % 4))
  { w with v := tset w.v k (BitVec.ofNat 32 (x - x / sh % 256 * sh + v.toNat * sh)) }

/-- Bytes of the register space written in order. -/
def regSetRun (w : Wave) (base b : Nat) : List Byte → Wave
  | [] => w
  | v :: vs => regSetRun (regSet w base b v) base (b + 1) vs

/-- A home slice does not take a piece in this clk (R209, R243). -/
def pieceBusy (s : State) (op : EngOp) (loc : Loc) : Bool :=
  match loc with
  | .dev pa _ => !(missRoom s pa && inTurn s 0 (lineOf pa) op.rank)
  | _ => false

/-- A data error that an operation reads: a tile notes it at once (R275, R359). -/
def engDataError (s : State) (op : EngOp) : State :=
  match op.token with
  | some t => errTile s t
  | none => s

/-- Pieces read at the points that serve them (R245); a poisoned or unreachable one, or one that the host or a peer does not answer in
time (R404), is a data error at its pointer, `ptr` of its offset. -/
def readPieces (s : State) (op : EngOp) (ptr : Nat → DWord) (hint : Nat) (l : List (Nat × Nat × Loc × Nat)) :
    State × Except EFail (List Byte) :=
  match l.find? fun x => poisonedAt s x.2.2.1 x.2.1 || !reached s op.ctx x.2.2.1 with
  | some x => (engDataError s op, .error (.flt 3 0 (ptr x.1)))
  | none => match l.find? fun x => x.2.2.1.outside && decide (Config.peerAnswer s.freeN = 3) with
  | some x => ({ engDataError s op with freeN := s.freeN + 1 }, .error (.flt 3 0 (ptr x.1)))
  | none =>
    if l.any fun x => pieceBusy s op x.2.2.1 then (s, .error .busy)
    else
      let bump := fun (s : State) => { s with freeN := if l.any fun x => x.2.2.1.outside then s.freeN + 1 else s.freeN }
      let r := l.foldl (fun (a : State × List Byte) x =>
        let bs := readAt a.1 op.launch (dieOf s.part op.core) op.token x.2.2.1 x.2.1 (op.fwd && decide (x.2.2.2 ≠ 1))
        (match x.2.2.1 with
          | .dev pa _ => takeTurn (l2Read a.1 op.token pa (hintPrio hint)) 0 (lineOf pa) op.rank
          | .scr _ _ => a.1
          | loc =>
            { a.1 with
              held := a.1.held.map fun h =>
                if op.fwd && decide (x.2.2.2 ≠ 1) && h.die = dieOf s.part op.core && overlaps h.loc h.data.length loc x.2.1 then
                  { h with readers := op.wave :: h.readers }
                else h }, a.2 ++ bs)) (bump s, [])
      (bump r.1, .ok r.2)

/-- The pointer of byte `b` of a die of a handle (R170, R276). -/
def handlePtr (op : EngOp) (h : BitVec 256) (base die b : Nat) : DWord :=
  match hSpace h with
  | 1 => engAperture op op.core (base % 2 ^ 19 + b)
  | 2 => engAperture op (op.core / 4 * 4 + nbits base 20 2) (base % 2 ^ 19 + b)
  | 4 => BitVec.ofNat 64 (base + die * 2 ^ hDshift h + b)
  | _ => BitVec.ofNat 64 (base + b)

/-- Bytes read for an operation (R245). -/
def engRead (s : State) (op : EngOp) (h : BitVec 256) (base die b n hint : Nat) : State × Except EFail (List Byte) :=
  let (s1, r) := engAt s op h base die b n false
  match r with
  | .error f => (s1, .error f)
  | .ok (.regs g k) => (s1, .ok (match s1.anyWave op.wave with | some w => regBytes w g k n | none => List.replicate n 0))
  | .ok (.pieces l) => readPieces s1 op (fun i => handlePtr op h base die (b + i)) hint l

/-- A core number that no core has: engines update no L1 (R205). -/
def noCore : Nat := 100000

/-- Bytes written for an operation: in a surrogate tile device bytes are banked (R247, R278). -/
def engWrite (s : State) (op : EngOp) (h : BitVec 256) (base die b hint : Nat) (bs : List Byte) : State × Except EFail Unit :=
  let (s1, r) := engAt s op h base die b bs.length true
  match r with
  | .error f => (s1, .error f)
  | .ok (.regs g k) => (s1.modAny op.wave fun w => regSetRun w g k bs, .ok ())
  | .ok (.pieces l) =>
    if l.any fun x => pieceBusy s1 op x.2.2.1 then (s1, .error .busy)
    else
      (l.foldl (fun s x =>
        let s2 := match x.2.2.1 with
          | .dev pa _ => takeTurn s 0 (lineOf pa) op.rank
          | _ => s
        writeAt s2 op.launch noCore (dieOf s.part op.core) op.id 0 op.token (hintPrio hint) false (handlePtr op h base die (b + x.1)) x.2.2.1
          ((bs.drop x.1).take x.2.1)) s1, .ok ())

/-! ### Recording (R257, R275, R276) -/

/-- An engine operation changed. -/
def modEng (s : State) (id : Nat) (f : EngOp → EngOp) : State :=
  { s with engOps := s.engOps.map fun o => if o.id = id then f o else o }

/-- A fault recorded in a wave's EFCAUSE and EFVA: while V = 1 only NFLT changes (R276). -/
def efRecord (w : Wave) (opc cls code : Nat) (va : DWord) : Wave :=
  let x := w.efcause.toNat
  if w.efcause.getLsbD 31 then
    { w with efcause := BitVec.ofNat 32 (x - nbits x 24 6 * 2 ^ 24 + min (nbits x 24 6 + 1) 63 * 2 ^ 24) }
  else { w with efcause := BitVec.ofNat 32 (2 ^ 31 + opc * 2 ^ 16 + cls * 2 ^ 8 + code), efva := va }

/-- STAT bits of FPSR flags (R257, R118): NX, UF, OF, NV, QERR. -/
def statOf (fl : Nat) : Nat :=
  bitOf (fl.testBit 0) * 2 + bitOf (fl.testBit 1) * 4 + bitOf (fl.testBit 2) * 8 + bitOf (fl.testBit 4) * 16 + bitOf (fl.testBit 5) * 32

/-- Status bits gathered by an operation. -/
def addStat (s : State) (id st : Nat) : State := modEng s id fun o => { o with stat := o.stat ||| st }

/-- A failing piece of an operation: FAULT is set and the issuing wave records it (R275). -/
def engFault (s : State) (op : EngOp) (cls code : Nat) (va : DWord) : State :=
  (addStat s op.id 64).modAny op.wave fun w => efRecord w op.opc cls code va

/-- An operation begins to wait for a frame; the Keystone core is told once (R275). -/
def engWait (s : State) (op : EngOp) : State :=
  if op.waiting then s
  else
    let s1 := modEng s op.id fun o => { o with waiting := true }
    { s1 with reports := s1.reports ++ [.escalation op.launch op.wave 0 0 (fcause 7 3 6 true 3 0) 0 0] }

/-! ### Elements (R137, R138, R170, R264) -/

/-- An element read as its raw code: none outside BOUND. A nibble's byte holds the even element low (R138). -/
def elemRead (s : State) (op : EngOp) (l : Layout) (h : BitVec 256) (c : List Nat) (hint : Nat) :
    State × Except EFail (Option Nat) :=
  match layoutLocate l h c with
  | .fault k => (s, .error (.flt 2 k 0))
  | .oob => (s, .ok none)
  | .at die b nib _ =>
    let (s1, r) := engRead s op h (hBase h) die b (esize (hFmt h)) hint
    (s1, r.map fun bs => some (if hFmt h = 6 then nbits (leNat bs) (4 * nib) 4 else leNat bs))

/-- An element written; one outside BOUND is not, and sets OOB. -/
def elemWrite (s : State) (op : EngOp) (l : Layout) (h : BitVec 256) (c : List Nat) (hint v : Nat) : State × Except EFail Unit :=
  match layoutLocate l h c with
  | .fault k => (s, .error (.flt 2 k 0))
  | .oob => (addStat s op.id 1, .ok ())
  | .at die b nib _ =>
    if hFmt h = 6 then
      let (s1, r) := engRead s op h (hBase h) die b 1 hint
      match r with
      | .error f => (s1, .error f)
      | .ok bs =>
        let x := leNat bs
        let y := x - nbits x (4 * nib) 4 * 2 ^ (4 * nib) + v % 16 * 2 ^ (4 * nib)
        engWrite s1 op h (hBase h) die b hint (leBytes y 1)
    else engWrite s op h (hBase h) die b hint (leBytes v (esize (hFmt h)))

/-- The die and the unswizzled element offset of coordinates. -/
def elemPlace (l : Layout) (c : List Nat) : Nat × Nat :=
  let (e, die) := layPoint l c
  (die.toNat, e.toNat)

/-- The scale byte of an element's block (R170): a signed step of SCSTEP from SCB. -/
def scaleRead (s : State) (op : EngOp) (l : Layout) (h : BitVec 256) (c : List Nat) : State × Except EFail Nat :=
  let (die, e) := elemPlace l c
  let (s1, r) := engRead s op h (hScb h) die (e / 32 * hScstep h) 1 0
  (s1, r.map leNat)

/-- The scale byte of an element's block written. -/
def scaleWrite (s : State) (op : EngOp) (l : Layout) (h : BitVec 256) (c : List Nat) (v : Nat) : State × Except EFail Unit :=
  let (die, e) := elemPlace l c
  engWrite s op h (hScb h) die (e / 32 * hScstep h) 0 (leBytes v 1)

/-- The nibbles of an HX4 element's block, from its 32 unswizzled offsets (R138, R139), as memory holds them, also beyond BOUND
(log 36). -/
def blockNibs (s : State) (op : EngOp) (l : Layout) (h : BitVec 256) (die e0 : Nat) : Nat → State × Except EFail (List Nat)
  | 0 => (s, .ok [])
  | n + 1 =>
    let k := 32 - (n + 1)
    let b := swz l ((e0 + k) / 2)
    let (s1, r) := engRead s op h (hBase h) die b 1 0
    match r with
    | .error f => (s1, .error f)
    | .ok bs =>
      let (s2, r2) := blockNibs s1 op l h die e0 n
      (s2, r2.map fun ns => nbits (leNat bs) (4 * ((e0 + k) % 2)) 4 :: ns)

/-- The exact value of a source element with its flags (R137, R139, R264): +0 outside BOUND, which sets OOB; a scaled FP8
value times its scale; an HX4 value by the block scan. -/
def elemValue (s : State) (op : EngOp) (l : Layout) (h : BitVec 256) (c : List Nat) : State × Except EFail FVal :=
  match layoutLocate l h c with
  | .fault k => (s, .error (.flt 2 k 0))
  | .oob => (addStat s op.id 1, .ok FVal.zero)
  | .at die _ _ _ =>
    let e := (elemPlace l c).2
    if hFmt h = 6 then
      let (s1, r) := blockNibs s op l h die (e / 32 * 32) 32
      match r with
      | .error f => (s1, .error f)
      | .ok ns =>
        let (s2, r2) := scaleRead s1 op l h c
        match r2 with
        | .error f => (s2, .error f)
        | .ok sc =>
          let d := hx4Decode ns sc
          (addStat s2 op.id (if d.2 then 32 else 0), .ok (d.1.getD (e % 32) FVal.zero))
    else
      let (s1, r) := elemRead s op l h c op.sh
      match r with
      | .error f => (s1, .error f)
      | .ok raw =>
        let v := cvtSrc (hFmt h) (raw.getD 0)
        if hScaled h then
          let (s2, r2) := scaleRead s1 op l h c
          match r2 with
          | .error f => (s2, .error f)
          | .ok sc => (s2, .ok (if sc = 255 then .nan v.isSnan else v.scale ((sc : Int) - 127)))
        else (s1, .ok v)

/-- An exact value converted to a format code, RNE (R264). -/
def valueTo (fmt : Nat) (sat : Bool) (v : FVal) : Nat × Nat :=
  match fmtCode fmt with
  | some f => toFloat f .rne sat v
  | none => if fmt = 7 then toUe8 .rne sat v else toInt fmt .rne sat v

/-- A raw element converted between unscaled formats, RNE (R145 to R148). An HX4 destination, which has no conversion, takes
the integer nearest, clamped to its codes. -/
def rawTo (dst src : Nat) (sat : Bool) (raw : Nat) : Nat × Nat := cvtElem dst src .rne sat raw

/-! ### Ring handles at a port (R190, R292) -/

/-- The descriptor of a ring-space handle in the launch's reservation on the wave's core, when it is initialised (R292). -/
def ringDesc (s : State) (h : BitVec 256) : Option RingD :=
  match s.resvOf s.w.launch (coreOf s.w.quad) with
  | none => none
  | some r =>
    let p := r.base + hfld h 0 19
    if hfld h 0 19 % 16 ≠ 0 ∨ r.size < hfld h 0 19 + 16 ∨ isRing s (coreOf s.w.quad) p = false then none
    else some (ringOf (posRead s (coreOf s.w.quad) p))

/-- A verdict on a ring operand goes on to the range of one slot (R190, R284, R292): a range beyond SSIZE is rejected with WHY 10 and the
layout cause 0x0B. A ring without an initialised descriptor is judged later. -/
def slotRange (s : State) (l : Layout) (h : BitVec 256) (port : Nat) (v : Verdict) : Verdict :=
  if v.verd = 2 ∨ hSpace h ≠ 6 then v
  else match ringDesc s h with
    | none => v
    | some d => if (layBytes l h none).1 < 0 ∨ (d.ssize : Int) < (layBytes l h none).2 then reject port 10 0x0B else v

end Sys2Proof.Machine
end

