-- ==== Sys2Proof/Machine/Layout.lean ====
section
/-!
DEFINITION. Layout instructions (R172, R173, R180 to R189, R197): LDEF, LCHAIN, LPART, LTRANS, LFLAT, LSWZ, LGET, LCHK,
HSET and the event that ends an HSET.
-/
namespace Sys2Proof.Machine

/-- A layout register of the wave written. -/
def setLay (w : Wave) (n : Nat) (l : Layout) : Wave :=
  { w with lays := setAt (w.lays ++ List.replicate (16 - w.lays.length) Layout.empty) n l,
           marks := w.marks ++ [{ reg := .lay n, pass := none, op := none }] }

/-- The end of a layout word: the register is written, or the layout trap is raised and it is unchanged (R181, R189). -/
def layWord (s : State) (d : Nat) (r : Except Nat Layout) : State :=
  match r with
  | .ok l => (s.modW fun w => setLay w d l).done
  | .error c => trapNow s 8 c

/-- LDEF (R182). -/
def execLdef (f : LdefF) (s : State) : Out :=
  .next (layWord s f.ld.toNat (ldefOf fun k => (sReg s.rd (f.s.toNat + k)).toNat))

/-- LCHAIN (R188). -/
def execLchain (f : LchainF) (s : State) : Out :=
  .next (layWord s f.ld.toNat (lchainOf (layOf s.rd f.la.toNat) (layOf s.rd f.lb.toNat)))

/-- LPART (R185). -/
def execLpart (f : LpartF) (s : State) : Out :=
  .next (layWord s f.ld.toNat (lpartOf (layOf s.rd f.la.toNat) (sReg s.rd f.s.toNat).toNat f.k.toNat))

/-- LTRANS (R186). -/
def execLtrans (f : LldF) (s : State) : Out :=
  .next (layWord s f.ld.toNat (ltransOf (layOf s.rd f.la.toNat) (sReg s.rd f.s.toNat).toNat))

/-- LFLAT (R187). -/
def execLflat (f : LflatF) (s : State) : Out :=
  .next (layWord s f.ld.toNat (lflatOf (layOf s.rd f.la.toNat) f.k.toNat))

/-- LSWZ (R184). -/
def execLswz (f : LldF) (s : State) : Out :=
  .next (layWord s f.ld.toNat (lswzOf (layOf s.rd f.la.toNat) (sReg s.rd f.s.toNat).toNat))

/-- A wave register of a 6-bit field written by an XENG word. -/
def sOut (s : State) (n : Nat) (v : Word) : State :=
  (s.modW fun w => addMarks (sSet w n v) (sMarks w n 1 none)).done

/-- LGET (R183). -/
def execLget (f : LgetF) (s : State) : Out :=
  .next (sOut s f.s.toNat (lgetWord (layOf s.rd f.la.toNat) f.k.toNat))

/-- LCHK (R197): the pair is validated at port K, as the word that uses the port validates it, with a ring operand's slot at ports 0 and
1 (R292), and the verdict, TRCOST and BCD are written. At port 4 the degree is that of the coordinates in v0 on. A trestle ring on a part without links raises the unit-absent trap (R4). -/
def execLchk (f : LgetF) (s : State) : Out :=
  let l := layOf s.rd f.la.toNat
  let h := handleOf s s.w.ctx l
  let v1 := portOf s s.rd l f.k.toNat (decide (f.k.toNat = 3)) none
  let v0 := if f.k.toNat ≤ 1 then slotRange s l h f.k.toNat v1 else v1
  let v := if f.k.toNat = 4 ∧ v0.verd ≠ 2 then
      { v0 with bcd := laneDegree s.rd s.rd.slots l h fun i =>
          (List.range l.modes.length).map fun k => vRead s.rd (BitVec.ofNat 7 k) i }
    else v0
  .next (if v.absent then trapNow (setCost s v) 2 0 else sOut (setCost s v) f.s.toNat v.lchk)

/-- HSET (R172): the checked entry goes to every port; no later chain group of the wave issues before that. -/
def execHset (f : HsetF) (s : State) : Out :=
  let n := f.s.toNat
  let e := BitVec.ofNat 256 (leNat (wordBytes ((List.range 8).map fun k => sReg s.rd (n + k))))
  let ix := sReg s.rd (n + 8)
  .next (if 2 ^ 12 ≤ ix.toNat ∨ illFormed e = true then trapNow s 8 0x0E
    else if isTrestle e && !hasTrestle s.part then trapNow s 2 0
    else
      (({ s with hsets := s.hsets ++ [{ wave := s.w.uid, quad := s.w.quad, ctx := s.w.ctx, idx := ix.toNat, entry := e }] } : State).modW
        fun w => { w with blocked := .hset, blockArg := w.pc.toNat }).done)

/-- The place of an entry in the order of its clk. -/
def HsetOp.place (h : HsetOp) : Nat := h.ctx * 4096 + h.idx

/-- HSET_COMPLETE (R173): every port uses the new entry from the next clk on, and the wave goes on. Those of one index that complete in
one clk do so by quadrant. -/
def execHsetComplete (wave : Nat) (s : State) : Out :=
  .next (match s.hsets.find? fun h => h.wave == wave with
    | some h =>
      ((takeTurn { s with hsets := s.hsets.filter fun x => x != h } 2 h.place (h.quad + 1)).modCtx h.ctx fun c =>
          { c with handles := tset c.handles h.idx h.entry }).modWave wave fun w => { w with blocked := .none }
    | none => s)

/-- The HSET words that can complete now. -/
def layoutEvents (s : State) : List Act :=
  (s.hsets.filter fun h => inTurn s 2 h.place (h.quad + 1)).map fun h => execHsetComplete h.wave

end Sys2Proof.Machine
end

