-- ==== Sys2Proof/Machine/Engine.lean ====
section
/-!
DEFINITION. The asynchronous engine instructions (R251 to R279): the data words TCOPY, GATHER, SCATTER, MCREAD and TRSEND,
the object and ring words, and the events that carry their operations.
-/
namespace Sys2Proof.Machine

/-! ### Issue of the data words (R251, R252, R256) -/

/-- Two pairs validated in order (R190): a rejection at the first port ends the validation. -/
def pairPorts (s : State) (l1 : Layout) (p1 : Nat) (w1 : Bool) (l2 : Layout) (p2 : Nat) (w2 : Bool) : Verdict :=
  let v := portOf s s.rd l1 p1 w1 none
  if v.verd = 2 then v else v.worse (portOf s s.rd l2 p2 w2 none)

/-- A rejected pair: the layout trap, or the unit-absent trap for a trestle ring without links (R190). -/
def rejectPair (s : State) (v : Verdict) : State := if v.absent then trapNow s 2 0 else trapNow s 8 v.cause

/-- A wave object word or data word names its object in a register: no object, a position, or engine cause 0x02 (R256, R258).
`known` says which positions count as initialised. -/
def objArg (s : State) (a : Word) (known : Nat → Nat → Bool) : Except Nat (Option (Nat × Nat)) :=
  if a = 0xFFFFFFFF then .ok none
  else if a.toNat % 16 ≠ 0 then .error 2
  else match absPlace s s.w a.toNat 16 with
    | none => .error 2
    | some (core, p) => if known core p then .ok (some (core, p)) else .error 2

/-- What a data word hands to its engine, before it is put there. -/
def newEng (s : State) (kind : EngKind) (opc : Nat) (ld la : Layout) (obj : Option (Nat × Nat)) (fs : Bool) (rel : Nat) : EngOp :=
  { id := s.nextOp, wave := s.w.uid, launch := s.w.launch, ctx := s.w.ctx, core := coreOf s.w.quad, quad := s.w.quad,
    engine := coreOf s.w.quad / 2, kind := kind, opc := opc, ld := ld, hd := handleOf s s.w.ctx ld, la := la,
    ha := handleOf s s.w.ctx la, obj := obj,
    tag := match obj with | some (c, p) => (objOf (posRead s c p)).phase | none => 0,
    flag := flagSel s.w fs, rel := rel, mode := 0, sat := false, fp := false, qb := 0, rm := 0, count := ld.count, list := 0,
    key := 0, expm := 0, tile := 0, seq := s.nextOp, started := false, next := 0, total := ld.count, slot := none,
    ringCore := coreOf s.w.quad, stat := 0, joined := false, token := s.w.token, sh := 0, dh := 0, fpv := [], xl := [],
    waiting := false, left := List.range ld.count, fwd := !s.w.scSys, lost := false }

/-- The operation is handed over: the flag rises, and the registers of a register-space destination are marked (R253,
R264). -/
def startEng (s : State) (op : EngOp) : State :=
  let regs := if hSpace op.hd = 0 && op.kind != .mlda then
      (List.range (ceilDiv (hBound op.hd) (4 * s.w.width))).map fun i =>
        ({ reg := .v (hBase op.hd + i), pass := none, op := some op.id } : Mark)
    else []
  (({ s with engOps := s.engOps ++ [op], nextOp := s.nextOp + 1 } : State).modW fun w => markEng (addMarks (flagInc w op.flag) regs) op.flag).done

/-- A position that a word names as a ring's (R256): engine cause 0x02 where it is no initialised position of a sync line, 0x06
where an object stands there; `known` and `obj` say which positions hold a ring or an object. -/
def ringKind (known obj : Bool) : Except Nat Unit := if known then .ok () else .error (if obj then 6 else 2)

/-- The ring of a ring-space destination on a core (R256, R273): its checks for a word whose producers come from `feed`; engine
causes. Without a reservation there a trestle ring is cause 0x07 and a local one lies outside the reservation. -/
def ringCheck (s : State) (op : EngOp) (core : Nat) (feed : Nat) : Except Nat Unit :=
  match s.resvOf op.launch core with
  | none => .error (if feed = 0 then 2 else 7)
  | some r =>
    let p := r.base + hfld op.hd 0 19
    if hfld op.hd 0 19 % 16 ≠ 0 ∨ r.size < hfld op.hd 0 19 + 16 then .error 2
    else match ringKind (isRing s core p) (isObject s core p) with
      | .error c => .error c
      | .ok _ =>
        let d := ringOf (posRead s core p)
        let b := layBytes op.ld op.hd none
        if d.feed ≠ feed then .error 6
        else if b.1 < 0 ∨ (d.ssize : Int) < b.2 then .error 3
        else .ok ()

/-- The ring checks of a TCOPY or GATHER: a local ring fed by local engines, or no ring (R273). -/
def localRing (s : State) (op : EngOp) : Except Nat Unit :=
  if hSpace op.hd ≠ 6 then .ok ()
  else if hfld op.hd 20 4 ≠ 0 then .error 6
  else ringCheck s op op.core 0

/-- The end of a data word's validation (R252): it traps with its cause, or hands its operation over. -/
def finishEng (s : State) (r : Except Nat EngOp) : State :=
  match r with
  | .error c => trapNow s 9 c
  | .ok op => startEng s op

/-- The destination formats of a reduction (R264). -/
def redFmt (c : Nat) : Bool := c ≤ 3 || c = 10 || c = 11 || c = 14 || c = 15

/-- A position of the line of an object is taken by an object or a ring (R265). -/
def taken (s : State) (core p : Nat) : Bool := isObject s core p || isRing s core p

/-- TCOPY's parameter block (R263 to R265, R278): the operation, or the cause of the engine trap. -/
def tcopyOp (s : State) (f : TcopyF) : Except Nat EngOp :=
  let la := layOf s.rd f.la.toNat
  let ld := layOf s.rd f.ld.toNat
  let ha := handleOf s s.w.ctx la
  let hd := handleOf s s.w.ctx ld
  let p := (sReg s.rd (f.s.toNat + 1)).toNat
  let m := f.m.toNat
  if s.w.token.isSome && hSpace hd = 5 then .error 8
  else if nbits p 3 1 ≠ 0 ∨ nbits p 7 1 ≠ 0 ∨ p / 2 ^ 12 ≠ 0 then .error 1
  else if 4 < nbits p 0 3 ∨ la.modes.length ≤ nbits p 4 3 ∨ nbits p 8 2 = 3 ∨ nbits p 10 2 = 3 then .error 9
  else if la.count ≠ ld.count * (if m = 2 then (la.modes.getD (nbits p 4 3) { ext := 1, step := 0, lev := 0, die := false }).ext else 1)
    then .error 4
  else if (m = 0 ∧ hScaled hd = true ∧ hFmt ha ≠ hFmt hd) ∨
      (m = 1 ∧ ¬ ((hFmt hd = 4 ∨ hFmt hd = 5 ∨ hFmt hd = 6) ∧ hScaled hd = true)) ∨ (m = 2 ∧ redFmt (hFmt hd) = false) then .error 9
  else match objArg s (sReg s.rd f.s.toNat) (isObject s) with
    | .error c => .error c
    | .ok obj =>
      let bad := f.fp && (match obj with
        | none => true
        | some (c, q) => decide (32 ≤ q % 64) || taken s c (q + 16) || taken s c (q + 32))
      if bad then .error 5
      else
        let op := { newEng s .tcopy 0x90 ld la obj f.fs f.e.toNat with
          mode := m, sat := f.sat, fp := f.fp, qb := nbits p 0 3, rm := nbits p 4 3, sh := nbits p 8 2, dh := nbits p 10 2,
          total := if m = 1 then ceilDiv ld.count 32 else ld.count
          left := List.range (if m = 1 then ceilDiv ld.count 32 else ld.count) }
        match localRing s op with
        | .error c => .error c
        | .ok _ => .ok op

/-- TCOPY (R263). -/
def execTcopy (f : TcopyF) (s : State) : Out :=
  let v := pairPorts s (layOf s.rd f.la.toNat) 2 false (layOf s.rd f.ld.toNat) 3 true
  let s1 := setCost s v
  .next (if v.verd = 2 then rejectPair s1 v else finishEng s1 (tcopyOp s1 f))

/-- The row side of a gather or scatter: the first mode's extent, the row mode's number and extent (R195). -/
def rowMode (l : Layout) : Nat × Nat × Nat :=
  let i := (findIdxFrom (fun m : LMode => decide (m.lev = 1)) 0 l.modes).getD 0
  ((l.modes.headD { ext := 1, step := 0, lev := 0, die := false }).ext, i, (l.modes.getD i { ext := 1, step := 0, lev := 0, die := false }).ext)

/-- GATHER's and SCATTER's parameter block (R266): the operation, or the cause. Inside a surrogate tile no SCATTER runs, and nothing
is written to an import space (R278). -/
def rowsOp (s : State) (f : EngF) (scatter : Bool) : Except Nat EngOp :=
  let la := layOf s.rd f.la.toNat
  let ld := layOf s.rd f.ld.toNat
  let p := (sReg s.rd (f.s.toNat + 1)).toNat
  let list := sReg64 s.rd (f.s.toNat + 2)
  let rowL := if scatter then ld else la
  let other := if scatter then la else ld
  let n := nbits p 0 13
  if s.w.token.isSome && (scatter || hSpace (handleOf s s.w.ctx ld) == 5) then .error 8
  else if hFmt (handleOf s s.w.ctx la) ≠ hFmt (handleOf s s.w.ctx ld) then .error 9
  else if p / 2 ^ 15 ≠ 0 then .error 1
  else if nbits p 13 2 = 3 then .error 9
  else if n = 0 ∨ 4096 < n then .error 3
  else if list.toNat % 4 ≠ 0 then .error 2
  else if other.count ≠ n * (rowMode rowL).1 then .error 4
  else match objArg s (sReg s.rd f.s.toNat) (isObject s) with
    | .error c => .error c
    | .ok obj =>
      let op := { newEng s (if scatter then .scatter else .gather) (if scatter then 0x92 else 0x91) ld la obj f.fs f.e.toNat with
        count := n * (rowMode rowL).1, list := list, total := n, left := List.range n, sh := nbits p 13 2,
        dh := nbits p 13 2 }
      match localRing s op with
      | .error c => .error c
      | .ok _ => .ok op

/-- GATHER (R266). -/
def execGather (f : EngF) (s : State) : Out :=
  let v := pairPorts s (layOf s.rd f.la.toNat) 5 false (layOf s.rd f.ld.toNat) 3 true
  let s1 := setCost s v
  .next (if v.verd = 2 then rejectPair s1 v else finishEng s1 (rowsOp s1 f false))

/-- SCATTER (R266, R268). -/
def execScatter (f : EngF) (s : State) : Out :=
  let v := pairPorts s (layOf s.rd f.la.toNat) 2 false (layOf s.rd f.ld.toNat) 5 true
  let s1 := setCost s v
  .next (if v.verd = 2 then rejectPair s1 v else finishEng s1 (rowsOp s1 f true))

/-- The bytes of a layout's range (R179, R269). -/
def spanBytes (l : Layout) (h : BitVec 256) : Int := (layBytes l h none).2 - (layBytes l h none).1

/-- MCREAD's operands (R269): the operation, or the cause. -/
def mcreadOp (s : State) (f : EngF) (cost : Nat) : Except Nat EngOp :=
  let la := layOf s.rd f.la.toNat
  let ld := layOf s.rd f.ld.toNat
  let ha := handleOf s s.w.ctx la
  let hd := handleOf s s.w.ctx ld
  let p := (sReg s.rd (f.s.toNat + 1)).toNat
  if cost ≠ 0 ∨ ¬ (hSpace ha = 3 ∨ hSpace ha = 4) ∨ hSpace hd ≠ 1 ∨ hFmt ha ≠ hFmt hd then .error 9
  else if 65536 < spanBytes la ha then .error 3
  else if p / 2 ^ 28 ≠ 0 then .error 1
  else if la.count ≠ ld.count then .error 4
  else match objArg s (sReg s.rd f.s.toNat) (isObject s) with
    | .error c => .error c
    | .ok obj => .ok { newEng s .mcread 0x93 ld la obj f.fs f.e.toNat with key := nbits p 0 24, expm := nbits p 24 4, total := 0, left := [] }

/-- MCREAD (R269). -/
def execMcread (f : EngF) (s : State) : Out :=
  let la := layOf s.rd f.la.toNat
  let v := pairPorts s la 2 false (layOf s.rd f.ld.toNat) 3 true
  let s1 := setCost s v
  .next (if v.verd = 2 then rejectPair s1 v
    else finishEng s1 (mcreadOp s1 f (portOf s s.rd la 2 false none).cost))

/-- The neighbouring core in a direction: 1 north, 2 east, 3 south, 4 west (R14, R274); row 0 is the northern one. -/
def neighbour (part core dir : Nat) : Option Nat :=
  let (col, row) := gridPos part (clusterOf core)
  let cell := match dir with
    | 1 => if row = 0 then none else clusterAt part col (row - 1)
    | 2 => clusterAt part (col + 1) row
    | 3 => clusterAt part col (row + 1)
    | 4 => if col = 0 then none else clusterAt part (col - 1) row
    | _ => none
  cell.map fun c => 4 * c + core % 4

/-- The opposite direction: north with south, east with west. -/
def opposite (dir : Nat) : Nat := (dir + 1) % 4 + 1

/-- TRSEND's operands (R274): the operation, or the cause. A partner outside the span is none (R405). Formats that differ are cause 0x09
(log 66). -/
def trsendOp (s : State) (f : EngF) : Except Nat EngOp :=
  let la := layOf s.rd f.la.toNat
  let ld := layOf s.rd f.ld.toNat
  let ha := handleOf s s.w.ctx la
  let hd := handleOf s s.w.ctx ld
  let dir := hfld hd 20 4
  if hSpace ha ≠ 1 ∨ hSpace hd ≠ 6 ∨ hFmt ha ≠ hFmt hd then .error 9
  else if dir = 0 then .error 6
  else if la.count ≠ ld.count then .error 4
  else match objArg s (sReg s.rd f.s.toNat) (isObject s) with
    | .error c => .error c
    | .ok obj => match (neighbour s.part (coreOf s.w.quad) dir).filter fun c => s.inSpan s.w.ctx (clusterOf c) with
      | none => .error 7
      | some nb =>
        let op := { newEng s .trsend 0x9D ld la obj f.fs f.e.toNat with ringCore := nb }
        match ringCheck s op nb (opposite dir) with
        | .error c => .error c
        | .ok _ => .ok op

/-- TRSEND (R274). -/
def execTrsend (f : EngF) (s : State) : Out :=
  let v := pairPorts s (layOf s.rd f.la.toNat) 2 false (layOf s.rd f.ld.toNat) 3 true
  let s1 := setCost s v
  .next (if v.verd = 2 then rejectPair s1 v else finishEng s1 (trsendOp s1 f))

/-! ### Object and ring words (R257 to R262, R271, R272) -/

/-- A position is an initialised object once the wave's earlier object words are applied (R256, R258). -/
def objKnown (s : State) (core p : Nat) : Bool :=
  (s.objOps.filter fun o => o.wave == s.w.uid && o.engine.isNone && o.core == core).foldl (fun k o => match o.kind with
    | .coinit _ true => k && decide (o.off / 64 ≠ p / 64)
    | .coinit _ false => k || decide (o.off = p)
    | .rbinit _ _ _ _ => k && decide (o.off ≠ p)
    | _ => k) (isObject s core p)

/-- A position is an initialised ring once the wave's earlier words are applied. -/
def ringKnown (s : State) (core p : Nat) : Bool :=
  (s.objOps.filter fun o => o.wave == s.w.uid && o.engine.isNone && o.core == core).foldl (fun k o => match o.kind with
    | .coinit _ true => k && decide (o.off / 64 ≠ p / 64)
    | .coinit _ false => k && decide (o.off ≠ p)
    | .rbinit _ _ _ _ => k || decide (o.off = p)
    | _ => k) (isRing s core p)

/-- An object or ring word handed over (R253, R258). -/
def sendObj (s : State) (pos : Nat × Nat) (kind : ObjKind) (fs : Bool) : State :=
  let fl := flagSel s.w fs
  let o : ObjOp :=
    { wave := s.w.uid, quad := s.w.quad, engine := none, launch := s.w.launch, core := pos.1, off := pos.2, kind := kind,
      flag := fl, seq := s.nextOp }
  (({ s with
      objOps := s.objOps ++ [o]
      nextOp := s.nextOp + 1 } : State).modW fun w => flagInc w fl).done

/-- An object word: its address is checked, then its kind is sent. -/
def objWord (s : State) (f : ObjF) (bad : Option Nat) (known : Nat → Nat → Bool) (kind : ObjKind) : State :=
  match bad with
  | some c => trapNow s 9 c
  | none => match objArg s (sReg s.rd f.s.toNat) known with
    | .ok (some pos) => sendObj s pos kind f.fs
    | .ok none => trapNow s 9 2
    | .error c => trapNow s 9 c

/-- COINIT (R260). -/
def execCoinit (f : CoinitF) (s : State) : Out :=
  let e := (sReg s.rd (f.s.toNat + 1)).toNat
  .next (objWord s { s := f.s, fs := f.fs } (if e / 2 ^ 15 ≠ 0 then some 1 else none) (fun _ _ => true) (.coinit e f.u))

/-- COEXPECT (R261). -/
def execCoexpect (f : ObjF) (s : State) : Out :=
  let n := (sReg s.rd (f.s.toNat + 1)).toNat
  .next (objWord s f (if 2 ^ 31 ≤ n then some 3 else none) (objKnown s) (.expect n))

/-- COARRIVE (R261). -/
def execCoarrive (f : ObjF) (s : State) : Out :=
  let n := (sReg s.rd (f.s.toNat + 1)).toNat
  .next (objWord s f (if 2 ^ 31 ≤ n then some 3 else none) (objKnown s) (.arrive n))

/-- CODROP (R261). -/
def execCodrop (f : ObjF) (s : State) : Out := .next (objWord s f none (objKnown s) .drop)

/-- RBINIT's operands (R272): causes 0x01, 0x03 and 0x06. A FEED of 5 to 7 is cause 0x03 (log 66). -/
def rbinitBad (s : State) (f : ObjF) : Option Nat :=
  let sb := (sReg s.rd (f.s.toNat + 1)).toNat
  let x := (sReg s.rd (f.s.toNat + 2)).toNat
  let ss := nbits x 0 16
  let ns := nbits x 16 9
  if sb / 2 ^ 19 ≠ 0 ∨ x / 2 ^ 28 ≠ 0 then some 1
  else if sb % 64 ≠ 0 ∨ ss % 64 ≠ 0 ∨ ss < 64 ∨ 32768 < ss ∨ ns < 2 ∨ 256 < ns ∨ 4 < nbits x 25 3 then some 3
  else match absPlace s s.w (sReg s.rd f.s.toNat).toNat 16 with
    | none => some 2
    | some (core, p) =>
      match resvAt s core p with
      | none => some 2
      | some r =>
        if r.size < sb + ns * ss then some 3
        else if isRing s core p then
          let d := ringOf (posRead s core p)
          if d.reserved ≠ 0 ∨ d.filled ≠ 0 then some 6 else none
        else none

/-- RBINIT (R272). -/
def execRbinit (f : ObjF) (s : State) : Out :=
  let x := (sReg s.rd (f.s.toNat + 2)).toNat
  .next (objWord s f (rbinitBad s f) (fun _ _ => true)
    (.rbinit (sReg s.rd (f.s.toNat + 1)).toNat (nbits x 0 16) (nbits x 16 9) (nbits x 25 3)))

/-- The ring that a word names: a position, or engine cause 0x02 or 0x06 (R256). -/
def ringArg (s : State) (f : ObjF) : Except Nat (Nat × Nat) :=
  match objArg s (sReg s.rd f.s.toNat) (fun _ _ => true) with
  | .error c => .error c
  | .ok none => .error 2
  | .ok (some (core, p)) => (ringKind (ringKnown s core p) (objKnown s core p)).map fun _ => (core, p)

/-- RBFREE (R272). -/
def execRbfree (f : ObjF) (s : State) : Out :=
  .next (match ringArg s f with
    | .error c => trapNow s 9 c
    | .ok pos => sendObj s pos .rbfree f.fs)

/-- A word that waits at an object or ring: no later VMEM or XENG word of the wave issues before its result (R262, R272). -/
def sendWait (s : State) (pos : Nat × Nat) (kind : WaitKind) (phase dest : Nat) (fl : Option Nat) (b : Blocked) : State :=
  let x : ObjWait :=
    { wave := s.w.uid, launch := s.w.launch, core := pos.1, off := pos.2, kind := kind, phase := phase, dest := dest,
      flag := fl, seq := s.nextOp }
  (({ s with
      objWaits := s.objWaits ++ [x]
      nextOp := s.nextOp + 1 } : State).modW fun w =>
    { addMarks (flagInc w fl) (sMarks w dest 1 (some s.nextOp)) with blocked := b, blockArg := w.pc.toNat }).done

/-- RBPOP (R272). -/
def execRbpop (f : ObjF) (s : State) : Out :=
  .next (match ringArg s f with
    | .error c => trapNow s 9 c
    | .ok pos => sendWait { s with asks := s.asks ++ [{ core := pos.1, pos := pos.2, op := s.nextOp, isB := false }] }
        pos .rbpop 0 (f.s.toNat + 1) (flagSel s.w f.fs) .rbpop)

/-- COWAIT and COTEST (R262). -/
def waitWord (s : State) (f : WaitF) (kind : WaitKind) : State :=
  let ph := (sReg s.rd (f.s.toNat + 1)).toNat
  if 65536 ≤ ph then trapNow s 9 1
  else match objArg s (sReg s.rd f.s.toNat) (objKnown s) with
    | .ok (some pos) => sendWait s pos kind ph (f.s.toNat + 2) none .cowait
    | .ok none => trapNow s 9 2
    | .error c => trapNow s 9 c

/-- COWAIT (R262). -/
def execCowait (f : WaitF) (s : State) : Out := .next (waitWord s f .cowait)

/-- COTEST (R262). -/
def execCotest (f : WaitF) (s : State) : Out := .next (waitWord s f .cotest)

/-! ### OBJECT_APPLY (R258, R259) -/

/-- The release of a COARRIVE holds (R261). -/
def objReleased (s : State) (o : ObjOp) : Bool :=
  match o.kind with
  | .arrive _ => releaseMet s o.wave o.seq
  | _ => true

/-- An operation on its way can reach its position now: the wave's earlier object words have been applied or arrive with
it (R258). -/
def objMay (s : State) (o : ObjOp) : Bool :=
  o.engine.isSome || (s.objOps.filter fun p => p.wave == o.wave && p.engine.isNone && decide (p.seq ≤ o.seq)).all fun p =>
    p.core == o.core && p.off == o.off && objReleased s p

/-- An operation's place in port order (R259): wave words by quadrant and issue, then engine arrivals by engine. -/
def portLe (a b : ObjOp) : Bool :=
  match a.engine, b.engine with
  | none, none => decide (a.quad < b.quad) || (a.quad == b.quad && decide (a.seq ≤ b.seq))
  | none, some _ => true
  | some _, none => false
  | some x, some y => decide (x ≤ y)

/-- An element put before the first that does not precede it. -/
def insBy {α : Type} (le : α → α → Bool) (x : α) : List α → List α
  | [] => [x]
  | y :: t => if le y x then y :: insBy le x t else x :: y :: t

/-- A list in order; equals keep their order. -/
def sortBy {α : Type} (le : α → α → Bool) (l : List α) : List α := l.foldl (fun a x => insBy le x a) []

/-- A reservation at an absolute position changed; `f` is given the position's offset. -/
def modResvAt (s : State) (core p : Nat) (f : Nat → Resv → Resv) : State :=
  match resvAt s core p with
  | some r => s.modResv r.launch core (f (p - r.base))
  | none => s

/-- The line of a position marked as a sync line (R257, R260). -/
def markLine (r : Resv) (a : Nat) : Resv := if r.sync.contains (a / 64) then r else { r with sync := (a / 64) :: r.sync }

/-- The line of a position turned back into an ordinary one (R260): nothing stands in it, and the engine operations that name an
object of it arrive nowhere. -/
def unsyncLine (s : State) (core p : Nat) : State :=
  match resvAt s core p with
  | none => s
  | some r =>
    let line := fun (c q : Nat) => c == core && decide (r.base ≤ q) && (q - r.base) / 64 == (p - r.base) / 64
    let s1 := modResvAt s core p fun a r => { r with
      sync := r.sync.filter fun x => decide (x ≠ a / 64)
      objs := r.objs.filter fun x => decide (x / 64 ≠ a / 64)
      rings := r.rings.filter fun x => decide (x / 64 ≠ a / 64) }
    { s1 with
      engOps := s1.engOps.map fun e => if e.obj.any fun x => line x.1 x.2 then { e with lost := true } else e
      objOps := s1.objOps.map fun o => if o.engine.isSome && line o.core o.off then { o with kind := .void } else o }

/-- One operation applied at its position (R259, R260, R272). COINIT where a ring stands, and RBINIT where an object stands, replace it
(log 64). -/
def applyObj (s : State) (o : ObjOp) : State :=
  let s1 := match o.kind with
    | .coinit _ true => unsyncLine s o.core o.off
    | .coinit e false =>
      let v : Obj := if isObject s o.core o.off then (objOf (posRead s o.core o.off)).apply o.kind
        else { stale := 0, stl := false, ep := false, lstat := 0, stat := 0, phase := 0, exp := e, arr := e, bal := 0 }
      posWrite (modResvAt s o.core o.off fun a r =>
        { markLine r a with objs := if r.objs.contains a then r.objs else a :: r.objs, rings := r.rings.filter fun x => decide (x ≠ a) })
        o.core o.off v.num
    | .rbinit sb ss ns feed =>
      posWrite (modResvAt s o.core o.off fun a r =>
        { markLine r a with rings := if r.rings.contains a then r.rings else a :: r.rings, objs := r.objs.filter fun x => decide (x ≠ a) })
        o.core o.off
        ({ feed := feed, inuse := 0, filled := 0, free := ns, reti := 0, cons := 0, prod := 0, nslot := ns, ssize := ss,
           sbase := sb } : RingD).num
    | .rbfree =>
      if isRing s o.core o.off then posWrite s o.core o.off (ringOf (posRead s o.core o.off)).release.num else s
    | k =>
      if isObject s o.core o.off then posWrite s o.core o.off ((objOf (posRead s o.core o.off)).apply k).num else s
  s1.modAny o.wave fun w => flagDec w o.flag

/-- OBJECT_APPLY: the first `n` operations that can reach a position do so in one clk, in port order; completion is then
tested once (R259). `off` is the absolute byte of the core's scratchpad. -/
def execObjectApply (core off n : Nat) (s : State) : Out :=
  .next (
    let batch := (s.objOps.filter fun o => o.core == core && o.off == off && objMay s o).take n
    if batch.isEmpty then s
    else
      let s1 := (sortBy portLe batch).foldl applyObj { s with objOps := s.objOps.filter fun o => !batch.contains o }
      if isObject s1 core off then posWrite s1 core off (objOf (posRead s1 core off)).test.num else s1)

/-! ### COWAIT_RESULT and RBPOP_RESULT (R246, R262, R272) -/

/-- The wave's earlier object words have been applied. -/
def waitTurn (s : State) (x : ObjWait) : Bool :=
  s.objOps.all fun o => o.wave != x.wave || o.engine.isSome || decide (x.seq < o.seq)

/-- An asker still waits for a slot. -/
def askLive (s : State) (a : RingAsk) : Bool :=
  (s.objWaits.any fun x => x.seq == a.op && x.kind == .rbpop) || s.matOps.any fun m => m.id == a.op

/-- The next slot of a ring is given to this asker: the first in the order of asking (R292). -/
def ringTurn (s : State) (a : RingAsk) : Bool :=
  (s.asks.find? fun b => b.core == a.core && b.pos == a.pos && askLive s b) == some a

/-- An asker has its slot. -/
def askDone (s : State) (a : RingAsk) : State := { s with asks := s.asks.filter fun b => b != a }

/-- The place of an RBPOP in the order of asking. -/
def popAsk (x : ObjWait) : RingAsk := { core := x.core, pos := x.off, op := x.seq, isB := false }

/-- A waiting word can be answered (R262, R272). -/
def waitReady (s : State) (x : ObjWait) : Bool :=
  waitTurn s x && (s.findWave x.wave).isSome && (match x.kind with
    | .cowait => decide ((objOf (posRead s x.core x.off)).phase ≠ x.phase)
    | .cotest => true
    | .rbpop => decide (0 < (ringOf (posRead s x.core x.off)).filled) && ringTurn s (popAsk x))

/-- The result word of COWAIT and COTEST (R262). -/
def waitWordOf (o : Obj) (phase : Nat) : Word :=
  if o.phase = phase then BitVec.ofNat 32 o.phase
  else
    BitVec.ofNat 32 (o.phase + o.lstat * 2 ^ 16 + bitOf (decide (1 < (o.phase + 65536 - phase) % 65536)) * 2 ^ 24 + 2 ^ 30 +
      bitOf (o.lstat.testBit 7 || o.lstat.testBit 6) * 2 ^ 31)

/-- A wait answered: its register is written, its flag falls and the wave goes on. -/
def answerWait (s : State) (x : ObjWait) (v : Word) : State :=
  ({ s with objWaits := s.objWaits.filter fun y => y != x }).modWave x.wave fun w =>
    { clearMarks (flagDec (sSetUser w x.dest [v]) x.flag) x.seq with blocked := .none }

/-- COWAIT_RESULT: the result of a COWAIT or COTEST is written; an observed completion is a join and invalidates the L1
(R246, R262). -/
def execCowaitResult (wave : Nat) (s : State) : Out :=
  .next (match s.objWaits.find? fun x => x.wave == wave && x.kind != .rbpop with
    | none => s
    | some x =>
      if waitReady s x then
        let v := waitWordOf (objOf (posRead s x.core x.off)) x.phase
        let s1 := answerWait s x v
        match s.findWave wave with
        | some w => if v.getLsbD 30 then l1Drop s1 (coreOf w.quad) else s1
        | none => s1
      else s)

/-- RBPOP_RESULT: the slot next to take is taken, and its offset written (R272). -/
def execRbpopResult (wave : Nat) (s : State) : Out :=
  .next (match s.objWaits.find? fun x => x.wave == wave && x.kind == .rbpop with
    | none => s
    | some x =>
      if waitReady s x then
        let d := ringOf (posRead s x.core x.off)
        let s1 := answerWait (askDone (posWrite s x.core x.off d.take.num) (popAsk x)) x (BitVec.ofNat 32 (d.sbase + d.cons * d.ssize))
        match s.findWave wave with
        | some w => l1Drop s1 (coreOf w.quad)
        | none => s1
      else s)

end Sys2Proof.Machine
end

