-- ==== Sys2Proof/Machine/EngineMove.lean ====
section
/-!
DEFINITION. The work of the engines (R245, R246, R251, R263 to R275): how an operation starts, moves its elements and
arrives, and the multicast sessions of MCREAD.
-/
namespace Sys2Proof.Machine

/-! ### When an operation may access memory (R245, R251) -/

/-- Reads that acquire and precede the operation's fork have been performed (R245). -/
def forkMet (s : State) (op : EngOp) : Bool :=
  acqMet s op.wave op.seq &&
    s.memOps.all fun o => o.wave != op.wave || decide (op.seq ≤ o.seq) || !(qAcq o.q && o.kind.reads) ||
      (o.accs.all fun a => a.done) || pollOver s o

/-- The operation may perform accesses: its fork edge and its release condition hold (R245). -/
def engMay (s : State) (op : EngOp) : Bool := forkMet s op && (decide (op.rel = 0) || releaseMet s op.wave op.seq)

/-- The operation is the first of its engine that has not started (R251). -/
def startTurn (s : State) (op : EngOp) : Bool :=
  match s.engOps.find? fun o => o.engine == op.engine && o.kind != .mlda && o.kind != .msta && !o.started with
  | some o => o.id == op.id
  | none => false

/-- The ring descriptor of an operation's destination, as an absolute position. -/
def ringPos (s : State) (op : EngOp) : Option Nat :=
  if hSpace op.hd = 6 then (s.resvOf op.launch op.ringCore).map fun r => r.base + hfld op.hd 0 19 else none

/-- A ring slot reserved for the operation, when one is free (R273). -/
def reserveSlot (s : State) (op : EngOp) : State :=
  match ringPos s op with
  | none => s
  | some p =>
    let d := ringOf (posRead s op.ringCore p)
    if 0 < d.free then
      modEng (posWrite s op.ringCore p d.reserve.num) op.id fun o => { o with slot := some d.prod }
    else s

/-- The operation holds the ring slot it needs. -/
def slotHeld (op : EngOp) : Bool := hSpace op.hd != 6 || op.slot.isSome

/-! ### Chaining -/

/-- A step that may fail, followed by another. -/
def thenE {α β : Type} (r : State × Except EFail α) (f : State → α → State × Except EFail β) : State × Except EFail β :=
  match r with
  | (s, .error e) => (s, .error e)
  | (s, .ok a) => f s a

/-- A piece whose fault is recorded while the others of its unit go on (R275). -/
def softE (op : EngOp) (r : State × Except EFail Unit) : State × Except EFail Unit :=
  match r with
  | (s, .error (.flt cls code va)) => (engFault s op cls code va, .ok ())
  | r => r

/-- The lines that an operation has asked for stay asked for when it must try again. -/
def keepAsked (s0 s : State) : State :=
  { s0 with l2 := s.l2, fills := s.fills, misses := s.misses, wbacks := s.wbacks, turns := s.turns }

/-- A unit of an operation's work is done. -/
def unitDone (s : State) (id t : Nat) : State :=
  modEng s id fun o => { o with left := o.left.erase t, waiting := false }

/-- The place in `fpv` that notes that element `t` has its value there. -/
def fpHas (t : Nat) : Nat := 2 ^ 64 + t

/-- A unit done for its operation, with the values of its elements for the fingerprint: progress, a recorded fault, or a wait, which
changes nothing but that it is reported (R275). `s0` is the state before. -/
def pieceEnd (s0 : State) (op : EngOp) (t : Nat) (r : State × Except EFail (List (Nat × DWord))) : State :=
  match r with
  | (s, .ok fs) => modEng (unitDone s op.id t) op.id fun o =>
      { o with fpv := if o.fp then fs.foldl (fun tb x => tset (tset tb x.1 x.2) (fpHas x.1) 1) o.fpv else o.fpv }
  | (s, .error (.flt cls code va)) => unitDone (engFault s op cls code va) op.id t
  | (_, .error .wait) => engWait s0 op
  | (s, .error .busy) => keepAsked s0 s

/-! ### The order of an operation's work (R245, R264, R266, R268) -/

/-- The destination elements of a unit: an element, a quantised block or a gathered row. -/
def unitElems (op : EngOp) (t : Nat) : List Nat :=
  match op.kind with
  | .tcopy => if op.mode = 1 then ((List.range 32).map fun i => 32 * t + i).filter fun i => decide (i < op.ld.count) else [t]
  | .gather => let ext := (rowMode op.la).1; (List.range ext).map fun j => t * ext + j
  | _ => [t]

/-- The first bytes of a unit's destination elements, with their dies. -/
def unitStarts (op : EngOp) (t : Nat) : List (Nat × Nat) :=
  (unitElems op t).filterMap fun i => match layoutLocate op.ld op.hd (coordsOf op.ld.modes i) with
    | .at die b _ _ => some (die, b)
    | _ => none

/-- Two units write a byte in common. -/
def sharesUnit (op : EngOp) (t u : Nat) : Bool :=
  let z := esize (hFmt op.hd)
  (unitStarts op t).any fun x => (unitStarts op u).any fun y => x.1 == y.1 && decide (x.2 < y.2 + z) && decide (y.2 < x.2 + z)

/-- The unit that an operation does next. Its accesses are unordered (R245), so the choice is free; but units that share destination
bytes go in layout order (R264), and the rows of a SCATTER in the order of its list (R268). -/
def nextUnit (s : State) (op : EngOp) : State × Nat :=
  match op.left with
  | [] => (s, 0)
  | [t] => (s, t)
  | t :: l =>
    if op.kind = .scatter then (s, t)
    else
      let u := (t :: l).getD (Config.choose s.freeN % (l.length + 1)) t
      ({ s with freeN := s.freeN + 1 },
        ((t :: l).takeWhile fun x => x != u).foldr (fun x c => if sharesUnit op x c then x else c) u)

/-! ### TCOPY (R263 to R265) -/

/-- A destination value in binary64, for the fingerprint (R265). -/
def fp64 (v : FVal) : DWord := BitVec.ofNat 64 (toFloat .f64 .rne false v).1

/-- The destination block of an element: its die and its run of 32 unswizzled offsets (R170). -/
def blockOf (l : Layout) (t : Nat) : Nat × Nat :=
  let p := elemPlace l (coordsOf l.modes t)
  (p.1, p.2 / 32)

/-- Element `t` is the last in layout order of its destination block whose source lies in BOUND: with it goes the block's scale byte
(R264; log 35). -/
def scaleTaker (op : EngOp) (t : Nat) : Bool :=
  let inBound := fun u => match layoutLocate op.la op.ha (coordsOf op.la.modes u) with | .at _ _ _ _ => true | _ => false
  inBound t && (List.range op.ld.count).all fun u => decide (u ≤ t) || blockOf op.ld u != blockOf op.ld t || !inBound u

/-- Destination element `t` of a plain copy (R264). A copied element whose value depends on its block, by a scale or by HX4's scan,
gets its value for the fingerprint when the copy is done (R265). -/
def copyElem (s : State) (op : EngOp) (t : Nat) : State × Except EFail (List (Nat × DWord)) :=
  let ca := coordsOf op.la.modes t
  let cd := coordsOf op.ld.modes t
  if hFmt op.ha = hFmt op.hd ∧ hScaled op.ha = hScaled op.hd then
    let scale := if hScaled op.hd && scaleTaker op t then
        thenE (scaleRead s op op.la op.ha ca) fun s1 sc => scaleWrite s1 op op.ld op.hd cd sc
      else (s, .ok ())
    thenE (softE op scale) fun s1 _ =>
      thenE (elemRead s1 op op.la op.ha ca op.sh) fun s2 raw =>
        thenE (elemWrite (if raw.isNone then addStat s2 op.id 1 else s2) op op.ld op.hd cd op.dh (raw.getD 0)) fun s3 _ =>
          (s3, .ok (if hScaled op.hd || hFmt op.hd == 6 then [] else [(t, fp64 (cvtSrc (hFmt op.hd) (raw.getD 0)))]))
  else if hScaled op.ha || decide (hFmt op.ha = 6) then
    thenE (elemValue s op op.la op.ha ca) fun s1 v =>
      let r := valueTo (hFmt op.hd) op.sat v
      thenE (elemWrite (addStat s1 op.id (statOf r.2)) op op.ld op.hd cd op.dh r.1) fun s2 _ =>
        (s2, .ok [(t, fp64 (cvtSrc (hFmt op.hd) r.1))])
  else
    thenE (elemRead s op op.la op.ha ca op.sh) fun s1 raw =>
      let s2 := if raw.isNone then addStat s1 op.id 1 else s1
      let r := cvtElem (hFmt op.hd) (hFmt op.ha) .rne op.sat (raw.getD 0)
      thenE (elemWrite (addStat s2 op.id (statOf r.2)) op op.ld op.hd cd op.dh r.1) fun s3 _ =>
        (s3, .ok [(t, fp64 (cvtSrc (hFmt op.hd) r.1))])

/-- The coordinates of reduction term `k` for destination element `t` (R263). -/
def redCoords (l : Layout) (rm t k : Nat) : List Nat :=
  let others := coordsOf (dropAt l.modes rm) t
  others.take rm ++ [k] ++ others.drop rm

/-- The terms of one destination element, converted to the destination format with their flags (R264). -/
def redTerms (s : State) (op : EngOp) (t : Nat) : Nat → Nat → State × Except EFail (List Nat)
  | 0, _ => (s, .ok [])
  | n + 1, k =>
    thenE (elemValue s op op.la op.ha (redCoords op.la op.rm t k)) fun s1 v =>
      let plain := !hScaled op.ha && decide (8 ≤ hFmt op.ha) && decide (8 ≤ hFmt op.hd)
      let r := match v with
        | .fin neg m e =>
          if plain then (intReg (hFmt op.hd)
              (let x : Int := (m * 2 ^ e.toNat : Nat) * (if neg then -1 else 1)
               if op.sat then max (intLo (hFmt op.hd)) (min (intHi (hFmt op.hd)) x) else x), 0)
          else valueTo (hFmt op.hd) op.sat v
        | _ => valueTo (hFmt op.hd) op.sat v
      thenE (redTerms (addStat s1 op.id (statOf r.2)) op t n (k + 1)) fun s2 l => (s2, .ok (r.1 :: l))

/-- Destination element `t` of a reduction (R264, R167). -/
def redElem (s : State) (op : EngOp) (t : Nat) : State × Except EFail (List (Nat × DWord)) :=
  let n := (op.la.modes.getD op.rm { ext := 1, step := 0, lev := 0, die := false }).ext
  thenE (redTerms s op t n 0) fun s1 xs =>
    let r := match fmtCode (hFmt op.hd) with
      | some f => canonicalSum f xs
      | none => (xs.foldl (fun a x => a + x) 0 % 2 ^ intWidth (hFmt op.hd), 0)
    thenE (elemWrite (addStat s1 op.id (statOf r.2)) op op.ld op.hd (coordsOf op.ld.modes t) op.dh r.1) fun s2 _ =>
      (s2, .ok [(t, fp64 (cvtSrc (hFmt op.hd) r.1))])

/-- The source values of a block in binary32, RNE (R264); beyond the tensor's end a block holds +0. -/
def blockVals (s : State) (op : EngOp) (t0 : Nat) : Nat → State × Except EFail (List Nat)
  | 0 => (s, .ok [])
  | n + 1 =>
    let t := t0 + (32 - (n + 1))
    if op.count ≤ t then thenE (blockVals s op t0 n) fun s1 l => (s1, .ok (0 :: l))
    else
      thenE (elemValue s op op.la op.ha (coordsOf op.la.modes t)) fun s1 v =>
        let r := toFloat .f32 .rne op.sat v
        thenE (blockVals (addStat s1 op.id (statOf r.2)) op t0 n) fun s2 l => (s2, .ok (r.1 :: l))

/-- The codes of a block written, from element `t` on; a failing one is recorded. -/
def blockWrite (s : State) (op : EngOp) : List Nat → Nat → State × Except EFail Unit
  | [], _ => (s, .ok ())
  | c :: cs, t =>
    if op.count ≤ t then (s, .ok ())
    else thenE (softE op (elemWrite s op op.ld op.hd (coordsOf op.ld.modes t) op.dh c)) fun s1 _ => blockWrite s1 op cs (t + 1)

/-- Block `t` of a quantising copy (R264, R141, R142). -/
def quantBlock (s : State) (op : EngOp) (t : Nat) : State × Except EFail (List (Nat × DWord)) :=
  let t0 := 32 * t
  thenE (blockVals s op t0 32) fun s1 xs =>
    let q := if hFmt op.hd = 6 then qntHx4 op.qb xs else qntFp8 (if hFmt op.hd = 4 then .e4m3 else .e5m2) xs
    let inexact := (xs.zip q.2.2.2).any fun x => !eqV (fdecode .f32 x.1) x.2
    let s2 := addStat s1 op.id (if q.2.2.1 then 16 else if inexact then 2 else 0)
    thenE (blockWrite s2 op q.1 t0) fun s3 _ =>
      thenE (softE op (scaleWrite s3 op op.ld op.hd (coordsOf op.ld.modes t0) q.2.1)) fun s4 _ =>
        (s4, .ok (((List.range (op.count - t0)).zip q.2.2.2).map fun x => (t0 + x.1, fp64 x.2)))

/-! ### GATHER and SCATTER (R266 to R268) -/

/-- The elements of row `t` moved; failing elements are recorded. The row waits as a whole. -/
def rowElems (s : State) (op : EngOp) (scatter : Bool) (t x : Nat) (zero : Bool) : Nat → Nat → State × Except EFail Unit
  | 0, _ => (s, .ok ())
  | n + 1, j =>
    let (ext, rm, _) := rowMode (if scatter then op.ld else op.la)
    let rowC := (List.range (if scatter then op.ld else op.la).modes.length).map fun i =>
      if i = 0 then j else if i = rm then x else 0
    let othC := coordsOf (if scatter then op.la else op.ld).modes (t * ext + j)
    let (ca, cd) := if scatter then (othC, rowC) else (rowC, othC)
    thenE (softE op (if zero then elemWrite s op op.ld op.hd cd op.dh 0
        else thenE (elemRead s op op.la op.ha ca op.sh) fun s1 raw =>
          elemWrite (if raw.isNone then addStat s1 op.id 1 else s1) op op.ld op.hd cd op.dh (raw.getD 0)))
      fun s1 _ => rowElems s1 op scatter t x zero n (j + 1)

/-- Row `t` of a GATHER or SCATTER: its index is read once, as its page kind asks, then its elements move (R231, R266, R267). -/
def rowStep (s : State) (op : EngOp) (scatter : Bool) (t : Nat) : State × Except EFail (List (Nat × DWord)) :=
  let ptr := op.list + BitVec.ofNat 64 (4 * t)
  let (ext, _, rows) := rowMode (if scatter then op.ld else op.la)
  thenE (engPtr s op ptr 4 false) fun s1 l =>
    thenE (readPieces s1 op (fun i => ptr + BitVec.ofNat 64 i) 0 l) fun s2 bs =>
      let x := leNat bs
      let run := fun (s3 : State) (zero : Bool) => thenE (rowElems s3 op scatter t x zero ext 0) fun s4 _ => (s4, .ok [])
      if x < rows then run s2 false
      else if hOobz (if scatter then op.hd else op.ha) then
        (if scatter then (addStat s2 op.id 1, .ok []) else run (addStat s2 op.id 1) true)
      else (s2, .error (.flt 2 0x0A ptr))

/-! ### TRSEND (R274) -/

/-- Element `t` streamed into the neighbour's slot. -/
def sendElem (s : State) (op : EngOp) (t : Nat) : State × Except EFail (List (Nat × DWord)) :=
  thenE (elemRead s op op.la op.ha (coordsOf op.la.modes t) 0) fun s1 raw =>
    thenE (elemWrite (if raw.isNone then addStat s1 op.id 1 else s1) op op.ld op.hd (coordsOf op.ld.modes t) 0 (raw.getD 0))
      fun s2 _ => (s2, .ok [])

/-! ### ENGINE_OP_START and ENGINE_OP_ARRIVE -/

/-- The next element, block or row of a started operation. -/
def engStep (s : State) (op : EngOp) : State :=
  let (s1, t) := nextUnit s op
  match op.kind with
  | .tcopy => pieceEnd s1 op t (if op.mode = 1 then quantBlock s1 op t else if op.mode = 2 then redElem s1 op t else copyElem s1 op t)
  | .gather => pieceEnd s1 op t (rowStep s1 op false t)
  | .scatter => pieceEnd s1 op t (rowStep s1 op true t)
  | .trsend => pieceEnd s1 op t (sendElem s1 op t)
  | _ => s

/-- An operation's next action by ENGINE_OP_START: to start in its engine's order, to reserve its ring slot, or to move its
next element (R251, R273). One whose reservation, or ring, is saved waits (R277). -/
def engCan (s : State) (op : EngOp) : Bool :=
  match op.kind with
  | .mlda => false
  | .msta => false
  | _ =>
    if savedPlace ≤ op.core ∨ savedPlace ≤ op.ringCore then false
    else if !op.started then startTurn s op
    else if !slotHeld op then (match ringPos s op with
      | some p => decide (0 < (ringOf (posRead s op.ringCore p)).free)
      | none => false)
    else op.kind != .mcread && engMay s op && !op.left.isEmpty

/-- ENGINE_OP_START (R251). -/
def execEngineOpStart (op : Nat) (s : State) : Out :=
  .next (match s.engOps.find? fun o => o.id == op with
    | none => s
    | some o =>
      if !engCan s o then s
      else if !o.started then reserveSlot (modEng s op fun x => { x with started := true }) o
      else if !slotHeld o then reserveSlot s o
      else engStep s o)

/-- The operation's work is done: every element moved, its outside writes performed, its ring slot next to be filled. -/
def engDone (s : State) (op : EngOp) : Bool :=
  op.started && op.left.isEmpty && slotHeld op && (op.kind != .mcread || (op.joined && decide (op.total ≤ op.next))) &&
    !(s.held.any fun h => h.op == op.id) && !(s.mcLines.any fun m => m.op == op.id) &&
    (match ringPos s op with
      | none => true
      | some p => decide (op.slot = some (ringOf (posRead s op.ringCore p)).nextFill))

/-- The byte amount of an arrival (R264): N_d·z, rounded up. -/
def arriveBytes (op : EngOp) : Nat := ceilDiv (op.count * size2 (hFmt op.hd)) 2

/-- A value that counts as +0 in the sums when it is NaN (R265). -/
def nanZero (x : DWord) : Nat := if (fdecode .f64 x.toNat).isNan then 0 else x.toNat

/-- The fingerprint record (R265). -/
def fingerprint (xs : List DWord) (count : Nat) : List Byte :=
  let nans := (xs.filter fun x => (fdecode .f64 x.toNat).isNan).length
  let maxa := xs.foldl (fun m x => max m (nanZero (x &&& 0x7FFFFFFFFFFFFFFF))) 0
  let sq := xs.map fun x => (fmulV .f64 .rne (fdecode .f64 (nanZero x)) (fdecode .f64 (nanZero x))).1
  leBytes (min nans 0xFFFFFFFF) 4 ++ leBytes (min count 0xFFFFFFFF) 4 ++ leBytes maxa 8 ++
    leBytes (canonicalSum .f64 (xs.map nanZero)).1 8 ++ leBytes (canonicalSum .f64 sq).1 8

/-- The value of destination element `t` for the fingerprint (R265): the one that the operation formed, or the one that stands in the
destination, of a piece that failed or of an element whose value depends on its block. -/
def printVal (s : State) (op : EngOp) (t : Nat) : DWord :=
  if tget op.fpv (fpHas t) ≠ 0 then tget op.fpv t
  else match (elemValue { s with turns := [] } op op.ld op.hd (coordsOf op.ld.modes t)).2 with
    | .ok v => fp64 v
    | .error _ => BitVec.ofNat 64 (leNat ((List.range 8).map fun i => Config.outsideByte (s.freeN * 2 ^ 80 + 2 ^ 79 + 8 * t + i)))

/-- The record written over the 32 bytes after the object, unless its line has become an ordinary one (R260, R265). -/
def writePrint (s : State) (op : EngOp) : State :=
  match op.obj with
  | some (core, p) =>
    if op.fp && !op.lost then modResvAt s core p fun a r =>
      { r with mem := tsetRun r.mem (a + 16) (fingerprint ((List.range op.count).map (printVal s op)) op.count) }
    else s
  | none => s

/-- ENGINE_OP_ARRIVE (R246, R253, R273): the ring slot becomes filled, the fingerprint is written, the marks of a
register-space destination clear, and the operation arrives at its object, or without one its flag falls. -/
def execEngineOpArrive (op : Nat) (s : State) : Out :=
  .next (match s.engOps.find? fun o => o.id == op with
    | none => s
    | some o =>
      if o.kind = .mlda || o.kind = .msta || !engDone s o then s
      else
        let s1 := match ringPos s o with
          | some p => posWrite s o.ringCore p (ringOf (posRead s o.ringCore p)).fill.num
          | none => s
        let s2 := { writePrint s1 o with engOps := s.engOps.filter fun x => x.id != op, freeN := if o.fp then s.freeN + 1 else s.freeN }
        let s3 := s2.modAny o.wave fun w => clearMarks w op
        match o.obj with
        | some (core, p) =>
          let a : ObjOp :=
            { wave := o.wave, quad := o.quad, engine := some o.engine, launch := o.launch, core := core, off := p,
              kind := if o.lost then .void else .engArrive (arriveBytes o) o.tag o.stat, flag := o.flag, seq := o.seq }
          { s3 with objOps := s3.objOps ++ [a] }
        | none => s3.modAny o.wave fun w => flagDec w o.flag)

/-! ### MCREAD (R269, R270, R279) -/

/-- The virtual address of a byte of an MCREAD's source. -/
def mcVa (op : EngOp) (die b : Nat) : Nat :=
  (hBase op.ha + (if hSpace op.ha = 4 then die * 2 ^ hDshift op.ha else 0) + b) % 2 ^ 64

/-- The granules of the source's bytes, each once. -/
def mcGranules (op : EngOp) : List Nat :=
  (List.range op.ld.count).foldl (fun l t => match layoutLocate op.la op.ha (coordsOf op.la.modes t) with
    | .at die b _ _ =>
      [mcVa op die b / 65536, (mcVa op die b + esize (hFmt op.ha) - 1) / 65536].foldl
        (fun l g => if l.contains g then l else l ++ [g]) l
    | _ => l) []

/-- The granules translated: those that lie in device memory, with their frames and keys. -/
def mcTranslate (s : State) (op : EngOp) : List Nat → State × Except EFail (List (Nat × Nat × Nat))
  | [] => (s, .ok [])
  | g :: gs =>
    match engPtr s op (BitVec.ofNat 64 (g * 65536)) 1 false with
    | (s1, .ok [(_, _, .dev pa key, _)]) => thenE (mcTranslate s1 op gs) fun s2 l => (s2, .ok ((g, pa, key) :: l))
    | (s1, .error .wait) => (s1, .error .wait)
    | (s1, .error .busy) => (s1, .error .busy)
    | (s1, _) => mcTranslate s1 op gs

/-- The physical byte of a virtual one, through an MCREAD's granules. -/
def mcPa (xl : List (Nat × Nat × Nat)) (va : Nat) : Option (Nat × Nat) :=
  (xl.find? fun x => x.1 == va / 65536).map fun x => (x.2.1 + va % 65536, x.2.2)

/-- The physical bytes of source element `t`; none when the multicast cannot carry it. -/
def mcBytes (op : EngOp) (xl : List (Nat × Nat × Nat)) (t : Nat) : Option (List (Nat × Nat)) :=
  match layoutLocate op.la op.ha (coordsOf op.la.modes t) with
  | .at die b _ _ =>
    let l := (List.range (esize (hFmt op.ha))).map fun i => mcPa xl (mcVa op die b + i)
    if l.all fun x => x.isSome then some (l.filterMap id) else none
  | _ => none

/-- A line put into an ascending list of lines. -/
def addLine (x : Nat × Nat) : List (Nat × Nat) → List (Nat × Nat)
  | [] => [x]
  | y :: t => if x.1 < y.1 then x :: y :: t else if x.1 = y.1 then y :: t else y :: addLine x t

/-- The lines of an MCREAD (R270). -/
def mcLinesOf (op : EngOp) (xl : List (Nat × Nat × Nat)) : List (Nat × Nat) :=
  (List.range op.ld.count).foldl (fun l t => match mcBytes op xl t with
    | some bs => bs.foldl (fun l x => addLine (lineOf x.1, x.2) l) l
    | none => l) []

/-- The elements that no line carries: outside BOUND, failing, or not in device memory; each is moved by itself. -/
def mcRest (op : EngOp) (xl : List (Nat × Nat × Nat)) : List Nat → State → State × Except EFail Unit
  | [], s => (s, .ok ())
  | t :: ts, s =>
    if (mcBytes op xl t).isSome then mcRest op xl ts s
    else
      thenE (softE op (thenE (elemRead s op op.la op.ha (coordsOf op.la.modes t) 0) fun s1 raw =>
          elemWrite (if raw.isNone then addStat s1 op.id 1 else s1) op op.ld op.hd (coordsOf op.ld.modes t) 0 (raw.getD 0)))
        fun s1 _ => mcRest op xl ts s1

/-- The multicast group of a core (R14): die and row. -/
def mcGroup (part core : Nat) : Nat :=
  dieOf part core * 3 + clusterOf core % clustersPerDie part / colsPerDie part

/-- A session begins to send when it has the members it awaits (R270). -/
def Session.wake (x : Session) : Session := if x.want ≤ x.members.length then { x with sending := true } else x

/-- The physical address of the source's first byte (R270): that of the first element, or, where no line carries that one, of the
first in layout order that a line carries. -/
def mcFirst (op : EngOp) (xl : List (Nat × Nat × Nat)) : Nat :=
  (((List.range op.ld.count).findSome? (mcBytes op xl)).bind fun bs => bs.head?.map fun x => x.1).getD 0

/-- A request joins a session or opens one; the home slice of the line of its first byte leads (R270). -/
def joinSession (s : State) (op : EngOp) (first : Nat) (lines : List (Nat × Nat)) : State :=
  let lead := homeSlice s.part first
  let slice := lead.1 * 64 + lead.2
  let group := mcGroup s.part op.core
  match s.sessions.find? fun x => !x.solo && x.slice == slice && x.group == group && x.ctx == op.ctx && x.key == op.key &&
      x.lines == lines with
  | some x =>
    let x1 := { x with members := x.members ++ [op.id],
                       replays := x.replays ++ (List.range x.sent).map fun j => (op.id, j) }.wake
    { s with sessions := s.sessions.map fun y => if y.id = x.id then x1 else y }
  | none =>
    let full := decide (8 ≤ (s.sessions.filter fun x => !x.solo && x.slice == slice).length)
    let x : Session :=
      { id := s.nextOp, slice := slice, group := group, ctx := op.ctx, key := op.key, solo := full, lines := lines,
        want := if full then 1 else op.expm, members := [op.id], sending := false, sent := 0, replays := [], opened := s.clk }
    { s with sessions := s.sessions ++ [x.wake], nextOp := s.nextOp + 1 }

/-- A request may be sent: the operation has started, and its fork and release conditions hold (R270). -/
def mcCan (s : State) (op : EngOp) : Bool := op.kind = .mcread && op.started && !op.joined && engMay s op

/-- MCREAD_REQUEST_ARRIVE: the request reaches its leader (R270). -/
def execMcreadRequestArrive (op : Nat) (s : State) : Out :=
  .next (match s.engOps.find? fun o => o.id == op with
    | none => s
    | some o =>
      if !mcCan s o then s
      else match mcTranslate s o (mcGranules o) with
        | (s1, .error .busy) => keepAsked s s1
        | (_, .error _) => engWait s o
        | (s1, .ok xl) => match mcRest o xl (List.range o.ld.count) s1 with
          | (s2, .error .busy) => keepAsked s s2
          | (_, .error _) => engWait s o
          | (s2, .ok _) =>
            let lines := mcLinesOf o xl
            let s3 := modEng s2 op fun x => { x with joined := true, xl := xl, total := lines.length, waiting := false }
            if lines.isEmpty then s3 else joinSession s3 o (mcFirst o xl) lines)

/-- MCREAD_SESSION_TIMEOUT: 256 clk have passed since the session opened (R270). -/
def execMcreadSessionTimeout (sess : Nat) (s : State) : Out :=
  .next { s with sessions := s.sessions.map fun x =>
    if x.id = sess ∧ x.opened + 256 ≤ s.clk then { x with sending := true } else x }

/-- The tile of a member of a session. -/
def mcToken (s : State) (op : Nat) : Option Nat := (s.engOps.find? fun o => o.id == op).bind fun o => o.token

/-- A line read at its home slice, as a member sees it: the banked bytes of a tile are for its own operations alone (R247; log 38). -/
def mcRead (s : State) (op : Nat) (line : Nat × Nat) : List Byte := tileBytes s (mcToken s op) line.2 line.1 512

/-- The rank of a session's reads at a home slice: that of its first member's engine (R243; log 38). -/
def sessionRank (s : State) (x : Session) : Nat :=
  engRank ((((x.members.head?).bind fun i => s.engOps.find? fun o => o.id == i).map fun o => o.engine).getD 0)

/-- A home slice takes the read of a whole line by a unit of this rank (R209, R243). -/
def lineMay (s : State) (line rank : Nat) : Bool :=
  (List.range 8).all (fun i => missRoom s (line + 64 * i)) && inTurn s 0 line rank

/-- A whole line read at its home slice. -/
def lineRead (s : State) (token : Option Nat) (line rank : Nat) : State :=
  takeTurn ((List.range 8).foldl (fun s i => l2Read s token (line + 64 * i) 1) s) 0 line rank

/-- A session's next line can be read now. -/
def sessionMay (s : State) (x : Session) : Bool :=
  x.sending && match x.lines[x.sent]?, x.replays with
    | some l, _ => lineMay s l.1 (sessionRank s x)
    | none, (_, j) :: _ => (x.lines[j]?).all fun l => lineMay s l.1 (sessionRank s x)
    | none, [] => true

/-- A session closes when its last line and every replay have been sent (R270). -/
def closeSessions (s : State) : State :=
  { s with sessions := s.sessions.filter fun x => !(decide (x.lines.length ≤ x.sent) && x.replays.isEmpty) }

/-- MCREAD_LINE_SEND: the next line is read once and multicast, or one line is replayed to a late joiner (R270). -/
def execMcreadLineSend (sess : Nat) (s : State) : Out :=
  .next (match s.sessions.find? fun x => x.id == sess with
    | none => s
    | some x =>
      if !sessionMay s x then s
      else
        let put := fun (x1 : Session) (line : Nat × Nat) (dst : List Nat) =>
          closeSessions { dst.foldl (fun s1 o => lineRead s1 (mcToken s o) line.1 (sessionRank s x)) s with
            sessions := s.sessions.map fun y => if y.id = sess then x1 else y
            mcLines := s.mcLines ++ dst.map fun o => { op := o, line := line.1, data := mcRead s o line } }
        match x.lines[x.sent]?, x.replays with
        | some line, _ => put { x with sent := x.sent + 1 } line x.members
        | none, (o, j) :: rest => match x.lines[j]? with
          | some line => put { x with replays := rest } line [o]
          | none => s
        | none, [] => closeSessions s)

/-- The bytes of a line written into the elements of a member's destination (R269). -/
def mcWrite (s : State) (op : EngOp) (m : McLine) : List Nat → State
  | [] => s
  | t :: ts =>
    let s1 := match mcBytes op op.xl t with
      | none => s
      | some bs =>
        ((List.range bs.length).zip bs).foldl (fun s x =>
          if lineOf x.2.1 ≠ m.line then s
          else
            let v := (m.data.getD (x.2.1 - m.line) 0).toNat
            let cd := coordsOf op.ld.modes t
            let va := match layoutLocate op.la op.ha (coordsOf op.la.modes t) with
              | .at die b _ _ => mcVa op die (b + x.1) | _ => 0
            let r := if isPoisoned s x.2.1 1 then (engDataError s op, Except.error (.flt 3 0 (BitVec.ofNat 64 va)))
              else if hFmt op.hd = 6 then
                elemWrite s op op.ld op.hd cd 0 (nbits v (4 * (match layoutLocate op.la op.ha (coordsOf op.la.modes t) with
                  | .at _ _ nib _ => nib | _ => 0)) 4)
              else match layoutLocate op.ld op.hd cd with
                | .fault k => (s, .error (.flt 2 k 0))
                | .oob => (addStat s op.id 1, .ok ())
                | .at die b _ _ => engWrite s op op.hd (hBase op.hd) die (b + x.1) 0 (leBytes v 1)
            match r with
            | (s2, .error (.flt cls code va)) => engFault s2 op cls code va
            | (s2, _) => s2) s
    mcWrite s1 op m ts

/-- MCREAD_LINE_WRITE: the first line on its way to an operation is written into its scratchpad destination (R270, R279). -/
def execMcreadLineWrite (op : Nat) (s : State) : Out :=
  .next (match s.engOps.find? (fun o => o.id == op), findIdxFrom (fun m : McLine => m.op == op) 0 s.mcLines with
    | some o, some i => match s.mcLines[i]? with
      | some m => modEng (mcWrite { s with mcLines := dropAt s.mcLines i } o m (List.range o.ld.count)) op fun x => { x with next := x.next + 1 }
      | none => s
    | _, _ => s)

/-! ### What the engines can do next -/

/-- The events of the engines and the object unit that can happen now. -/
def engineEvents (s : State) : List Act :=
  (s.engOps.filter (engCan s)).map (fun o => execEngineOpStart o.id) ++
    (s.engOps.filter fun o => o.kind != .mlda && o.kind != .msta && engDone s o).map (fun o => execEngineOpArrive o.id) ++
    (s.engOps.filter (mcCan s)).map (fun o => execMcreadRequestArrive o.id) ++
    (s.sessions.filter fun x => !x.sending && decide (x.opened + 256 ≤ s.clk)).map (fun x => execMcreadSessionTimeout x.id) ++
    (s.sessions.filter (sessionMay s)).map (fun x => execMcreadLineSend x.id) ++
    (s.mcLines.map fun m => m.op).eraseDups.map execMcreadLineWrite ++
    (s.objOps.filter (objMay s)).flatMap (fun o =>
      (List.range ((s.objOps.filter fun p => p.core == o.core && p.off == o.off && objMay s p).length)).map fun k =>
        execObjectApply o.core o.off (k + 1)) ++
    (s.objWaits.filter (waitReady s)).map (fun x => if x.kind = .rbpop then execRbpopResult x.wave else execCowaitResult x.wave)

end Sys2Proof.Machine
end

