-- ==== Sys2Proof/Machine/MatrixOps.lean ====
section
/-!
DEFINITION. What the matrix instructions share (R280 to R300): the step sums, reading a step tile through its layout and
handle, ring slots, the reuse latch, pins, and the status of a tile.
-/
namespace Sys2Proof.Machine

/-! ### Step sums (R287 to R289) -/

/-- `floor (log2 |y|)` of a nonzero finite value. -/
def flog (m : Nat) (e : Int) : Int := (Nat.log2 m : Int) + e

/-- A finite term in units of 2^q, truncated toward zero, and whether something was cut off. -/
def cutAt (q : Int) (n : Bool) (m : Nat) (e : Int) : Int × Bool :=
  let k := if q ≤ e then m * 2 ^ (e - q).toNat else m / 2 ^ (q - e).toNat
  (if n then -(k : Int) else (k : Int), decide (e < q) && decide (m % 2 ^ (q - e).toNat ≠ 0))

/-- The step sum of R287: the FP32 code and its status bits (NX 1, OF 2, NV 4). -/
def stepSum (c : FVal) (as bs : List FVal) : Nat × Nat :=
  let ps := (as.zip bs).map fun x => mulV x.1 x.2
  if c.isNan || as.any FVal.isNan || bs.any FVal.isNan || ps.any Option.isNone then (0x7FC00000, 4)
  else
    let terms := c :: ps.filterMap id
    if terms.any fun t => t.isInf && t.neg then
      (if terms.any fun t => t.isInf && !t.neg then (0x7FC00000, 4) else (0xFF800000, 0))
    else if terms.any fun t => t.isInf then (0x7F800000, 0)
    else
      let nz := terms.filter fun t => !t.isZero
      if nz.isEmpty then (if terms.all FVal.neg then 0x80000000 else 0, 0)
      else
        let top := nz.foldl (fun (a : Option Int) t => match t, a with
          | .fin _ m e, none => some (flog m e)
          | .fin _ m e, some x => some (max x (flog m e))
          | _, a => a) none
        let q := top.getD 0 - 47
        let r := nz.foldl (fun (a : Int × Bool) t => match t with
          | .fin n m e => (a.1 + (cutAt q n m e).1, a.2 || (cutAt q n m e).2)
          | _ => a) (0, false)
        if r.1 = 0 then (0, bitOf r.2)
        else
          let v := fround .f32 .rne false (decide (r.1 < 0)) r.1.natAbs q false
          (v.1, (bitOf r.2 ||| bitOf (decide (v.2 % 2 = 1))) + bitOf (v.2.testBit 2) * 2)

/-- An integer operand (R288). -/
def intOfV (v : FVal) : Int :=
  match v with
  | .fin n m e => (m * 2 ^ e.toNat : Nat) * (if n then -1 else 1)
  | _ => 0

/-- One element of a step of MLOOP.i8 (R288). -/
def stepI8 (c : Nat) (as bs : List FVal) : Nat :=
  (BitVec.ofInt 32 ((as.zip bs).foldl (fun a x => a + intOfV x.1 * intOfV x.2) (sextNat c 32))).toNat

/-- One element of a step of MLOOP.f64 (R289): the code and its status bits. -/
def stepF64 (c : Nat) (as bs : List FVal) : Nat × Nat :=
  (as.zip bs).foldl (fun a x =>
    let r := ffmaV .f64 .rne false x.1 x.2 (fdecode .f64 a.1)
    (r.1, a.2 ||| (bitOf (r.2.testBit 0) + bitOf (r.2.testBit 2) * 2 + bitOf (r.2.testBit 4) * 4))) (c, 0)

/-! ### Types (R281) -/

/-- The formats that a type accepts for an operand; the types are numbered as OP[3:0]. -/
def mlFmt (ty fmt : Nat) (isB : Bool) : Bool :=
  match ty with
  | 0 => fmt = 3
  | 1 => fmt = 2
  | 2 => fmt = 4 || (isB && decide (fmt = 5))
  | 3 => fmt = 5 || (isB && decide (fmt = 4))
  | 4 => fmt = 8 || fmt = 12
  | 5 => fmt = 6
  | _ => fmt = 0

/-- The operand's layout and handle. -/
def MatOp.lay (m : MatOp) (isB : Bool) : Layout := if isB then m.lb else m.la
def MatOp.hnd (m : MatOp) (isB : Bool) : BitVec 256 := if isB then m.hb else m.ha

/-- The operation's A is bitmap-sparse (R291). -/
def MatOp.sparse (m : MatOp) : Bool := hSparse m.ha

/-- An operand is a ring (R292). -/
def MatOp.isRing (m : MatOp) (isB : Bool) : Bool := decide (hSpace (m.hnd isB) = 6)

/-- The step tiles that a step reads of an operand: the B of a sparse A has two to a step (R291). -/
def MatOp.units (m : MatOp) (isB : Bool) (t : Nat) : List Nat := if isB && m.sparse then [2 * t, 2 * t + 1] else [t]

/-- The step tiles of an operand in all. -/
def MatOp.tiles (m : MatOp) (isB : Bool) : Nat := if isB && m.sparse then 2 * m.count else m.count

/-- The KM extent of an operand. -/
def kmExt (l : Layout) : Nat := (l.modes.getD l.km { ext := 1, step := 0, lev := 0, die := false }).ext

/-- A matrix operation changed. -/
def modMat (s : State) (id : Nat) (f : MatOp → MatOp) : State :=
  { s with matOps := s.matOps.map fun o => if o.id = id then f o else o }

/-! ### Reading a step tile (R286, R290, R291) -/

/-- The engine operation that an operand's reads stand for (R297, R305). -/
def MatOp.eng (m : MatOp) (isB : Bool) : EngOp :=
  { id := m.id, wave := m.wave, launch := m.launch, ctx := m.ctx, core := coreOf m.quad, quad := m.quad,
    engine := coreOf m.quad / 2, kind := .mloop, opc := 0xA0 + m.ty, ld := m.lay isB, hd := m.hnd isB, la := m.lay isB,
    ha := m.hnd isB, obj := none, tag := 0, flag := none, rel := 0, mode := 0, sat := false, fp := false, qb := 0, rm := 0,
    count := 0, list := 0, key := 0, expm := 0, tile := m.tile, seq := m.seq, started := true, next := 0, total := 0,
    slot := if isB then m.slotB else m.slotA, ringCore := coreOf m.quad, stat := 0, joined := false, token := m.token,
    sh := 0, dh := 0, fpv := [], xl := [], waiting := false, left := [], fwd := m.fwd, lost := false }

/-- A function of a list's elements in order, until one must wait. -/
def walkList {α β : Type} (f : State → α → State × Except EFail β) : List α → State → State × Except EFail (List β)
  | [], s => (s, .ok [])
  | x :: xs, s => thenE (f s x) fun s1 b => thenE (walkList f xs s1) fun s2 bs => (s2, .ok (b :: bs))

/-- A failing piece is recorded and reads as `z` (R305); a wait for a frame or for a home slice stays. -/
def orElse {α : Type} (op : EngOp) (r : State × Except EFail α) (z : α) : State × Except EFail α :=
  match r with
  | (s, .error (.flt cls code va)) => (engFault s op cls code va, .ok z)
  | r => r

/-- Coordinates of a step tile's element: row `i`, position `x`, KM coordinate `u`. -/
def tileCoords (l : Layout) (ki ri i x u : Nat) : List Nat :=
  (List.range l.modes.length).map fun n => if n = ki then x else if n = ri then i else if n = l.km then u else 0

/-- An element as its raw code: none where it reads as +0, outside BOUND, which sets OOB, or failing (R286, R305). -/
def tileRaw (op : EngOp) (l : Layout) (h : BitVec 256) (s : State) (c : List Nat) : State × Except EFail (Option Nat) :=
  let oob := decide (layoutLocate l h c = .oob)
  orElse op (if oob then (addStat s op.id 1, .ok none) else elemRead s op l h c 0) none

/-- An element's exact value (R286): +0, whatever the block's scale, for one that is outside BOUND or fails. -/
def tileVal (op : EngOp) (l : Layout) (h : BitVec 256) (s : State) (c : List Nat) : State × Except EFail FVal :=
  thenE (tileRaw op l h s c) fun s1 r =>
    match r with
    | none => (s1, .ok FVal.zero)
    | some raw =>
      let v := cvtSrc (hFmt h) raw
      if hScaled h then
        orElse op (thenE (scaleRead s1 op l h c) fun s sc =>
          (s, .ok (if sc = 255 then .nan v.isSnan else v.scale ((sc : Int) - 127)))) FVal.zero
      else (s1, .ok v)

/-- The block of 32 HX4 values from position `x0` of a row (R139, R290): a slot outside BOUND, or one that fails, counts as code 0 in
the scan of its block and reads as +0 (R286, R305; log 36). -/
def tileBlock (op : EngOp) (l : Layout) (h : BitVec 256) (ki ri i u : Nat) (s : State) (x0 : Nat) : State × Except EFail (List FVal) :=
  let cs := (List.range 32).map fun x => tileCoords l ki ri i (x0 + x) u
  thenE (walkList (tileRaw op l h) cs s) fun s1 ns =>
    if ns.all Option.isNone then (s1, .ok (List.replicate 32 FVal.zero))
    else
      orElse op (thenE (scaleRead s1 op l h (tileCoords l ki ri i x0 u)) fun s sc =>
        let d := hx4Decode (ns.map fun n => n.getD 0) sc
        (addStat s op.id (if d.2 then 32 else 0), .ok ((ns.zip d.1).map fun x => if x.1.isNone then FVal.zero else x.2)))
        (List.replicate 32 FVal.zero)

/-- The bitmap of a sparse row (R291): its bits, lowest position first. -/
def rowBits (op : EngOp) (l : Layout) (h : BitVec 256) (k : Nat) (s : State) (c : List Nat) : State × Except EFail (List Bool) :=
  let (die, e) := elemPlace l c
  thenE (orElse op (engRead s op h (hScb h) die (e / k * (k / 4)) (k / 4) 0) []) fun s1 bs =>
    (s1, .ok ((List.range (2 * k)).map fun p => (leNat bs).testBit p))

/-- Packed values put at the set positions of a bitmap; positions beyond the packed ones hold 0. -/
def expandRow : List Bool → List FVal → List FVal
  | [], _ => []
  | true :: t, v :: vs => v :: expandRow t vs
  | true :: t, [] => FVal.zero :: expandRow t []
  | false :: t, vs => FVal.zero :: expandRow t vs

/-- One row of a step tile. SPX (bit 7) is set where a sparse row has more than k set bits. -/
def tileRow (op : EngOp) (l : Layout) (h : BitVec 256) (ki ri u k : Nat) (s : State) (i : Nat) : State × Except EFail (List FVal) :=
  thenE (if hFmt h = 6 then
      thenE (walkList (tileBlock op l h ki ri i u) [0, 32] s) fun s1 vs => (s1, .ok vs.flatten)
    else walkList (tileVal op l h) ((List.range k).map fun x => tileCoords l ki ri i x u) s) fun s1 vs =>
    if hSparse h then
      thenE (rowBits op l h k s1 (tileCoords l ki ri i 0 u)) fun s2 b =>
        (addStat s2 op.id (if k < (b.filter id).length then 128 else 0), .ok (expandRow b vs))
    else (s1, .ok vs)

/-- Row `i` of step tile `u` read: its status bits (as R257's STAT with SPX in bit 7) and its values; or it waits, for a frame or for a
home slice, which keeps what it has asked for. A ring operand's KM coordinate counts within its slot (R292). -/
def readRow (s : State) (m : MatOp) (isB : Bool) (u i : Nat) : State × Except EFail OpRow :=
  let l := m.lay isB
  let h := m.hnd isB
  let op := m.eng isB
  match feederModes l (hFmt h) with
  | none => (s, .error .wait)
  | some (ki, ri) =>
    match tileRow op l h ki ri (if m.isRing isB then u % kmExt l else u) ((feederK (hFmt h)).getD 0)
        { s with engOps := s.engOps ++ [op] } i with
    | (s1, .error e) => (keepAsked s s1, .error e)
    | (s1, .ok vs) =>
      let st := match s1.engOps.find? fun o => o.id == op.id with | some o => o.stat | none => 0
      ({ s1 with engOps := s1.engOps.filter fun o => o.id != op.id },
        .ok { isB := isB, unit := u, row := i, stat := st, vals := vs })

/-! ### Ring slots (R292) -/

/-- The absolute position of a ring operand's descriptor. -/
def matRing (s : State) (m : MatOp) (isB : Bool) : Option Nat :=
  (s.resvOf m.launch (coreOf m.quad)).map fun r => r.base + hfld (m.hnd isB) 0 19

/-- The operand's slot. -/
def MatOp.slotOf (m : MatOp) (isB : Bool) : Option Nat := if isB then m.slotB else m.slotA
def MatOp.setSlot (m : MatOp) (isB : Bool) (x : Option Nat) : MatOp := if isB then { m with slotB := x } else { m with slotA := x }

/-- The operand is taken from the latch (R294). -/
def MatOp.reuse (m : MatOp) (isB : Bool) : Bool := if isB then m.reuseB else m.reuseA

/-- A row of a step tile is in the collector. -/
def MatOp.hasRow (m : MatOp) (isB : Bool) (u i : Nat) : Bool := m.rows.any fun r => r.isB == isB && r.unit == u && r.row == i

/-- A step tile is in the collector. -/
def MatOp.hasUnit (m : MatOp) (isB : Bool) (u : Nat) : Bool := m.reuse isB || (List.range 16).all (m.hasRow isB u)

/-- The step tiles of the next step that are still to be read: of a ring operand one at a time. -/
def MatOp.openUnits (m : MatOp) (isB : Bool) : List Nat :=
  let us := (m.units isB m.step).filter fun u => !m.hasUnit isB u
  if m.isRing isB then us.take 1 else us

/-- An operand's next step tile asks for a slot of its ring (R292): at its place in the ring. -/
def slotAsk (s : State) (m : MatOp) (isB : Bool) : Option RingAsk :=
  if !m.isRing isB || (m.slotOf isB).isSome || (m.openUnits isB).isEmpty then none
  else (matRing s m isB).map fun p => { core := coreOf m.quad, pos := p, op := m.id, isB := isB }

/-- A slot can be asked for, or be taken: there is a filled one, and it is this asker's turn. -/
def slotCan (s : State) (m : MatOp) (isB : Bool) : Bool :=
  match slotAsk s m isB with
  | none => false
  | some a => !s.asks.contains a || (decide (0 < (ringOf (posRead s a.core a.pos)).filled) && ringTurn s a)

/-- An operand asks for its slot, or takes it with the effect of RBPOP (R292). -/
def takeSlot (s : State) (m : MatOp) (isB : Bool) : State :=
  match slotAsk s m isB with
  | none => s
  | some a =>
    let s1 := if s.asks.contains a then s else { s with asks := s.asks ++ [a] }
    let d := ringOf (posRead s a.core a.pos)
    if 0 < d.filled ∧ ringTurn s1 a = true then
      modMat (posWrite (askDone s1 a) a.core a.pos d.take.num) m.id fun o => o.setSlot isB (some d.cons)
    else s1

/-- A slot freed after its last use, with the effect of RBFREE (R292). -/
def freeSlot (s : State) (m : MatOp) (isB : Bool) (u : Nat) : State :=
  if m.isRing isB && (decide (u % kmExt (m.lay isB) + 1 = kmExt (m.lay isB)) || decide (u + 1 = m.tiles isB)) then
    match matRing s m isB with
    | some p => modMat (posWrite s (coreOf m.quad) p (ringOf (posRead s (coreOf m.quad) p)).release.num) m.id
        fun o => o.setSlot isB none
    | none => s
  else s

/-! ### The reuse latch (R294) -/

/-- The quadrant's latch. -/
def latchOf (s : State) (quad : Nat) : Option Latch := s.latches.find? fun l => l.quad == quad

/-- The quadrant's latch replaced or discarded. -/
def setLatch (s : State) (quad : Nat) (l : Option Latch) : State :=
  { s with latches := l.toList ++ s.latches.filter fun x => x.quad != quad }

/-- An operand is taken from the latch: the count is at most the number of latched steps, and the latch holds every step tile it
needs (log 17). -/
def latchHit (m : MatOp) (isB : Bool) (l : Latch) : Bool :=
  l.wave == m.wave && l.isB == isB && l.ty == m.ty && l.lay == m.lay isB && l.handle == m.hnd isB &&
    decide (m.count ≤ l.steps.length / l.per) && decide (m.tiles isB ≤ l.steps.length) && !m.isRing isB

/-- The step tiles of an operand to a step (R291). -/
def MatOp.per (m : MatOp) (isB : Bool) : Nat := if isB && m.sparse then 2 else 1

/-- The step tiles that a latch of the operation holds at most. -/
def latchCap (m : MatOp) (isB : Bool) : Nat := m.per isB * min m.count 64

/-- An operation begins in its quadrant: what it takes from the latch, and what the latch holds from now on. One that goes on after
a save leaves nothing there. -/
def beginMat (s : State) (m : MatOp) : State :=
  if 0 < m.step then modMat (setLatch s m.quad none) m.id fun o => { o with latch := none, begun := true }
  else
  let l := latchOf s m.quad
  let hit := fun b => match l with | some x => latchHit m b x | none => false
  let next : Option Latch := match m.latch with
    | none => none
    | some b =>
      if m.isRing b then none
      else if hit b then l.map fun x => { x with steps := x.steps.take (latchCap m b) }
      else some { quad := m.quad, wave := m.wave, isB := b, ty := m.ty, lay := m.lay b, handle := m.hnd b, per := m.per b, steps := [] }
  modMat (setLatch s m.quad next) m.id fun o =>
    { o with begun := true, reuseA := hit false, reuseB := hit true, kept := match l with
      | some x => if hit false || hit true then x.steps else []
      | none => [] }

/-- A step tile that has been read enters the latch that the operation fills. -/
def fillLatch (s : State) (m : MatOp) (isB : Bool) (u : Nat) (v : Nat × List FVal) : State :=
  if m.latch ≠ some isB then s
  else { s with latches := s.latches.map fun l =>
    if l.quad = m.quad ∧ l.wave = m.wave ∧ l.isB = isB ∧ l.steps.length = u ∧ u < latchCap m isB then
      { l with steps := l.steps ++ [v] } else l }

/-- A step tile in the collector, or from the latch: its status bits and its rows one after another. -/
def MatOp.unitOf (m : MatOp) (isB : Bool) (u : Nat) : Nat × List FVal :=
  if m.reuse isB then m.kept.getD u (0, [])
  else
    let rs := (List.range 16).filterMap fun i => m.rows.find? fun r => r.isB == isB && r.unit == u && r.row == i
    (rs.foldl (fun a r => a ||| r.stat) 0, rs.flatMap fun r => r.vals)

/-! ### Pins (R293) -/

/-- The device line under a pointer of a context. -/
def ptrLine (s : State) (ctx : Nat) (p : Nat) : Option Nat :=
  match s.ctxOf ctx with
  | none => none
  | some c => match walk s c (p % 2 ^ 49) with
    | .leaf e _ size => let pa := leafPa e (p % 2 ^ 49) size; if pa / 2 ^ 50 < 2 then some (lineOf pa) else none
    | _ => none

/-- The lines of device memory that row `i` of step tile `u` lies in. -/
def rowLines (s : State) (m : MatOp) (isB : Bool) (u i : Nat) : List Nat :=
  let l := m.lay isB
  let h := m.hnd isB
  if m.reuse isB || !(hSpace h = 3 || hSpace h = 4) then []
  else match feederModes l (hFmt h) with
    | none => []
    | some (ki, ri) =>
      let k := (feederK (hFmt h)).getD 0
      let at0 := fun (base die b : Nat) => ptrLine s m.ctx ((base + (if hSpace h = 4 then die * 2 ^ hDshift h else 0) + b) % 2 ^ 64)
      (((List.range k).map fun x => tileCoords l ki ri i x u).flatMap fun c =>
        let (die, e) := elemPlace l c
        (match layoutLocate l h c with
          | .at d b _ _ => (at0 (hBase h) d b).toList ++ (at0 (hBase h) d (b + esize (hFmt h) - 1)).toList
          | _ => []) ++
          (if hScaled h then (at0 (hScb h) die (e / 32 * hScstep h)).toList else []) ++
          (if hSparse h then (at0 (hScb h) die (e / k * (k / 4))).toList ++ (at0 (hScb h) die (e / k * (k / 4) + k / 4 - 1)).toList
            else [])).eraseDups

/-- The rows of a step, by operand, step tile and number. -/
def MatOp.stepRowsOf (m : MatOp) (t : Nat) : List (Bool × Nat × Nat) :=
  [false, true].flatMap fun b => (m.units b t).flatMap fun u => (List.range 16).map fun i => (b, u, i)

/-- The lines that a step reads. -/
def matLines (s : State) (m : MatOp) (t : Nat) : List Nat :=
  ((m.stepRowsOf t).flatMap fun x => rowLines s m x.1 x.2.1 x.2.2).eraseDups

/-- The lines that the next step has still to read. -/
def openLines (s : State) (m : MatOp) : List Nat :=
  (((m.stepRowsOf m.step).filter fun x => !m.hasRow x.1 x.2.1 x.2.2).flatMap fun x => rowLines s m x.1 x.2.1 x.2.2).eraseDups

/-- The frame of its set that a line lies in, or a number of its own for a line that is not placed yet. -/
def frameOf (s : State) (pa : Nat) : Nat :=
  match s.l2.find? fun l => l.pa == pa && l.token.isNone with
  | some l => l.half / 2
  | none => 16 + pa

/-- A further pin is granted (R293): at most 64 pinned lines for the quadrant, and no more than 8 pinned frames in the line's set; two
compressed lines of one frame are one pinned frame. -/
def pinRoom (s : State) (quad pa : Nat) : Bool :=
  decide ((s.pins.filter fun p => p.quad == quad).length < 64) &&
    decide (((pa :: (s.pins.filter fun p => sameSet s.part p.pa pa).map fun p => p.pa).map (frameOf s)).eraseDups.length ≤ 8)

/-- Pins released; a CINV of a line takes effect with its last pin (R226). -/
def unpin (s : State) (f : Pin → Bool) : State :=
  let s1 := { s with pins := s.pins.filter fun p => !f p }
  { s1 with l2 := s.l2.filter fun l => !(l.inv && !(s1.pins.any fun p => p.pa == l.pa)) }

/-- The operation has pinned a line. -/
def pinned (s : State) (m : MatOp) (pa : Nat) : Bool := s.pins.any fun p => p.op == m.id && p.pa == pa

/-- The line that an operation pins next, and the pins that go for it: a line of the step to come, or, when that step has all of its
lines, of the one after it. Where pins of its own stand in the way, those go whose lines the step to come has read, and then every
one, with those of the operations behind it: a row whose lines do not fit its set together is fetched line by line, so that a fetch
never waits on itself (R293; log 17). -/
def nextPin (s : State) (m : MatOp) : Option (Nat × List Pin) :=
  match (openLines s m).filter fun pa => !pinned s m pa && !m.got.contains pa with
  | [] =>
    if m.step + 1 < m.count then
      ((matLines s m (m.step + 1)).find? fun pa => !pinned s m pa && pinRoom s m.quad pa).map fun pa => (pa, [])
    else none
  | l =>
    let without := fun (ps : List Pin) => (l.find? fun pa =>
      pinRoom { s with pins := s.pins.filter fun p => !ps.contains p } m.quad pa).map fun pa => (pa, ps)
    let spare := s.pins.filter fun p => p.op == m.id && !(openLines s m).contains p.pa
    let own := s.pins.filter fun p => p.quad == m.quad && decide (m.id ≤ p.op)
    ((without []).orElse fun _ => without spare).orElse fun _ => without own

/-- The lines of a row are fetched: each is pinned, or has been while the step was fetched (R293). -/
def rowPinned (s : State) (m : MatOp) (isB : Bool) (u i : Nat) : Bool :=
  (rowLines s m isB u i).all fun pa => pinned s m pa || m.got.contains pa

/-- The rows that can be read now: their lines are fetched, their home slices take the reads in this clk, their operand holds its ring
slot (R243, R292, R293). -/
def readyRows (s : State) (m : MatOp) : List (Bool × Nat × Nat) :=
  [false, true].flatMap fun b =>
    if m.isRing b && (m.slotOf b).isNone then []
    else (m.openUnits b).flatMap fun u => ((List.range 16).filter fun i => !m.hasRow b u i && rowPinned s m b u i &&
      (rowLines s m b u i).all fun pa => missRoom s pa && inTurn s 0 pa (m.quad + 1)).map fun i => (b, u, i)

/-- Rows read into the collector; the answer says whether one of them waits for a frame. A slot is freed with the last row of its last
step tile. -/
def collect (id : Nat) : List (Bool × Nat × Nat) → State → State × Bool
  | [], s => (s, false)
  | (b, u, i) :: rest, s =>
    match s.matOps.find? fun o => o.id == id with
    | none => (s, false)
    | some m =>
      match readRow s m b u i with
      | (_, .error .wait) => ((collect id rest s).1, true)
      | (s1, .error _) => collect id rest s1
      | (s1, .ok r) =>
        let m1 := { m with rows := m.rows ++ [r] }
        let s2 := modMat s1 id fun o => { o with rows := o.rows ++ [r] }
        collect id rest (if m1.hasUnit b u then freeSlot s2 m1 b u else s2)

/-! ### The tiles -/

/-- The status bits of a tile from gathered flags: OOB 1, NX 2, OF 8, NV 16, QERR 32, FAULT 64, SPX 128 (R300). -/
def tileStat (st : Nat) : Nat :=
  bitOf (st.testBit 6) * 2 ^ 30 + bitOf (st.testBit 7) * 2 ^ 29 + bitOf (st.testBit 5) * 2 ^ 28 + bitOf (st.testBit 0) * 2 ^ 27 +
    bitOf (st.testBit 4) * 2 ^ 26 + bitOf (st.testBit 3) * 2 ^ 25 + bitOf (st.testBit 1) * 2 ^ 24

/-- Status bits ORed into a tile's status. -/
def orStat (w : Wave) (t v : Nat) : Wave := { w with tstat := tset w.tstat t (tget w.tstat t ||| BitVec.ofNat 32 v) }

/-- STEPS of a tile's status set. -/
def setSteps (w : Wave) (t n : Nat) : Wave :=
  { w with tstat := tset w.tstat t ((tget w.tstat t &&& 0xFFFE0000) ||| BitVec.ofNat 32 (n % 2 ^ 17)) }

/-- The tiles of an accumulator: the even/odd pair of binary64 (R280). -/
def accTiles (f64 : Bool) (t : Nat) : List Nat := if f64 then [t, t + 1] else [t]

/-- BUSY (R300): an operation on the tile has issued and not finished. -/
def tileBusy (s : State) (w : Wave) (t : Nat) : Bool :=
  (w.marks.any fun m => m.reg = .tile t) ||
    s.engOps.any fun o => o.wave == w.uid && o.kind = .msta && (accTiles (decide (hFmt o.hd = 0)) o.tile).contains t

end Sys2Proof.Machine
end

