-- ==== Sys2Proof/Machine/Matrix.lean ====
section
/-!
DEFINITION. The matrix instructions (R280 to R307): MLOOP, MZERO, MLDA, MSTA, MRD, MWR, MSTAT, and the events of the
matrix unit.
-/
namespace Sys2Proof.Machine

/-! ### MLOOP (R284, R285) -/

/-- Both pairs of an MLOOP validated (R284 step 3): the SPARSE test of B is left to step 4. -/
def mloopPorts (s : State) (la lb : Layout) (count : Nat) : Verdict :=
  let ha := handleOf s s.w.ctx la
  let hb := handleOf s s.w.ctx lb
  let steps := fun (h : BitVec 256) (n : Nat) => if hSpace h = 6 then none else some n
  let check := fun l (h : BitVec 256) p n => slotRange s l h p (portCheck (hasTrestle s.part) (wavBytes s.rd) l h p false (steps h n))
  let v := check la ha 0 count
  if v.verd = 2 then v
  else v.worse (check lb (hb &&& ~~~BitVec.ofNat 256 (2 ^ 217)) 1 (if hSparse ha then 2 * count else count))

/-- The ring descriptor of an operand (R292): matrix cause 0x05. -/
def ringOperand (s : State) (h : BitVec 256) : Option (Nat × Nat) :=
  if hSpace h ≠ 6 then none
  else match ringDesc s h with
    | none => some (0x0A, 5)
    | some d => if d.feed ≠ hfld h 20 4 then some (0x0A, 5) else none

/-- Steps 4 to 6 of R284: the class and cause of the first that fails. -/
def mloopChecks (s : State) (ty : Nat) (la lb : Layout) (count : Nat) : Option (Nat × Nat) :=
  let ha := handleOf s s.w.ctx la
  let hb := handleOf s s.w.ctx lb
  if !mlFmt ty (hFmt ha) false || !mlFmt ty (hFmt hb) true || hSparse hb ||
      (hSparse ha && (decide (hSpace ha = 6) || decide (5 ≤ ty))) then some (0x0A, 4)
  else match ringOperand s ha, ringOperand s hb with
    | some x, _ => some x
    | none, some x => some x
    | none, none =>
      if (hSpace ha ≠ 6 ∧ kmExt la < count) ∨ (hSpace hb ≠ 6 ∧ kmExt lb < (if hSparse ha then 2 * count else count)) then
        some (0x0A, 3)
      else none

/-- A validated MLOOP joins its quadrant's queue (R284, R296). One with a count of 0 retires here; it discards the latch of the
operation before it (R294): what that one leaves, and what it has left so far. -/
def mloopQueue (s : State) (ty : Nat) (f : MloopF) (la lb : Layout) (count : Nat) : State :=
  let t := f.t.toNat
  let s0 := s.modW fun w => setSteps w t 0
  if count = 0 then
    let mine := s0.matOps.filter fun o => o.quad == s.w.quad && (s.findWave o.wave).isSome
    (match mine.getLast? with
      | some o => modMat (if o.begun then setLatch s0 s.w.quad none else s0) o.id fun x => { x with latch := none }
      | none => setLatch s0 s.w.quad none).done
  else
    let m : MatOp :=
      { id := s.nextOp, wave := s.w.uid, launch := s.w.launch, ctx := s.w.ctx, quad := s.w.quad, ty := ty, tile := t,
        la := la, ha := handleOf s s.w.ctx la, lb := lb, hb := handleOf s s.w.ctx lb, count := count, step := 0, busy := false,
        result := [], rflags := 0, flag := flagSel s.w f.fs, latch := if f.x then some f.rb else none, reuseA := false,
        reuseB := false, slotA := none, slotB := none, seq := s.nextOp, token := s.w.token, kept := [], waiting := false,
        fwd := !s.w.scSys, rows := [], begun := false }
    (({ s0 with matOps := s0.matOps ++ [m], nextOp := s0.nextOp + 1 } : State).modW fun w =>
      markEng (addMarks (flagInc w m.flag) ((accTiles (decide (ty = 6)) t).map fun i =>
        ({ reg := .tile i, pass := none, op := some m.id } : Mark))) m.flag).done

/-- MLOOP of a type (R284). -/
def mloop (s : State) (ty : Nat) (f : MloopF) : State :=
  let c := (sReg s.rd f.s.toNat).toNat
  let la := layOf s.rd f.la.toNat
  let lb := layOf s.rd f.lb.toNat
  if s.rd.exec ≠ s.rd.live then trapNow s 0x0A 1
  else if c / 2 ^ 17 ≠ 0 then trapNow s 0x0A 2
  else if 65536 < c then trapNow s 0x0A 3
  else
    let v := mloopPorts s la lb c
    let s1 := setCost s v
    if v.verd = 2 then rejectPair s1 v
    else match mloopChecks s1 ty la lb c with
      | some (cls, code) => trapNow s1 cls code
      | none => mloopQueue s1 ty f la lb c

/-- MLOOP.bf16 (R284). -/
def execMloopBf16 (f : MloopF) (s : State) : Out := .next (mloop s 0 f)

/-- MLOOP.f16 (R284). -/
def execMloopF16 (f : MloopF) (s : State) : Out := .next (mloop s 1 f)

/-- MLOOP.e4m3 (R284). -/
def execMloopE4m3 (f : MloopF) (s : State) : Out := .next (mloop s 2 f)

/-- MLOOP.e5m2 (R284). -/
def execMloopE5m2 (f : MloopF) (s : State) : Out := .next (mloop s 3 f)

/-- MLOOP.i8 (R284, R288). -/
def execMloopI8 (f : MloopF) (s : State) : Out := .next (mloop s 4 f)

/-- MLOOP.hx4 (R284, R290). -/
def execMloopHx4 (f : MloopF) (s : State) : Out := .next (mloop s 5 f)

/-- MLOOP.f64 (R284, R289). -/
def execMloopF64 (f : MloopF) (s : State) : Out := .next (mloop s 6 f)

/-! ### Moving tiles (R301 to R304) -/

/-- MZERO (R302). -/
def execMzero (f : MzeroF) (s : State) : Out :=
  let t := f.t.toNat
  .next (s.modW fun w =>
    addMarks { w with tiles := tdrop (fun k => decide (k / 256 = t)) w.tiles } [{ reg := .tile t, pass := none, op := none }]).done

/-- MSTAT (R301): the status is read and its bits [30:24] cleared. -/
def execMstat (f : MstatF) (s : State) : Out :=
  let t := f.t.toNat
  let v := tget s.w.tstat t ||| (if tileBusy s s.w t then 0x80000000 else 0)
  .next (s.modW fun w =>
    addMarks (sSet { w with tstat := tset w.tstat t (tget w.tstat t &&& 0x80FFFFFF) } f.s.toNat v) (sMarks w f.s.toNat 1 none)).done

/-- The registers of a tile move in one slot (R303): the register offsets and element numbers. -/
def moveElems (width slot : Nat) : List (Nat × Nat) := (List.range (256 / width)).map fun r => (r, r * width + slot)

/-- A move handed over (R303): it completes later, and marks what it writes until then. -/
def startMove (s : State) (toTile fs : Bool) (marks : List RegId) (f : Wave → Wave) : State :=
  let id := s.nextOp
  let fl := flagSel s.w fs
  (({ s with moves := s.moves ++ [{ wave := s.w.uid, toTile := toTile, flag := fl, id := id }], nextOp := id + 1 } : State).modW
    fun w => addMarks (flagInc (f w) fl) (marks.map fun r => { reg := r, pass := none, op := some id })).done

/-- MRD (R303). -/
def execMrd (f : MmovF) (s : State) : Out :=
  let t := f.t.toNat
  .next (startMove s false f.fs ((List.range (256 / s.w.width)).map fun r => vReg s.w (f.v + BitVec.ofNat 7 r)) fun w =>
    s.rd.slots.foldl (fun w i => (moveElems s.w.width i).foldl (fun w x =>
      vWrite w (f.v + BitVec.ofNat 7 x.1) i (tget s.rd.tiles (t * 256 + x.2))) w) w)

/-- MWR (R303). -/
def execMwr (f : MmovF) (s : State) : Out :=
  let t := f.t.toNat
  .next (startMove s true f.fs [.tile t] fun w =>
    s.rd.slots.foldl (fun w i => (moveElems s.w.width i).foldl (fun w x =>
      { w with tiles := tset w.tiles (t * 256 + x.2) (vRead s.rd (f.v + BitVec.ofNat 7 x.1) i) }) w) w)

/-- The formats of MLDA and MSTA (R304). -/
def mldFmt (c : Nat) : Bool := c = 0 || c = 1 || c = 2 || c = 3 || c = 10 || c = 14

/-- The checks of MLDA and MSTA after the port (R285, R292, R304): the class and cause of the first that fails. The ring of
an MSTA is judged as a ring operand is (log 16). -/
def mldChecks (s : State) (t : Nat) (l : Layout) : Option (Nat × Nat) :=
  let h := handleOf s s.w.ctx l
  if l.count ≠ 256 ∨ mldFmt (hFmt h) = false ∨ (hFmt h = 0 ∧ (t % 2 ≠ 0 ∨ s.w.acc ≤ t + 1)) then some (0x0A, 6)
  else ringOperand s h

/-- MLDA (R304). -/
def execMlda (f : MldF) (s : State) : Out :=
  let l := layOf s.rd f.la.toNat
  let v := portOf s s.rd l 2 false none
  let s1 := setCost s v
  let t := f.t.toNat
  .next (if v.verd = 2 then rejectPair s1 v
    else match mldChecks s1 t l with
      | some (cls, code) => trapNow s1 cls code
      | none =>
        let op := { newEng s1 .mlda 0xA9 l l none f.fs 0 with hd := 0, tile := t }
        startEng (s1.modW fun w => addMarks w ((accTiles (decide (hFmt op.ha = 0)) t).map fun i =>
          ({ reg := .tile i, pass := none, op := some op.id } : Mark))) op)

/-- The tile values that an MSTA stores, as the word reads them at issue (R29). -/
def mstaVals (w : Wave) (t : Nat) (f64 : Bool) : Table 64 :=
  (List.range 256).filterMap fun e =>
    let x := pair64 (tget w.tiles (t * 256 + e)) (if f64 then tget w.tiles ((t + 1) * 256 + e) else 0)
    if x = 0 then none else some (e, x)

/-- MSTA (R304, R306). -/
def execMsta (f : MldF) (s : State) : Out :=
  let l := layOf s.rd f.la.toNat
  let h := handleOf s s.w.ctx l
  let v := slotRange s l h 3 (portOf s s.rd l 3 true none)
  let s1 := setCost s v
  let t := f.t.toNat
  .next (if v.verd = 2 then rejectPair s1 v
    else if s.w.token.isSome && hSpace h = 5 then trapNow s1 0x0A 7
    else match mldChecks s1 t l with
      | some (cls, code) => trapNow s1 cls code
      | none => startEng s1 { newEng s1 .msta 0xAA l l none f.fs 0 with
          tile := t, fpv := mstaVals s.rd t (decide (hFmt h = 0)) })

/-! ### The events of the unit -/

/-- The operation at the head of a quadrant's queue (R280): of a wave that is resident. -/
def matHead (s : State) (quad : Nat) : Option MatOp :=
  s.matOps.find? fun o => o.quad == quad && (s.findWave o.wave).isSome

/-- The operation behind the head of a quadrant's queue: its operand fetch overlaps the head's steps (R280). -/
def matNext (s : State) (quad : Nat) : Option MatOp :=
  ((s.matOps.filter fun o => o.quad == quad && (s.findWave o.wave).isSome).drop 1).head?

/-- An operation will find an operand in the latch that the operation ahead of it leaves (R294). -/
def latchAhead (h m : MatOp) (isB : Bool) : Bool :=
  decide (h.latch = some isB) && !h.isRing isB && h.wave == m.wave && h.ty == m.ty && h.lay isB == m.lay isB && h.hnd isB == m.hnd isB &&
    decide (m.count ≤ min h.count 64)

/-- The operation behind the head, with the operands that it will not fetch. -/
def foreseen (h m : MatOp) : MatOp := { m with reuseA := latchAhead h m false, reuseB := latchAhead h m true }

/-- An operation may still ask for slots of a ring (R292). -/
def asksLeft (s : State) (h : MatOp) (pos : Nat) : Bool :=
  !(h.busy && decide (h.step + 1 = h.count)) && [false, true].any fun b =>
    h.isRing b && matRing s h b == some pos &&
      !((h.slotOf b).isSome && decide ((h.tiles b - 1) / kmExt (h.lay b) * kmExt (h.lay b) ≤ h.per b * h.step))

/-- The operation behind the head asks for or takes a ring slot: once the head asks for none of that ring any more, since slots go to
takers in the order in which they ask (R292). -/
def nextSlot (s : State) (h m : MatOp) (isB : Bool) : Bool :=
  slotCan s (foreseen h m) isB && (matRing s m isB).any fun p => !asksLeft s h p

/-- The next line that can be pinned for an operation: of the head of its queue, once it has begun, or of the operation behind it, whose
home slice takes the read (R280, R293). -/
def pinNow (s : State) (m : MatOp) : Option (Nat × List Pin) :=
  match matHead s m.quad with
  | none => none
  | some h =>
    let pin := fun (o : MatOp) => if forkMet s (m.eng false) then (nextPin s o).filter fun x => lineMay s x.1 (m.quad + 1) else none
    if h.id = m.id then (if m.begun && !m.busy then pin m else none)
    else if (matNext s m.quad).any fun o => o.id == m.id then pin (foreseen h m) else none

/-- TILE_FETCH_PIN: the tile fetch unit pins the next line of its quadrant's operation (R293). A line of the step to come whose pin goes
for it counts as fetched. -/
def execTileFetchPin (op : Nat) (s : State) : Out :=
  .next (match s.matOps.find? fun o => o.id == op with
    | none => s
    | some m => match pinNow s m with
      | none => s
      | some (pa, spare) =>
        let s0 := modMat s m.id fun o => { o with got := o.got ++ (spare.filter fun p => p.op == m.id).map fun p => p.pa }
        let s1 := unpin s0 fun p => spare.contains p
        lineRead { s1 with pins := s1.pins ++ [{ quad := m.quad, op := m.id, pa := pa }] } m.token pa (m.quad + 1))

/-- The operand tiles of step `m.step`: the gathered status bits and the rows of A and B. -/
def stepOperands (m : MatOp) : Nat × List FVal × List FVal :=
  let tiles := fun b => (m.units b m.step).map (m.unitOf b)
  ((tiles false ++ tiles true).foldl (fun a x => a ||| x.1) 0, (tiles false).flatMap fun x => x.2, (tiles true).flatMap fun x => x.2)

/-- Row `i` of A and row `j` of B, position by position (R286, R291): two B tiles stand one after the other. -/
def stepRows (m : MatOp) (as bs : List FVal) (i j : Nat) : List FVal × List FVal :=
  let k := (feederK (hFmt m.ha)).getD 0
  if m.sparse then
    ((as.drop (i * 2 * k)).take (2 * k), (bs.drop (j * k)).take k ++ (bs.drop (16 * k + j * k)).take k)
  else ((as.drop (i * k)).take k, (bs.drop (j * k)).take k)

/-- One element of the accumulator after the step: its code and flags (NX 1, OF 2, NV 4). -/
def stepCell (m : MatOp) (w : Wave) (as bs : List FVal) (e : Nat) : Nat × Nat :=
  let (a, b) := stepRows m as bs (e / 16) (e % 16)
  let c := (tget w.tiles (m.tile * 256 + e)).toNat
  if m.ty = 6 then stepF64 (c + (tget w.tiles ((m.tile + 1) * 256 + e)).toNat * 2 ^ 32) a b
  else if m.ty = 4 then (stepI8 c a b, 0)
  else stepSum (fdecode .f32 c) a b

/-- The accumulator after the step, keyed by element with the high words from 256 on, and the step's status bits. -/
def stepResult (m : MatOp) (w : Wave) (st : Nat) (as bs : List FVal) : Table 32 × Nat :=
  (List.range 256).foldl (fun a e =>
    let r := stepCell m w as bs e
    (tset (tset a.1 e (BitVec.ofNat 32 r.1)) (256 + e) (BitVec.ofNat 32 (r.1 / 2 ^ 32)),
      a.2 ||| (r.2 * 2 ^ 24))) ([], tileStat st)

/-- Both operand tiles of the next step are in the collector (R296). -/
def stepFull (m : MatOp) : Bool := [false, true].all fun b => (m.units b m.step).all (m.hasUnit b)

/-- The queue's head can go on with its next step (R296): the step before is written and its fork edge holds; it begins, asks for or
takes a ring slot, reads a row, or has all it needs. -/
def stepCan (s : State) (m : MatOp) : Bool :=
  !m.busy && decide (m.step < m.count) && forkMet s (m.eng false) &&
    (!m.begun || slotCan s m false || slotCan s m true || !(readyRows s m).isEmpty || stepFull m)

/-- A matrix operation begins to wait for a frame; the Keystone core is told once (R275, R305). -/
def matWait (s : State) (m : MatOp) : State :=
  if m.waiting then s
  else
    let s1 := modMat s m.id fun x => { x with waiting := true }
    { s1 with reports := s1.reports ++ [.escalation m.launch m.wave 0 0 (fcause 7 3 6 true 3 0) 0 0] }

/-- The step whose operand tiles are in the collector begins (R286, R296): its step tiles enter the latch, its result is formed, and the
pins go of the lines that no later step uses. -/
def startStep (s : State) (m : MatOp) (w : Wave) : State :=
  let (st, as, bs) := stepOperands m
  let r := stepResult m w st as bs
  let s1 := [false, true].foldl (fun s b =>
    if m.reuse b then s else (m.units b m.step).foldl (fun s u => fillLatch s m b u (m.unitOf b u)) s) s
  unpin (modMat s1 m.id fun o => { o with busy := true, waiting := false, rows := [], got := [], result := r.1, rflags := r.2 })
    fun p => p.op == m.id && !((List.range (m.count - m.step - 1)).any fun d => (matLines s m (m.step + 1 + d)).contains p.pa)

/-- The operation behind the head of a quadrant's queue can go on with the fetch of its first step's operands (R280). -/
def nextCan (s : State) (quad : Nat) : Bool :=
  match matHead s quad, matNext s quad with
  | some h, some m => forkMet s (m.eng false) &&
      (nextSlot s h m false || nextSlot s h m true || !(readyRows s (foreseen h m)).isEmpty)
  | _, _ => false

/-- The operation behind the head fetches what it can of its first step's operands (R280). -/
def fetchNext (s : State) (quad : Nat) : State :=
  if !nextCan s quad then s
  else match matHead s quad, matNext s quad with
    | some h, some m =>
      let at0 := fun (s : State) => foreseen h ((s.matOps.find? fun o => o.id == m.id).getD m)
      let s1 := if nextSlot s h m false then takeSlot s (at0 s) false else s
      let s2 := if nextSlot s1 h (at0 s1) true then takeSlot s1 (at0 s1) true else s1
      let (s3, wait) := collect m.id (readyRows s2 (at0 s2)) s2
      if wait then matWait s3 (at0 s3) else s3
    | _, _ => s

/-- MATRIX_STEP_START: the quadrant's operation reads what it can of its next step's operands into the collector; once it has both
operand tiles, the step begins (R286, R296). Where it cannot go on, the operation behind it fetches (R280). -/
def execMatrixStepStart (quad : Nat) (s : State) : Out :=
  .next (match matHead s quad with
    | none => s
    | some m0 =>
      if !stepCan s m0 then fetchNext s quad
      else
        let at0 := fun (s : State) => (s.matOps.find? fun o => o.id == m0.id).getD m0
        let s1 := if m0.begun then s else beginMat s m0
        let s2 := takeSlot s1 (at0 s1) false
        let s3 := takeSlot s2 (at0 s2) true
        let (s4, wait) := collect m0.id (readyRows s3 (at0 s3)) s3
        if stepFull (at0 s4) then
          (match s.findWave m0.wave with
            | some w => startStep s4 (at0 s4) w
            | none => s4)
        else if wait then matWait s4 m0 else s4)

/-- The result of a step written to the tile, its flags ORed into the status (R287, R300). -/
def writeStep (m : MatOp) (w : Wave) : Wave :=
  let w1 := { w with tiles := (List.range 256).foldl (fun t e =>
    let t1 := tset t (m.tile * 256 + e) (tget m.result e)
    if m.ty = 6 then tset t1 ((m.tile + 1) * 256 + e) (tget m.result (256 + e)) else t1) w.tiles }
  orStat (setSteps w1 m.tile (m.step + 1)) m.tile m.rflags

/-- MATRIX_STEP_RESULT: the step's result is written; after the last step the MLOOP retires (R296). MLSTEP's V ends with
the stopped MLOOP (R298). -/
def execMatrixStepResult (quad : Nat) (s : State) : Out :=
  .next (match matHead s quad with
    | none => s
    | some m =>
      if !m.busy then s
      else
        let s1 := (modMat s m.id fun o => { o with busy := false, step := o.step + 1, result := [], rflags := 0 }).modAny m.wave (writeStep m)
        if m.step + 1 < m.count then s1
        else
          (unpin { s1 with matOps := s1.matOps.filter fun o => o.id != m.id } fun p => p.op == m.id).modAny m.wave fun w =>
            { clearMarks (flagDec w m.flag) m.id with mlstep := w.mlstep &&& 0x7FFFFFFF })

/-- TILE_MOVE_COMPLETE: an MRD or MWR of the wave completes (R303). -/
def execTileMoveComplete (wave idx : Nat) (s : State) : Out :=
  .next (match (s.moves.filter fun m => m.wave == wave)[idx]? with
    | none => s
    | some m => ({ s with moves := s.moves.filter fun x => x.id != m.id }).modAny wave fun w => clearMarks (flagDec w m.flag) m.id)

/-- Element `t` of an MLDA into its tile (R304): 8-byte elements fill the pair; one outside BOUND or failing reads as +0 (R305). -/
def ldaElem (op : EngOp) (s : State) (t : Nat) : State × Except EFail Unit :=
  let put := fun (s1 : State) (raw : Nat) =>
    let v := if hFmt op.ha = 2 ∨ hFmt op.ha = 3 then (toFloat .f32 .rne false (cvtSrc (hFmt op.ha) raw)).1 else raw
    (s1.modAny op.wave fun w =>
      let ts := tset w.tiles (op.tile * 256 + t) (BitVec.ofNat 32 v)
      { w with tiles := if hFmt op.ha = 0 then tset ts ((op.tile + 1) * 256 + t) (BitVec.ofNat 32 (v / 2 ^ 32)) else ts }, Except.ok ())
  match elemRead s op op.la op.ha (coordsOf op.la.modes t) 0 with
  | (s1, .ok raw) => put (if raw.isNone then addStat s1 op.id 1 else s1) (raw.getD 0)
  | (s1, .error (.flt cls code va)) => put (engFault s1 op cls code va) 0
  | (s1, .error e) => (s1, .error e)

/-- Element `t` of an MSTA (R304). -/
def staElem (op : EngOp) (s : State) (t : Nat) : State × Except EFail Unit :=
  let x := (tget op.fpv t).toNat
  let r := if hFmt op.hd = 2 ∨ hFmt op.hd = 3 then valueTo (hFmt op.hd) false (fdecode .f32 (x % 2 ^ 32))
    else if hFmt op.hd = 0 then (x, 0) else (x % 2 ^ 32, 0)
  elemWrite (addStat s op.id (statOf r.2)) op op.ld op.hd (coordsOf op.ld.modes t) 0 r.1

/-- A ring slot is free for an operation that needs one. -/
def slotFree (s : State) (op : EngOp) : Bool :=
  match ringPos s op with
  | some p => decide (0 < (ringOf (posRead s op.ringCore p)).free)
  | none => true

/-- An MLDA or MSTA can go on: its fork edge holds, and it reserves its ring slot or moves an element; or its writes are performed and
its ring slot is next to be filled. -/
def tlsCan (s : State) (op : EngOp) : Bool :=
  (op.kind = .mlda || op.kind = .msta) && (s.findWave op.wave).isSome &&
    (if op.left.isEmpty then !(s.held.any fun h => h.op == op.id) && (match ringPos s op with
        | some p => decide (op.slot = some (ringOf (posRead s op.ringCore p)).nextFill)
        | none => true)
     else forkMet s op && (slotHeld op || slotFree s op))

/-- TILE_LOAD_STORE_COMPLETE: an MLDA or MSTA reserves its ring slot, moves its next element, or, when its writes are performed, ends,
and its marks and flag fall (R245, R304, R305). -/
def execTileLoadStoreComplete (op : Nat) (s : State) : Out :=
  .next (match s.engOps.find? fun o => o.id == op with
    | none => s
    | some o =>
      if !tlsCan s o then s
      else if !o.left.isEmpty then
        (if !slotHeld o then reserveSlot s o
         else
          let (s1, t) := nextUnit s o
          pieceEnd s1 o t (thenE (if o.kind = .mlda then ldaElem o s1 t else staElem o s1 t) fun s2 _ => (s2, .ok [])))
      else
        let s1 := match ringPos s o with
          | some p => posWrite s o.ringCore p (ringOf (posRead s o.ringCore p)).fill.num
          | none => s
        ({ s1 with engOps := s.engOps.filter fun x => x.id != op }).modAny o.wave fun w =>
          clearMarks (flagDec (orStat w o.tile (tileStat o.stat)) o.flag) op)

/-- The events of the matrix units that can happen now. -/
def matrixEvents (s : State) : List Act :=
  let heads := (s.matOps.map fun m => m.quad).eraseDups.filterMap (matHead s)
  (s.matOps.filter fun m => (pinNow s m).isSome).map (fun m => execTileFetchPin m.id) ++
    (heads.filter fun m => if stepCan s m then decide (s.withheld = 0) else nextCan s m.quad).map (fun m => execMatrixStepStart m.quad) ++
    (heads.filter fun m => m.busy).map (fun m => execMatrixStepResult m.quad) ++
    s.moves.map (fun m => execTileMoveComplete m.wave 0) ++
    (s.engOps.filter (tlsCan s)).map (fun o => execTileLoadStoreComplete o.id)

end Sys2Proof.Machine
end

