-- ==== Sys2Proof/Machine/Tasks.lean ====
section
/-!
DEFINITION. Task, crew and barrier instructions (R308 to R333): SPAWN, CLOSE, the tile buffers and the dependency pen,
JOIN, LEAVE and BAR, and the events that apply them.
-/
namespace Sys2Proof.Machine

/-! ### Cords (R308, R311) -/

/-- The cord numbers that are Free. -/
def freeCords (s : State) : List Nat := (List.range 512).filter fun n => !(s.cords.any fun c => c.num == n)

/-- A Free cord's number, chosen freely among them (R316; log 18). -/
def pickCord (s : State) : Option Nat :=
  match freeCords s with
  | [] => none
  | n :: rest => some ((n :: rest).getD (Config.choose s.freeN % (rest.length + 1)) n)

/-- A cord created (R308, R311). -/
def makeCord (s : State) (num ctx launch : Nat) (entry : DWord) (plan : Plan) (range : Nat) (closed exact : Bool) : State :=
  let c : Cord :=
    { num := num, ctx := ctx, launch := launch, entry := entry, plan := plan, range := range, taken := 0, items := [],
      nextOrd := range, closed := closed, closing := [], exact := exact }
  { s with cords := s.cords ++ [c] }

/-- A bind record with V set names the cord (R344). -/
def boundCord (s : State) (cord : Nat) : Bool :=
  s.slotTable.any fun x => x.2.getLsbD 127 && decide (nbits x.2.toNat 109 9 = cord)

/-- A wave of the cord remains, resident or pre-empted, or is about to be created. -/
def cordUsed (s : State) (cord : Nat) : Bool :=
  (s.allWaves.any fun w => w.cord == cord) || (s.saved.any fun w => w.cord == cord) || boundCord s cord

/-- Closed and empty cords without a wave become Free (R311); the exact cord of a launch is held until its tiles have
resolved, as it is not Closed before (R358). -/
def reapCords (s : State) : State :=
  { s with cords := s.cords.filter fun c => !(c.closed && cordEmpty s c && !cordUsed s c.num) }

/-! ### Eligibility (R319, R322) -/

/-- A task is eligible. -/
def eligible (s : State) (ins : List Nat) (out : Option Nat) : Bool :=
  ins.all (fun i => tget s.tb i = 1) && (match out with | some i => decide (tget s.tb i = 0) | none => true)

/-! ### SPAWN (R314 to R317) -/

/-- The word is forbidden in a surrogate tile (R331): task cause 0x08. -/
def inTile (s : State) : Bool := s.w.token.isSome

/-- SPAWN's operand block (R314, R315): the operation, or the cause of the task trap. -/
def spawnOp (s : State) (f : SpawnF) (isTry : Bool) : Except Nat SpawnOp :=
  let r := fun i => (sReg s.rd (f.sa.toNat + i)).toNat
  let b := r 0
  let nin := nbits b 9 3
  let out := decide (nbits b 12 1 = 1)
  let isNew := decide (nbits b 31 1 = 1)
  let num := nbits b 0 9
  let ins := [nbits (r 1) 0 16, nbits (r 1) 16 16, nbits (r 2) 0 16, nbits (r 2) 16 16]
  let outb := nbits (r 3) 0 16
  if inTile s then .error 8
  else if nbits b 13 18 ≠ 0 ∨ 4 < nin ∨ (isNew = true ∧ num / 8 ≠ 0) ∨ nbits (r 3) 16 16 ≠ 0 ∨ ((ins.drop nin).any fun i => decide (i ≠ 0)) = true
    then .error 1
  else
    let tmpl := (s.launchOf s.w.launch).bind fun l => l.templates[num]?
    let target := s.cordOf num
    let plan : Option Plan := if isNew then tmpl.map fun t => t.2
      else target.bind fun c => if c.ctx = s.w.ctx then some c.plan else none
    match plan, s.ctxOf s.w.ctx with
    | some p, some c =>
      if !isNew && (target.any fun t => t.closed || t.closing.contains s.w.uid) then .error 3
      else if p.args < f.n.toNat then .error 4
      else if ((ins.take nin).any fun i => decide (c.tbCount ≤ i)) || (out && decide (c.tbCount ≤ outb)) then .error 5
      else .ok
        { wave := s.w.uid, launch := s.w.launch, ctx := s.w.ctx, sd := f.sd.toNat, isTry := isTry,
          tmpl := if isNew then some num else none, cord := num,
          args := (List.range f.n.toNat).map fun i => sReg s.rd (f.sa.toNat + 4 + i),
          ins := (ins.take nin).map fun i => c.tbBase + i, out := if out then some (c.tbBase + outb) else none,
          flag := flagSel s.w f.fs, seq := s.nextOp }
    | _, _ => .error 2

/-- A SPAWN or SPAWN.TRY handed over: its flag rises and SD is marked until it is accepted or refused (R317). -/
def spawnWord (s : State) (f : SpawnF) (isTry : Bool) : State :=
  match spawnOp s f isTry with
  | .error c => trapNow s 0x0B c
  | .ok o =>
    (({ s with spawns := s.spawns ++ [o], nextOp := s.nextOp + 1 } : State).modW fun w =>
      addMarks (flagInc w o.flag) (sMarks w o.sd 1 (some o.seq))).done

/-- SPAWN (R316). -/
def execSpawn (f : SpawnF) (s : State) : Out := .next (spawnWord s f false)

/-- SPAWN.TRY (R316). -/
def execSpawnTry (f : SpawnF) (s : State) : Out := .next (spawnWord s f true)

/-- Where a task goes on acceptance, or the reason that refuses it: 1 a full cord, 2 a full pen, 3 no free cord (R316). -/
inductive Accept where
  | enter
  | pen
  | refuse (reason : Nat)
deriving DecidableEq, Repr

/-- The judgement of R316 at the state as it stands. -/
def judgeSpawn (s : State) (o : SpawnOp) : Accept :=
  if o.tmpl.isSome && (freeCords s).isEmpty then .refuse 3
  else if (o.ins.isEmpty && o.out.isNone) || eligible s o.ins o.out then
    if o.tmpl.isNone && (s.cordOf o.cord).any cordFull then .refuse 1 else .enter
  else if 16384 ≤ s.pen.length then .refuse 2
  else .pen

/-- The first pending SPAWN of a wave, when its release holds (R316, R317). -/
def spawnTurn (s : State) (wave : Nat) : Option SpawnOp :=
  match s.spawns.find? fun o => o.wave == wave with
  | some o => if releaseMet s wave o.seq then some o else none
  | none => none

/-- SPAWN_ACCEPT can happen: the task is accepted, or a SPAWN.TRY is refused. -/
def spawnCan (s : State) (o : SpawnOp) : Bool :=
  match judgeSpawn s o with
  | .refuse _ => o.isTry
  | .enter => o.tmpl.isSome || cordOpen s o.cord
  | .pen => true

/-- The answer to a SPAWN: SD is written and its flag falls. -/
def answerSpawn (s : State) (o : SpawnOp) (v : Word) : State :=
  ({ s with spawns := s.spawns.filter fun x => x != o } : State).modAny o.wave fun w =>
    clearMarks (flagDec (sSetUser w o.sd [v]) o.flag) o.seq

/-- SPAWN_ACCEPT: the wave's first pending SPAWN or SPAWN.TRY is accepted, or a SPAWN.TRY refused (R316, R317). -/
def execSpawnAccept (wave : Nat) (s : State) : Out :=
  .next (match spawnTurn s wave with
    | none => s
    | some o =>
      let (cord, s1) := match o.tmpl with
        | none => (o.cord, s)
        | some k => match pickCord s, (s.launchOf o.launch).bind fun l => l.templates[k]? with
          | some n, some (entry, plan) =>
            (n, makeCord { s with freeN := s.freeN + 1 } n o.ctx o.launch entry plan 0 false false)
          | _, _ => (o.cord, s)
      let yes := BitVec.ofNat 32 (2 ^ 31 + cord)
      match judgeSpawn s o with
      | .enter => answerSpawn (enterCord s1 cord o.args) o yes
      | .pen =>
        answerSpawn { s1 with pen := s1.pen ++ [{ cord := cord, args := o.args, ins := o.ins, out := o.out, batch := 0 }] } o yes
      | .refuse r => if o.isTry then answerSpawn s o (BitVec.ofNat 32 (r * 2 ^ 28)) else s)

/-! ### CLOSE (R318) -/

/-- CLOSE (R318). -/
def execClose (f : SaF) (s : State) : Out :=
  let v := (sReg s.rd f.sa.toNat).toNat
  let n := if nbits v 31 1 = 1 then s.w.cord else nbits v 0 9
  .next (if inTile s then trapNow s 0x0B 8
    else if nbits v 9 22 ≠ 0 then trapNow s 0x0B 1
    else if !((s.cordOf n).any fun c => c.ctx == s.w.ctx) then trapNow s 0x0B 2
    else (s.modCord n fun c => { c with closing := c.closing ++ [s.w.uid] }).done)

/-- Every tile of a guarded-surrogate launch has resolved, and every exact item has entered (R358). -/
def exactDone (l : Launch) : Bool := decide (l.tileDone = ceilDiv l.range l.titems) && l.exactDue.isEmpty

/-- The exact cord of a launch that is not Closed before its tiles have resolved: a CLOSE of it waits (R318, R358). -/
def heldOpen (s : State) (c : Cord) : Bool :=
  c.exact && (s.launchOf c.launch).any fun l => l.ending.isNone && !exactDone l

/-- CORD_CLOSE_APPLY: a CLOSE on its way is applied (R318): a cord that is empty drains its parked waves (R89). -/
def execCordCloseApply (cord : Nat) (s : State) : Out :=
  .next (match s.cordOf cord with
    | none => s
    | some c =>
      if c.closing.isEmpty || heldOpen s c then s
      else reapCords (drainParked (s.modCord cord fun c => { c with closed := true, closing := [] }) cord))

/-! ### Tile buffers (R319 to R322) -/

/-- A tile-buffer word: its checks, then it is handed over (R314, R320). -/
def tbWord (s : State) (kind : Nat) (sd : BitVec 6) (sa : BitVec 6) (n : BitVec 4) (fl : Option Nat) : State :=
  let v := (sReg s.rd sa.toNat).toNat
  let cnt := n.toNat + 1
  match s.ctxOf s.w.ctx with
  | none => trapNow s 0x0B 5
  | some c =>
    if inTile s && decide (kind ≠ 2) then trapNow s 0x0B 8
    else if v / 2 ^ 16 ≠ 0 then trapNow s 0x0B 1
    else if c.tbCount < v + cnt then trapNow s 0x0B 5
    else
      let o : TbOp :=
        { wave := s.w.uid, quad := s.w.quad, kind := kind, idx := c.tbBase + v, n := cnt, sd := sd.toNat, flag := fl,
          seq := s.nextOp }
      let hold : List FenceHold := if kind = 2 then [{ wave := s.w.uid, kind := 4, sc := 3, seq := s.nextOp }] else []
      (({ s with tbOps := s.tbOps ++ [o], fences := s.fences ++ hold, nextOp := s.nextOp + 1 } : State).modW fun w =>
        addMarks (flagInc w fl) (sMarks w sd.toNat 1 (some o.seq))).done

/-- TBSET (R320). -/
def execTbset (f : TbF) (s : State) : Out := .next (tbWord s 0 f.sd f.sa f.n (flagSel s.w f.fs))

/-- TBCLR (R320). -/
def execTbclr (f : TbF) (s : State) : Out := .next (tbWord s 1 f.sd f.sa f.n (flagSel s.w f.fs))

/-- TBTEST (R320). -/
def execTbtest (f : TbtF) (s : State) : Out := .next (tbWord s 2 f.sd f.sa f.n none)

/-- A tile-buffer word can be applied: TBSET and TBCLR are releases (R321). -/
def tbMay (s : State) (o : TbOp) : Bool := decide (o.kind = 2) || releaseMet s o.wave o.seq

/-- One tile-buffer word applied (R320): SD takes the previous states. -/
def applyTb (s : State) (o : TbOp) : State :=
  let old := (List.range o.n).foldl (fun a i => a + (tget s.tb (o.idx + i)).toNat * 2 ^ i) 0
  let tb := if o.kind = 2 then s.tb
    else (List.range o.n).foldl (fun t i => tset t (o.idx + i) (if o.kind = 0 then 1 else 0)) s.tb
  ({ s with tb := tb, tbOps := s.tbOps.filter fun x => x != o } : State).modAny o.wave fun w =>
    clearMarks (flagDec (sSetUser w o.sd [BitVec.ofNat 32 old]) o.flag) o.seq

/-- The end of a clk (R322): the eligible tasks leave the pen, in the order in which they entered it, as one batch. -/
def testPen (s : State) : State :=
  { s with
    released := s.released ++ (s.pen.filter fun t => eligible s t.ins t.out).map fun t => { t with batch := s.nextOp }
    pen := s.pen.filter fun t => !eligible s t.ins t.out
    nextOp := s.nextOp + 1 }

/-- TILE_BUFFER_APPLY: the first `n` words that can be applied are applied in one clk, in port order; then the pen is tested
(R321, R322). -/
def execTileBufferApply (n : Nat) (s : State) : Out :=
  .next (
    let batch := (s.tbOps.filter (tbMay s)).take n
    if batch.isEmpty then s
    else testPen (takeTurn ((sortBy (fun a b => decide (a.quad < b.quad) || (a.quad == b.quad && decide (a.seq ≤ b.seq))) batch).foldl applyTb s) 3 0 1))

/-- The cord of a released task has room. -/
def taskFits (s : State) (t : Task) : Bool := !(s.cordOf t.cord).any cordFull

/-- The batch that enters next: that of the first released task whose cord has room. A full cord holds back only its own tasks
(R333). -/
def enterBatch (s : State) : Option Nat := (s.released.find? (taskFits s)).map fun t => t.batch

/-- Tasks enter their cords in order; one whose cord is full stays released. -/
def enterTasks (s : State) (ts : List Task) : State :=
  ts.foldl (fun s t =>
    if taskFits s t then enterCord { s with released := s.released.erase t } t.cord t.args else s) s

/-- TASK_ENTER_CORD: the tasks that left the pen at the end of one clk enter their cords, in the order in which they entered the
pen (R322). -/
def execTaskEnterCord (s : State) : Out :=
  .next (match enterBatch s with
    | none => s
    | some b => enterTasks s (s.released.filter fun t => t.batch == b))

/-! ### Crews (R324 to R330) -/

/-- The unit of a crew: the core or the cluster of a wave. -/
def crewPlace (scope quad : Nat) : Nat := if scope = 0 then coreOf quad else clusterOf (coreOf quad)

/-- A crew's identifier as a number: key and scope (R324). -/
def crewId (scope key : Nat) : Nat := key + scope * 2 ^ 16

/-- The crew of a launch at a place with an identifier. -/
def findCrew (s : State) (launch scope place key : Nat) : Option Crew :=
  s.crews.find? fun c => c.launch == launch && c.scope == scope && c.place == place && c.key == key

/-- A crew changed. -/
def modCrew (s : State) (id : Nat) (f : Crew → Crew) : State :=
  { s with crews := s.crews.map fun c => if c.id = id then f c else c }

/-- The crews that bind records with V set will create at a unit, by launch and key (R344). -/
def crewsBound (s : State) (scope place : Nat) : List (Nat × Nat) :=
  (s.slotTable.filterMap fun x =>
    let r := x.2.toNat
    let id := (nbits r 93 16, nbits r 22 16)
    if x.2.getLsbD 127 && x.2.getLsbD 39 && decide (nbits r 38 1 = scope) && crewPlace scope (x.1 / 16) == place &&
        (findCrew s id.1 scope place id.2).isNone then some id
    else none).eraseDups

/-- The unit has a free crew entry: 16 at each core and each cluster, of which placed waves will take some (R324). -/
def crewRoom (s : State) (scope place : Nat) : Bool :=
  decide ((s.crews.filter fun c => c.scope == scope && c.place == place).length + (crewsBound s scope place).length < 16)

/-- A wave becomes a member; the first one creates the crew (R325). It is not in a phase that is already open. -/
def joinCrew (s : State) (uid launch scope place key : Nat) : State :=
  match findCrew s launch scope place key with
  | some c => modCrew s c.id fun c => { c with members := c.members ++ [uid] }
  | none =>
    let c : Crew :=
      { id := s.nextOp, launch := launch, scope := scope, place := place, key := key, members := [uid], isOpen := false,
        pend := 0, inPhase := [], waiting := [], deferred := [], phase := 0, returning := [] }
    { s with crews := s.crews ++ [c], nextOp := s.nextOp + 1 }

/-- The crew that a wave is a member of. -/
def crewOf (s : State) (w : Wave) : Option Crew :=
  match w.crew with
  | none => none
  | some k => s.crews.find? fun c => c.members.contains w.uid && decide (crewId c.scope c.key = k)

/-- A crew operation handed over. -/
def sendCrew (s : State) (scope place key : Nat) (kind : CrewKind) : State :=
  let o : CrewOp :=
    { wave := s.w.uid, launch := s.w.launch, scope := scope, place := place, key := key, kind := kind, seq := s.nextOp }
  { s with crewOps := s.crewOps ++ [o], nextOp := s.nextOp + 1 }

/-- JOIN (R325): no later chain group of the wave issues until it is applied. -/
def execJoin (f : SdaF) (s : State) : Out :=
  let v := (sReg s.rd f.sa.toNat).toNat
  let scope := nbits v 16 1
  .next (if inTile s || s.w.crew.isSome then trapNow s 0x0B 6
    else if v / 2 ^ 17 ≠ 0 then trapNow s 0x0B 1
    else ((sendCrew s scope (crewPlace scope s.w.quad) (nbits v 0 16) (.join f.sd.toNat)).modW fun w =>
      { addMarks w (sMarks w f.sd.toNat 1 (some s.nextOp)) with blocked := .join, blockArg := w.pc.toNat }).done)

/-- LEAVE (R326). -/
def execLeave (s : State) : Out :=
  .next (if inTile s then trapNow s 0x0B 8
    else match crewOf s s.w with
      | none => s.done
      | some c => (sendCrew s c.scope c.place c.key .leave).done)

/-- The wave's arrival at its crew's barrier stands: it is on its way, applied, or its phase is complete. -/
def hasArrived (s : State) (c : Crew) (uid : Nat) : Bool :=
  (c.waiting.any fun x => x.1 == uid) || (c.deferred.any fun x => x.1 == uid) || (c.returning.any fun x => x.1 == uid) ||
    s.crewOps.any fun o => o.wave == uid && (match o.kind with | .bar _ => true | _ => false)

/-- BAR (R327): the wave waits for its phase; its mark carries the operation number 0. One that issues again after a trap
has arrived already (R387). -/
def execBar (f : SdF) (s : State) : Out :=
  .next (match crewOf s s.w with
    | none => trapNow s 0x0B 7
    | some c =>
      let wait := fun (s : State) => (s.modW fun w =>
        { addMarks w (sMarks w f.sd.toNat 1 (some 0)) with blocked := .bar, blockArg := w.pc.toNat }).done
      if hasArrived s c s.w.uid then wait s
      else wait (sendCrew s c.scope c.place c.key (.bar f.sd.toNat)))

/-- A crew operation can be applied (R325, R326, R329): the wave's earlier ones have been, LEAVE and BAR are releases, and a
JOIN that creates a crew finds a free entry. -/
def crewMay (s : State) (o : CrewOp) : Bool :=
  (s.crewOps.all fun p => p.wave != o.wave || decide (o.seq ≤ p.seq)) &&
    (match o.kind with
      | .join _ => (findCrew s o.launch o.scope o.place o.key).isSome || crewRoom s o.scope o.place
      | _ => releaseMet s o.wave o.seq)

/-- A crew as one number, for the order of its clk. -/
def crewTurn (o : CrewOp) : Nat := ((o.launch * 2 + o.scope) * 2 ^ 12 + o.place) * 2 ^ 16 + o.key

/-- The quadrant of an operation's wave, for port order. -/
def crewPort (s : State) (o : CrewOp) : Nat := match s.anyWave o.wave with | some w => w.quad | none => 0

/-- An arrival (R327): it opens a phase when none is open; a wave that joined after the phase opened is deferred. -/
def arriveCrew (c : Crew) (uid sd : Nat) : Crew :=
  let c1 := if c.isOpen then c else { c with isOpen := true, pend := c.members.length, inPhase := c.members }
  if c1.inPhase.contains uid then { c1 with pend := c1.pend - 1, waiting := c1.waiting ++ [(uid, sd)] }
  else { c1 with deferred := c1.deferred ++ [(uid, sd)] }

/-- A drop (R326, R327): LEAVE or retirement; the last member frees the entry. -/
def dropCrew (s : State) (id uid : Nat) : State :=
  let s1 := modCrew s id fun c => if !c.members.contains uid then c else
    { c with members := c.members.filter fun x => decide (x ≠ uid)
             pend := if c.isOpen && c.inPhase.contains uid && !(c.waiting.any fun x => x.1 == uid) then c.pend - 1 else c.pend
             inPhase := c.inPhase.filter fun x => decide (x ≠ uid)
             waiting := c.waiting.filter fun x => x.1 != uid
             deferred := c.deferred.filter fun x => x.1 != uid
             returning := c.returning.filter fun x => x.1 != uid }
  { s1 with crews := s1.crews.filter fun c => !(c.id == id && c.members.isEmpty) }

/-- The end of a clk at a crew (R327, R328): a phase with nothing pending completes, its waves return, and the deferred
arrivals open the next one. -/
def testCrew (s : State) (id : Nat) : State :=
  modCrew s id fun c =>
    if c.isOpen && decide (c.pend = 0) then
      c.deferred.foldl (fun c x => arriveCrew c x.1 x.2)
        { c with returning := c.returning ++ c.waiting.map fun x => (x.1, x.2, c.phase), waiting := [], deferred := [],
                 inPhase := [], phase := (c.phase + 1) % 65536, isOpen := false }
    else c

/-- One crew operation applied. A wave that has left its crew has nothing to arrive at. -/
def applyCrew (s : State) (o : CrewOp) : State :=
  let s1 := { s with crewOps := s.crewOps.filter fun p => p != o }
  match o.kind with
  | .join sd =>
    let k := crewId o.scope o.key
    (joinCrew s1 o.wave o.launch o.scope o.place o.key).modAny o.wave fun w =>
      { clearMarks (sSetUser w sd [BitVec.ofNat 32 k]) o.seq with crew := some k, blocked := .none }
  | .bar sd => match findCrew s1 o.launch o.scope o.place o.key with
    | some c => if c.members.contains o.wave then modCrew s1 c.id fun c => arriveCrew c o.wave sd else s1
    | none => s1
  | _ => match findCrew s1 o.launch o.scope o.place o.key with
    | some c => (dropCrew s1 c.id o.wave).modAny o.wave fun w => { w with crew := none }
    | none => s1

/-- The operations on their way to the crew that the `k`-th one names, which can be applied. -/
def crewBatch (s : State) (k : Nat) : List CrewOp :=
  match s.crewOps[k]? with
  | none => []
  | some o => s.crewOps.filter fun p =>
      p.launch == o.launch && p.scope == o.scope && p.place == o.place && p.key == o.key && crewMay s p

/-- CREW_OP_APPLY: the first `n` operations that can reach a crew are applied in one clk, in port order; completion is then
tested once (R327, R328). `crew` is the place of one of them among those on their way. -/
def execCrewOpApply (crew n : Nat) (s : State) : Out :=
  .next (
    let batch := (crewBatch s crew).take n
    match batch with
    | [] => s
    | o :: _ =>
      let le := fun a b => decide (crewPort s a < crewPort s b) || (crewPort s a == crewPort s b && decide (a.seq ≤ b.seq))
      let s1 := takeTurn ((sortBy le batch).foldl applyCrew s) 4 (crewTurn o) 1
      match findCrew s1 o.launch o.scope o.place o.key with
      | some c => testCrew s1 c.id
      | none => s1)

/-- The members of a core crew span quadrants, or the crew is a cluster crew (R329). -/
def crewWide (s : State) (c : Crew) : Bool :=
  decide (c.scope = 1) ||
    decide (1 < ((c.members.filterMap fun u => (s.anyWave u).map fun w => w.quad).eraseDups).length)

/-- BAR_RETURN: a BAR whose phase is complete returns the phase in SD (R327, R332); it acquires in a wide crew (R329). -/
def execBarReturn (wave : Nat) (s : State) : Out :=
  .next (match s.findWave wave, s.crews.find? fun c => c.returning.any fun x => x.1 == wave with
    | some w, some c => match w.blocked, c.returning.find? fun x => x.1 == wave with
      | .bar, some (_, sd, ph) =>
        let s1 := (modCrew s c.id fun c => { c with returning := c.returning.filter fun x => x.1 != wave }).modWave wave fun w =>
          { clearMarks (sSetUser w sd [BitVec.ofNat 32 ph]) 0 with blocked := .none }
        if crewWide s c then l1Drop s1 (coreOf w.quad) else s1
      | _, _ => s
    | _, _ => s)

/-- The events by which tasks enter cords that can happen now. -/
def entryEvents (s : State) : List Act :=
  ((s.spawns.map fun o => o.wave).eraseDups.filter fun u => (spawnTurn s u).any (spawnCan s)).map execSpawnAccept ++
    (match enterBatch s with
      | some b => if s.released.all fun t => t.batch != b || cordOpen s t.cord then [execTaskEnterCord] else []
      | none => [])

/-- The other events of the task hardware and the crews that can happen now. -/
def taskEvents (s : State) : List Act :=
  (s.cords.filter fun c => !c.closing.isEmpty && !heldOpen s c).map (fun c => execCordCloseApply c.num) ++
    (if inTurn s 3 0 0 then (List.range (s.tbOps.filter (tbMay s)).length).map (fun k => execTileBufferApply (k + 1)) else []) ++
    ((List.range s.crewOps.length).flatMap fun k =>
      if (s.crewOps[k]?).any fun o => inTurn s 4 (crewTurn o) 0 then
        (List.range (crewBatch s k).length).map fun n => execCrewOpApply k (n + 1)
      else []) ++
    ((s.crews.flatMap fun c => c.returning.map fun x => x.1).filter fun u =>
      (s.findWave u).any fun w => w.blocked = .bar).map execBarReturn

end Sys2Proof.Machine
end

