-- ==== Sys2Proof/Machine/Checks.lean ====
section
/-!
DEFINITION. The decode checks (R65, R66), the operands of every word, its pipe (R22), and when a chain group may issue
(R23, R35).
-/
namespace Sys2Proof.Machine

/-! ### Special registers (R364) -/

/-- The special registers of 64 bits. -/
def srWide (n : Nat) : Bool :=
  n = 0x000 || n = 0x001 || n = 0x00A || n = 0x014 || n = 0x021 || n = 0x030 || n = 0x033 || decide (0x200 ≤ n)

/-- The special registers marked "—" for user mode. -/
def srSuper (n : Nat) : Bool :=
  (decide (0x020 ≤ n) && decide (n ≤ 0x031)) || n = 0x033 || decide (0x200 ≤ n)

/-- The special registers with a writable field. -/
def srWritable (n : Nat) : Bool :=
  n = 0x009 || n = 0x013 || n = 0x014 || n = 0x020 || (decide (0x022 ≤ n) && decide (n ≤ 0x025))

/-! ### Pipes (R22) -/

/-- The words of groups 000 to 011 that run on VDP: every .f64 form of the floating-point words, the divisions, roots and
functions of every type, and CVT to or from .f64. -/
def onVdp : Instr → Bool
  | .fadd f | .fsub f | .fmul f | .ffma f | .fnma f | .fmin f | .fmax f | .fcmpEq f | .fcmpLt f | .fcmpLe f =>
    decide (f.t.toNat = 1)
  | .fclass f => decide (f.t.toNat = 1)
  | .frnd f => decide (f.t.toNat = 1)
  | .fdiv _ | .fsqrt _ | .frcp _ | .frsq _ | .sin _ | .cos _ | .exp2 _ | .log2 _ => true
  | .cvt f => decide (f.dst.toNat = 0) || decide (f.src.toNat = 0)
  | _ => false

/-- The pipe of a word by its OP group (R22, R54): 000 to 011 vector, 100 wave, 101 memory, 110 XENG, 111 CTRL. -/
def pipeOf (op : Nat) (i : Instr) : Pipe :=
  match op / 64 with
  | 4 => .wave
  | 5 => .vmem
  | 6 => .xeng
  | 7 => .ctrl
  | _ => if onVdp i then .vdp else .valu

/-- The words that transfer control (R27). -/
def isTransfer (op : Nat) : Bool :=
  (decide (0x1C0 ≤ op) && decide (op ≤ 0x1C3)) || op = 0x1C9 || op = 0x1CA || op = 0x1D7

/-! ### Operands -/

/-- The second source of a vector form. -/
def bOpd (b : BitVec 7) (x : Bool) (n : Nat) : Opd := if x then .sr b n else .vr b n

/-- Operands of a vector form with `n` registers each. -/
def rOpds (f : RBin) (n : Nat) : List Opd := [.vw f.d n, .vr f.a n, bOpd f.b f.x n]

/-- Operands of a wave form. -/
def wOpds (f : R3) (n : Nat) : List Opd := [.sw f.d n, .sr f.a n, .sr f.b n]

/-- Registers of a typed operand: a pair for .f64. -/
def tRegs (t : BitVec 2) : Nat := if t.toNat = 1 then 2 else 1

/-- Operands of a typed binary form. -/
def fOpds (f : FBin) : List Opd := [.vw f.d (tRegs f.t), .vr f.a (tRegs f.t), bOpd f.b f.x (tRegs f.t)]

/-- Operands of a typed unary form. -/
def fuOpds (f : FUn) : List Opd := [.vw f.d (tRegs f.t), .vr f.a (tRegs f.t)]

/-- Operands of a typed compare. -/
def fcOpds (f : FBin) : List Opd := [.fmask f.d, .vr f.a (tRegs f.t), bOpd f.b f.x (tRegs f.t)]

/-- Operands of a word that names a wave block by a 6-bit field. -/
def blk (s : BitVec 6) (n : Nat) : Opd := .br s.toNat n

/-- A 64-bit pair named by a 6-bit field. -/
def pairR (s : BitVec 6) : List Opd := [.br s.toNat 2, .even s.toNat]

/-- Operands of LDL and STL, but for what its handle adds. -/
def lelOpds (w : Wave) (f : LelF) : List Opd :=
  [.lr f.l.toNat, .crd f.a (layOf w f.l.toNat).modes.length f.x] ++ if f.x then [] else [.vr f.a 1]

/-- Operands of an atomic on `n` registers. -/
def atomOpds (f : MemF) (n : Nat) : List Opd := [.vw f.d n, .vr f.d n, .vr f.a 2]

/-- Operands of a data word of the engines. -/
def engOpds (f : EngF) (n : Nat) : List Opd := [.lr f.ld.toNat, .lr f.la.toNat, blk f.s n]

/-- Operands of MLOOP. -/
def mloopOpds (f : MloopF) : List Opd := [.tw f.t.toNat, .lr f.la.toNat, .lr f.lb.toNat, blk f.s 1]

/-- The operands of a word in a wave. Events have none. -/
def operands (w : Wave) : Instr → List Opd
  | .iadd f | .isub f | .imulLo f | .imulHiI32 f | .imulHiN32 f | .iminI32 f | .iminN32 f | .imaxI32 f | .imaxN32 f
  | .and f | .or f | .xor f | .shl f | .shr f | .sar f | .rot f | .bfeI32 f | .bfeN32 f
  | .dqHx4 f | .dqE4m3 f | .dqE5m2 f | .packB16 f | .bcast f | .ppop f => rOpds f 1
  | .imad f | .bfi f | .sel f | .packB8 f => .vr f.d 1 :: rOpds f 1
  | .imulWideI32 f | .imulWideN32 f | .isectList f | .isectBits f => [.vw f.d 2, .vr f.a 1, bOpd f.b f.x 1]
  | .iaddI64 f | .isubI64 f | .imulLoI64 f | .iminI64 f | .iminN64 f | .imaxI64 f | .imaxN64 f => rOpds f 2
  | .shlI64 f | .shrN64 f | .sarI64 f => [.vw f.d 2, .vr f.a 2, bOpd f.b f.x 1]
  | .iabsI32 f | .popc f | .clz f | .brev f | .mov f | .pswap f => [.vw f.d 1, .vr f.a 1]
  | .movI64 f | .iabsI64 f => [.vw f.d 2, .vr f.a 2]
  | .lea f => [.vw f.d 2, .vr f.a 2, bOpd f.b f.x 1]
  | .icmp f => [.mask f.d, .vr f.a 1, bOpd f.b f.x 1]
  | .icmpI64 f => [.mask f.d, .vr f.a 2, bOpd f.b f.x 2]
  | .movi f => [.vw f.d 1]
  | .movhi f => [.vw f.d 1, .vr f.d 1]
  | .iaddImm f => [.vw f.d 1, .vr f.d 1]
  | .iaddWave f | .isubWave f | .imulLoWave f | .imulHiI32Wave f | .imulHiN32Wave f | .iminI32Wave f | .iminN32Wave f
  | .imaxI32Wave f | .imaxN32Wave f | .andWave f | .orWave f | .xorWave f | .shlWave f | .shrWave f | .sarWave f
  | .rotWave f | .bfeI32Wave f | .bfeN32Wave f => wOpds f 1
  | .imadWave f | .bfiWave f | .selWave f => .sr f.d 1 :: wOpds f 1
  | .imulWideI32Wave f | .imulWideN32Wave f => [.sw f.d 2, .sr f.a 1, .sr f.b 1]
  | .iaddI64Wave f | .isubI64Wave f | .imulLoI64Wave f | .iminI64Wave f | .iminN64Wave f | .imaxI64Wave f
  | .imaxN64Wave f => wOpds f 2
  | .shlI64Wave f | .shrN64Wave f | .sarI64Wave f => [.sw f.d 2, .sr f.a 2, .sr f.b 1]
  | .iabsI32Wave f | .popcWave f | .clzWave f | .brevWave f | .movWave f => [.sw f.d 1, .sr f.a 1]
  | .movI64Wave f | .iabsI64Wave f => [.sw f.d 2, .sr f.a 2]
  | .leaWave f => [.sw f.d 2, .sr f.a 2, .sr f.b 1]
  | .icmpWave f => [.qw f.p.toNat, .sr f.a 1, .sr f.b 1]
  | .icmpI64Wave f => [.qw f.p.toNat, .sr f.a 2, .sr f.b 2]
  | .moviWave f => [.sw f.d 1]
  | .movhiWave f => [.sw f.d 1, .sr f.d 1]
  | .iaddImmWave f => [.sw f.d 1, .sr f.d 1]
  | .fadd f | .fsub f | .fmul f | .fmin f | .fmax f | .fdiv f => fOpds f
  | .ffma f | .fnma f => .vr f.d (tRegs f.t) :: fOpds f
  | .fcmpEq f | .fcmpLt f | .fcmpLe f => fcOpds f
  | .fclass f => [.vw f.d 1, .vr f.a (tRegs f.t)]
  | .frnd f => [.vw f.d (tRegs f.t), .vr f.a (tRegs f.t)]
  | .fsqrt f | .frcp f | .frsq f | .sin f | .cos f | .exp2 f | .log2 f => fuOpds f
  | .cvt f => [.vw f.d (if code64 f.dst.toNat then 2 else 1), .vr f.a (if code64 f.src.toNat then 2 else 1)]
  | .qntHx4 f => [.vw f.d 1, .vr f.a 1, .vw f.b 1]
  | .qntE4m3 f | .qntE5m2 f => [.vw f.d 1, .vr f.a 1, .vw f.b 1]
  | .spl3 f => [.vrun f.d 3 true, .vr f.a 1]
  | .unpack f => [.vw f.d 1, .vr f.a 1]
  | .shfl f => [.vw f.d 1, .vr f.a 1, bOpd f.b f.x 1]
  | .ballot f => [.mask f.d, .vr f.a 1]
  | .voteAny f | .voteAll f | .voteUni f => [.qw f.p.toNat, .vr f.a 1]
  | .wredAdd f | .wredMin f | .wredMax f =>
    if f.t.toNat = 1 then [.sd f.d 1, .even f.d.toNat, .bw (f.d.toNat + 1) 1, .vr f.a 2] else [.sd f.d 1, .vr f.a 1]
  | .wredAddI32 f | .wredAndB32 f | .wredOrB32 f | .wredMinI32 f | .wredMaxI32 f | .wredMinN32 f | .wredMaxN32 f =>
    [.sd f.d 1, .vr f.a 1]
  | .wredAddI64 f => [.sd f.d 1, .even f.d.toNat, .bw (f.d.toNat + 1) 1, .vr f.a 2]
  | .ld f => [.vw f.d (max 1 ((ldSize f.z.toNat).1 / 4)), .vr f.a 2]
  | .st f => [.vr f.d (max 1 (stSize f.z.toNat / 4)), .vr f.a 2]
  | .lds f => [.vw f.d (max 1 ((ldSize f.z.toNat).1 / 4)), .vr f.a 1]
  | .sts f => [.vr f.d (max 1 (stSize f.z.toNat / 4)), .vr f.a 1]
  | .ldl f => .vw f.d 1 :: lelOpds w f
  | .stl f => .vr f.d 1 :: lelOpds w f
  | .ldw f => [.sd f.d (2 ^ (f.z.toNat - 2)), .sr f.a 2]
  | .atomAddI32 f | .atomAddF32 f | .atomMinI32 f | .atomMaxI32 f | .atomMinN32 f | .atomMaxN32 f | .atomAndB32 f
  | .atomOrB32 f | .atomXorB32 f | .atomExchB32 f | .poll f => atomOpds f 1
  | .atomAddI64 f | .atomAddF64 f | .atomExchB64 f => atomOpds f 2
  | .casB32 f => [.vw f.d 1, .vrun f.d 2 false, .vr f.a 2]
  | .casB64 f => [.vw f.d 2, .vr f.d 4, .vr f.a 2]
  | .pref f => [.vr f.a 2]
  | .cwb f | .cinv f => [.vr f.a 2]
  | .ldef f => [.lw f.ld.toNat, blk f.s 13]
  | .lchain f => [.lw f.ld.toNat, .lr f.la.toNat, .lr f.lb.toNat]
  | .lpart f => [.lw f.ld.toNat, .lr f.la.toNat, blk f.s 1]
  | .ltrans f | .lswz f => [.lw f.ld.toNat, .lr f.la.toNat, blk f.s 1]
  | .lflat f => [.lw f.ld.toNat, .lr f.la.toNat]
  | .lget f | .lchk f => [.lr f.la.toNat, .bw f.s.toNat 1]
  | .hset f => [blk f.s 9]
  | .tcopy f => [.lr f.ld.toNat, .lr f.la.toNat, blk f.s 2]
  | .gather f | .scatter f => .even f.s.toNat :: engOpds f 4
  | .mcread f => engOpds f 2
  | .trsend f => engOpds f 1
  | .rbinit f => [blk f.s 3]
  | .rbpop f => [blk f.s 1, .bw (f.s.toNat + 1) 1]
  | .rbfree f | .codrop f => [blk f.s 1]
  | .coinit f => [blk f.s 2]
  | .coexpect f | .coarrive f => [blk f.s 2]
  | .cowait f | .cotest f => [blk f.s 2, .bw (f.s.toNat + 2) 1]
  | .mloopBf16 f | .mloopF16 f | .mloopE4m3 f | .mloopE5m2 f | .mloopI8 f | .mloopHx4 f => mloopOpds f
  | .mloopF64 f => mloopOpds f ++ [.tw (f.t.toNat + 1), .teven f.t.toNat]
  | .mzero f => [.tw f.t.toNat]
  | .mlda f => [.tw f.t.toNat, .lr f.la.toNat]
  | .msta f => [.tr f.t.toNat, .lr f.la.toNat]
  | .mrd f => [.tr f.t.toNat, .vblk f.v (256 / w.width) true]
  | .mwr f => [.tw f.t.toNat, .vblk f.v (256 / w.width) false]
  | .mstat f => [.tnum f.t.toNat, .bw f.s.toNat 1]
  | .spawn f | .spawnTry f => [.bw f.sd.toNat 1, blk f.sa (4 + f.n.toNat)]
  | .close f => [blk f.sa 1]
  | .verdict f => pairR f.sa
  | .tbset f | .tbclr f => [.bw f.sd.toNat 1, blk f.sa 1]
  | .tbtest f => [.bw f.sd.toNat 1, blk f.sa 1]
  | .join f => [.bw f.sd.toNat 1, blk f.sa 1]
  | .bar f => [.bw f.sd.toNat 1]
  | .launch f => .bw f.sd.toNat 1 :: pairR f.sa
  | .bra f => if f.cond.toNat = 1 ∨ f.cond.toNat = 2 then [.qr f.qp.toNat] else []
  | .claimTry f => [.bw f.sd.toNat 1]
  | .srd f => if srWide f.srn.toNat then [.bw f.s.toNat 2, .even f.s.toNat] else [.bw f.s.toNat 1]
  | .swr f => .srw f.srn.toNat :: (if srWide f.srn.toNat then pairR f.s else [blk f.s 1])
  | .ptew f => [.bw f.sd.toNat 2, .even f.sd.toNat, blk f.sa 4, .even f.sa.toNat]
  | .poolpop f => [.bw f.sd.toNat 2, .even f.sd.toNat]
  | .lpinv f | .tlbinv f => pairR f.sa
  | .iinv f => [blk f.sa 3, .even f.sa.toNat]
  | _ => []

/-- An LDL or STL of an 8-byte element, as its layout register and handle stand (R218). -/
def lelWide (s : State) (w : Wave) (f : LelF) : Bool :=
  decide (size2 (hFmt (handleOf s w.ctx (layOf w f.l.toNat))) = 16)

/-- The second tile of an MLDA or MSTA of binary64 (R304). -/
def tileMate (s : State) (w : Wave) (la : BitVec 4) (t : Nat) : List Nat :=
  if hFmt (handleOf s w.ctx (layOf w la.toNat)) = 0 then [t + 1] else []

/-- The per-thread registers of a register-space handle, first and number (R178). -/
def regRun (s : State) (w : Wave) (la : BitVec 4) : Option (BitVec 7 × Nat) :=
  let l := layOf w la.toNat
  let h := handleOf s w.ctx l
  if l.modes.isEmpty || !hV h || decide (hSpace h ≠ 0) || decide (96 ≤ hBase h) then none
  else some (BitVec.ofNat 7 (hBase h), min (ceilDiv (hBound h) (4 * w.width)) (96 - hBase h))

/-- The registers that a word reads through a handle. -/
def regIn (s : State) (w : Wave) (la : BitVec 4) : List Opd := (regRun s w la).toList.map fun x => .vr x.1 x.2

/-- The registers that a word writes through a handle. -/
def regOut (s : State) (w : Wave) (la : BitVec 4) : List Opd := (regRun s w la).toList.map fun x => .vw x.1 x.2

/-- TRCOST and BCD, which every layout-evaluating word writes (R190, R198). -/
def costRegs : List Opd := [.srw 0x010, .srw 0x011]

/-- What a word reads and writes beside the operands of its fields: through its handles (R178, R218, R304), the layout specials (R198),
and EXEC, which EXIT, a RET that ends the wave's items and RFT write (R83, R88, R373; log 50). -/
def extraOpds (s : State) (w : Wave) : Instr → List Opd
  | .ldl f => (if lelWide s w f then [.vw (f.d + 1) 1] else []) ++ costRegs
  | .stl f => (if lelWide s w f then [.vr (f.d + 1) 1] else []) ++ costRegs
  | .lchk f => (if f.k.toNat = 4 then [.vr 0 (layOf w f.la.toNat).modes.length] else []) ++ costRegs
  | .tcopy f => regIn s w f.la ++ regOut s w f.ld ++ costRegs
  | .gather f => regOut s w f.ld ++ costRegs
  | .scatter f => regIn s w f.la ++ costRegs
  | .mcread _ | .trsend _ | .mloopBf16 _ | .mloopF16 _ | .mloopE4m3 _ | .mloopE5m2 _ | .mloopI8 _ | .mloopHx4 _ | .mloopF64 _ => costRegs
  | .mlda f => (tileMate s w f.la f.t.toNat).map Opd.tw ++ regIn s w f.la ++ costRegs
  | .msta f => (tileMate s w f.la f.t.toNat).map Opd.tr ++ regOut s w f.la ++ costRegs
  | .exit | .rft => [.mask 0x40]
  | .ret => if w.rstack.isEmpty then [.mask 0x40] else []
  | _ => []

/-- All that a word reads and writes, as the layout registers and handles stand when it is to issue (R35, R218). The checks 7 to 9
are made without what `extraOpds` adds. -/
def issueOpds (s : State) (w : Wave) (i : Instr) : List Opd := operands w i ++ extraOpds s w i

/-! ### Checks 7 to 9 on one operand -/

/-- A reserved selector (check 7). -/
def Opd.reserved : Opd → Bool
  | .vr s _ | .vw s _ | .vrun s _ _ | .vblk s _ _ => s.toNat / 2 = 0x37
  | .sr s _ | .sw s _ | .sd s _ | .mask s => decide (0x58 ≤ s.toNat) && decide (s.toNat ≤ 0x6F)
  | .fmask s => s.toNat / 2 = 0x37
  | .crd s _ x => if x then decide (0x58 ≤ s.toNat) && decide (s.toNat ≤ 0x6F) else s.toNat / 2 = 0x37
  | _ => false

/-- The cause of a destination that is not writable (check 7). -/
def Opd.unwritable : Opd → Option Nat
  | .vw s _ | .vrun s _ true | .vblk s _ true => if 0x68 ≤ s.toNat then some 0x09 else none
  | .sw s _ => if s.toNat < 0x44 ∨ s.toNat = 0x56 ∨ s.toNat = 0x57 then none else some 0x09
  | .sd s n => if s.toNat + n ≤ 0x40 then none else some 0x09
  | .mask s | .fmask s => if s.toNat ≤ 0x40 then none else some 0x09
  | .srw n => if srWritable n then none else some 0x12
  | _ => none

/-- A register, tile or layout register beyond its allocation (check 8): also the second one of an odd pair that starts at the last
(log 43). -/
def Opd.beyond (w : Wave) : Opd → Bool
  | .vr s n | .vw s n | .vrun s n _ => decide (s.toNat < 0x60) && decide (w.nregs < s.toNat + n)
  | .vblk s n _ => decide (s.toNat < 0x60) && decide (w.nregs < min (s.toNat + n) 0x60)
  | .tr t | .tw t | .tnum t | .teven t => decide (w.acc ≤ t)
  | .lr l | .lw l => decide (w.nlay ≤ l)
  | _ => false

/-- A misaligned pair, quad, mask, tile pair or block (check 9). -/
def Opd.misaligned (w : Wave) : Opd → Bool
  | .vr s n | .vw s n => decide (1 < n) && decide (s.toNat < 0x70) && (decide (0x68 ≤ s.toNat) || decide (s.toNat % n ≠ 0))
  | .vrun s n _ => decide (0x60 ≤ s.toNat) && decide (0x68 < s.toNat + n)
  | .vblk s n _ => !(decide (s.toNat + n ≤ 0x60) || (decide (0x60 ≤ s.toNat) && decide (s.toNat + n ≤ 0x68)))
  | .sr s n | .sw s n => decide (1 < n) && decide (s.toNat < 0x70) && (decide (0x40 ≤ s.toNat) || decide (s.toNat % n ≠ 0))
  | .sd s n => decide (s.toNat % n ≠ 0)
  | .mask s | .fmask s => decide (s.toNat < 0x40) && decide (s.toNat % (w.width / 32) ≠ 0)
  | .even n | .teven n => decide (n % 2 = 1)
  | _ => false

/-- Checks 7, 8 and 9 of R65 on a word's operands, each on the operands in the order of their fields: the cause of the first that
fails (log 43). -/
def opdCause (w : Wave) (os : List Opd) : Option Nat :=
  match os.findSome? fun o => if o.reserved then some 0x07 else o.unwritable with
    | some c => some c
    | none =>
      if os.any (Opd.beyond w) then some 0x08
      else if os.any (Opd.misaligned w) then some 0x0A
      else none

/-! ### The decode checks (R65) -/

/-- The privilege trap's cause (R361, R362): supervisor-only words in user mode, and words not allowed in supervisor mode. -/
def privCause (w : Wave) (op srn : Nat) : Option Nat :=
  if w.supervisor then
    if op = 0x1C1 ∨ op = 0x1C2 ∨ op = 0x1C3 ∨ op = 0x1C4 ∨ op = 0x1C6 ∨ op = 0x1C7 ∨ op = 0x1C8 ∨ (op / 64 = 6 ∧ op ≠ 0x188)
      then some 2 else none
  else
    if op = 0x188 ∨ op = 0x1D2 ∨ op = 0x1D3 ∨ op = 0x1D4 ∨ op = 0x1D5 ∨ op = 0x1D7 then some 1
    else if (op = 0x1D0 ∨ op = 0x1D1) ∧ srnAssigned srn = true ∧ srSuper srn = true then some 1
    else none

/-- Checks 1 to 9 of R65 on the word `bits` at place `pos` of its packet; `last`: it ends its group. The trap's class and
cause. -/
def checkWord (part : Nat) (w : Wave) (pos : Nat) (last : Bool) (bits : Word) : Option (Nat × Nat) :=
  let op := opOf bits
  if op = 0x1FF then (if pos ≠ 0 ∨ chainBit bits = true ∨ last = false then some (1, 0x0F) else none)
  else if last && chainBit bits then some (1, 0x0C)
  else if isTransfer op && !last then some (1, 0x0E)
  else match decodeWord bits with
    | .error .unassigned => some (1, 0x01)
    | r =>
      if (op = 0x1A6 ∨ op = 0x19D) ∧ part ≠ 0 then some (2, 0)
      else match privCause w op (nbits bits.toNat 4 12) with
        | some c => some (3, c)
        | none => match r with
          | .error e => some (1, e.code)
          | .ok i => (opdCause w (operands w i)).map fun c => (1, c)

/-- The registers, mask words and special registers that an operand writes, for R28: a kind and a number.
lr0, lr1 and FPSR do not count (log 50). -/
def Opd.dests (w : Wave) : Opd → List (Nat × Nat)
  | .vw s n | .vrun s n true | .vblk s n true => (List.range n).map fun i => (0, s.toNat + i)
  | .sw s n | .sd s n => (List.range n).map fun i => (1, s.toNat + i)
  | .mask s | .fmask s => (List.range (w.width / 32)).map fun i => (1, s.toNat + i)
  | .bw s n => (List.range n).map fun i => (1, s + i)
  | .qw p => [(2, p)]
  | .tw t => [(3, t)]
  | .lw l => [(4, l)]
  | .srw n => [(5, n)]
  | _ => []

/-- Check 10 of R65 on a group: the first word that shares a pipe (0x0D) or a destination (0x10) with an earlier one; an LDL's
destinations follow its handle (R218; log 50). -/
def groupCause (s : State) (w : Wave) : List (Nat × Instr) → Nat → List Pipe → List (Nat × Nat) → Option (Nat × Nat)
  | [], _, _, _ => none
  | (op, i) :: rest, k, pipes, dests =>
    let p := pipeOf op i
    let ds := (issueOpds s w i).flatMap (Opd.dests w)
    if pipes.contains p then some (k, 0x0D)
    else if ds.any dests.contains then some (k, 0x10)
    else groupCause s w rest (k + 1) (p :: pipes) (ds ++ dests)

/-- Checks 1 to 9 on the words of a group in PC order: the place in the group, the class and the cause. -/
def checkWords (part : Nat) (w : Wave) (pos : Nat) : List Word → Nat → Option (Nat × Nat × Nat)
  | [], _ => none
  | b :: rest, k =>
    match checkWord part w (pos + k) rest.isEmpty b with
    | some (cls, code) => some (k, cls, code)
    | none => checkWords part w pos rest (k + 1)

/-- A word with the instruction it stands for. -/
def instrOf (b : Word) : Option (Nat × Instr) :=
  match decodeWord b with
  | .ok i => some (opOf b, i)
  | .error _ => none

/-- The decode checks of a group whose first word stands at place `pos` of its packet (R65). -/
def checkGroup (s : State) (w : Wave) (pos : Nat) (ws : List Word) : Option (Nat × Nat × Nat) :=
  match checkWords s.part w pos ws 0 with
  | some r => some r
  | none => (groupCause s w (ws.filterMap instrOf) 0 [] []).map fun x => (x.1, 1, x.2)

/-! ### Fetched groups (R25, R28, R383) -/

/-- The word at an address, if the core's instruction cache holds it and the wave may fetch it. -/
def cachedWord (s : State) (w : Wave) (a : DWord) : Option Word := heldWord s (coreOf w.quad) w.ctx a

/-- The place of an address in its packet (R25). -/
def packetPos (a : DWord) : Nat := a.toNat % 12 / 4

/-- The first address of the packet at PC that the instruction cache does not hold. A packet is fetched whole. -/
def fetchMiss (s : State) (w : Wave) : Option DWord :=
  ([0, 4, 8].map fun k => pktOf w.pc + k).find? fun a => (cachedWord s w a).isNone

/-- A maximal run of chained words, at most `n`. -/
def chainRun (s : State) (w : Wave) : Nat → DWord → List Word
  | 0, _ => []
  | n + 1, a =>
    match cachedWord s w a with
    | none => []
    | some b => b :: (if chainBit b then chainRun s w n (a + 4) else [])

/-- The chain group at a wave's PC (R28): a wave that repeats a word, or in which a stopped word issues again, issues that word alone,
chained to none (R373, R387). -/
def groupAt (s : State) (w : Wave) : List Word :=
  if w.replay then [w.frame.trap.wordBits &&& 0x7FFFFFFF]
  else if (againOf w).isSome then (cachedWord s w w.pc).toList.map fun b => b &&& 0x7FFFFFFF
  else chainRun s w (3 - packetPos w.pc) w.pc

/-! ### The scoreboard and the other conditions of issue (R23, R32, R35) -/

/-- The registers of the scoreboard that an operand reads or writes. -/
def Opd.regs (w : Wave) : Opd → List RegId
  | .vr s n | .vw s n | .vrun s n _ | .vblk s n _ => vSel s n
  | .crd s n x => if x then sSel s n else vSel s n
  | .sr s n | .sw s n | .sd s n => sSel s n
  | .mask s | .fmask s => sSel s (w.width / 32)
  | .br s n | .bw s n => (List.range n).map fun i => .s (sIdx w (s + i))
  | .qr p | .qw p => [.q (qIdx w p)]
  | .tr t | .tw t => [.tile t]
  | .lr l | .lw l => [.lay l]
  | _ => []
where
  vSel (s : BitVec 7) (n : Nat) : List RegId :=
    (List.range n).filterMap fun i =>
      if s.toNat + i < 0x68 then some (vReg w (BitVec.ofNat 7 (s.toNat + i)))
      else if s.toNat + i < 0x6A then some .lr else none
  sSel (s : BitVec 7) (n : Nat) : List RegId :=
    (List.range n).filterMap fun i =>
      if s.toNat + i < 0x40 then some (.s (sIdx w (s.toNat + i)))
      else if s.toNat + i = 0x57 then some .fpsr else none

/-- No mark lies on a word's registers (R35). -/
def marksClear (s : State) (w : Wave) (i : Instr) : Bool :=
  ((issueOpds s w i).flatMap (Opd.regs w)).all fun r => w.marks.all fun m => decide (m.reg ≠ r)

/-- The FS bit of a word that increments a flag (R32). -/
def flagBit : Instr → Option Bool
  | .ld f | .st f | .lds f | .sts f | .ldw f => some f.fs
  | .ldl f | .stl f => some f.fs
  | .atomAddI32 f | .atomAddI64 f | .atomAddF32 f | .atomAddF64 f | .atomMinI32 f | .atomMaxI32 f | .atomMinN32 f
  | .atomMaxN32 f | .atomAndB32 f | .atomOrB32 f | .atomXorB32 f | .atomExchB32 f | .atomExchB64 f | .casB32 f | .casB64 f
  | .poll f => some f.fs
  | .cwb f | .cinv f => some f.fs
  | .tcopy f => some f.fs
  | .gather f | .scatter f | .mcread f | .trsend f => some f.fs
  | .rbinit f | .rbpop f | .rbfree f | .coexpect f | .coarrive f | .codrop f => some f.fs
  | .coinit f => some f.fs
  | .mloopBf16 f | .mloopF16 f | .mloopE4m3 f | .mloopE5m2 f | .mloopI8 f | .mloopHx4 f | .mloopF64 f => some f.fs
  | .mlda f | .msta f => some f.fs
  | .mrd f | .mwr f => some f.fs
  | .spawn f | .spawnTry f => some f.fs
  | .tbset f | .tbclr f => some f.fs
  | .launch f => some f.fs
  | .ptew f => some f.fs
  | .poolpop f => some f.fs
  | .lpinv f | .tlbinv f | .iinv f => some f.fs
  | _ => none

/-- The flags of a group stay at 63 or below, each with the words that increment it (R32). -/
def flagsRoom (w : Wave) (is : List Instr) : Bool :=
  let fs := is.filterMap fun i => (flagBit i).bind (flagSel w)
  fs.all fun f => decide ((tget w.flags f).toNat + fs.count f ≤ 63)

/-- The store-buffer entries that a word takes, one for each pass (R215). -/
def bufferNeed (w : Wave) : Instr → Nat
  | .st _ | .sts _ | .stl _ => w.width / 32
  | .atomAddI32 _ | .atomAddI64 _ | .atomAddF32 _ | .atomAddF64 _ | .atomMinI32 _ | .atomMaxI32 _ | .atomMinN32 _
  | .atomMaxN32 _ | .atomAndB32 _ | .atomOrB32 _ | .atomXorB32 _ | .atomExchB32 _ | .atomExchB64 _ | .casB32 _ | .casB64 _
  | .poll _ => w.width / 32
  | _ => 0

/-- The store-buffer entries that a wave holds: its unacknowledged-store counter (R215). -/
def bufferHeld (s : State) (uid : Nat) : Nat :=
  (s.memOps.filter fun o => o.wave == uid).foldl (fun n o => n + o.holds) 0

/-- The engine of a core holds fewer than 16 operations (R251). -/
def engineRoom (s : State) (w : Wave) : Bool :=
  decide ((s.engOps.filter fun o => o.engine == coreOf w.quad / 2 && o.kind != .mlda && o.kind != .msta).length < 16)

/-- The wave's own object and ring words have been applied. -/
def objectsApplied (s : State) (w : Wave) : Bool := s.objOps.all fun o => o.wave != w.uid || o.engine.isSome

/-- The loads and stores of tiles that a quadrant holds (R304). -/
def tileQueue (s : State) (w : Wave) : Nat :=
  (s.engOps.filter fun o => o.quad == w.quad && (o.kind = .mlda || o.kind = .msta)).length

/-- What a word's unit asks beyond the scoreboard: room in queues and buffers, and marks on registers given away. -/
def unitReady (s : State) (w : Wave) (i : Instr) : Bool :=
  decide (bufferHeld s w.uid + bufferNeed w i ≤ 32 ∨ bufferNeed w i = 0) &&
    match i with
    | .poll _ => s.memOps.all fun o => o.wave != w.uid || o.kind != .poll
    | .tcopy _ | .gather _ | .scatter _ | .mcread _ | .trsend _ => engineRoom s w && objectsApplied s w
    | .mloopBf16 _ | .mloopF16 _ | .mloopE4m3 _ | .mloopE5m2 _ | .mloopI8 _ | .mloopHx4 _ | .mloopF64 _ =>
      decide ((s.matOps.filter fun m => m.quad == w.quad && (s.findWave m.wave).isSome).length < 4)
    | .mlda _ | .msta _ => decide (tileQueue s w < 4)
    | .spawn _ | .spawnTry _ => decide ((s.spawns.filter fun o => o.wave == w.uid).length < 4)
    | .launch _ => decide ((s.intake.filter fun o => o.wave == w.uid).length < 2)
    | .give f => w.marks.all fun m => match m.reg with
        | .v n => !(decide (w.nregs - f.imm.toNat ≤ n) && decide (n < w.nregs))
        | _ => true
    | .rft => fpDone w && s.sysOps.all fun o => o.wave != w.uid
    | _ => true

/-- The words that a FENCE, COWAIT or RBPOP holds back: VMEM and XENG (R239, R262, R272). -/
def heldBack (p : Pipe) : Bool := p = .vmem || p = .xeng

/-- A word that only a firmware that is not over its power limit issues: the vector pipes (R412). -/
def vectorPipe (p : Pipe) : Bool := p = .valu || p = .vdp || p = .vmem

/-- The operand names a layout register. -/
def Opd.isLayout : Opd → Bool
  | .lr _ => true
  | _ => false

/-- A word that validates a handle waits for the next clk when an HSET of its context has completed in this one: in the same clk it would
use the old entry (R173). -/
def handlesStand (s : State) (w : Wave) (i : Instr) : Bool :=
  (s.turns.all fun t => t.1 != 2 || decide (t.2.1 / 4096 ≠ w.ctx)) || !((operands w i).any Opd.isLayout)

/-- A word may issue (R23). -/
def wordMay (s : State) (w : Wave) (op : Nat) (i : Instr) : Bool :=
  let p := pipeOf op i
  !(s.pipes.any fun b => b.quad == w.quad && b.pipe == p) && marksClear s w i && unitReady s w i &&
    !(heldBack p && (s.fences.any fun h => h.wave == w.uid)) &&
    !(heldBack p && (w.blocked = .cowait || w.blocked = .rbpop)) && handlesStand s w i && !(decide (0 < s.withheldV) && vectorPipe p)

/-- The watchdog is due (R388). -/
def watchdogDue (s : State) (w : Wave) : Bool :=
  match s.ctxOf w.ctx with
  | some c => w.wdArmed && decide (c.ctxcfg.toNat / 256 ≠ 0) && decide (c.ctxcfg.toNat / 256 * 65536 ≤ w.wdcnt.toNat)
  | none => false

/-- A cord serves a wave's stoke header now: after the parked waves that wait for its items, and in the order of its clk (R84,
R91). -/
def stokeMay (s : State) (w : Wave) : Bool :=
  !refills w || (inTurn s 1 w.cord (stokeRank w) && !(s.allWaves.any fun x => x.cord == w.cord && restokeReady s x))

/-- A clause header may issue: its flags are zero, the watchdog is not due, and a stoke point finds no mark (R33, R82,
R388). A wave that is to be pre-empted stops here (R387). -/
def headerMay (s : State) (w : Wave) (f : ClauseF) : Bool :=
  w.group == 0 && ((List.range 12).all fun i => !f.wait.getLsbD i || decide (fRead w i = 0)) && !watchdogDue s w &&
    (!(f.stk || w.isNew) || (w.marks.isEmpty && stokeMay s w))

/-- The tile of a wave has ended before its waves (R356, R359). -/
def doomed (s : State) (w : Wave) : Bool :=
  match waveTile s w with
  | some t => t.overrun || t.erred || decide (t.phase ≠ 0)
  | none => false

/-- A resumed wave has a stopped MLOOP that has not gone on (R298). -/
def loopStopped (s : State) (w : Wave) : Bool :=
  s.matOps.any fun m => m.wave == w.uid && decide (0 < m.step) && !m.begun

/-- The wave is in a state that issues (R92, R298, R325, R327, R173, R389); after a resumption, once its saved entries have been sent
(R249). -/
def waveMay (s : State) (w : Wave) : Bool :=
  w.status = .running && w.trap.isNone && !s.stopped && !loopStopped s w && !(s.memOps.any fun o => o.wave == w.uid && o.unsent) &&
    (w.blocked = .none || w.blocked = .cowait || w.blocked = .rbpop) &&
    (match s.launchOf w.launch with | some l => l.ending.isNone | none => true) && !doomed s w

/-- The words of a group that a FENCE before them in it holds back find its condition met (R28, R239). -/
def fencedMay (s : State) (w : Wave) : List (Nat × Instr) → Bool
  | [] => true
  | (_, i) :: rest =>
    (match i with
      | .fence f => fenceMet s { wave := w.uid, kind := f.q.toNat, sc := f.sc.toNat, seq := s.nextOp } ||
          !(rest.any fun x => heldBack (pipeOf x.1 x.2))
      | _ => true) && fencedMay s w rest

/-- A wave's chain group may issue (R23). A group that the decode checks reject traps at once. -/
def mayIssue (s : State) (w : Wave) : Bool :=
  waveMay s w && (w.replay || (fetchMiss s w).isNone) &&
    (let ws := groupAt s w
     match ws with
     | [] => false
     | b :: _ =>
       if (checkGroup s w (packetPos w.pc) ws).isSome then true
       else if isHeader b then
         match decodeWord b with
         | .ok (.clause f) => headerMay s w f
         | _ => false
       else
         let is := ws.filterMap instrOf
         flagsRoom w (is.map fun x => x.2) && fencedMay s w is && is.all fun x => wordMay s w x.1 x.2)

/-- The wave stands before a clause header that has not issued (R387). -/
def atHeader (s : State) (w : Wave) : Bool :=
  w.status = .running && !w.replay &&
    match codeWord s (coreOf w.quad) w.ctx w.pc with
    | some b => isHeader b && decide (packetPos w.pc = 0)
    | none => false

/-- The next word of a wave waits for a SPAWN that has not been accepted (R316, R387): a fifth SPAWN, or a word that needs a
pending one's result. -/
def atSpawn (s : State) (w : Wave) : Bool :=
  waveMay s w && (s.spawns.any fun o => o.wave == w.uid) && !mayIssue s w &&
    ((groupAt s w).filterMap instrOf).any fun x =>
      (decide (x.1 / 2 = 0xD8) && !unitReady s w x.2) || (((issueOpds s w x.2).flatMap (Opd.regs w)).any fun r => w.marks.any fun m =>
        m.reg == r && s.spawns.any fun o => o.wave == w.uid && m.op == some o.seq)

/-- The next group is held back by a COWAIT or RBPOP. -/
def heldNext (s : State) (w : Wave) : Bool :=
  (w.blocked = .cowait || w.blocked = .rbpop) && ((groupAt s w).filterMap instrOf).any fun x => heldBack (pipeOf x.1 x.2)

/-- A stopping point of R387, but for a parked wave: the address at which the wave goes on, and whether the word it is
blocked in is withdrawn, to issue again: a JOIN or BAR alone, when later words of its group have taken effect. A COWAIT or RBPOP that
later words have already passed stays as it is. -/
def stopPoint (s : State) (w : Wave) : Option (DWord × Bool) :=
  if w.trap.isSome || !(w.status = .running || w.status = .blocked) then none
  else match w.blocked with
    | .claim _ | .join | .bar => some (BitVec.ofNat 64 w.blockArg, true)
    | .hset => none
    | .cowait | .rbpop =>
      if w.pc.toNat = w.blockArg + 4 then some (BitVec.ofNat 64 w.blockArg, true)
      else if atHeader s w || heldNext s w then some (w.pc, false) else none
    | .none => if atHeader s w || atSpawn s w then some (w.pc, false) else none

end Sys2Proof.Machine
end

