-- ==== Sys2Proof/Machine/System.lean ====
section
/-!
DEFINITION. System, trap and translation instructions (R361 to R390): the special registers, page-table and sweep words,
the return from the handler, and the events of the translation hardware, the instruction caches and the watchdog.
-/
namespace Sys2Proof.Machine

/-! ### Special registers (R363, R364) -/

/-- TOPO (R405): the span of the context and the package number. -/
def topoValue (s : State) (ctx : Nat) : DWord :=
  match s.ctxOf ctx with
  | none => 0
  | some c => match s.spans[c.span]? with
    | none => 0
    | some p => BitVec.ofNat 64 (c.span * 2 ^ 61 + p.shape * 2 ^ 59 + s.pkg * 2 ^ 44 + p.col0 * 2 ^ 40 + p.row0 * 2 ^ 36 +
        p.ncol * 2 ^ 32 + p.nrow * 2 ^ 28)

/-- A context's value of a special register, zero when there is none. -/
def ctxValue (s : State) (ctx : Nat) (f : Ctx → DWord) : DWord :=
  match s.ctxOf ctx with | some c => f c | none => 0

/-- A launch's counter. -/
def launchValue (s : State) (launch : Nat) (f : Launch → Word) : DWord :=
  match s.launchOf launch with | some l => BitVec.ofNat 64 (f l).toNat | none => 0

/-- A mask word; words at or beyond WIDTH/32 read zero (R364). -/
def maskReg (w : Wave) (m : Mask) (i : Nat) : DWord :=
  if 32 * i < w.width then BitVec.ofNat 64 (maskWord m i).toNat else 0

/-- The value of a special register as a wave reads it (R364). -/
def srValue (s : State) (w : Wave) (n : Nat) : DWord :=
  if 0x200 ≤ n then
    ctxValue s w.ctx fun c => BitVec.ofNat 64 ((tget c.bounds ((n - 0x200) / 2)).toNat / 2 ^ (64 * (n % 2)))
  else match n with
    | 0x000 => capsValue s.part s.stepping
    | 0x001 => topoValue s w.ctx
    | 0x002 => BitVec.ofNat 64 w.ctx
    | 0x003 => BitVec.ofNat 64 w.launch
    | 0x004 => BitVec.ofNat 64 (s.l2.filter fun l => decide (l.half < 32)).length
    | 0x005 => ctxValue s w.ctx fun c => BitVec.ofNat 64 c.tbCount
    | 0x006 => launchValue s w.launch fun l => l.stkskip
    | 0x007 => launchValue s w.launch fun l => l.sgpass
    | 0x008 => launchValue s w.launch fun l => l.sgfail
    | 0x009 => BitVec.ofNat 64 w.sbstall.toNat
    | 0x00A => w.wdcnt
    | 0x010 => BitVec.ofNat 64 w.trcost.toNat
    | 0x011 => BitVec.ofNat 64 w.bcd.toNat
    | 0x012 => BitVec.ofNat 64 w.mlstep.toNat
    | 0x013 => BitVec.ofNat 64 w.efcause.toNat
    | 0x014 => w.efva
    | 0x020 => BitVec.ofNat 64 w.hctl.toNat
    | 0x021 => w.fpc
    | 0x022 => maskReg w w.uexec 0 | 0x023 => maskReg w w.uexec 1 | 0x024 => maskReg w w.uexec 2 | 0x025 => maskReg w w.uexec 3
    | 0x026 => maskReg w w.fmask 0 | 0x027 => maskReg w w.fmask 1 | 0x028 => maskReg w w.fmask 2 | 0x029 => maskReg w w.fmask 3
    | 0x030 => ctxValue s w.ctx fun c => c.ptroot
    | 0x031 => ctxValue s w.ctx fun c => BitVec.ofNat 64 c.pool.length
    | 0x032 => ctxValue s w.ctx fun c => BitVec.ofNat 64 c.ctxcfg.toNat
    | 0x033 => ctxValue s w.ctx fun c => c.hentry
    | _ => 0

/-- A special register written (R363, R364): its writable fields take the value. -/
def srWrite (w : Wave) (n : Nat) (v : DWord) : Wave :=
  match n with
  | 0x009 => { w with sbstall := lo32 v }
  | 0x013 => { w with efcause := lo32 v &&& 0xBFFFFFFF }
  | 0x014 => { w with efva := v }
  | 0x020 => { w with hctl := lo32 v &&& 3 }
  | 0x022 => { w with uexec := setMaskWord w.uexec 0 (lo32 v) }
  | 0x023 => if 32 < w.width then { w with uexec := setMaskWord w.uexec 1 (lo32 v) } else w
  | 0x024 => if 64 < w.width then { w with uexec := setMaskWord w.uexec 2 (lo32 v) } else w
  | 0x025 => if 64 < w.width then { w with uexec := setMaskWord w.uexec 3 (lo32 v) } else w
  | _ => w

/-- SRD (R363). -/
def execSrd (f : SrF) (s : State) : Out :=
  let v := srValue s s.rd f.srn.toNat
  let vs := if srWide f.srn.toNat then [lo32 v, hi32 v] else [lo32 v]
  .next (s.modW fun w => addMarks (sSetRun w f.s.toNat vs) (sMarks w f.s.toNat vs.length none)).done

/-- SWR (R363). -/
def execSwr (f : SrF) (s : State) : Out :=
  let v := if srWide f.srn.toNat then sReg64 s.rd f.s.toNat else BitVec.ofNat 64 (sReg s.rd f.s.toNat).toNat
  .next (s.modW fun w => srWrite w f.srn.toNat v).done

/-! ### System words in flight (R379 to R383) -/

/-- A system word handed over: its flag rises, and its result pair is marked. -/
def sendSys (s : State) (kind : SysKind) (sd : Option Nat) (fs : Bool) : State :=
  let fl := flagSel s.w fs
  let o : SysOp := { wave := s.w.uid, kind := kind, sd := sd.getD 0, flag := fl, seq := s.nextOp }
  (({ s with sysOps := s.sysOps ++ [o], nextOp := s.nextOp + 1 } : State).modW fun w =>
    addMarks (flagInc w fl) (match sd with | some d => sMarks w d 2 (some o.seq) | none => [])).done

/-- PTEW (R380). -/
def execPtew (f : PtewF) (s : State) : Out :=
  .next (sendSys s (.ptew (sReg64 s.rd f.sa.toNat) (sReg64 s.rd (f.sa.toNat + 2)) f.lvl.toNat f.force f.ret)
    (some f.sd.toNat) f.fs)

/-- POOLPOP (R379): the frame on top of the context's pool, or all ones. -/
def execPoolpop (f : PopF) (s : State) : Out :=
  .next (match s.ctxOf s.w.ctx with
    | some c => match c.pool with
      | t :: rest => sendSys (s.modCtx c.num fun x => { x with pool := rest }) (.poolpop t) (some f.sd.toNat) f.fs
      | [] => sendSys s (.poolpop (BitVec.allOnes 64)) (some f.sd.toNat) f.fs
    | none => sendSys s (.poolpop (BitVec.allOnes 64)) (some f.sd.toNat) f.fs)

/-- LPINV (R381). -/
def execLpinv (f : InvF) (s : State) : Out :=
  .next (sendSys s (.lpinv f.all f.scope.toNat ((sReg64 s.rd f.sa.toNat).toNat % 2 ^ 49)) none f.fs)

/-- TLBINV (R381). -/
def execTlbinv (f : InvF) (s : State) : Out :=
  .next (sendSys s (.tlbinv f.all f.scope.toNat ((sReg64 s.rd f.sa.toNat).toNat % 2 ^ 49)) none f.fs)

/-- IINV (R383): a count above 2^24 sweeps as .all does. -/
def execIinv (f : InvF) (s : State) : Out :=
  let n := (sReg s.rd (f.sa.toNat + 2)).toNat
  .next (sendSys s (.iinv (f.all || decide (2 ^ 24 < n)) f.scope.toNat ((sReg64 s.rd f.sa.toNat).toNat % 2 ^ 49) n) none f.fs)

/-- A system word completes: its result pair, in the supervisor bank, is written, its flag falls, its mark clears (R370). -/
def endSys (s : State) (o : SysOp) (res : Option DWord) : State :=
  ({ s with sysOps := s.sysOps.filter fun x => x != o } : State).modAny o.wave fun w =>
    let w1 := match res with
      | some v => inBank true (fun w => sSetRun w o.sd [lo32 v, hi32 v]) w
      | none => w
    clearMarks (flagDec w1 o.flag) o.seq

/-- The first system word of a wave with a property. -/
def sysFind (s : State) (wave : Nat) (p : SysOp → Bool) : Option SysOp :=
  s.sysOps.find? fun o => o.wave == wave && p o

/-- The wave's PTEW whose turn it is: its earlier accesses are performed (R380). -/
def ptewTurn (s : State) (wave : Nat) : Option SysOp :=
  match sysFind s wave fun o => match o.kind with | .ptew _ _ _ _ _ => true | _ => false with
  | some o => if releaseMet s wave o.seq then some o else none
  | none => none

/-- The entry that a PTEW names and what it holds, or none when its walk fails (R380). -/
def ptewPlace (s : State) (c : Ctx) (ptr : DWord) (lvl : Nat) : Option (Nat × DWord) :=
  if nbits ptr.toNat 49 7 ≠ 0 then none
  else (pteAt s (ptr.toNat % 2 ^ 49) lvl 0 c.ptroot.toNat).bind fun pa => (readPte s pa).toOption.map fun old => (pa, old)

/-- What the Keystone core reports of an entry with an uncorrectable error that a PTEW's walk meets (R390). -/
def ptewErrors (s : State) (c : Ctx) (va lvl : Nat) : List Report :=
  match walk s c va with
  | .fail _ lv _ => if lv ≤ lvl then walkErrors s c va else []
  | .leaf _ _ _ => []

/-- PTEW_APPLY (R380): the walk, its reads and the entry's in the order of their slices' clk (R243), and the entry written if FORCE is
set or the old entry is not present; a frame that was not used goes back to the pool. -/
def execPtewApply (wave : Nat) (s0 : State) : Out :=
  .next (match ptewTurn s0 wave, s0.anyWave wave with
    | some o, some w => match o.kind, s0.ctxOf w.ctx with
      | .ptew ptr new lvl force ret, some c =>
        let va := ptr.toNat % 2 ^ 49
        let s := if nbits ptr.toNat 49 7 ≠ 0 then s0 else softReads s0 (w.quad + 1) ((walkPas s0 c va).take (lvl + 1))
        if lateRead s then s0
        else match ptewPlace s c ptr lvl with
          | none => endSys { s with reports := s.reports ++ if nbits ptr.toNat 49 7 ≠ 0 then [] else ptewErrors s c va lvl } o
              (some (BitVec.allOnes 64))
          | some (pa, old) =>
            let write := force || !old.getLsbD 0
            let s1 := if write then pteWrite s pa new
              else if ret then s.modCtx c.num fun x => { x with pool := (new &&& 0xFFFFFFFFFFFF0000) :: x.pool }
              else s
            endSys s1 o (some old)
      | _, _ => endSys s0 o (some (BitVec.allOnes 64))
    | _, _ => s0)

/-- POOLPOP_COMPLETE (R379). -/
def execPoolpopComplete (wave : Nat) (s : State) : Out :=
  .next (match sysFind s wave fun o => match o.kind with | .poolpop _ => true | _ => false with
    | some o => match o.kind with
      | .poolpop v => endSys s o (some v)
      | _ => s
    | none => s)

/-- A core lies in a sweep's scope: 1 the issuing core, 2 the device (R381). -/
def sweepCore (scope quad core : Nat) : Bool := decide (scope = 2) || core == coreOf quad

/-- A lane's register lies in a sweep's scope: 0 the issuing quadrant, 1 its core, 2 the device. -/
def sweepLane (scope quad : Nat) (q : Nat) : Bool :=
  if scope = 0 then q == quad else sweepCore scope quad (coreOf q)

/-- The lanes' registers that a sweep removes. -/
def sweptLanes (s : State) (ctx quad : Nat) (all : Bool) (scope va : Nat) : List LaneReg :=
  s.lanes.filter fun r => r.ctx == ctx && sweepLane scope quad r.quad && (all || inPage r.base r.size va)

/-- The TLB entries that a sweep removes. -/
def sweptTlb (s : State) (ctx quad : Nat) (all : Bool) (scope va : Nat) : List TlbEnt :=
  s.tlb.filter fun t => t.ctx == ctx && sweepCore scope quad t.core && (all || inPage t.base t.size va)

/-- The memory words in flight with an access that translated through a removed page (R381). -/
def sweptOps (s : State) (ctx : Nat) (pages : List (Nat × Nat)) : List Nat :=
  (s.memOps.filter fun o => o.ctx == ctx && o.accs.any fun a =>
    !a.complete o.kind && pages.any fun p => inPage p.1 p.2 (a.va.toNat % 2 ^ 49)).map fun o => o.id

/-- A memory word is no longer being performed. -/
def opDone (s : State) (id : Nat) : Bool :=
  (s.memOps.filter fun o => o.id == id).all fun o => o.accs.all fun a => a.complete o.kind

/-- The translation sweep of a wave that can end now: no earlier PTEW of the wave is in flight; a TLBINV that has swept
waits for its accesses (R381). -/
def sweepTurn (s : State) (wave : Nat) : Option SysOp :=
  sysFind s wave fun o => match o.kind with
    | .lpinv _ _ _ | .tlbinv _ _ _ => s.sysOps.all fun p =>
        p.wave != wave || decide (o.seq ≤ p.seq) || (match p.kind with | .ptew _ _ _ _ _ => false | _ => true)
    | .swept ops => ops.all (opDone s)
    | _ => false

/-- TRANSLATION_SWEEP_END (R381). -/
def execTranslationSweepEnd (wave : Nat) (s : State) : Out :=
  .next (match sweepTurn s wave, s.anyWave wave with
    | some o, some w => match o.kind with
      | .lpinv all scope va =>
        let gone := sweptLanes s w.ctx w.quad all scope va
        endSys { s with lanes := s.lanes.filter fun r => !gone.contains r } o none
      | .tlbinv all scope va =>
        let gl := sweptLanes s w.ctx w.quad all scope va
        let gt := sweptTlb s w.ctx w.quad all scope va
        let ops := sweptOps s w.ctx (gl.map (fun r => (r.base, r.size)) ++ gt.map fun t => (t.base, t.size))
        let s1 := { s with lanes := s.lanes.filter (fun r => !gl.contains r), tlb := s.tlb.filter fun t => !gt.contains t }
        if ops.isEmpty then endSys s1 o none
        else { s1 with sysOps := s1.sysOps.map fun p => if p = o then { p with kind := .swept ops } else p }
      | .swept _ => endSys s o none
      | _ => s
    | _, _ => s)

/-- The IINV of a wave whose earlier stores are performed (R383). -/
def iinvTurn (s : State) (wave : Nat) : Option SysOp :=
  sysFind s wave fun o => match o.kind with
    | .iinv _ _ _ _ => s.memOps.all fun m => m.wave != wave || decide (o.seq ≤ m.seq) ||
        (match m.kind with | .store | .atom _ | .cas => m.accs.all fun a => a.complete m.kind | _ => true)
    | _ => false

/-- A block that an IINV invalidates: in scope, and it overlaps the range of virtual addresses (R383); both parts of a block that crosses a
granule go. -/
def iinvHits (w : Wave) (all : Bool) (scope va n : Nat) (b : IBlock) : Bool :=
  let place := match scope with
    | 0 => b.core == coreOf w.quad
    | 1 => clusterOf b.core == clusterOf (coreOf w.quad)
    | _ => true
  b.ctx == w.ctx && place && (all || (decide (n ≠ 0) && decide (va < b.va / 192 * 192 + 192) && decide (b.va / 192 * 192 < va + n)))

/-- IINV_SWEEP_END (R383). -/
def execIinvSweepEnd (wave : Nat) (s : State) : Out :=
  .next (match iinvTurn s wave, s.anyWave wave with
    | some o, some w => match o.kind with
      | .iinv all scope va n => endSys { s with icache := s.icache.filter fun b => !iinvHits w all scope va n b } o none
      | _ => s
    | _, _ => s)

/-! ### The return from the handler (R373, R374) -/

/-- The wave is put in the issue stage: it becomes the issuing one. -/
def checkOut (s : State) (uid : Nat) : State :=
  if s.w.uid = uid then s
  else match s.waves.find? fun w => w.uid == uid with
    | none => s
    | some w =>
      { s with w := w, waves := (if s.w.status = .none then [] else [s.w]) ++ s.waves.filter fun x => x.uid != uid }

/-- What RFT restores whatever ACT is (R373): lr0, lr1, FPCR, FPSR, the user registers and user mode; the words of the user clause
count again on the flags that its header selects (R31). `grp` are the FPSR flags of RFT's own group (R119). -/
def restoreFrame (grp : Word) (w : Wave) : Wave :=
  { w with lr0 := w.frame.lr0, lr1 := w.frame.lr1, fpcr := w.frame.fpcr, fpsr := w.frame.fpsr ||| grp, seta := w.frame.seta,
           setb := w.frame.setb, supervisor := false, trap := none, replay := false, status := .running }

/-- The wave goes on at the continuation of its trap (R373); the place of R81 must be a clause header. -/
def resumeAt (s : State) : State :=
  let t := s.w.frame.trap
  if t.kind = .packet && badTarget s (coreOf s.w.quad) s.w.ctx t.cont then
    let m := trapMask s.w
    meetTrap s { t with
      cls := 1, mask := m, fpc := s.w.fpc, escalates := false
      faults := (slotsIn m s.w.width).map fun i => { slot := i, cause := fcause 1 0x11 6 false 0 0, va := 0 } }
  else s.modW fun w => { w with pc := t.cont }

/-- RFT ends the handler with an action (R373); a resumption after escalation does the same (R374). ACT 0 repeats the word
at FPC in the faulting slots: `replay` makes the next group that word alone, and `step` then gives EXEC and PC back. ACT 2
escalates; ACT 3 abandons the faulters' items. -/
def rftAct (s : State) (act : Nat) : State :=
  let w := restoreFrame s.grpFlags s.w
  let t := w.frame.trap
  match act with
  | 0 =>
    if t.cls = 0x0C then
      { s with w := { w with exec := w.uexec &&& w.live, pc := t.fpc + 4 * BitVec.ofNat 64 t.wordBits.toNat } }
    else if t.kind = .header then { s with w := { w with exec := w.uexec &&& w.live, pc := t.fpc } }
    else { s with w := { w with exec := w.fmask, pc := w.fpc, replay := true } }
  | 2 =>
    let s1 := { s with
      w := { w with status := .suspended }
      reports := s.reports ++ [.escalation w.launch w.uid w.fpc w.fmask
        (match t.faults.head? with | some f => f.cause | none => 0) 0 0] }
    if t.cls = 0x0D then endLaunch s1 w.launch 1 else s1
  | a =>
    let w1 := if a = 3 then darken w w.fmask else w
    let w2 := { w1 with exec := w1.uexec &&& w1.live, wdcnt := 0, wdArmed := true }
    if a = 3 && decide (w2.live = 0) && (w2.draining || cordDone s w2) then { s with w := startRetire w2 }
    else resumeAt { s with w := w2 }

/-- RFT (R373): it waits until the wave's PTEW, POOLPOP, LPINV, TLBINV and IINV words have completed. A fault in a word of its own
group is met when RFT has acted (R368, R374), once the floating-point words have completed (R119). -/
def execRft (s : State) : Out :=
  .next (if s.sysOps.any fun o => o.wave == s.w.uid then s
    else
      let s1 := rftAct s (s.w.hctl.toNat % 4)
      match s.w.trap with
      | some t => meetTrap s1 { t with kind := .partner }
      | none => s1)

/-! ### Events -/

/-- A pending trap can be taken: earlier floating-point words have completed (R369). It may come from a group whose EXIT has ended the
wave's items (R76), or whose RFT has suspended it (R368). -/
def entryReady (w : Wave) : Bool :=
  (w.trap.any fun t => w.status = .running || w.status = .retiring || (w.status = .suspended && decide (t.kind = .partner))) && fpDone w

/-- HANDLER_ENTRY (R369): a trap that waits is taken. -/
def execHandlerEntry (wave : Nat) (s : State) : Out :=
  .next (match s.findWave wave with
    | some w => match w.trap with
      | some t => if entryReady w then takeTrap (checkOut s wave) t else s
      | none => s
    | none => s)

/-- PAGE_WALK (R376, R378): a walk for a lane of a core ends. -/
def execPageWalk (core ctx quad lane ptr : Nat) (s : State) : Out :=
  .next (match s.ctxOf ctx with
    | some c =>
      let t := softReads s (quad + 1) (walkPas s c (ptr % 2 ^ 49))
      if coreOf quad = core ∧ (laneHit s quad lane ctx (ptr % 2 ^ 49)).isNone ∧ lateRead t = false then
        walkEnd t quad lane ctx (ptr % 2 ^ 49) (walk s c (ptr % 2 ^ 49))
      else s
    | none => s)

/-- The fetch fault of a wave (R366, R369): FPC is the packet; `wordBits` holds the word's place in it. -/
def fetchTrap (w : Wave) (f : FetchFail) : Trap :=
  let pk := pktOf w.pc
  { cls := 0x0C, mask := trapMask w, fpc := pk, cont := pk + 12, kind := .packet,
    faults := (slotsIn (trapMask w) w.width).map fun i =>
      { slot := i, cause := fcause 0x0C f.cause 5 f.ft f.level 0, va := pk },
    wordBits := BitVec.ofNat 32 (packetPos w.pc), escalates := decide (f.cause = 9) }

/-- A wave waits for the fetch of an address. -/
def awaits (s : State) (core ctx va : Nat) (w : Wave) : Bool :=
  w.status = .running && w.trap.isNone && !w.replay && coreOf w.quad == core && w.ctx == ctx &&
    (match fetchMiss s w with | some a => decide (a.toNat = va) | none => false)

/-- ICACHE_FILL (R383): the block of a pointer's VA[48:0] is filled from L2 at device scope, or the waves that wait for it take the
fetch fault (R366). A block that crosses a 64 KiB granule is held in two parts; another block of the core may leave, chosen
freely, as the sets of the cache are not given (log 10). The reads come in the order of their slices' clk (R243). -/
def execIcacheFill (core ctx ptr : Nat) (s0 : State) : Out :=
  let va := ptr % 2 ^ 49
  let lo := max (va / 192 * 192) (va / 65536 * 65536)
  let hi := min (va / 192 * 192 + 192) (va / 65536 * 65536 + 65536)
  let walked := match s0.ctxOf ctx with | some c => if fetchAllowed c (BitVec.ofNat 64 ptr) then walkPas s0 c va else [] | none => []
  let code := match codePlace s0 ctx (BitVec.ofNat 64 ptr) with
    | .ok (pa, _) => (sectorsOf (pa - (va - lo)) (hi - lo)).map fun x => 64 * x
    | .error _ => []
  let s := softReads s0 (4 * core + 1) (walked ++ code)
  if lateRead s then .next s0 else
  .next (match codePlace s0 ctx (BitVec.ofNat 64 ptr) with
    | .ok (pa, key) =>
      let own := s.icache.filter fun b => b.core == core
      let k := Config.choose s.freeN % (own.length + 1)
      let keep := if 16 ≤ own.length && (decide (16 ≤ k) || decide (682 ≤ own.length)) then
          match own[min k (own.length - 1)]? with
          | some v => s.icache.filter fun b => b != v
          | none => s.icache
        else s.icache
      let b : IBlock := { core := core, ctx := ctx, va := lo, bytes := devBytes s key (pa - (va - lo)) (hi - lo) }
      { s with icache := b :: keep.filter (fun x => !(x.core == core && x.ctx == ctx && x.va == lo)), freeN := s.freeN + 1 }
    | .error f =>
      let g := fun (w : Wave) => if awaits s core ctx ptr w then { w with trap := some (fetchTrap w f) } else w
      let bad := match s.ctxOf ctx with | some c => if f.cause = 3 then walkErrors s c va else [] | none => []
      { s with w := g s.w, waves := s.waves.map g, reports := s.reports ++ bad })

/-- The word that a wave is blocked in is withdrawn: it has taken no effect and issues again (R387). The arrival of a BAR
stands. -/
def withdraw (s : State) (w : Wave) : State :=
  match w.blocked with
  | .claim _ =>
    let p := poolOf s w.launch w.quad
    setPool s { p with line := p.line.filter fun x => x.1 != w.uid }
  | .cowait | .rbpop =>
    let mine := s.objWaits.filter fun x => x.wave == w.uid
    mine.foldl (fun s x => s.modWave w.uid fun w => clearMarks (flagDec w x.flag) x.seq)
      { s with objWaits := s.objWaits.filter fun x => x.wave != w.uid
               asks := s.asks.filter fun a => !(mine.any fun x => x.kind == .rbpop && x.seq == a.op) }
  | .join =>
    let mine := s.crewOps.filter fun o => o.wave == w.uid && (match o.kind with | .join _ => true | _ => false)
    mine.foldl (fun s o => s.modWave w.uid fun w => clearMarks w o.seq)
      { s with crewOps := s.crewOps.filter fun o => !mine.contains o }
  | .bar => s.modWave w.uid fun w => clearMarks w 0
  | _ => s

/-- A wave stopped at a stopping point (R387). A JOIN or BAR that later words of its group have passed issues again alone. -/
def stopWave (s : State) (w : Wave) (pc : DWord) (back : Bool) : State :=
  let alone := (w.blocked = .join || w.blocked = .bar) && w.pc != pc + 4
  if back then
    (withdraw s w).modWave w.uid fun w =>
      { w with pc := pc, blocked := .none, status := .running, again := if alone then some (pc, w.pc) else w.again }
  else s

/-- The watchdog trap (R369, R388): before a header or at a blocked word, which has not issued (KIND 7). -/
def watchdogTrap (w : Wave) (pc : DWord) : Trap :=
  { cls := 0x0D, mask := trapMask w, fpc := pc, cont := pc, kind := .header,
    faults := (slotsIn (trapMask w) w.width).map fun i => { slot := i, cause := fcause 0x0D 0 7 false 0 0, va := 0 },
    wordBits := 0, escalates := false }

/-- WATCHDOG_LIMIT (R388): WDCNT has reached the limit and the wave stands at a stopping point; the watchdog is disarmed. -/
def execWatchdogLimit (wave : Nat) (s : State) : Out :=
  .next (match s.findWave wave with
    | some w => match stopPoint s w with
      | some (pc, back) =>
        if watchdogDue s w then
          (stopWave s w pc back).modWave wave fun w => { w with trap := some (watchdogTrap w pc), wdArmed := false }
        else s
      | none => s
    | none => s)

/-- A wave of a launch or a tile that is ending issues nothing more (R356, R389). -/
def stopped (s : State) (w : Wave) : Bool :=
  s.stopped || doomed s w || match s.launchOf w.launch with | some l => l.ending.isSome | none => false

/-- The fetches that waves wait for: core, context and address. -/
def fetches (s : State) : List (Nat × Nat × Nat) :=
  (s.allWaves.filterMap fun w =>
    if w.status = .running && w.trap.isNone && !w.replay && !stopped s w then
      (fetchMiss s w).map fun a => (coreOf w.quad, w.ctx, a.toNat)
    else none).eraseDups

/-- The events of this chapter that can happen now. -/
def systemEvents (s : State) : List Act :=
  let us := (s.sysOps.map fun o => o.wave).eraseDups
  ((us.filter fun u => (ptewTurn s u).isSome).map execPtewApply) ++
    ((us.filter fun u => (sysFind s u fun o => match o.kind with | .poolpop _ => true | _ => false).isSome).map
      execPoolpopComplete) ++
    ((us.filter fun u => (sweepTurn s u).isSome).map execTranslationSweepEnd) ++
    ((us.filter fun u => (iinvTurn s u).isSome).map execIinvSweepEnd) ++
    ((s.allWaves.filter fun w => entryReady w && !stopped s w).map fun w => execHandlerEntry w.uid) ++
    ((s.allWaves.filter fun w => !stopped s w && watchdogDue s w && (stopPoint s w).isSome).map fun w =>
      execWatchdogLimit w.uid) ++
    ((fetches s).map fun x => execIcacheFill x.1 x.2.1 x.2.2)

end Sys2Proof.Machine
end

