-- ==== Sys2Proof/Machine/Launch.lean ====
section
/-!
DEFINITION. Launches (R334 to R343) and guarded-surrogate tiles (R350 to R360): the launch record and its validation, the
queues, LAUNCH and VERDICT, the tiles' reservation, commit and discard, and the end of a launch.
-/
namespace Sys2Proof.Machine

/-! ### The launch record (R334, R335) -/

/-- A field of a record: `n` bytes from an offset. -/
def recAt (bs : List Byte) (off n : Nat) : Nat := leNat ((bs.drop off).take n)

/-- A plan's fields (R335). -/
def planOf (p : Nat) : Plan :=
  { wq := nbits p 0 8, nregs := nbits p 8 8, acc := nbits p 16 8, nlay := nbits p 24 8, args := nbits p 32 5,
    scratch := nbits p 40 11 }

/-- A plan meets its ranges and its reserved bits are zero; a template's SCRATCH is ignored (R335, R336). -/
def planOk (p : Nat) (main : Bool) : Bool :=
  let x := planOf p
  (x.wq == 1 || x.wq == 2 || x.wq == 4) && decide (8 ≤ x.nregs) && decide (x.nregs ≤ 96) && x.nregs % 8 == 0 &&
    decide (x.acc ≤ 32) && decide (x.nlay ≤ 16) && decide (x.args ≤ 16) && decide (x.args ≤ x.nregs) &&
    (!main || decide (x.scratch ≤ 1024)) && nbits p 37 3 == 0 && nbits p 51 13 == 0

/-- The level of an exact cord (R358). -/
def exactLevel (prio : Nat) : Nat := min (prio + 1) 7

/-- Bytes at a physical address as the Keystone core reads them: device memory under key index 0; elsewhere the bytes are
the host's or a peer's. -/
def physBytes (s : State) (pa n : Nat) : List Byte :=
  if pa + n ≤ memLimit s.part then devBytes s 0 pa n
  else (List.range n).map fun i => Config.outsideByte (s.freeN * 2 ^ 80 + pa + i)

/-- The place of `n` bytes at a pointer of a context, without a wave: in one page, present, allowed, and not in the aperture
(R202, R376). -/
def ctxPlace (s : State) (ctx : Nat) (ptr : DWord) (n : Nat) (write : Bool) : Option Loc :=
  if nbits ptr.toNat 56 8 = 0xFF ∨ nbits ptr.toNat 49 7 ≠ 0 then none
  else match s.ctxOf ctx with
    | none => none
    | some c =>
      if !regionOk c ptr n || (write && !regionW c ptr) then none
      else match walk s c (ptr.toNat % 2 ^ 49) with
        | .fail _ _ _ => none
        | .leaf e _ size =>
          if write && !e.getLsbD 1 then none
          else match leafPlace s ctx e (ptr.toNat % 2 ^ 49) size with
            | .ok loc => if !write && poisonedAt s loc n then none else some loc
            | .error _ => none

/-- Bytes at a place that `ctxPlace` found. -/
def placeBytes (s : State) (loc : Loc) (n : Nat) : List Byte :=
  match loc with
  | .dev pa key => devBytes s key pa n
  | _ => (List.range n).map fun i => Config.outsideByte (s.freeN * 2 ^ 80 + loc.outAddr + i)

/-- ENTRY of a kernel can begin a wave (R337, check 0x01). -/
def entryOk (s : State) (ctx : Nat) (ptr : DWord) : Bool :=
  ptr.toNat % 12 == 0 &&
    match codePlace s ctx ptr with
    | .ok (pa, key) => isHeader (wordAt (devBytes s key pa 4))
    | .error _ => false

/-- The waves of a plan that a quadrant with nothing resident can hold (R18). -/
def quadCapacity (p : Plan) : Nat :=
  let a := min 16 (1024 / (p.nregs * p.wq))
  let b := if p.acc = 0 then a else min a (32 / p.acc)
  if p.nlay = 0 then b else min b (64 / p.nlay)

/-- The gang can be placed on some core or cluster (R348); every core and cluster of the part is like every other. -/
def gangOk (p : Plan) (gang gscope : Nat) : Bool :=
  gang == 0 || decide (gang ≤ quadCapacity p * (if gscope = 1 then 4 else 16))

/-- The templates' addresses and plans (R336); none when the table cannot be read. -/
def templatesOf (s : State) (ctx : Nat) (ctab : DWord) (n : Nat) : Option (List (DWord × Nat)) :=
  if ctab.toNat % 16 ≠ 0 then none
  else (List.range n).mapM fun i =>
    (ctxPlace s ctx (ctab + BitVec.ofNat 64 (16 * i)) 16 false).map fun loc =>
      let bs := placeBytes s loc 16
      (BitVec.ofNat 64 (recAt bs 0 8), recAt bs 8 8)

/-- DONE passes check 0x03 (R337). -/
def doneOk (s : State) (ctx : Nat) (done : DWord) : Bool :=
  decide (done = 0) || (done.toNat % 16 == 0 && (ctxPlace s ctx done 16 true).isSome)

/-- SGTOL is finite and not negative (R337, check 0x07): -0 is a zero, no negative value (log 67). -/
def tolOk (t : Nat) : Bool := decide (t % 2 ^ 63 = 0) || (t / 2 ^ 63 == 0 && decide (nbits t 52 11 ≠ 2047))

/-- The reason that rejects a record, 0 for none (R337), with PRIO as capped by R339: the checks in table order. -/
def rejectReason (s : State) (ctx : Nat) (bs : List Byte) (prio : Nat) : Nat :=
  let entry : DWord := BitVec.ofNat 64 (recAt bs 0 8)
  let plan := recAt bs 0x08 8
  let range := recAt bs 0x10 8
  let ctrl := recAt bs 0x18 8
  let ctab : DWord := BitVec.ofNat 64 (recAt bs 0x28 8)
  let done : DWord := BitVec.ofNat 64 (recAt bs 0x30 8)
  let gang := nbits ctrl 8 8
  let gscope := nbits ctrl 6 2
  let nct := nbits ctrl 20 4
  let sg := nbits ctrl 3 1 == 1
  if !entryOk s ctx entry then 1
  else if !planOk plan true then 2
  else if nbits ctrl 27 1 ≠ 0 ∨ nbits ctrl 19 1 ≠ 0 ∨ nbits ctrl 5 1 ≠ 0 ∨ nbits range 48 16 ≠ 0 ∨ 8 < nct ∨ gscope = 3 ∨
      decide (gang = 0) ≠ decide (gscope = 0) ∨ doneOk s ctx done = false then 3
  else if !gangOk (planOf plan) gang gscope then 4
  else if nct ≠ 0 ∧ !((templatesOf s ctx ctab nct).any fun ts => ts.all fun t => entryOk s ctx t.1 && planOk t.2 false) then 5
  else if (freeCords s).length < (if sg then 2 else 1) then 6
  else if sg && !(decide (1 ≤ gang) && decide (nbits ctrl 24 3 < nct) && decide (1 ≤ nbits ctrl 28 9) &&
      decide (nbits ctrl 28 9 ≤ 256) && decide (1 ≤ nbits ctrl 37 15) && decide (1 ≤ nbits range 0 48) &&
      nbits ctrl 4 1 == 0 && tolOk (recAt bs 0x38 8) && (capsValue s.part s.stepping).getLsbD 2) then 7
  else if 1024 ≤ (s.launches.filter fun l => l.ctx == ctx).length then 8
  else if !((s.ctxOf ctx).any fun c => decide (prio ≤ c.prioCap)) then 9
  else 0

/-! ### Accepting and rejecting (R336, R337) -/

/-- A launch identifier that no live launch has, chosen freely. -/
def pickLaunch (s : State) : Nat :=
  let k := Config.choose s.freeN
  match (List.range (s.launches.length + 1)).find? fun i => !(s.launches.any fun l => l.id == (k + i) % 65536) with
  | some i => (k + i) % 65536
  | none => k % 65536

/-- The launch of a record, with its cords (R336). A launch of a SERIAL queue waits while an earlier one of the queue is live
(R338). The answer is the state and the launch's identifier. -/
def acceptLaunch (s : State) (ctx : Nat) (queue : Option Nat) (serial : Bool) (bs : List Byte) (prio : Nat) : State × Nat :=
  let id := pickLaunch s
  let ctrl := recAt bs 0x18 8
  let plan := planOf (recAt bs 0x08 8)
  let range := nbits (recAt bs 0x10 8) 0 48
  let sg := nbits ctrl 3 1 == 1
  let ts := ((templatesOf s ctx (BitVec.ofNat 64 (recAt bs 0x28 8)) (nbits ctrl 20 4)).getD []).map fun t => (t.1, planOf t.2)
  let isOpen := nbits ctrl 4 1 == 1
  let s0 := { s with freeN := s.freeN + 1 }
  let main := (pickCord s0).getD 0
  let s1 := makeCord { s0 with freeN := s0.freeN + 1 } main ctx id (BitVec.ofNat 64 (recAt bs 0 8)) plan range (!isOpen) false
  let xt := if sg then ts[nbits ctrl 24 3]? else none
  let (exact, s2) := match xt, pickCord s1 with
    | some (e, p), some n => (some n, makeCord { s1 with freeN := s1.freeN + 1 } n ctx id e p 0 false true)
    | _, _ => (none, s1)
  let l : Launch :=
    { id := id, ctx := ctx, queue := queue, prio := prio, main := main, exactCord := exact,
      roles := BitVec.ofNat 64 (recAt bs 0x20 8), rper := nbits ctrl 16 3, gang := nbits ctrl 8 8, gscope := nbits ctrl 6 2,
      sg := sg, tol := BitVec.ofNat 64 (recAt bs 0x38 8), budget := nbits ctrl 28 9, titems := nbits ctrl 37 15,
      argt := (List.range 16).map fun i => BitVec.ofNat 32 (recAt bs (0x40 + 4 * i) 4), templates := ts,
      scratch := plan.scratch, done := BitVec.ofNat 64 (recAt bs 0x30 8), irq := nbits ctrl 63 1 == 1 && queue.isSome,
      vec := nbits ctrl 52 11, stkskip := 0, sgpass := 0, sgfail := 0, range := range, made := 0, tileNext := 0,
      tileDone := 0, rerun := [], exactDue := [], ending := none,
      blockedBy := serial && s.launches.any (fun x => x.queue == queue), since := none, sinceX := none, sinceG := none }
  ({ s2 with launches := s2.launches ++ [l] }, id)

/-- The 16 bytes of a completion record (R341). -/
def completionBytes (ending reason : Nat) (stkskip pass fail : Word) : List Byte :=
  leBytes (1 + 2 * ending + 256 * reason) 4 ++ leBytes stkskip.toNat 4 ++ leBytes pass.toNat 4 ++ leBytes fail.toNat 4

/-- A request of the Keystone core or of a port has been served at the home slices of some bytes in this clk: those of quadrants and
engines come before it (R243). -/
def portTurn (s : State) (pa n : Nat) : State :=
  ((sectorsOf pa n).map fun x => lineOf (64 * x)).eraseDups.foldl (fun s line => takeTurn s 0 line portRank) s

/-- Bytes written by the Keystone core or by a port at a place. -/
def keystoneWrite (s : State) (loc : Loc) (bs : List Byte) : State :=
  match loc with
  | .dev pa key => portTurn (l2Soft (devWrite s key pa bs) pa 1 true false) pa bs.length
  | .host pa => { s with mem := tsetRun s.mem pa bs }
  | _ => s

/-- The message of a host launch's end, when IRQ is set (R341); a vector whose entry of the MSI-X table is masked becomes pending
instead (R391, R392; log 57). -/
def sendMsi (s : State) (irq : Bool) (vec : Nat) : State :=
  if !irq then s
  else if (tget s.msix vec).getLsbD 96 then { s with pba := tset s.pba vec 1 }
  else { s with reports := s.reports ++ [.msi vec] }

/-- A host launch rejected (R337): the completion record with END 3, or a report, and the message. -/
def rejectHost (s : State) (ctx : Nat) (bs : List Byte) (reason : Nat) : State :=
  let done : DWord := BitVec.ofNat 64 (recAt bs 0x30 8)
  let ctrl := recAt bs 0x18 8
  let place := if done ≠ 0 ∧ done.toNat % 16 = 0 then ctxPlace s ctx done 16 true else none
  let s1 := match place with
    | some loc => keystoneWrite s loc (completionBytes 3 reason 0 0 0)
    | none => { s with reports := s.reports ++ [.rejected (pickLaunch s) reason], freeN := s.freeN + 1 }
  sendMsi s1 (nbits ctrl 63 1 == 1) (nbits ctrl 52 11)

/-! ### The host queues (R338, R394) -/

/-- QCFG's fields. -/
def Queue.en (q : Queue) : Bool := q.cfg.getLsbD 31
/-- SERIAL. -/
def Queue.serial (q : Queue) : Bool := q.cfg.getLsbD 30
/-- The context of the queue's records. -/
def Queue.ctx (q : Queue) : Nat := nbits q.cfg.toNat 4 6
/-- The queue's records: 2^M. -/
def Queue.size (q : Queue) : Nat := 2 ^ nbits q.cfg.toNat 0 4

/-- QUEUE_DOORBELL: a 32-bit write of TAIL (R338, R392). Doorbells before READY.KEY are latched (R408). -/
def execQueueDoorbell (q tail : Nat) (s : State) : Out :=
  .next { s with queues := modAt (fun x => { x with tail := tail % 2 ^ 32 }) s.queues q }

/-- A host queue holds a record that the Keystone core can read. -/
def queueReady (s : State) (x : Queue) : Bool :=
  x.en && s.ready.getLsbD 31 && decide (x.head % x.size ≠ x.tail % x.size)

/-- The next record of a host queue read, HEAD advanced, and the launch accepted or rejected (R337, R338). -/
def hostIntake (s : State) (q : Nat) (x : Queue) : State :=
  let bs := physBytes s (x.base.toNat + 128 * (x.head % x.size)) 128
  let s1 := { s with queues := modAt (fun y => { y with head := (y.head + 1) % y.size }) s.queues q, freeN := s.freeN + 1 }
  let prio := nbits (recAt bs 0x18 8) 0 3
  match rejectReason s1 x.ctx bs prio with
  | 0 => (acceptLaunch s1 x.ctx (some q) x.serial bs prio).1
  | r => rejectHost s1 x.ctx bs r

/-- The LAUNCH whose turn it is at a level: the first in line whose wave's earlier accesses are performed (R339). -/
def deviceTurn (s : State) (level : Nat) : Option DevLaunch :=
  s.intake.find? fun o => o.level == level && releaseMet s o.wave o.seq &&
    s.intake.all fun p => p.wave != o.wave || decide (o.seq ≤ p.seq)

/-- The answer to a LAUNCH: SD is written and its flag falls (R339). -/
def answerLaunch (s : State) (o : DevLaunch) (v : Nat) : State :=
  ({ s with intake := s.intake.filter fun x => x != o } : State).modAny o.wave fun w =>
    clearMarks (flagDec (sSetUser w o.sd [BitVec.ofNat 32 v]) o.flag) o.seq

/-- A LAUNCH's record read, an acquire at device scope, and the launch accepted or rejected (R339): a record that is not in
device memory is rejected with reason 0x01. -/
def deviceIntake (s : State) (o : DevLaunch) : State :=
  let s1 := match s.anyWave o.wave with
    | some w => l1Drop s (coreOf w.quad)
    | none => s
  match ctxPlace s1 o.ctx o.ptr 128 false with
  | some (.dev pa key) =>
    let bs := devBytes s1 key pa 128
    let prio := min (nbits (recAt bs 0x18 8) 0 3) o.level
    match rejectReason s1 o.ctx bs prio with
    | 0 =>
      let (s2, id) := acceptLaunch s1 o.ctx none false bs prio
      answerLaunch s2 o (2 ^ 31 + id)
    | r => answerLaunch s1 o (r * 2 ^ 24)
  | _ => answerLaunch s1 o (1 * 2 ^ 24)

/-- LAUNCH_RECORD_INTAKE: one record read and validated (R337 to R339); queues 64 to 71 hold the LAUNCH words of a level. -/
def execLaunchRecordIntake (q : Nat) (s : State) : Out :=
  .next (if q < 64 then
      match s.queues[q]? with
      | some x => if queueReady s x then hostIntake s q x else s
      | none => s
    else match deviceTurn s (q - 64) with
      | some o => deviceIntake s o
      | none => s)

/-! ### LAUNCH and VERDICT (R339, R340, R354) -/

/-- LAUNCH (R339): once for the wave; its pointer is checked by R202 in the lowest LIVE slot, as LDW's is (KIND 6, log 21). A record in
an import window is not read there: it is rejected. -/
def execLaunch (f : LaunchF) (s : State) : Out :=
  if s.w.token.isSome then .next (trapNow s 0x0B 8)
  else
    let low := lowestSlot s.rd.live s.w.width
    let k := low.getD 0
    let ptr : DWord := if s.rd.replay then tget s.rd.frame.cap.addr k else sReg64 s.rd f.sa.toNat
    let ask : Ask := { n := 128, write := false, aligned := true, atom := none, peers := false }
    let (s1, r) := checkPtr s s.rd (k % 32) ask ptr
    match r with
    | .error e =>
      let m : MemW :=
        { kind := .load, fk := 6, ask := ask, dest := .none, q := 0, sc := 0, hint := 0, l1 := false, flag := none }
      .next (raise (capture s1 (fun _ => ptr) (fun _ => []) (fun _ => []) [k])
        (memTrap s m (fun _ => ptr) [(k, e)] (match low with | some i => slotMask i | none => 0)))
    | .ok _ =>
      let fl := flagSel s.w f.fs
      let o : DevLaunch :=
        { wave := s.w.uid, ctx := s.w.ctx, level := s.w.prio, sd := f.sd.toNat, flag := fl, ptr := ptr, seq := s1.nextOp }
      .next (({ s1 with intake := s1.intake ++ [o], nextOp := s1.nextOp + 1 } : State).modW fun w =>
        addMarks (flagInc w fl) (sMarks w f.sd.toNat 1 (some o.seq))).done

/-- VERDICT (R354, R355): the residual is recorded, and the wave drains. -/
def execVerdict (f : SaF) (s : State) : Out :=
  .next (if s.w.token.isNone then trapNow s 0x0B 9
    else if s.w.verdict.isSome then trapNow s 0x0B 0xA
    else
      let v := sReg64 s.rd f.sa.toNat
      (s.modW fun w => applyDrain { w with verdict := some v, wdcnt := 0, wdArmed := true }).done)

/-! ### Surrogate tiles (R350 to R359) -/

/-- The tiles of a launch (R350). -/
def tileCount (l : Launch) : Nat := ceilDiv l.range l.titems

/-- The next tile that a launch starts: one to run again first (R350, R359). -/
def tileDue (l : Launch) : Option Nat :=
  match l.rerun with
  | t :: _ => some t
  | [] => if l.tileNext < tileCount l then some l.tileNext else none

/-- The launch asks for a tile: it may be dispatched, and its last tile has been bound (R351). -/
def tileAsked (s : State) (l : Launch) : Bool :=
  l.sg && l.ending.isNone && !l.blockedBy && (tileDue l).isSome &&
    !(s.tiles.any fun t => t.launch == l.id && !t.bound)

/-- The dark slots of a cord's waves that take items, and of the waves that bind records will create (R345). -/
def darkSlots (s : State) (c : Cord) : Nat :=
  (s.allWaves.filter fun w => w.cord == c.num && !w.draining && w.status != .retiring && w.status != .retired).foldl
      (fun n w => n + (w.width - (slotsIn w.live w.width).length)) 0 +
    32 * c.plan.wq * (s.slotTable.filter fun x => x.2.getLsbD 127 && decide (nbits x.2.toNat 109 9 = c.num)).length

/-- The reserved tile of a launch whose gang has not been bound (R351). -/
def openTile (s : State) (launch : Nat) : Option STile := s.tiles.find? fun t => t.launch == launch && !t.bound

/-- The items of a guarded-surrogate launch's range that no wave has taken: of its running tiles, and of those still to start (R350,
R359). -/
def tileItems (s : State) (l : Launch) : Nat :=
  let size := fun (k : Nat) => min ((k + 1) * l.titems) l.range - k * l.titems
  (s.tiles.filter fun t => t.launch == l.id && t.phase == 0).foldl (fun n t => n + (t.stop - t.next)) 0 +
    l.rerun.foldl (fun n k => n + size k) 0 + (l.range - l.tileNext * l.titems)

/-- The cord asks for a wave: its ready items exceed its dark slots (R345); the main cord of a guarded-surrogate launch then has a tile
that waits for its gang, or that is still to reserve (R350, R351). -/
def wantsWave (s : State) (l : Launch) (c : Cord) : Bool :=
  if l.sg && c.num == l.main then decide (darkSlots s c < tileItems s l) && ((openTile s l.id).isSome || tileAsked s l)
  else decide (darkSlots s c < c.items.length + (c.range - c.taken))

/-- The waves of one placement of a cord: a whole gang, or one (R345). -/
def gangSize (l : Launch) (cord : Nat) : Nat := if cord = l.main ∧ 1 ≤ l.gang then l.gang else 1

/-- One entry of a dispatch queue: a launch's cord that asks for a wave. -/
structure Waiter where
  queue : Nat
  launch : Launch
  cord : Cord
deriving DecidableEq, Repr

/-- The entries, launches in the order of acceptance; exact cords wait in the device queue of their level (R346, R358). -/
def waiters (s : State) : List Waiter :=
  (s.launches.filter fun l => l.ending.isNone && !l.blockedBy).flatMap fun l =>
    (s.cords.filter fun c => c.launch == l.id && wantsWave s l c).map fun c =>
      { queue := if c.exact then 64 + exactLevel l.prio else l.queue.getD (64 + l.prio), launch := l, cord := c }

/-- The level at which an entry waits (R346, R358). -/
def Waiter.level (w : Waiter) : Nat := if w.cord.exact then exactLevel w.launch.prio else w.launch.prio

/-- The level of a queue: that of its head, raised by ageing (R346). -/
def queueLevel (s : State) (ws : List Waiter) (q : Nat) : Nat :=
  match ws.find? fun w => w.queue == q with
  | none => 0
  | some w => if s.raised.contains (q, w.launch.id) then min (w.level + 1) 7 else w.level

/-- An entry is served before another: by level, in one queue by acceptance, and round-robin among the queues of a level
(R346). -/
def servedBefore (s : State) (ws : List Waiter) (a b : Waiter) : Bool :=
  let la := queueLevel s ws a.queue
  let lb := queueLevel s ws b.queue
  if la ≠ lb then decide (lb < la)
  else if a.queue = b.queue then
    match ws.find? fun w => w.launch.id == a.launch.id || w.launch.id == b.launch.id with
    | some w => w.launch.id == a.launch.id && a.launch.id != b.launch.id
    | none => false
  else
    let last := (tget s.served la).toNat
    decide ((a.queue + 72 - last) % 72 < (b.queue + 72 - last) % 72)

/-- Banked-store capacity in units of 4 KiB (R351). -/
def bankCapacity (part : Nat) : Nat := if part = 0 then 16384 else 8192

/-- Banked-store capacity reserved. -/
def bankUsed (s : State) : Nat :=
  s.tiles.foldl (fun n t => n + match s.launchOf t.launch with | some l => l.budget | none => 0) 0

/-- The entry of a guarded-surrogate launch's main cord. -/
def Waiter.forTile (w : Waiter) : Bool := w.launch.sg && w.cord.num == w.launch.main

/-- A tile can reserve its token and capacity; those of other launches reserve in the order of dispatch (R346, R351). -/
def mayReserve (s : State) (l : Launch) : Bool :=
  let ws := waiters s
  tileAsked s l && decide (s.tiles.length < 4096) && decide (bankUsed s + l.budget ≤ bankCapacity s.part) &&
    ws.any fun w => w.launch == l && w.forTile &&
      ws.all fun o => !(o.forTile && tileAsked s o.launch && servedBefore s ws o w)

/-- A token that no tile holds, chosen freely. -/
def pickToken (s : State) : Nat :=
  let k := Config.choose s.freeN
  match (List.range (s.tiles.length + 1)).find? fun i => !(s.tiles.any fun t => t.token == (k + i) % 4096) with
  | some i => (k + i) % 4096
  | none => k % 4096

/-- TILE_RESERVE: a tile reserves a token and its budget (R351). -/
def execTileReserve (launch : Nat) (s : State) : Out :=
  .next (match s.launchOf launch with
    | none => s
    | some l => match tileDue l with
      | none => s
      | some k =>
        if !mayReserve s l then s
        else
          let t : STile :=
            { token := pickToken s, launch := launch, tile := k, next := k * l.titems, stop := min ((k + 1) * l.titems) l.range,
              waves := [], banked := [], sectors := [], overrun := false, erred := false, bound := false, phase := 0, spilled := [] }
          ({ s with tiles := s.tiles ++ [t], freeN := s.freeN + 1 } : State).modLaunch launch fun x =>
            match x.rerun with
            | _ :: rest => { x with rerun := rest }
            | [] => { x with tileNext := x.tileNext + 1 })

/-- A bind record with V set names the tile (R344). -/
def boundTile (s : State) (token : Nat) : Bool :=
  s.slotTable.any fun x => x.2.getLsbD 127 && x.2.getLsbD 52 && decide (nbits x.2.toNat 40 12 = token)

/-- Every wave of the tile has retired, and none is to be created. -/
def tileEmpty (s : State) (t : STile) : Bool := t.waves.all (fun w => w.gone) && !boundTile s t.token

/-- A residual passes (R356): it is no NaN and its magnitude is at most TOL; the comparison is exact. -/
def residualOk (r tol : DWord) : Bool := decide (r.toNat % 2 ^ 63 ≤ tol.toNat % 2 ^ 63)

/-- The tile fails (R356). -/
def tileFails (t : STile) (tol : DWord) : Bool :=
  t.overrun || t.erred || t.waves.any fun w => w.held && match w.verdict with
    | some r => !residualOk r tol
    | none => true

/-- Nothing of the tile is still in flight: its operations' banked writes come before its verdict (R247, R248, R356). -/
def tileStill (s : State) (token : Nat) : Bool :=
  !(s.engOps.any fun o => o.token == some token) && !(s.memOps.any fun o => o.token == some token && o.kind.isStore)

/-- A tile whose last wave has retired, or one that has overrun or erred, resolves: it is to commit or to discard (R356). One of a
launch that is ending, or that was pre-empted, is discarded without a result (R359). -/
def resolveTile (s : State) (token : Nat) : State :=
  match s.tileOf token with
  | none => s
  | some t => match s.launchOf t.launch with
    | none => s
    | some l =>
      if t.bound && (t.overrun || t.erred || (tileEmpty s t && tileStill s token)) && decide (t.phase = 0) && l.ending.isNone then
        takeTurn (s.modTile token fun x => { x with phase := if tileFails x l.tol then 2 else 1 }) 6 token 1
      else s

/-- The tiles whose last wave or operation has ended, and those that have failed, resolve. -/
def settleTiles (s : State) : State := s.tiles.foldl (fun s t => resolveTile s t.token) s

/-- One banked sector put in its place under its key (R357): the bytes that its mask covers. -/
def commitSector (t : STile) (s : State) (x : Nat × Nat) : State :=
  let bs := (List.range 64).map fun i => tget t.banked (64 * x.1 + i)
  if bs.all fun b => decide (256 ≤ b.toNat) then
    l2Soft (devWrite s x.2 (64 * x.1) (bs.map fun b => BitVec.ofNat 8 b.toNat)) (64 * x.1) 1 true true
  else
    l2Soft ((List.range 64).foldl (fun s i =>
      let b := bs.getD i 0
      if b.toNat < 256 then s else devWrite s x.2 (64 * x.1 + i) [BitVec.ofNat 8 b.toNat]) s) (64 * x.1) 1 true false

/-- Banked bytes put in their places (R357), sector by sector. -/
def commitBytes (s : State) (t : STile) : State := t.sectors.foldl (commitSector t) s

/-- A tile gone: its token, its capacity and its banked copies (R351, R352); another tile can reserve them from the next clk. -/
def freeTile (s : State) (token : Nat) : State :=
  takeTurn { s with tiles := s.tiles.filter fun x => x.token != token, l2 := s.l2.filter fun l => l.token != some token } 6 4096 1

/-- A commit comes in a clk after its tile's resolution, and before every request that reaches its lines in that clk (R357, R360). -/
def commitMay (s : State) (t : STile) : Bool :=
  inTurn s 6 t.token 0 && t.sectors.all fun x => inTurn s 0 (lineOf (64 * x.1)) 0

/-- The exact cord is Closed when every tile has resolved and every exact item has entered (R358). -/
def closeExact (s : State) (launch : Nat) : State :=
  match s.launchOf launch with
  | none => s
  | some l => match l.exactCord with
    | none => s
    | some n =>
      if exactDone l then
        reapCords (drainParked (s.modCord n fun c => { c with closed := true, closing := [] }) n)
      else s

/-- TILE_COMMIT: the banked bytes of a passing tile become visible at one moment; its token and capacity return (R351,
R357). -/
def execTileCommit (token : Nat) (s : State) : Out :=
  .next (match s.tileOf token with
    | none => s
    | some t =>
      if t.phase ≠ 1 then s
      else
        let s1 := commitBytes (freeTile s token) t
        closeExact (s1.modLaunch t.launch fun l => { l with sgpass := l.sgpass + 1, tileDone := l.tileDone + 1 }) t.launch)

/-- A discarded tile's exact items (R358): the ordinals of the tile's items, the exact template's argument words. -/
def exactItems (s : State) (l : Launch) (t : STile) : List Item :=
  let args := match l.exactCord.bind s.cordOf with | some c => c.plan.args | none => 0
  let lo := t.tile * l.titems
  (List.range (t.stop - lo)).map fun i => { ord := lo + i, args := l.argt.take args }

/-- A tile is to be discarded, once its waves have retired and its accesses are completed (R356): it failed; or it was pre-empted; or
its launch is ending. -/
def mayDiscard (s : State) (t : STile) : Bool :=
  tileStill s t.token && tileEmpty s t && (t.phase == 2 || t.phase == 3 ||
    (t.phase == 0 && match s.launchOf t.launch with | some l => l.ending.isSome | none => true))

/-- TILE_DISCARD: the banked sectors are dropped, the token and capacity return (R351, R358). A failed tile is counted and
its exact items fall due; a pre-empted one runs again, in tile order (R359). -/
def execTileDiscard (token : Nat) (s : State) : Out :=
  .next (match s.tileOf token with
    | none => s
    | some t =>
      if !mayDiscard s t then s
      else
        let s1 := freeTile s token
        if t.phase = 2 then
          let s2 := s1.modLaunch t.launch fun l =>
            { l with sgfail := l.sgfail + 1, tileDone := l.tileDone + 1,
                     exactDue := if l.ending.isSome then l.exactDue else l.exactDue ++ exactItems s l t }
          closeExact s2 t.launch
        else if t.phase = 3 then s1.modLaunch t.launch fun l => { l with rerun := insBy (fun a b => decide (a ≤ b)) t.tile l.rerun }
        else s1)

/-- EXACT_ITEMS_ENTER: exact items enter the exact cord in ordinal order, while it has room (R308, R358). -/
def execExactItemsEnter (launch : Nat) (s : State) : Out :=
  .next (match s.launchOf launch with
    | none => s
    | some l => match l.exactCord with
      | none => s
      | some n => match s.cordOf n with
        | none => s
        | some c =>
          let now := l.exactDue.take (65536 - c.items.length)
          if now.isEmpty || l.ending.isSome then s
          else
            let le := fun (a b : Item) => decide (a.ord ≤ b.ord)
            let s1 := s.modCord n fun x => { x with items := now.foldl (fun is i => insBy le i is) x.items }
            closeExact (s1.modLaunch launch fun x => { x with exactDue := x.exactDue.drop now.length }) launch)

/-! ### The end of a launch (R341, R389) -/

/-- A bind record with V set belongs to the launch. -/
def boundLaunch (s : State) (launch : Nat) : Bool :=
  s.slotTable.any fun x => x.2.getLsbD 127 && decide (nbits x.2.toNat 93 16 = launch)

/-- Every wave of the launch has retired, and its stores, engine and matrix operations have been performed (R341). -/
def launchQuiet (s : State) (id : Nat) : Bool :=
  !(s.allWaves.any fun w => w.launch == id) && !(s.saved.any fun w => w.launch == id) && !boundLaunch s id &&
    !(s.memOps.any fun o => o.launch == id) && !(s.engOps.any fun o => o.launch == id) &&
    !(s.matOps.any fun o => o.launch == id) && !(s.objOps.any fun o => o.launch == id) &&
    !(s.crewOps.any fun o => o.launch == id) && !(s.tiles.any fun t => t.launch == id)

/-- The launch has ended (R341): its cords are Closed and empty, unless it is terminated. -/
def mayEnd (s : State) (l : Launch) : Bool :=
  launchQuiet s l.id && (l.ending.isSome ||
    ((s.cords.filter fun c => c.launch == l.id).all (fun c => c.closed && cordEmpty s c) && l.exactDue.isEmpty &&
      (!l.sg || decide (l.tileDone = tileCount l)) && !(s.spawns.any fun o => o.launch == l.id)))

/-- Reservations released (R201, R260; log 22): their bytes stay in the scratchpad until a new one is made there, and their sync lines
become ordinary. -/
def spend (gone : Resv → Bool) (s : State) : State :=
  { s with
    resvs := s.resvs.filter fun r => !gone r
    spent := ((s.resvs.filter fun r => gone r && decide (r.core < savedPlace)).map fun r => { r with sync := [], objs := [], rings := [] }) ++
      s.spent }

/-- What a launch held is released: its cords become Free (R311), pen tasks are discarded, reservations and pools return. -/
def releaseLaunch (s0 : State) (l : Launch) : State :=
  let s := spend (fun r => r.launch == l.id) s0
  let mine := (s.cords.filter fun c => c.launch == l.id).map fun c => c.num
  { s with
    launches := s.launches.filter fun x => x.id != l.id
    cords := s.cords.filter fun c => c.launch != l.id
    pen := s.pen.filter fun t => !mine.contains t.cord
    released := s.released.filter fun t => !mine.contains t.cord
    spawns := s.spawns.filter fun o => o.launch != l.id
    pools := s.pools.filter fun p => p.launch != l.id
    crews := s.crews.filter fun c => c.launch != l.id
    closedSets := s.closedSets.filter fun x => x.1 != l.id
    raised := s.raised.filter fun x => x.2 != l.id }

/-- The next launch of a SERIAL queue may be dispatched (R338). -/
def unblockQueue (s : State) (queue : Option Nat) : State :=
  match queue with
  | none => s
  | some q => match s.launches.find? fun l => l.queue == some q with
    | some l => s.modLaunch l.id fun x => { x with blockedBy := false }
    | none => s

/-- LAUNCH_END: the completion record is written at DONE, or the failure is reported; then the message (R341). -/
def execLaunchEnd (launch : Nat) (s : State) : Out :=
  .next (match s.launchOf launch with
    | none => s
    | some l =>
      if !mayEnd s l then s
      else
        let code := l.ending.getD 0
        let s1 := if l.done = 0 then s
          else match ctxPlace s l.ctx l.done 16 true with
            | some loc => keystoneWrite s loc (completionBytes code 0 l.stkskip l.sgpass l.sgfail)
            | none => { s with reports := s.reports ++ [.completion l.id code l.done] }
        unblockQueue (releaseLaunch (sendMsi s1 l.irq l.vec) l) l.queue)

/-- The events by which exact items enter cords that can happen now. -/
def exactEvents (s : State) : List Act :=
  (s.launches.filter fun l => !l.exactDue.isEmpty && l.ending.isNone &&
    (l.exactCord.bind s.cordOf).any fun c => decide (c.items.length < 65536) && cordOpen s c.num).map fun l => execExactItemsEnter l.id

/-- The other events of launches and tiles that can happen now. -/
def launchEvents (s : State) : List Act :=
  ((List.range 64).filter fun q => (s.queues[q]?).any (queueReady s)).map execLaunchRecordIntake ++
    (((List.range 8).filter fun p => (deviceTurn s p).isSome).map fun p => execLaunchRecordIntake (64 + p)) ++
    (if inTurn s 6 4096 0 then (s.launches.filter (mayReserve s)).map (fun l => execTileReserve l.id) else []) ++
    (s.tiles.filter fun t => t.phase == 1 && commitMay s t).map (fun t => execTileCommit t.token) ++
    (s.tiles.filter (mayDiscard s)).map (fun t => execTileDiscard t.token) ++
    (s.launches.filter (mayEnd s)).map fun l => execLaunchEnd l.id

end Sys2Proof.Machine
end

