-- ==== Sys2Proof/Machine/Place.lean ====
section
/-!
DEFINITION. Placing waves (R18, R344 to R349) and taking them away: bind records, the creation of waves, ageing, closed
sets, the retirement of waves (R90), pre-emption and resumption (R347, R386, R387).
-/
namespace Sys2Proof.Machine

/-! ### Resources of a quadrant (R18) -/

/-- What a wave asks of a quadrant: rows, tiles, layout entries. -/
structure Need where
  rows : Nat
  tiles : Nat
  lays : Nat
deriving DecidableEq, Repr

/-- The wave slots, rows, tiles and layout entries in use in a quadrant. -/
structure Use where
  slots : List Nat
  rows : Nat
  tiles : Nat
  lays : Nat
deriving DecidableEq, Repr

/-- The need of a plan (R18). -/
def planNeed (p : Plan) : Need := { rows := p.nregs * p.wq, tiles := p.acc, lays := p.nlay }

/-- The need of a wave as it stands: its current registers (R97). -/
def waveNeed (w : Wave) : Need := { rows := w.nregs * w.width / 32, tiles := w.acc, lays := w.nlay }

/-- The plan of no kernel. -/
def Plan.none : Plan := { wq := 1, nregs := 8, acc := 0, nlay := 0, args := 0, scratch := 0 }

/-- A cord's plan. -/
def cordPlan (s : State) (cord : Nat) : Plan := match s.cordOf cord with | some c => c.plan | none => Plan.none

/-- A wave takes its place. -/
def Use.add (u : Use) (slot : Nat) (n : Need) : Use :=
  { slots := slot :: u.slots, rows := u.rows + n.rows, tiles := u.tiles + n.tiles, lays := u.lays + n.lays }

/-- What is in use in a quadrant: by its waves, its bind records with V set, and its register pools (R96). -/
def quadUse (s : State) (quad : Nat) : Use :=
  let pools := (s.pools.filter fun p => p.quad == quad).foldl (fun n p => n + p.rows) 0
  let u0 : Use := { slots := [], rows := pools, tiles := 0, lays := 0 }
  let u1 := (s.allWaves.filter fun w => w.quad == quad).foldl (fun u w => u.add w.wslot (waveNeed w)) u0
  (s.slotTable.filter fun x => x.1 / 16 == quad && x.2.getLsbD 127).foldl
    (fun u x => u.add (x.1 % 16) (planNeed (cordPlan s (nbits x.2.toNat 109 9)))) u1

/-- A need fits beside what is in use, but for the wave slot. -/
def Use.fits (u : Use) (n : Need) : Bool :=
  decide (u.rows + n.rows ≤ 1024) && decide (u.tiles + n.tiles ≤ 32) && decide (u.lays + n.lays ≤ 64)

/-- The free wave slots. -/
def Use.free (u : Use) : List Nat := (List.range 16).filter fun i => !u.slots.contains i

/-- A place for a need: quadrant, wave slot. -/
abbrev Spot := Nat × Nat × Need

/-- What is in use in a quadrant with some more places taken. -/
def useWith (s : State) (taken : List Spot) (quad : Nat) : Use :=
  (taken.filter fun x => x.1 == quad).foldl (fun u x => u.add x.2.1 x.2.2) (quadUse s quad)

/-- A list from one of its places on, round to that place. -/
def turned {α : Type} (k : Nat) (l : List α) : List α := l.drop (k % l.length) ++ l.take (k % l.length)

/-- The needs placed one after another, in quadrants of a list that take them and in free slots. The first is in the first quadrant
that takes it; for another one `pick`, a number for its place in the line, turns the list and the slots. -/
def placeAll (s : State) (pick : Nat → Nat) (quads : List Nat) : List Need → List Spot → Option (List Spot)
  | [], taken => some taken.reverse
  | n :: ns, taken =>
    let k := if taken.isEmpty then 0 else pick taken.length
    match (turned k quads).findSome? fun q =>
        let u := useWith s taken q
        if u.fits n then (turned (k / quads.length) u.free).head?.map fun w => ((q, w, n) : Spot) else none with
    | some x => placeAll s pick quads ns (x :: taken)
    | none => none

/-! ### Scratchpad reservations (R201) -/

/-- A reservation of a size fits at a base of a core. -/
def baseFree (s : State) (core size b : Nat) : Bool :=
  decide (b + size ≤ 524288) && s.resvs.all fun r => r.core != core || decide (b + size ≤ r.base) || decide (r.base + r.size ≤ b)

/-- A base for a new reservation: the lowest that is free (log 22). -/
def pickBase (s : State) (core size : Nat) : Option Nat :=
  (0 :: (s.resvs.filter fun r => r.core == core).map fun r => r.base + r.size).foldl (fun m b =>
    if baseFree s core size b then (match m with | some x => some (min x b) | none => some b) else m) none

/-- The core has the launch's reservation, or room for it. -/
def resvRoom (s : State) (l : Launch) (core : Nat) : Bool :=
  decide (l.scratch = 0) || (s.resvOf l.id core).isSome || (pickBase s core (512 * l.scratch)).isSome

/-- A place in a core's scratchpad taken: what was left there is gone. -/
def takeSpent (s : State) (core b n : Nat) : State :=
  { s with spent := s.spent.map fun r =>
      if r.core = core then { r with mem := tdrop (fun i => decide (b ≤ r.base + i) && decide (r.base + i < b + n)) r.mem } else r }

/-- The launch's reservation made on a core, reading zero in every byte (R201). -/
def makeResv (s : State) (l : Launch) (core : Nat) : State :=
  if l.scratch = 0 ∨ (s.resvOf l.id core).isSome then s
  else match pickBase s core (512 * l.scratch) with
    | none => s
    | some b =>
      let r : Resv := { launch := l.id, core := core, base := b, size := 512 * l.scratch, mem := [], sync := [], objs := [], rings := [] }
      let s1 := takeSpent s core b (512 * l.scratch)
      { s1 with resvs := r :: s.resvs }

/-! ### Where a placement can go (R344, R345, R349, R405, R408) -/

/-- The context's span takes bind records (R406). -/
def spanOpen (s : State) (ctx : Nat) : Bool :=
  match (s.ctxOf ctx).bind fun c => s.spans[c.span]? with
  | some p => !p.closedToBind
  | none => false

/-- A core takes bind records for a context: its die is ready, its cluster lies in the span, which is not closed, and no gang
but the one named has closed it (R349, R406, R408). -/
def coreOpen (s : State) (ctx : Nat) (gang : Option Nat) (core : Nat) : Bool :=
  s.ready.getLsbD (24 + dieOf s.part core) && s.inSpan ctx (clusterOf core) && spanOpen s ctx &&
    s.closedSets.all fun x => gang == some x.1 || x.2.2 != (if x.2.1 = 0 then core else clusterOf core)

/-- The quadrants in which a gang's waves go, from the one chosen on: its core, its cluster, or that quadrant alone. -/
def unitQuads (gscope quad : Nat) : List Nat :=
  let n := if gscope = 2 then 16 else if gscope = 1 then 4 else 1
  (List.range n).map fun i => quad / n * n + (quad % n + i) % n

/-- The spots of a placement whose first wave goes into a quadrant: all of the gang's waves at once (R345, R348). The gang of a
guarded-surrogate tile is placed once the tile has reserved (R351), and needs a crew entry (R324, R350). -/
def placement (s : State) (l : Launch) (c : Cord) (quad : Nat) (pick : Nat → Nat) : Option (List Spot) :=
  let g := gangSize l c.num
  let quads := if c.num = l.main then unitQuads l.gscope quad else [quad]
  let who := if c.num = l.main then some l.id else none
  if !coreOpen s l.ctx who (coreOf quad) then none
  else
    let ok := quads.filter fun q => coreOpen s l.ctx who (coreOf q) && resvRoom s l (coreOf q)
    if !ok.contains quad || !(quadUse s quad).fits (planNeed c.plan) || (quadUse s quad).free.isEmpty then none
    else if l.sg && c.num == l.main && !((openTile s l.id).isSome && crewRoom s (l.gscope - 1) (crewPlace (l.gscope - 1) quad)) then none
    else placeAll s pick ok (List.replicate g (planNeed c.plan)) []

/-- The quadrants of the part. -/
def quadsOf (part : Nat) : List Nat := List.range (4 * numCores part)

/-- A waiting entry could be placed so as to use a quadrant. -/
def couldUse (s : State) (w : Waiter) (quad : Nat) : Bool := (placement s w.launch w.cord quad fun _ => 0).isSome

/-- A wave of the launch on this core would take scratchpad for a new reservation. -/
def takesResv (s : State) (l : Launch) (core : Nat) : Bool := decide (l.scratch ≠ 0) && (s.resvOf l.id core).isNone

/-- A waiting entry could use a resource that waves of a launch take in some quadrants: the quadrants' own, scratchpad of their
cores, or entries for crews of the scopes listed (R346). -/
def couldTake (s : State) (o : Waiter) (l : Launch) (scopes quads : List Nat) : Bool :=
  quads.any fun q =>
    couldUse s o q ||
      (takesResv s l (coreOf q) && takesResv s o.launch (coreOf q) && (unitQuads 1 q).any (couldUse s o)) ||
      (o.forTile && scopes.any fun sc => decide (o.launch.gscope = sc + 1) && (unitQuads (sc + 1) q).any (couldUse s o))

/-- An entry may be placed with its first wave in a quadrant: no entry that is served before it could use a resource that it takes
(R346). -/
def mayPlace (s : State) (ws : List Waiter) (w : Waiter) (quad : Nat) (pick : Nat → Nat) : Option (List Spot) :=
  match placement s w.launch w.cord quad pick with
  | none => none
  | some xs =>
    let scopes := if w.forTile then [w.launch.gscope - 1] else []
    if (ws.filter fun o => servedBefore s ws o w).all fun o => !couldTake s o w.launch scopes (xs.map fun x => x.1) then some xs
    else none

/-- The places of a gang's other waves as `pick` has them, or, where that is no placement that may be, the first places that may. -/
def placeBy (s : State) (ws : List Waiter) (w : Waiter) (quad : Nat) (pick : Nat → Nat) : Option (List Spot) :=
  match mayPlace s ws w quad pick with
  | some xs => some xs
  | none => mayPlace s ws w quad fun _ => 0

/-! ### BIND_RECORD_WRITE (R344, R345) -/

/-- A bind record (R344): `tok` and `key` are the tile's token and the crew's scope and key. -/
def bindWord (prio ctx cord launch waveNo role : Nat) (tok : Option Nat) (crew : Option (Nat × Nat)) : BitVec 128 :=
  BitVec.ofNat 128 (2 ^ 127 + prio * 2 ^ 124 + ctx * 2 ^ 118 + cord * 2 ^ 109 + launch * 2 ^ 93 + waveNo % 2 ^ 32 * 2 ^ 61 +
    role * 2 ^ 53 + (match tok with | some t => 2 ^ 52 + t * 2 ^ 40 | none => 0) +
    (match crew with | some (sc, k) => 2 ^ 39 + sc * 2 ^ 38 + k * 2 ^ 22 | none => 0))

/-- The role of a wave (R336). -/
def roleOf (l : Launch) (cord waveNo : Nat) : Nat :=
  if cord = l.main then nbits l.roles.toNat (8 * (waveNo % (l.rper + 1))) 8 else 0

/-- The bind records of a placement written in one step. -/
def bindAll (s : State) (l : Launch) (c : Cord) (first : Nat) (tok : Option Nat) : List Spot → Nat → State
  | [], _ => s
  | x :: xs, i =>
    let s1 := bindAll s l c first tok xs (i + 1)
    let s2 := makeResv s1 l (coreOf x.1)
    let crew := tok.map fun t => (l.gscope - 1, t)
    let r := bindWord (if c.exact then exactLevel l.prio else l.prio) l.ctx c.num l.id (first + i) (roleOf l c.num (first + i)) tok crew
    { s2 with slotTable := tset s2.slotTable (16 * x.1 + x.2.1) r }

/-- A placement's bind records: a wave, or a whole gang, of a cord is bound, the first one in the slot named (R344 to R346). -/
def bindAt (pick : Nat → Nat) (cord quad wslot : Nat) (s : State) : State :=
  let ws := waiters s
  match ws.find? fun w => w.cord.num == cord with
    | none => s
    | some w => match placeBy s ws w quad pick with
      | some ((q, w0, n) :: rest) =>
        let l := w.launch
        let xs : List Spot := (q, if (quadUse s q).free.contains wslot && !(rest.any fun x => x.1 == q && x.2.1 == wslot) then wslot else w0, n) :: rest
        let g := gangSize l cord
        let first := roundUp l.made g
        let tok := if l.sg && cord == l.main then (openTile s l.id).map fun t => t.token else none
        let s1 := bindAll s l w.cord first tok xs 0
        let s2 := s1.modLaunch l.id fun x =>
          { x with made := first + xs.length, since := if w.cord.exact then x.since else none,
                   sinceX := if w.cord.exact then none else x.sinceX, sinceG := if cord = l.main then none else x.sinceG }
        let s3 := match tok with | some t => s2.modTile t fun x => { x with bound := true } | none => s2
        { s3 with
          freeN := s.freeN + g
          raised := s3.raised.filter fun x => x != (w.queue, l.id)
          served := tset s3.served (queueLevel s ws w.queue) (BitVec.ofNat 8 ((w.queue + 1) % 72))
          closedSets := if 1 ≤ l.gang && cord = l.main then s3.closedSets.filter fun x => x.1 != l.id else s3.closedSets }
      | _ => s

/-- BIND_RECORD_WRITE (R344, R345). Where the other waves of a gang go in its core or cluster is free (log 46). -/
def execBindRecordWrite (cord quad wslot : Nat) (s : State) : Out :=
  .next (bindAt (fun i => Config.choose (s.freeN + i)) cord quad wslot s)

/-! ### WAVE_CREATE (R92, R344) -/

/-- WAVE_CREATE: dispatch creates the wave of a bind record and clears V; what happened before its launch is seen by it (R205,
R237, R241). A record of a launch or a tile that is ending creates none. -/
def execWaveCreate (entry : Nat) (s : State) : Out :=
  let r := (tget s.slotTable entry).toNat
  if nbits r 127 1 ≠ 1 then .next s
  else
    let s0 := { s with slotTable := tset s.slotTable entry (BitVec.ofNat 128 (r % 2 ^ 127)) }
    let cord := nbits r 109 9
    let launch := nbits r 93 16
    let tok := if nbits r 52 1 = 1 then some (nbits r 40 12) else none
    let dead := match tok.bind s.tileOf with
      | some t => t.overrun || t.erred || decide (t.phase ≠ 0)
      | none => false
    match s.launchOf launch, s.cordOf cord with
    | some l, some c =>
      if l.ending.isSome || dead then .next (match tok with | some t => resolveTile s0 t | none => s0)
      else
        let quad := entry / 16
        let scope := nbits r 38 1
        let key := nbits r 22 16
        let inCrew := nbits r 39 1 = 1
        let w : Wave := { Wave.init with
          uid := s.nextUid, status := .running, quad := quad, wslot := entry % 16, ctx := nbits r 118 6, launch := launch,
          cord := cord, waveNo := nbits r 61 32, role := nbits r 53 8, width := 32 * c.plan.wq, nregs := c.plan.nregs,
          acc := c.plan.acc, nlay := c.plan.nlay, args := c.plan.args, prio := nbits r 124 3, pc := c.entry,
          lays := List.replicate c.plan.nlay Layout.empty, token := tok, placed := s.nextOp,
          crew := if inCrew then some (crewId scope key) else none }
        let s1 := l1Drop { s0 with waves := s0.waves ++ [w], nextUid := s.nextUid + 1, nextOp := s.nextOp + 1, order := s0.order ++ [w.uid] } (coreOf quad)
        let s2 := if inCrew then joinCrew s1 w.uid launch scope (crewPlace scope quad) key else s1
        .next (match tok with
          | some t => s2.modTile t fun x =>
              { x with waves := x.waves ++ [{ uid := w.uid, held := false, verdict := none, gone := false }] }
          | none => s2)
    | _, _ => .next s0

/-! ### Ageing and closed sets (R346, R349) -/

/-- From the clk in which something began to wait, `t` microseconds have passed; the device clk is 1.8 GHz (R9, R343). -/
def longSince (s : State) (since : Option Nat) (t : Nat) : Bool := decide (t ≠ 0) && since.any fun c => decide (c + 1800 * t < s.clk)

/-- An entry has waited longer than `t` microseconds for a wave: an exact cord by itself, the other cords of its launch together (R346,
R358). -/
def waitedOver (s : State) (w : Waiter) (t : Nat) : Bool := longSince s (if w.cord.exact then w.launch.sinceX else w.launch.since) t

/-- What waits has its first clk noted, and what has ceased to wait has none: a launch, its exact cord, its next gang (R346, R349). -/
def noteWaits (s : State) : State :=
  if s.launches.isEmpty then s
  else
    let ws := waiters s
    let note := fun (old : Option Nat) (waits : Bool) => if waits then some (old.getD s.clk) else none
    { s with launches := s.launches.map fun l =>
        let mine := ws.filter fun w => w.launch.id == l.id
        { l with
          since := note l.since (mine.any fun w => !w.cord.exact)
          sinceX := note l.sinceX (mine.any fun w => w.cord.exact)
          sinceG := note l.sinceG (mine.any fun w => w.cord.num == l.main) } }

/-- A queue's head is to be raised: it has waited longer than AGE at its level (R346). -/
def ageDue (s : State) (ws : List Waiter) (q : Nat) : Option Launch :=
  match ws.find? fun w => w.queue == q with
  | some w =>
    if !s.raised.contains (q, w.launch.id) && waitedOver s w (tget s.age w.level).toNat then some w.launch else none
  | none => none

/-- QUEUE_AGEING: the head of a queue is raised one level, once (R346). -/
def execQueueAgeing (q : Nat) (s : State) : Out :=
  .next (match ageDue s (waiters s) q with
    | some l => { s with raised := s.raised ++ [(q, l.id)] }
    | none => s)

/-- The core sets of a gang's scope in its span: cores, or clusters. -/
def gangSets (s : State) (l : Launch) : List Nat :=
  if l.gscope = 1 then (List.range (numCores s.part)).filter fun c => s.inSpan l.ctx (clusterOf c)
  else (List.range (4 * clustersPerDie s.part)).filter fun c => s.inSpan l.ctx c

/-- The level of a wave's launch (R336, R346). -/
def launchLevel (s : State) (w : Wave) : Nat := match s.launchOf w.launch with | some l => l.prio | none => w.prio

/-- The resident waves in a set of launches at levels no higher than a level. -/
def setLoad (s : State) (gscope prio set : Nat) : Nat :=
  (s.allWaves.filter fun w =>
    decide (launchLevel s w ≤ prio) && decide ((if gscope = 1 then coreOf w.quad else clusterOf (coreOf w.quad)) = set)).length

/-- Two sets, each a scope (0 core, 1 cluster) and a number, share a core. -/
def setsMeet (a b : Nat × Nat) : Bool :=
  if a.1 = b.1 then a.2 == b.2 else if a.1 = 0 then clusterOf a.2 == b.2 else a.2 == clusterOf b.2

/-- The set with the fewest such waves, the lowest number among equals (R349), among those that no other gang has closed. -/
def bestSet (s : State) (l : Launch) : Option Nat :=
  (((gangSets s l).filter fun c => s.closedSets.all fun x => !setsMeet (l.gscope - 1, c) x.2).map fun c => (setLoad s l.gscope l.prio c, c)).foldl (fun m x =>
    match m with
    | none => some x
    | some y => if x.1 < y.1 then some x else some y) none |>.map fun x => x.2

/-- A gang that waits longer than GANGWAIT closes this set (R349). -/
def closeDue (s : State) (ws : List Waiter) (l : Launch) : Option Nat :=
  if decide (1 ≤ l.gang) &&
      (ws.any fun w => w.launch.id == l.id && w.cord.num == l.main && longSince s l.sinceG (tget s.gangwait l.prio).toNat) && decide (s.closedSets.length < 8) && !(s.closedSets.any fun x => x.1 == l.id)
  then bestSet s l else none

/-- GANG_CLOSE_SET: a gang closes a core set (R349). -/
def execGangCloseSet (launch set : Nat) (s : State) : Out :=
  .next (match s.launchOf launch with
    | some l => match closeDue s (waiters s) l with
      | some c => if c = set then { s with closedSets := s.closedSets ++ [(launch, l.gscope - 1, set)] } else s
      | none => s
    | none => s)

/-! ### WAVE_RETIRE (R90, R356, R389) -/

/-- The wave's launch or tile has ended before it. -/
def cutOff (s : State) (w : Wave) : Bool :=
  doomed s w || match s.launchOf w.launch with | some l => l.ending.isSome | none => true

/-- Nothing that retirement waits for is left (R90, R389): no store, tile, translation or crew word of the wave is in flight, but for
a JOIN that waits for a crew entry when the wave is ended. -/
def waveQuiet (s : State) (w : Wave) : Bool :=
  !(s.memOps.any fun o => o.wave == w.uid && match o.kind with | .store | .atom _ | .cas => true | _ => false) &&
    !(s.matOps.any fun o => o.wave == w.uid) && !(s.moves.any fun m => m.wave == w.uid) &&
    !(s.engOps.any fun o => o.wave == w.uid && (o.kind = .mlda || o.kind = .msta)) &&
    !(s.sysOps.any fun o => o.wave == w.uid) && !(s.hsets.any fun h => h.wave == w.uid) &&
    !(s.crewOps.any fun o => o.wave == w.uid && match o.kind with | .join _ => !cutOff s w | _ => true)

/-- The wave can retire now: a trap that a word of its last group has raised comes first (R76, R119). -/
def mayRetire (s : State) (w : Wave) : Bool :=
  ((w.status = .retiring && w.flags.isEmpty && w.trap.isNone) || (cutOff s w && w.status != .none && w.status != .retired)) && waveQuiet s w

/-- The launch occupies a core: with a wave, a bind record, or an operation that still works there. -/
def occupies (s : State) (launch core : Nat) : Bool :=
  (s.allWaves.any fun w => w.launch == launch && coreOf w.quad == core) ||
    (s.slotTable.any fun x => x.2.getLsbD 127 && decide (nbits x.2.toNat 93 16 = launch) && decide (coreOf (x.1 / 16) = core)) ||
    (s.engOps.any fun o => o.launch == launch && (o.core == core || o.ringCore == core)) ||
    (s.objOps.any fun o => o.launch == launch && o.core == core) ||
    (s.memOps.any fun o => o.launch == launch && o.accs.any fun a => match a.loc with | .scr c _ => c == core | _ => false) ||
    (s.saved.any fun w => w.launch == launch && coreOf w.quad == core)

/-- Reservations on cores that their launches no longer occupy are released (R201; log 22). -/
def dropResvs (s : State) : State :=
  spend (fun r => decide (r.core < savedPlace) && !occupies s r.launch r.core) s

/-- A launch's pool in a quadrant where it has no wave left goes to the free rows (R96). -/
def dropPools (s : State) : State :=
  { s with pools := s.pools.filter fun p =>
      decide (savedPlace ≤ p.quad) || s.allWaves.any fun w => w.launch == p.launch && w.quad == p.quad }

/-- A wave leaves the machine: what it still waited for is dropped. -/
def removeWave (s : State) (uid : Nat) : State :=
  { s with
    w := if s.w.uid = uid then Wave.init else s.w
    waves := s.waves.filter fun w => w.uid != uid
    saved := s.saved.filter fun w => w.uid != uid
    src := none
    order := s.order.filter fun u => u != uid
    memOps := s.memOps.filter fun o => o.wave != uid || (match o.kind with | .store | .atom _ | .cas => true | _ => false)
    fences := s.fences.filter fun h => h.wave != uid
    objWaits := s.objWaits.filter fun x => x.wave != uid
    latches := s.latches.filter fun l => l.wave != uid
    crewOps := s.crewOps.filter fun o => o.wave != uid
    spawns := if s.allWaves.any fun w => w.uid == uid && cutOff s w then s.spawns.filter fun o => o.wave != uid else s.spawns
    intake := if s.allWaves.any fun w => w.uid == uid && cutOff s w then s.intake.filter fun o => o.wave != uid else s.intake
    pools := s.pools.map fun p => { p with line := p.line.filter fun x => x.1 != uid } }

/-- The crew of a retired wave: it counts as arrive-and-drop (R90, R326, R327). -/
def leaveCrew (s : State) (w : Wave) : State :=
  match crewOf s w with
  | some c => testCrew (dropCrew s c.id w.uid) c.id
  | none => s

/-- The tile of a retired wave learns its verdict (R356). -/
def tileGone (s : State) (w : Wave) : State :=
  match w.token with
  | some t => resolveTile (s.modTile t fun x =>
      { x with waves := x.waves.map fun y => if y.uid = w.uid then { y with verdict := w.verdict, gone := true } else y }) t
  | none => s

/-- WAVE_RETIRE: the wave's resources are released (R90); a pre-empted wave of a launch that is ending is dropped (R389). -/
def execWaveRetire (wave : Nat) (s : State) : Out :=
  .next (match s.findWave wave with
    | some w =>
      if !mayRetire s w then s
      else tileGone (reapCords (dropPools (dropResvs (removeWave (leaveCrew s w) wave)))) w
    | none => match s.saved.find? fun w => w.uid == wave with
      | some w =>
        if cutOff s w && !(s.memOps.any fun o => o.wave == w.uid && match o.kind with | .store | .atom _ | .cas => true | _ => false) then
          let s1 := removeWave (leaveCrew s w) wave
          reapCords { s1 with
            matOps := s1.matOps.filter fun m => m.wave != wave
            engOps := s1.engOps.filter fun o => o.wave != wave || decide (o.core < savedPlace) }
        else s
      | none => s)

end Sys2Proof.Machine
end

