-- ==== Sys2Proof/Machine/Preempt.lean ====
section
/-!
DEFINITION. Pre-emption and resumption (R15, R99, R119, R249, R277, R298, R330, R347, R386, R387): which waves are taken, when a
wave's context can be saved, and how it is restored.
-/
namespace Sys2Proof.Machine

/-! ### Which waves (R347) -/

/-- A launch's pool in a quadrant ties its waves there together (R99). -/
def poolTied (s : State) (launch quad : Nat) : Bool :=
  (poolOf s launch quad).rows != 0 ||
    s.allWaves.any fun w => w.launch == launch && w.quad == quad && (match w.blocked with | .claim _ => true | _ => false)

/-- Two waves of one gang of a launch (R347). -/
def gangMates (s : State) (a b : Wave) : Bool :=
  match s.launchOf a.launch with
  | some l => decide (1 ≤ l.gang) && a.launch == b.launch && a.cord == l.main && b.cord == l.main && a.waveNo / l.gang == b.waveNo / l.gang
  | none => false

/-- Two waves are taken together: one crew, one register pool, or one gang (R99, R330, R347). -/
def mates (s : State) (a b : Wave) : Bool :=
  (s.crews.any fun c => c.members.contains a.uid && c.members.contains b.uid) ||
    (a.launch == b.launch && a.quad == b.quad && poolTied s a.launch a.quad) || gangMates s a b

/-- The waves that a set takes with it, in at most `n` rounds; a wave that is ending goes by itself. -/
def takenWith (s : State) : Nat → List Nat → List Nat
  | 0, g => g
  | n + 1, g => takenWith s n ((s.allWaves.filter fun w =>
      g.contains w.uid || (!cutOff s w && s.allWaves.any fun x => g.contains x.uid && mates s x w)).map fun w => w.uid)

/-- The group of some waves: all that is pre-empted with them. -/
def groupOf (s : State) (g : List Nat) : List Nat := takenWith s s.allWaves.length g

/-- A wave in a state that pre-emption takes (R92). -/
def takeable (w : Wave) : Bool := w.status = .running || w.status = .blocked || w.status = .parked

/-- The entries that have waited longer than AGE at their level and cannot be placed anywhere (R347); a tile that has not reserved waits
for capacity (R351). -/
def starving (s : State) : List Waiter :=
  let ws := waiters s
  ws.filter fun w =>
    waitedOver s w (tget s.age w.level).toNat && (quadsOf s.part).all (fun q => !couldUse s w q) && !mayReserve s w.launch

/-- A choice for pre-emption: a wave, and whether its group takes in a surrogate tile. -/
abbrev Choice := Wave × Bool

/-- One choice comes before another: waves of no tile first, then the launch of the lowest level, then the most recently placed
wave (R347). -/
def takenBefore (s : State) (a b : Choice) : Bool :=
  if a.2 ≠ b.2 then b.2
  else if launchLevel s a.1 ≠ launchLevel s b.1 then decide (launchLevel s a.1 < launchLevel s b.1)
  else decide (b.1.placed < a.1.placed)

/-- The wave to pre-empt for an entry that waits. Where it waits for capacity, only a tile's waves can free it. -/
def victimFor (s : State) (o : Waiter) : Option Wave :=
  let dry := o.forTile && (openTile s o.launch.id).isNone
  let can : List Choice := s.allWaves.filterMap fun w =>
    let g := groupOf s [w.uid]
    let tile := g.any fun u => (s.findWave u).any fun x => x.token.isSome
    if decide (launchLevel s w < o.level) && s.inSpan o.launch.ctx (clusterOf (coreOf w.quad)) && !cutOff s w && (tile || !dry) &&
        g.all fun u => (s.findWave u).any takeable
    then some (w, tile) else none
  (can.foldl (fun m w => match m with
    | none => some w
    | some x => if takenBefore s w x then some w else some x) none).map fun x => x.1

/-- The wave to pre-empt next; none while an earlier choice has not been saved. The entries that have waited too long have theirs in the
order in which they are served, the first one for which there is a wave (R346, R347). -/
def victim (s : State) : Option Wave :=
  if (s.allWaves.any fun w => w.group != 0) || s.tiles.any fun t => t.phase == 3 then none
  else
    let ws := waiters s
    (sortBy (fun a b => !servedBefore s ws b a) (starving s)).findSome? (victimFor s)

/-- The waves chosen under a number, but for those that are ending. -/
def chosen (s : State) (group : Nat) : List Wave := s.allWaves.filter fun x => x.group == group && !cutOff s x

/-- Waves have come to belong to a chosen group, by a GIVE, a CLAIM or a JOIN since (R99, R330). -/
def groupGrows (s : State) (w : Wave) : Bool :=
  w.group != 0 && (groupOf s ((chosen s w.group).map fun x => x.uid)).any fun u => (s.findWave u).any fun x => x.group != w.group

/-- Waves chosen under a number; a surrogate tile among them is ended instead (R359). -/
def chooseWaves (s : State) (g : List Nat) (group : Nat) : State :=
  let tiles := g.filterMap fun u => (s.findWave u).bind fun x => x.token
  let mark := fun (x : Wave) => if g.contains x.uid && x.token.isNone then { x with group := group } else x
  { s with
    w := mark s.w
    waves := s.waves.map mark
    tiles := s.tiles.map fun t => if tiles.contains t.token && t.phase = 0 then { t with phase := 3 } else t }

/-! ### When a wave can be saved (R119, R249, R277, R298, R387) -/

/-- An engine operation still waits for a free ring slot, and has written nothing (R277). -/
def engIdle (o : EngOp) : Bool := !slotHeld o

/-- The wave stands at a stopping point (R387), its floating-point words have completed (R119), what it has sent has been answered
(R249), no matrix step is in progress and no tile is being moved (R298). A watchdog trap that is due comes first (R387, R388). -/
def maySave (s : State) (w : Wave) : Bool :=
  w.trap.isNone && (w.status = .parked ||
      ((w.status = .running || w.status = .blocked) && (stopPoint s w).isSome && !watchdogDue s w)) &&
    (w.marks.all fun m => decide (m.reg ≠ .fpsr)) &&
    (s.memOps.all fun o => o.wave != w.uid || (match o.kind with
      | .store | .atom _ | .cas | .poll => o.accs.all fun a => !a.done || a.complete o.kind
      | _ => false)) &&
    !(s.sysOps.any fun o => o.wave == w.uid) && !(s.hsets.any fun h => h.wave == w.uid) &&
    !(s.moves.any fun m => m.wave == w.uid) && !(s.matOps.any fun m => m.wave == w.uid && m.busy) &&
    !(s.engOps.any fun o => o.wave == w.uid && (o.kind = .mlda || o.kind = .msta)) &&
    !(s.objOps.any fun o => o.wave == w.uid && o.engine.isNone) &&
    (s.crewOps.all fun o => o.wave != w.uid || match o.kind with | .join _ => true | _ => false)

/-- The cores on which a set of waves is all that its launch has: their reservations are saved with it. -/
def coresLeft (s : State) (launch : Nat) (g : List Nat) : List Nat :=
  (((s.allWaves.filter fun w => g.contains w.uid && w.launch == launch).map fun w => coreOf w.quad).eraseDups).filter fun c =>
    (s.resvOf launch c).isSome && (s.allWaves.all fun w => g.contains w.uid || w.launch != launch || coreOf w.quad != c) &&
      !(s.slotTable.any fun x => x.2.getLsbD 127 && decide (nbits x.2.toNat 93 16 = launch) && decide (coreOf (x.1 / 16) = c))

/-- An engine operation may write into its launch's reservation on a core: from that core, into a ring of it, into a completion object
of it, or from its cluster by a cluster-scratchpad handle or an aperture pointer (R170, R201). -/
def reaches (o : EngOp) (c : Nat) : Bool :=
  o.core == c || o.ringCore == c || (o.obj.any fun x => x.1 == c) ||
    (clusterOf o.core == clusterOf c && ((hSpace o.hd = 2 && decide (hfld o.hd 20 2 = c % 4)) ||
      (decide (3 ≤ hSpace o.hd) && decide (hfld o.hd 56 8 = 0xFF))))

/-- Nothing still works in a reservation that is to be saved (R277). -/
def resvQuiet (s : State) (launch c : Nat) (g : List Nat) : Bool :=
  (s.engOps.all fun o => o.launch != launch || !reaches o c || engIdle o) &&
    (s.objOps.all fun o => o.launch != launch || o.core != c) &&
    (s.memOps.all fun o => o.launch != launch || g.contains o.wave || o.unsent ||
      o.accs.all fun a => match a.loc with | .scr k _ => k != c | _ => true)

/-- A group chosen for pre-emption can be saved. -/
def groupReady (s : State) (w : Wave) : Bool :=
  let ms := chosen s w.group
  let g := ms.map fun x => x.uid
  w.group != 0 && g.contains w.uid && !groupGrows s w && ms.all (maySave s) && (coresLeft s w.launch g).all fun c => resvQuiet s w.launch c g

/-! ### Reservations that move (R277) -/

/-- The old quadrant of a saved wave, or of a saved pool. -/
def oldQuad (q : Nat) : Nat := q % (4 * savedPlace)

/-- Where what a group leaves in a quadrant is kept. -/
def awayQuad (group q : Nat) : Nat := 4 * savedPlace * (1 + group) + oldQuad q

/-- What names positions of a launch's reservation on one core names them on another, each position `p` as `pos p`: operations, waiting
words, askers, and the old places of saved waves and pools. -/
def relabel (launch old new : Nat) (pos : Nat → Nat) (s : State) : State :=
  let core := fun (c : Nat) => if c = old then new else c
  let quadTo := fun (q : Nat) => if coreOf q = old then 4 * new + q % 4 else q
  let mine := s.saved.filter fun w => w.launch == launch
  { s with
    saved := s.saved.map fun w => if w.launch = launch then { w with quad := quadTo w.quad } else w
    pools := s.pools.map fun p =>
      match mine.find? fun w => p.launch == launch && p.quad == awayQuad w.group w.quad && coreOf w.quad == old with
      | some w => { p with quad := awayQuad w.group (quadTo w.quad) }
      | none => p
    engOps := s.engOps.map fun o =>
      if o.launch = launch then
        { o with core := core o.core, ringCore := core o.ringCore, quad := quadTo o.quad,
                 engine := if o.core = old then new / 2 else o.engine,
                 obj := o.obj.map fun x => if x.1 = old then (new, pos x.2) else x }
      else o
    objWaits := s.objWaits.map fun x => if x.launch = launch ∧ x.core = old then { x with core := new, off := pos x.off } else x
    asks := s.asks.map fun a =>
      if a.core = old ∧ (s.objWaits.any fun x => x.launch == launch && x.seq == a.op) = true then { a with core := new, pos := pos a.pos }
      else a
    memOps := s.memOps.map fun o =>
      if o.launch = launch then
        { o with accs := o.accs.map fun a => { a with loc := match a.loc with | .scr c off => .scr (core c) off | l => l } }
      else o
    matOps := s.matOps.map fun m => if mine.any fun w => w.uid == m.wave then { m with quad := quadTo m.quad } else m }

/-! ### PREEMPT_SAVE (R386) -/

/-- MLSTEP of a wave whose MLOOP has been stopped (R298). -/
def stopStep (s : State) (w : Wave) : Word :=
  match s.matOps.find? fun m => m.wave == w.uid && decide (0 < m.step) with
  | some m => BitVec.ofNat 32 (2 ^ 31 + m.tile * 2 ^ 17 + m.step)
  | none => w.mlstep

/-- One wave's context saved: it stops, and leaves its quadrant. What has not been sent waits with it (R249), and its pins go (R226,
R293). -/
def saveWave (s : State) (uid : Nat) : State :=
  match s.findWave uid with
  | none => s
  | some w =>
    let s1 := match (if w.status = .parked then none else stopPoint s w) with
      | some (pc, back) => stopWave s w pc back
      | none => s
    match s1.findWave uid with
    | none => s1
    | some x =>
      let mats := (s1.matOps.filter fun m => m.wave == uid).map fun m => m.id
      unpin { s1 with
        w := if s1.w.uid = uid then Wave.init else s1.w
        src := none
        waves := s1.waves.filter fun y => y.uid != uid
        saved := s1.saved ++ [{ x with mlstep := stopStep s1 x }]
        order := s1.order.filter fun u => u != uid
        latches := s1.latches.filter fun l => l.wave != uid
        asks := s1.asks.filter fun a => !mats.contains a.op
        memOps := s1.memOps.map fun o => if o.wave = uid then { o with unsent := o.accs.any fun a => !a.done } else o
        matOps := s1.matOps.map fun m => if m.wave = uid then { m with reuseA := false, reuseB := false, kept := [] } else m }
        fun p => mats.contains p.op

/-- A group saved (R99, R277, R330, R386): its waves, the pools that tie them, the reservations of the cores that its launch leaves, and
the places of its crews. -/
def saveGroup (s : State) (w : Wave) : State :=
  let ms := chosen s w.group
  let g := ms.map fun x => x.uid
  let cores := coresLeft s w.launch g
  let tied := ((ms.map fun x => x.quad).eraseDups).filter (poolTied s w.launch)
  let s1 := g.foldl saveWave s
  let s2 : State := { s1 with
    pools := (tied.map fun q => { poolOf s1 w.launch q with quad := awayQuad w.group q, line := [] }) ++
      s1.pools.filter fun p => p.launch != w.launch || !tied.contains p.quad
    resvs := s1.resvs.map fun r =>
      if r.launch = w.launch && cores.contains r.core then { r with core := coreOf (awayQuad w.group (4 * r.core)) } else r
    crews := s1.crews.map fun c => if c.members.any g.contains then { c with place := savedPlace * (1 + w.group) + c.place } else c }
  cores.foldl (fun s c => relabel w.launch c (coreOf (awayQuad w.group (4 * c))) id s) s2

/-- PREEMPT_SAVE: a wave is chosen with its group, or the group that stands at its stopping points is saved (R347, R387). A
surrogate tile is ended instead (R359). -/
def execPreemptSave (wave : Nat) (s : State) : Out :=
  .next (match s.findWave wave with
    | none => s
    | some w =>
      if w.group = 0 then
        if (victim s).any fun v => v.uid == wave then { chooseWaves s (groupOf s [wave]) s.nextOp with nextOp := s.nextOp + 1 } else s
      else if groupGrows s w then chooseWaves s (groupOf s ((chosen s w.group).map fun x => x.uid)) w.group
      else if groupReady s w then saveGroup s w else s)

/-! ### WAVE_RESUME (R15, R249, R277, R298, R330, R387) -/

/-- The saved waves of a group. -/
def savedGroup (s : State) (lead : Wave) : List Wave := s.saved.filter fun w => w.group == lead.group && w.launch == lead.launch

/-- The register pool saved with a wave's old quadrant (R99). -/
def savedPool (s : State) (w : Wave) : Option Pool :=
  s.pools.find? fun p => p.launch == w.launch && p.quad == awayQuad w.group w.quad

/-- The launch works on a core: a wave of it, or a bind record. -/
def residesOn (s : State) (launch c : Nat) : Bool :=
  (s.allWaves.any fun w => w.launch == launch && coreOf w.quad == c) ||
    s.slotTable.any fun x => x.2.getLsbD 127 && decide (nbits x.2.toNat 93 16 = launch) && decide (coreOf (x.1 / 16) = c)

/-- The reservation of a saved wave's old core, when it goes with the wave: it was saved, or no wave of the launch is left there. -/
def ownResv (s : State) (w : Wave) : Option Resv :=
  (s.resvOf w.launch (coreOf w.quad)).filter fun r => decide (savedPlace ≤ r.core) || !residesOn s w.launch r.core

/-- A saved wave's reservation can be had at a core: its own comes, or stays; or the launch has one there, or room for one (R201,
R277). -/
def resvFits (s : State) (l : Launch) (w : Wave) (core : Nat) : Bool :=
  match ownResv s w with
  | some r => r.core == core || ((s.resvOf l.id core).isNone && (pickBase s core r.size).isSome &&
      (decide (savedPlace ≤ r.core) || resvQuiet s l.id r.core [w.uid]))
  | none => resvRoom s l core

/-- A member with the spot found for it. -/
abbrev Seat := Wave × Spot

/-- A member in a quadrant goes with those that have their spots: one quadrant for a pool (R99), one core or cluster for a crew or a gang
(R330, R347), and the cores apart or together as their reservations are (R277). -/
def seatsAgree (s : State) (l : Launch) (crews : List Crew) (taken : List Seat) (w : Wave) (q : Nat) : Bool :=
  taken.all fun x =>
    (x.1.quad != w.quad || (savedPool s w).isNone || x.2.1 == q) &&
      (crews.all fun c => !(c.members.contains x.1.uid && c.members.contains w.uid) || crewPlace c.scope x.2.1 == crewPlace c.scope q) &&
      (!gangMates s x.1 w || crewPlace (l.gscope - 1) x.2.1 == crewPlace (l.gscope - 1) q) &&
      ((ownResv s x.1).isNone || (ownResv s w).isNone || (coreOf x.1.quad == coreOf w.quad) == (coreOf x.2.1 == coreOf q))

/-- What a member needs in a quadrant: with the rows of its pool, when it is the first of them (R18, R99). -/
def seatNeed (s : State) (taken : List Seat) (w : Wave) : Need :=
  let n := waveNeed w
  match savedPool s w with
  | some p => if taken.any fun x => x.1.quad == w.quad then n else { n with rows := n.rows + p.rows }
  | none => n

/-- Where a crew goes when its members have their spots. -/
def crewSeat (taken : List Seat) (c : Crew) : Option Nat :=
  (taken.find? fun x => c.members.contains x.1.uid).map fun x => crewPlace c.scope x.2.1

/-- The crews of a group have entries where they go, under names that no other crew there has (R324). -/
def crewsFit (s : State) (crews : List Crew) (taken : List Seat) : Bool :=
  crews.all fun c => match crewSeat taken c with
    | none => true
    | some p =>
      let here := crews.filter fun d => d.scope == c.scope && crewSeat taken d == some p
      (findCrew s c.launch c.scope p c.key).isNone && (here.all fun d => d.id == c.id || d.key != c.key) &&
        decide ((s.crews.filter fun x => x.scope == c.scope && x.place == p).length + (crewsBound s c.scope p).length + here.length ≤ 16)

/-- The members seated one after another, in the quadrants that `pick` turns a list to: the first places that suit them all, the leader
in the first quadrant and, when it is free, the slot named. A core set that a gang has closed, and a span that takes no bind record, take
no resumption either (log 23). -/
def seatAll (s : State) (l : Launch) (crews : List Crew) (pick : Nat → Nat) (quads : List Nat) (wslot : Nat) :
    List Wave → List Seat → Option (List Seat)
  | [], taken => if crewsFit s crews taken then some taken.reverse else none
  | w :: ws, taken =>
    let k := if taken.isEmpty then 0 else pick taken.length
    (if taken.isEmpty then quads.take 1 else turned k quads).findSome? fun q =>
      let u := useWith s (taken.map fun x => x.2) q
      let n := seatNeed s taken w
      if u.fits n && coreOpen s l.ctx none (coreOf q) && resvFits s l w (coreOf q) && seatsAgree s l crews taken w q then
        (if taken.isEmpty && u.free.contains wslot then some wslot else (turned (k / quads.length) u.free).head?).bind fun i =>
          seatAll s l crews pick quads wslot ws ((w, q, i, n) :: taken)
      else none

/-- The crews of a group. -/
def groupCrews (s : State) (ms : List Wave) : List Crew := s.crews.filter fun c => ms.any fun w => c.members.contains w.uid

/-- The spots of a group whose leader resumes in a quadrant and slot (R387), the leader's first; no entry that waits at a higher level
could use what they take (R346). -/
def mayResume (s : State) (ws : List Waiter) (lead : Wave) (quad wslot : Nat) (pick : Nat → Nat) : Option (List Seat) :=
  match s.launchOf lead.launch with
  | none => none
  | some l =>
    let ms := lead :: (savedGroup s lead).filter fun w => w.uid != lead.uid
    let crews := groupCrews s ms
    if l.ending.isSome then none
    else (seatAll s l crews pick (turned quad (quadsOf s.part)) wslot ms []).filter fun xs =>
      ws.all fun o => decide (queueLevel s ws o.queue ≤ l.prio) ||
        !couldTake s o l (crews.map fun c => c.scope) (xs.map fun x => x.2.1)

/-- A reservation comes to a core with what names it (R277); it may get another base there. -/
def restoreResv (launch : Nat) (s : State) (x : Nat × Nat) : State :=
  match s.resvOf launch x.1 with
  | none => s
  | some r =>
    if x.1 = x.2 then s
    else match pickBase s x.2 r.size with
      | none => s
      | some b => relabel launch x.1 x.2 (fun p => p - r.base + b)
          { takeSpent s x.2 b r.size with resvs := s.resvs.map fun y => if y.launch = launch ∧ y.core = x.1 then { y with core := x.2, base := b } else y }

/-- A saved pool joins the launch's pool in the quadrant where its waves resume (R99). -/
def restorePool (s : State) (x : Seat) : State :=
  match savedPool s x.1 with
  | none => s
  | some p =>
    let s1 := { s with pools := s.pools.filter fun y => !(y.launch == p.launch && y.quad == p.quad) }
    let here := poolOf s1 p.launch x.2.1
    if here.rows + p.rows = 0 then s1 else setPool s1 { here with rows := here.rows + p.rows }

/-- The members of a group back in their spots with their operations. -/
def reseat (s : State) (xs : List Seat) : State :=
  let back := xs.map fun x => { x.1 with quad := x.2.1, wslot := x.2.2.1, group := 0, placed := s.nextOp }
  let ids := back.map fun w => w.uid
  let quadOf := fun (u q : Nat) => match back.find? fun w => w.uid == u with | some w => w.quad | none => q
  { s with
    nextOp := s.nextOp + 1
    waves := s.waves ++ back
    saved := s.saved.filter fun w => !ids.contains w.uid
    order := s.order ++ ids
    crews := s.crews.map fun c => match crewSeat xs c with | some p => { c with place := p } | none => c
    matOps := (s.matOps.filter fun m => !ids.contains m.wave) ++
      (s.matOps.filter fun m => ids.contains m.wave).map fun m => { m with quad := quadOf m.wave m.quad, begun := false }
    memOps := s.memOps.map fun o =>
      if ids.contains o.wave then
        { o with
          quad := quadOf o.wave o.quad, core := coreOf (quadOf o.wave o.quad), backoff := 0
          accs := o.accs.map fun a => { a with acked := if o.kind = .poll then a.done && a.acked else a.acked } }
      else o }

/-- WAVE_RESUME: a saved wave resumes with its group, in any quadrants that have room for them (R15, R387; log 23): pools, reservations
and crews come back, entries that were not sent go on (R249), a POLL begins its rounds again (R224), matrix operations follow in order
(R298). -/
def execWaveResume (saved quad wslot : Nat) (s : State) : Out :=
  .next (match s.saved.find? fun w => w.uid == saved with
    | none => s
    | some lead =>
      let ws := waiters s
      match (mayResume s ws lead quad wslot fun i => Config.choose (s.freeN + i)).orElse fun _ => mayResume s ws lead quad wslot fun _ => 0 with
      | none => s
      | some xs =>
        let cores := (xs.map fun x => coreOf x.2.1).eraseDups
        let moves := ((xs.filter fun x => (ownResv s x.1).isSome).map fun x => (coreOf x.1.quad, coreOf x.2.1)).eraseDups
        let s1 := reseat (xs.foldl restorePool (cores.foldl l1Drop { s with freeN := s.freeN + xs.length })) xs
        let s2 := moves.foldl (restoreResv lead.launch) s1
        match s.launchOf lead.launch with
        | some l => cores.foldl (fun s c => makeResv s l c) s2
        | none => s2)

/-- The events of placement and pre-emption that can happen now. -/
def placeEvents (s : State) : List Act :=
  let ws := waiters s
  let quads := if ws.isEmpty && s.saved.isEmpty then [] else quadsOf s.part
  (ws.flatMap fun w => (quads.filter fun q => (mayPlace s ws w q fun _ => 0).isSome).flatMap fun q =>
      (quadUse s q).free.map fun i => execBindRecordWrite w.cord.num q i) ++
    (s.slotTable.filter fun x => x.2.getLsbD 127).map (fun x => execWaveCreate x.1) ++
    ((ws.map fun w => w.queue).eraseDups.filter fun q => (ageDue s ws q).isSome).map execQueueAgeing ++
    (ws.map fun w => w.launch).eraseDups.filterMap (fun l => (closeDue s ws l).map fun c => execGangCloseSet l.id c) ++
    (s.allWaves.filter (mayRetire s)).map (fun w => execWaveRetire w.uid) ++
    (s.saved.filter (cutOff s)).map (fun w => execWaveRetire w.uid) ++
    (if ws.isEmpty then [] else (victim s).toList.map fun w => execPreemptSave w.uid) ++
    (s.allWaves.filter fun w => groupGrows s w || groupReady s w).map (fun w => execPreemptSave w.uid) ++
    (s.saved.flatMap fun w => (quads.filter fun q => (mayResume s ws w q 0 fun _ => 0).isSome).flatMap fun q =>
      (quadUse s q).free.map fun i => execWaveResume w.uid q i)

end Sys2Proof.Machine
end

