-- ==== Sys2Proof/Machine/Boundary.lean ====
section
/-!
DEFINITION. The device at its boundaries (R391 to R412) and the machine checks (R390): the command rings and their commands,
the control window, semaphores, firmware, links and imports, and power.
-/
namespace Sys2Proof.Machine

/-! ### The command rings (R396, R398) -/

/-- A ring's number of records, 2^m with m = 1..12. -/
def Ring.count (r : Ring) : Nat := 2 ^ nbits r.size.toNat 0 4

/-- A ring holds a record in device memory that the Keystone core can read. -/
def ringReady (s : State) (r : Ring) : Bool :=
  s.ready.getLsbD 31 && !s.stopped && decide (r.head.toNat % r.count ≠ r.tail.toNat % r.count) &&
    decide (r.base.toNat + 64 * r.count ≤ memLimit s.part)

/-- The physical address of a ring's next record. -/
def ringPlace (r : Ring) : Nat := r.base.toNat + 64 * (r.head.toNat % r.count)

/-- The port whose record is read next: the rings alternate, and one that is empty gives way. Port 0 is the host function,
port 1 the I3C target. -/
def turnPort (s : State) : Option Nat :=
  let ok := fun p => (s.rings[p]?).any (ringReady s)
  if ok s.nextRing then some s.nextRing else if ok (1 - s.nextRing) then some (1 - s.nextRing) else none

/-- The 64 bytes of a port's next record, when it is that port's turn. -/
def turnRecord (s : State) (port : Nat) : Option (List Byte) :=
  if turnPort s = some port then (s.rings[port]?).map fun r => devBytes s 0 (ringPlace r) 64 else none

/-- CODE of a record. -/
def cmdCode (bs : List Byte) : Nat := recAt bs 0 2

/-- What a command answers: RESULT and VALUE, and the state it leaves. -/
structure Answer where
  result : Nat
  value : Nat
  state : State

/-- A command refused (R398): no effect. -/
def refuse (s : State) (r : Nat) : Answer := { result := r, value := 0, state := s }

/-- A command done. -/
def did (s : State) (v : Nat) : Answer := { result := 0, value := v, state := s }

/-- A record's last 8 bytes are written as one write, then HEAD advances and the other ring has the next turn (R396, R398). -/
def finishCmd (port : Nat) (a : Answer) : State :=
  match a.state.rings[port]? with
  | none => a.state
  | some r =>
    let pa := ringPlace r + 0x38
    let s1 := keystoneWrite a.state (.dev pa 0) (leBytes a.result 4 ++ leBytes a.value 4)
    { s1 with
      rings := modAt (fun x => { x with head := BitVec.ofNat 32 ((x.head.toNat + 1) % x.count) }) s1.rings port
      nextRing := 1 - port }

/-- Bytes outside a command's operands are zero (R398, R399). -/
def reservedZero (bs : List Byte) (fields : List (Nat × Nat)) : Bool :=
  (List.range 56).all fun i =>
    decide (i < 2) || (decide (4 ≤ i) && decide (i < 8)) || (fields.any fun f => decide (f.1 ≤ i) && decide (i < f.1 + f.2)) ||
      decide (recAt bs i 1 = 0)

/-- A command of a code read from a port's ring: its reserved bytes are checked, then it acts. -/
def command (s : State) (port code : Nat) (sub : List Byte → Bool) (fields : List (Nat × Nat)) (act : List Byte → Answer) : State :=
  match turnRecord s port with
  | none => s
  | some bs =>
    if cmdCode bs ≠ code ∨ !sub bs then s
    else finishCmd port (if reservedZero bs fields then act bs else refuse s 2)

/-- A command on a live context. -/
def onContext (s : State) (bs : List Byte) (f : Ctx → Answer) : Answer :=
  match s.ctxOf (recAt bs 0x08 1) with
  | some c => f c
  | none => refuse s 6

/-- Device memory that the Keystone core can read (R398): installed, on stacks and dies that are ready (R408), and not poisoned (R390). -/
def readable (s : State) (pa n : Nat) : Bool :=
  decide (pa + n ≤ memLimit s.part) && (sectorsOf pa n).all (fun x => stackReady s (64 * x)) && !isPoisoned s pa n

/-- A launch of the context is live. -/
def ctxLive (s : State) (n : Nat) : Bool := s.launches.any fun l => l.ctx == n

/-- A context's translations swept from every TLB and last-page register (R375). -/
def sweepCtx (s : State) (n : Nat) : State :=
  { s with tlb := s.tlb.filter (fun t => t.ctx != n), lanes := s.lanes.filter fun r => r.ctx != n }

/-! ### Contexts (R397, R399) -/

/-- A context number that is not in use, chosen freely. -/
def pickCtx (s : State) : Option Nat :=
  let k := Config.choose s.freeN
  ((List.range 64).find? fun i => (s.ctxOf ((k + i) % 64)).isNone).map fun i => (k + i) % 64

/-- A context as it is created: no region, no handle entry, no frame, no window; its priority cap is 7 (log 24). -/
def Ctx.fresh (n span : Nat) : Ctx :=
  { num := n, span := span, ptroot := 0, hentry := 0, ctxcfg := 0, bounds := [], handles := [], pool := [], tbBase := 0,
    tbCount := 0, prioCap := 7, imports := [] }

/-- CREATE_CONTEXT, command 0x01 (R399). -/
def execCreateContext (port : Nat) (s : State) : Out :=
  .next (command s port 0x01 (fun _ => true) [(8, 1)] fun bs =>
    if 7 < recAt bs 8 1 then refuse s 3
    else match pickCtx s with
      | none => refuse s 5
      | some n => did { s with ctxs := s.ctxs ++ [Ctx.fresh n (recAt bs 8 1)], freeN := s.freeN + 1 } n)

/-- A page below a table names a key index (R407); `fuel` levels are left. -/
def tableNames (s : State) (key : Nat) : Nat → Nat → Nat → Bool
  | 0, _, _ => false
  | fuel + 1, level, tbl =>
    (List.range (if level = 0 then 1024 else if level = 3 then 32 else 512)).any fun i =>
      match readPte s (tbl + 8 * i) with
      | .error _ => false
      | .ok e =>
        if !e.getLsbD 0 then false
        else if decide (level = 3) || (decide (1 ≤ level) && e.getLsbD 6) then leafKey e == key
        else tableNames s key fuel (level + 1) (pteAddr e)

/-- A page of a live context names a key index (R407). -/
def keyNamed (s : State) (key : Nat) : Bool := s.ctxs.any fun c => tableNames s key 4 0 c.ptroot.toNat

/-- DESTROY_CONTEXT, command 0x02 (R397): its cords, windows and keys are freed. What caches hold under its number stays: a region of a
later context of that number is set up by a command that sweeps (R375, R378), and its code is invalidated by IINV (R383). -/
def execDestroyContext (port : Nat) (s : State) : Out :=
  .next (command s port 0x02 (fun _ => true) [(8, 1)] fun bs => onContext s bs fun c =>
    if ctxLive s c.num then refuse s 4
    else
      let s1 := { s with
        ctxs := s.ctxs.filter fun x => x.num != c.num
        cords := s.cords.filter fun x => x.ctx != c.num }
      did { s1 with keys := s.keys.filter fun k => k == 0 || !tableNames s k 4 0 c.ptroot.toNat || keyNamed s1 k } 0)

/-- SET_CONTEXT_ROOTS, command 0x03 (R364, R365). No TLB entry or last-page register is removed (R378). -/
def execSetContextRoots (port : Nat) (s : State) : Out :=
  .next (command s port 0x03 (fun _ => true) [(8, 1), (0x10, 8), (0x18, 8), (0x20, 4)] fun bs => onContext s bs fun c =>
    if nbits (recAt bs 0x20 4) 1 7 ≠ 0 then refuse s 2
    else if recAt bs 0x10 8 % 8192 ≠ 0 then refuse s 3
    else if s.allWaves.any fun w => w.ctx == c.num then refuse s 4
    else
      let f : Ctx → Ctx := fun x =>
        { x with ptroot := BitVec.ofNat 64 (recAt bs 0x10 8), hentry := BitVec.ofNat 64 (recAt bs 0x18 8),
                 ctxcfg := BitVec.ofNat 32 (recAt bs 0x20 4) }
      did (s.modCtx c.num f) 0)

/-- WRITE_REGION_BOUNDS, command 0x04, with its sweep (R375). -/
def execWriteRegionBounds (port : Nat) (s : State) : Out :=
  .next (command s port 0x04 (fun _ => true) [(8, 1), (9, 1), (0x10, 16)] fun bs => onContext s bs fun c =>
    let e := recAt bs 0x10 16
    if nbits e 97 28 ≠ 0 ∨ nbits e 33 31 ≠ 0 then refuse s 2
    else if recAt bs 9 1 = 0xFF then refuse s 3
    else did (sweepCtx (s.modCtx c.num fun x => { x with bounds := tset x.bounds (recAt bs 9 1) (BitVec.ofNat 128 e) }) c.num) 0)

/-- A frame filled with zeros under a key index and pushed on a context's pool (R379). -/
def addFrame (key ctx : Nat) (s : State) (pa : Nat) : State :=
  let inFrame := fun (a : Nat) => decide (pa ≤ a) && decide (a < pa + 65536)
  let s1 := { s with
    mem := tdrop inFrame s.mem
    sectorKey := (List.range 1024).foldl (fun t i => tset t (pa / 64 + i) (BitVec.ofNat 13 (key + 1))) s.sectorKey
    poison := s.poison.filter fun x => !inFrame (64 * x)
    l1 := s.l1.filter fun l => !inFrame l.pa }
  s1.modCtx ctx fun c => { c with pool := BitVec.ofNat 64 (key * 2 ^ 52 + pa) :: c.pool }

/-- ADD_POOL_FRAMES, command 0x05 (R379). The frames are pushed in the order of the list. -/
def execAddPoolFrames (port : Nat) (s : State) : Out :=
  .next (command s port 0x05 (fun _ => true) [(8, 1), (0xA, 2), (0xC, 4), (0x10, 8)] fun bs => onContext s bs fun c =>
    let key := recAt bs 0xA 2
    let n := recAt bs 0xC 4
    let list := recAt bs 0x10 8
    if 4095 < key ∨ n = 0 ∨ 65536 < n then refuse s 3
    else if !readable s list (8 * n) then refuse s 7
    else
      let frames := (List.range n).map fun i => leNat (devBytes s 0 (list + 8 * i) 8)
      if frames.any fun pa => pa % 65536 != 0 || decide (memLimit s.part < pa + 65536) then refuse s 3
      else if 65536 < c.pool.length + n then refuse s 4
      else did (frames.foldl (addFrame key c.num) s) (c.pool.length + n))

/-- A base for a window of tile-buffer entries among the windows of other contexts: the lowest that is free (R319). -/
def tbRoom (s : State) (ctx n : Nat) : Option Nat :=
  let others := s.ctxs.filter fun c => c.num != ctx && c.tbCount != 0
  (0 :: others.map fun c => c.tbBase + c.tbCount).find? fun b =>
    decide (b + n ≤ 65536) && others.all fun c => decide (b + n ≤ c.tbBase) || decide (c.tbBase + c.tbCount ≤ b)

/-- GRANT_TB_WINDOW, command 0x06 (R319): every entry is EMPTY. -/
def execGrantTbWindow (port : Nat) (s : State) : Out :=
  .next (command s port 0x06 (fun _ => true) [(8, 1), (0xC, 4)] fun bs => onContext s bs fun c =>
    let n := recAt bs 0xC 4
    if n = 0 ∨ 65536 < n then refuse s 3
    else if c.tbCount ≠ 0 ∧ ctxLive s c.num = true then refuse s 4
    else match tbRoom s c.num n with
      | none => refuse s 5
      | some b =>
        did ({ s with tb := tdrop (fun i => decide (b ≤ i) && decide (i < b + n)) s.tb }.modCtx c.num fun x =>
          { x with tbBase := b, tbCount := n }) 0)

/-- The operand bytes of command 0x07. -/
def selFields : List (Nat × Nat) := [(8, 1), (9, 1), (0xA, 1), (0xC, 4)]

/-- SET_PRIORITY_CAP, command 0x07 with SEL 0; it also takes the records whose SEL is out of range. -/
def execSetPriorityCap (port : Nat) (s : State) : Out :=
  .next (command s port 0x07 (fun bs => decide (recAt bs 9 1 ≠ 1) && decide (recAt bs 9 1 ≠ 2)) selFields fun bs =>
    if 2 < recAt bs 9 1 ∨ 7 < recAt bs 0xC 4 then refuse s 3
    else onContext s bs fun c => did (s.modCtx c.num fun x => { x with prioCap := recAt bs 0xC 4 }) 0)

/-- The level and the time of command 0x07 with SEL 1 or 2. -/
def timeAnswer (s : State) (bs : List Byte) (f : Nat → BitVec 16 → State) : Answer :=
  if 7 < recAt bs 0xA 1 ∨ 65535 < recAt bs 0xC 4 then refuse s 3
  else did (f (recAt bs 0xA 1) (BitVec.ofNat 16 (recAt bs 0xC 4))) 0

/-- SET_AGE, command 0x07 with SEL 1 (R346). -/
def execSetAge (port : Nat) (s : State) : Out :=
  .next (command s port 0x07 (fun bs => decide (recAt bs 9 1 = 1)) selFields fun bs =>
    timeAnswer s bs fun p v => { s with age := tset s.age p v })

/-- SET_GANGWAIT, command 0x07 with SEL 2 (R349). -/
def execSetGangwait (port : Nat) (s : State) : Out :=
  .next (command s port 0x07 (fun bs => decide (recAt bs 9 1 = 2)) selFields fun bs =>
    timeAnswer s bs fun p v => { s with gangwait := tset s.gangwait p v })

/-! ### Keys, imports, spans, routes (R402 to R407) -/

/-- INSTALL_KEY, command 0x08 (R407): what was written under the index before is unreadable, but for what L2 holds; and of that, what is
clean, once it leaves L2. -/
def execInstallKey (port : Nat) (s : State) : Out :=
  .next (command s port 0x08 (fun _ => true) [(8, 2), (0x10, 8)] fun bs =>
    let k := recAt bs 8 2
    if k = 0 ∨ 4095 < k then refuse s 3
    else if keyNamed s k then refuse s 4
    else if !readable s (recAt bs 0x10 8) 72 then refuse s 7
    else if !Config.unwrapGood s.freeN then refuse { s with freeN := s.freeN + 1 } 8
    else
      let held := fun (sec : Nat) => l2Holds s (64 * sec)
      did { s with
        freeN := s.freeN + 1
        keys := if s.keys.contains k then s.keys else k :: s.keys
        sectorKey := s.sectorKey.map fun x => if x.2.toNat = k + 1 && !held x.1 then (x.1, deadKey) else x
        stale := s.stale ++ ((s.sectorKey.filter fun x => decide (x.2.toNat = k + 1) && held x.1).map fun x => x.1).filter fun x => !s.stale.contains x } 0)

/-- WRITE_IMPORT_SLOT, command 0x09 (R402). -/
def execWriteImportSlot (port : Nat) (s : State) : Out :=
  .next (command s port 0x09 (fun _ => true) [(8, 1), (0xA, 2), (0x10, 16)] fun bs => onContext s bs fun c =>
    let e := recAt bs 0x10 16
    if nbits e 124 3 ≠ 0 ∨ nbits e 64 36 ≠ 0 then refuse s 2
    else if 4095 < recAt bs 0xA 2 then refuse s 3
    else did (s.modCtx c.num fun x => { x with imports := tset x.imports (recAt bs 0xA 2) (BitVec.ofNat 128 e) }) 0)

/-- WRITE_IMPORT_ENTRY, command 0x0A (R403). -/
def execWriteImportEntry (port : Nat) (s : State) : Out :=
  .next (command s port 0x0A (fun _ => true) [(0xA, 2), (0x10, 32)] fun bs =>
    let e := recAt bs 0x10 32
    if nbits e 204 50 ≠ 0 ∨ nbits e 186 6 ≠ 0 ∨ nbits e 161 11 ≠ 0 ∨ nbits e 0 39 ≠ 0 then refuse s 2
    else if 4095 < recAt bs 0xA 2 ∨ nbits e 172 8 = 0xFF ∨ (nbits e 255 1 = 1 ∧ (nbits e 39 25 = 0 ∨ 2 ^ 22 < nbits e 39 25)) then
      refuse s 3
    else did { s with importTable := tset s.importTable (recAt bs 0xA 2) (BitVec.ofNat 256 e) } 0)

/-- A wave is resident in a span (R397). -/
def spanBusy (s : State) (n : Nat) : Bool :=
  match s.spans[n]? with
  | some p => s.allWaves.any fun w => p.holds s.part (clusterOf (coreOf w.quad))
  | none => false

/-- CONFIGURE_SPAN, command 0x0B (R405): the span takes bind records again (R406). -/
def execConfigureSpan (port : Nat) (s : State) : Out :=
  .next (command s port 0x0B (fun _ => true) [(8, 6)] fun bs =>
    let n := recAt bs 8 1
    let p : Span :=
      { shape := recAt bs 9 1, col0 := recAt bs 0xA 1, row0 := recAt bs 0xB 1, ncol := recAt bs 0xC 1, nrow := recAt bs 0xD 1,
        closedToBind := false }
    if 7 < n ∨ 3 < p.shape ∨ p.ncol = 0 ∨ p.nrow = 0 ∨ 2 * colsPerDie s.part < p.col0 + p.ncol ∨ 6 < p.row0 + p.nrow then refuse s 3
    else if spanBusy s n then refuse s 4
    else did { s with spans := setAt s.spans n p } 0)

/-- SET_ROUTE, command 0x0E with a link port (R404). -/
def execSetRoute (port : Nat) (s : State) : Out :=
  .next (command s port 0x0E (fun bs => decide (recAt bs 0xA 1 ≠ 0xFF)) [(8, 2), (0xA, 1)] fun bs =>
    if 4095 < recAt bs 8 2 ∨ 11 < recAt bs 0xA 1 then refuse s 3
    else did { s with routes := tset s.routes (recAt bs 8 2) (BitVec.ofNat 16 (recAt bs 0xA 1 + 1)) } 0)

/-- SET_PACKAGE_NUMBER, command 0x0E with link port 0xFF (R399). -/
def execSetPackageNumber (port : Nat) (s : State) : Out :=
  .next (command s port 0x0E (fun bs => decide (recAt bs 0xA 1 = 0xFF)) [(8, 2), (0xA, 1)] fun bs =>
    if 4095 < recAt bs 8 2 then refuse s 3 else did { s with pkg := recAt bs 8 2 } 0)

/-! ### Launches and waves (R341, R374) -/

/-- TERMINATE_LAUNCH, command 0x0C: END 2 (R341, R389). -/
def execTerminateLaunch (port : Nat) (s : State) : Out :=
  .next (command s port 0x0C (fun _ => true) [(8, 1), (0xA, 2)] fun bs => onContext s bs fun c =>
    if (s.launchOf (recAt bs 0xA 2)).any fun l => l.ctx == c.num then did (endLaunch s (recAt bs 0xA 2) 2) 0
    else refuse s 3)

/-- The suspended wave that a RESUME_WAVE record names (R399). -/
def resumed (s : State) (bs : List Byte) : Option Wave :=
  s.allWaves.find? fun w => w.ctx == recAt bs 8 1 && w.quad == recAt bs 0xA 2 && w.wslot == recAt bs 0xC 1 && w.status == .suspended

/-- A RESUME_WAVE waits, as RFT does, until the wave's PTEW, POOLPOP, LPINV, TLBINV and IINV words have completed (R373, R374), and a trap
that it has yet to meet has been taken (R119). -/
def resumeHeld (s : State) (bs : List Byte) : Bool :=
  decide (cmdCode bs = 0x0D) && (resumed s bs).any fun w => w.trap.isSome || s.sysOps.any fun o => o.wave == w.uid

/-- RESUME_WAVE, command 0x0D: a suspended wave goes on as RFT with the ACT given (R373, R374), at the end of its round-robin
order (R23). -/
def execResumeWave (port : Nat) (s : State) : Out :=
  .next (command s port 0x0D (fun bs => !resumeHeld s bs) [(8, 1), (0xA, 2), (0xC, 1), (0xD, 1)] fun bs => onContext s bs fun _ =>
    let q := recAt bs 0xA 2
    let i := recAt bs 0xC 1
    if 4 * numCores s.part ≤ q ∨ 15 < i ∨ 3 < recAt bs 0xD 1 then refuse s 3
    else match resumed s bs with
      | some w => did (moveLast (rftAct { checkOut s w.uid with src := none } (recAt bs 0xD 1)) w.uid) 0
      | none => refuse s 3)

/-- The command codes of R397. -/
def knownCode (c : Nat) : Bool := decide (1 ≤ c) && decide (c ≤ 0x0E)

/-- UNKNOWN_COMMAND_CODE (R398): RESULT 0x01, and no other effect. -/
def execUnknownCommandCode (port : Nat) (s : State) : Out :=
  .next (match turnRecord s port with
    | none => s
    | some bs => if knownCode (cmdCode bs) then s else finishCmd port (refuse s 1))

/-- The event that takes a record. -/
def commandEvent (port : Nat) (bs : List Byte) : Act :=
  match cmdCode bs with
  | 0x01 => execCreateContext port
  | 0x02 => execDestroyContext port
  | 0x03 => execSetContextRoots port
  | 0x04 => execWriteRegionBounds port
  | 0x05 => execAddPoolFrames port
  | 0x06 => execGrantTbWindow port
  | 0x07 => if recAt bs 9 1 = 1 then execSetAge port else if recAt bs 9 1 = 2 then execSetGangwait port else execSetPriorityCap port
  | 0x08 => execInstallKey port
  | 0x09 => execWriteImportSlot port
  | 0x0A => execWriteImportEntry port
  | 0x0B => execConfigureSpan port
  | 0x0C => execTerminateLaunch port
  | 0x0D => execResumeWave port
  | 0x0E => if recAt bs 0xA 1 = 0xFF then execSetPackageNumber port else execSetRoute port
  | _ => execUnknownCommandCode port

/-! ### Firmware (R408 to R410) -/

/-- An image passes the check (R409): its header's magic, length and zero word, and the signature. -/
def imageOk (img : List Byte) : Bool :=
  decide (0x50 ≤ img.length) && decide (recAt img 0 4 = 0x4C584946) && decide (recAt img 8 4 + 0x50 = img.length) &&
    decide (recAt img 0xC 4 = 0) && Config.imageGood img

/-- The span that a firmware load sets up: the whole grid as a mesh (R405). -/
def wholeSpan (part : Nat) : Span :=
  { shape := 0, col0 := 0, row0 := 0, ncol := 2 * colsPerDie part, nrow := 6, closedToBind := false }

/-- A firmware load (R408, R410): every context, key, span and semaphore is cleared, READY starts again with KEY, and what
memory held can no longer be read. The clk count starts at zero (R38). The registers of the control window, the route and import tables
and AGE and GANGWAIT stay (log 25). -/
def firmwareLoad (s : State) : State :=
  { State.reset with
    part := s.part, stepping := s.stepping, freeN := s.freeN, nextUid := s.nextUid, nextOp := s.nextOp,
    inputs := s.inputs, bars := s.bars, mem := s.mem, sectorKey := s.sectorKey.map (fun x => (x.1, deadKey)), poison := s.poison,
    queues := s.queues, age := s.age, gangwait := s.gangwait, pkg := s.pkg, importTable := s.importTable, routes := s.routes,
    watts := s.watts, pwr := s.pwr, rlen := s.rlen, recBuf := s.recBuf, rings := s.rings, nextRing := s.nextRing,
    msix := s.msix, pba := s.pba, reports := s.reports, correctedErrors := s.correctedErrors, throttled := s.throttled, linkReplay := s.linkReplay,
    spans := wholeSpan s.part :: State.reset.spans.drop 1, ready := BitVec.ofNat 32 (2 ^ 31) }

/-- The boot ROM has yet to check the flash image (R409). -/
def bootPending (s : State) : Bool := s.powered && !s.ready.getLsbD 31 && !s.ready.getLsbD 29

/-- A Kouzu link of the part: three to a die, of which a die of the IXL-B144 keeps the first two (R2, R13). Which number is which die's
port is the model's choice: die times 3 plus port (log 62). -/
def hasLink (part link : Nat) : Bool := decide (link < 12) && (part == 0 || decide (link % 3 ≠ 2))

/-- The READY bits of the units of the part: HOST, the dies, the stacks and the links (R13, R408). -/
def unitBit (part bit : Nat) : Bool :=
  bit == 30 || (decide (24 ≤ bit) && decide (bit < 28)) || (decide (16 ≤ bit) && decide (bit < 16 + numStacks part)) || hasLink part bit

/-- FUNCTION_READY: a function reports ready (R408). For KEY it is the check of the flash image (R409), which sets RECOV when
it fails (R410). -/
def execFunctionReady (bit : Nat) (s : State) : Out :=
  .next (if !s.powered then s
    else if bit = 31 then
      if bootPending s then
        let s1 := { s with freeN := s.freeN + 1 }
        if Config.flashGood s.freeN then { s1 with ready := s1.ready ||| BitVec.ofNat 32 (2 ^ 31) }
        else { s1 with ready := s1.ready ||| BitVec.ofNat 32 (2 ^ 29) }
      else s
    else if unitBit s.part bit then { s with ready := s.ready ||| BitVec.ofNat 32 (2 ^ bit) }
    else s)

/-- A powered-off module: no state is kept (R409). -/
def offState (s : State) : State :=
  { State.reset with
    part := s.part, stepping := s.stepping, powered := false, freeN := s.freeN, inputs := s.inputs }

/-- MODULE_POWER_OFF (R409). -/
def execModulePowerOff (s : State) : Out := .next (offState s)

/-- POWER_ON (R409): the module starts as after reset, and the boot ROM repeats its check. -/
def execPowerOn (s : State) : Out :=
  .next (if s.powered then s
    else { offState s with powered := true, spans := wholeSpan s.part :: State.reset.spans.drop 1 })

/-! ### The control window (R393, R394, R400, R410, R412) -/

/-- QCFG_WRITE (R394). -/
def execQcfgWrite (q v : Nat) (s : State) : Out :=
  .next { s with
    queues := modAt (fun x =>
      if x.en then
        if nbits v 31 1 = 1 then x else { x with cfg := x.cfg &&& 0x7FFFFFFF }
      else
        let cfg := BitVec.ofNat 32 (nbits v 31 1 * 2 ^ 31 + nbits v 30 1 * 2 ^ 30 + nbits v 0 10)
        if nbits v 31 1 = 1 then { x with cfg := cfg, head := 0, tail := 0 } else { x with cfg := cfg }) s.queues q }

/-- SEMAPHORE_WRITE (R400): port 0 writes as owner 1, port 1 as owner 2. -/
def execSemaphoreWrite (port n v : Nat) (s0 : State) : Out :=
  let own := port + 1
  let s := takeTurn s0 5 0 port
  let old := (tget s.sems n).toNat
  .next (if v % 4 = own ∧ old = 0 then { s with sems := tset s.sems n (BitVec.ofNat 2 own) }
    else if v % 4 = 0 ∧ old = own then { s with sems := tset s.sems n 0 }
    else s)

/-- The port whose write an input brings to a semaphore. -/
def semPort : Instr → Option Nat
  | .semaphoreWrite port _ _ => some port
  | .controlWindowWrite port off _ _ => if 0x100 ≤ off ∧ off < 0x140 then some port else none
  | _ => none

/-- An input arrives now: a write of port 0 to a semaphore comes before those of port 1 in its clk (R400). -/
def inputMay (s : State) : Bool :=
  match s.inputs with
  | [] => false
  | i :: _ => match semPort i with
    | some p => inTurn s 5 0 p
    | none => true

/-- PLIM_WATTS_WRITE (R410, R412): with RCMD = 0 WATTS takes the value, clamped. -/
def execPlimWattsWrite (_port v : Nat) (s : State) : Out :=
  .next (if nbits v 30 2 = 0 then { s with watts := max 600 (min 2000 (nbits v 0 11)) } else s)

/-- RECOV (R408). -/
def recovering (s : State) : Bool := s.powered && s.ready.getLsbD 29

/-- The image with the piece in the recovery buffer appended (R410). -/
def withPiece (s : State) : List Byte := s.image ++ tgetRun s.recBuf 0 s.rlen

/-- RECOVERY_APPEND: a PLIM write with RCMD = 0b01 (R410). -/
def execRecoveryAppend (_port v : Nat) (s : State) : Out :=
  .next (if nbits v 30 2 = 1 && recovering s then { s with image := withPiece s } else s)

/-- RECOVERY_CHECK: a PLIM write with RCMD = 0b10 (R410): the last piece is appended and the image is checked. -/
def execRecoveryCheck (_port v : Nat) (s : State) : Out :=
  .next (if nbits v 30 2 = 2 && recovering s then
      if imageOk (withPiece s) then firmwareLoad s else { s with image := [] }
    else s)

/-- The state that an outcome of a boundary event holds; they have no other. -/
def nextOr (s : State) : Out → State
  | .next t => t
  | _ => s

/-- A write of PLIM (R410, R412). -/
def writePlim (s : State) (port v : Nat) : State :=
  match nbits v 30 2 with
  | 0 => nextOr s (execPlimWattsWrite port v s)
  | 1 => nextOr s (execRecoveryAppend port v s)
  | 2 => nextOr s (execRecoveryCheck port v s)
  | _ => s

/-- One half of a 64-bit register replaced. -/
def half64 (old : DWord) (hi : Bool) (v : Nat) : DWord :=
  if hi then pair64 (lo32 old) (BitVec.ofNat 32 v) else pair64 (BitVec.ofNat 32 v) (hi32 old)

/-- A ring's registers written: CRBASE, 64-byte aligned, CRSIZE and CRTAIL; CRHEAD is read-only (R393, R396). -/
def writeRing (r : Ring) (o v : Nat) : Ring :=
  match o with
  | 0 => { r with base := half64 r.base false (v / 64 * 64) }
  | 4 => { r with base := half64 r.base true v }
  | 8 => { r with size := BitVec.ofNat 32 (v % 16) }
  | 16 => { r with tail := BitVec.ofNat 32 v }
  | _ => r

/-- A 4-byte write to the control window (R393). Read-only registers and reserved offsets ignore it. -/
def write32 (s : State) (port off v : Nat) : State :=
  if off = 0x10 then writePlim s port v
  else if off = 0x18 then (if v ≤ 65536 then { s with rlen := v } else s)
  else if 0x100 ≤ off ∧ off < 0x140 then nextOr s (execSemaphoreWrite port ((off - 0x100) / 4) v s)
  else if 0x1000 ≤ off ∧ off < 0x1800 then
    let q := (off - 0x1000) / 32
    match off % 32 with
    | 0 => { s with queues := modAt (fun x => if x.en then x else { x with base := half64 x.base false v }) s.queues q }
    | 4 => { s with queues := modAt (fun x => if x.en then x else { x with base := half64 x.base true v }) s.queues q }
    | 8 => nextOr s (execQcfgWrite q v s)
    | _ => s
  else if 0x2000 ≤ off ∧ off < 0x2014 then { s with rings := modAt (fun r => writeRing r (off - 0x2000) v) s.rings 0 }
  else if 0x2020 ≤ off ∧ off < 0x2034 then { s with rings := modAt (fun r => writeRing r (off - 0x2020) v) s.rings 1 }
  else if 0x10000 ≤ off ∧ off < 0x20000 then { s with recBuf := tsetRun s.recBuf (off - 0x10000) (leBytes v 4) }
  else s

/-- CONTROL_WINDOW_WRITE: a write by one of the ports; one that is not naturally aligned or not of 4 or 8 bytes is discarded
(R393, R396). -/
def execControlWindowWrite (port off size v : Nat) (s : State) : Out :=
  .next (if !s.powered then s
    else if size = 4 ∧ off % 4 = 0 then write32 s port off (v % 2 ^ 32)
    else if size = 8 ∧ off % 8 = 0 then write32 (write32 s port off (v % 2 ^ 32)) port (off + 4) (v / 2 ^ 32 % 2 ^ 32)
    else s)

/-! ### Reads (R391 to R396, R400, R408, R411, R412)

What a read from outside answers, what a write of BAR4 does, and what an AtomicOp of the host leaves. -/

/-- A 4-byte register of the control window as it reads (R393). The recovery buffer, which is write-only, reads as a reserved offset does
(log 56). -/
def read32 (s : State) (off : Nat) : Nat :=
  if off = 0 then s.ready.toNat
  else if off = 8 then (lo32 (capsValue s.part s.stepping)).toNat
  else if off = 12 then (hi32 (capsValue s.part s.stepping)).toNat
  else if off = 0x10 then s.watts
  else if off = 0x14 then s.pwr.toNat
  else if off = 0x18 then s.rlen
  else if 0x100 ≤ off ∧ off < 0x140 then (tget s.sems ((off - 0x100) / 4)).toNat
  else if 0x1000 ≤ off ∧ off < 0x1800 then
    match s.queues[(off - 0x1000) / 32]? with
    | none => 0
    | some q => match off % 32 with
      | 0 => (lo32 q.base).toNat
      | 4 => (hi32 q.base).toNat
      | 8 => q.cfg.toNat
      | 12 => q.head % 2 ^ 32
      | _ => 0
  else if 0x2000 ≤ off ∧ off < 0x2014 then ringRead (off - 0x2000) 0
  else if 0x2020 ≤ off ∧ off < 0x2034 then ringRead (off - 0x2020) 1
  else 0
where
  ringRead (o n : Nat) : Nat :=
    match s.rings[n]? with
    | none => 0
    | some r => match o with
      | 0 => (lo32 r.base).toNat
      | 4 => (hi32 r.base).toNat
      | 8 => r.size.toNat
      | 12 => r.head.toNat
      | _ => r.tail.toNat

/-- A read of the control window by either port (R393, R396): all ones unless it is a naturally aligned one of 4 or 8 bytes. -/
def windowRead (s : State) (off size : Nat) : Nat :=
  if size = 4 ∧ off % 4 = 0 then read32 s off
  else if size = 8 ∧ off % 8 = 0 then read32 s off + 2 ^ 32 * read32 s (off + 4)
  else 2 ^ (8 * size) - 1

/-- A read of the launch doorbells, BAR2: the queue's QHEAD (R392). -/
def doorbellRead (s : State) (off : Nat) : Nat :=
  match s.queues[off / 4096]? with
  | some q => q.head % 2 ^ 32
  | none => 0

/-- A 4-byte word of BAR4 as it reads: the MSI-X table, and the pending bits (R392). -/
def msixRead (s : State) (off : Nat) : Nat :=
  if off < 0x8000 then nbits (tget s.msix (off / 16)).toNat (off % 16 / 4 * 32) 32
  else if off < 0x8100 then (List.range 32).foldl (fun n i => n + (tget s.pba ((off - 0x8000) / 4 * 32 + i)).toNat * 2 ^ i) 0
  else 0

/-- A 4-byte write of BAR4: the table takes it, and a vector that is pending when its mask goes is sent (R391, R392; log 57). -/
def msixWrite (s : State) (off v : Nat) : State :=
  if off < 0x8000 then
    let n := off / 16
    let old := (tget s.msix n).toNat
    let k := off % 16 / 4 * 32
    let e : BitVec 128 := BitVec.ofNat 128 (old - nbits old k 32 * 2 ^ k + v % 2 ^ 32 * 2 ^ k)
    let s1 := { s with msix := tset s.msix n e }
    if !e.getLsbD 96 && decide (tget s.pba n = 1) then { s1 with pba := tset s1.pba n 0, reports := s1.reports ++ [.msi n] } else s1
  else s

/-- What an AtomicOp of the host writes (R391): 0 FetchAdd, 1 Swap, 2 CAS with the value compared in `cmp`, which writes nothing when it
differs. -/
def barNew (form size old cmp v : Nat) : Option Nat :=
  match form with
  | 0 => some ((old + v) % 2 ^ (8 * size))
  | 1 => some v
  | _ => if old = cmp then some v else none

/-- A read of BAR4 (R392): 4-byte words, two for an access of 8 bytes; all ones unless it is naturally aligned. -/
def bar4Read (s : State) (off size : Nat) : Nat :=
  if size = 4 ∧ off % 4 = 0 then msixRead s off
  else if size = 8 ∧ off % 8 = 0 then msixRead s off + 2 ^ 32 * msixRead s (off + 4)
  else 2 ^ (8 * size) - 1

/-- A read of one of the BARs (R392): the control window is BAR0. -/
def barRead (s : State) (bar off size : Nat) : Nat :=
  if bar = 0 then windowRead s off size else if bar = 2 then doorbellRead s off else bar4Read s off size

/-- A write of BAR4 (R392): a 4-byte word, or two; none unless it is naturally aligned. -/
def bar4Write (s : State) (off size v : Nat) : State :=
  if size = 4 ∧ off % 4 = 0 then msixWrite s off v
  else if size = 8 ∧ off % 8 = 0 then msixWrite (msixWrite s off (v % 2 ^ 32)) (off + 4) (v / 2 ^ 32)
  else s

/-- A write of one of the BARs (R392): a doorbell takes 32 bits. -/
def barWrite (s : State) (bar off size v : Nat) : State :=
  if bar = 0 then nextOr s (execControlWindowWrite 0 off size v s)
  else if bar = 2 then (if size = 4 ∧ off % 4096 = 0 then nextOr s (execQueueDoorbell (off / 4096) v s) else s)
  else bar4Write s off size v

/-- An AtomicOp of the host on one of the BARs, of 4 or 8 bytes (R391): the value read, and the state after its write. -/
def barAtomic (s : State) (bar form off size cmp v : Nat) : Nat × State :=
  let old := barRead s bar off size
  (old, match barNew form size old cmp v with
    | some x => barWrite s bar off size x
    | none => s)

/-- The next access from outside to the registers arrives; its answer goes back by the port. An AtomicOp on a semaphore comes in the
order of R400. -/
def execBarAccess (s : State) : Out :=
  .next (match s.bars with
    | [] => s
    | .read p b o z :: rest => { s with bars := rest, reports := s.reports ++ [.answer p (barRead s b o z)] }
    | .write4 o v :: rest => msixWrite { s with bars := rest } o v
    | .atomic b f o z c v :: rest =>
      let (old, t) := barAtomic { s with bars := rest } b f o z c v
      { t with reports := t.reports ++ [.answer 0 old] })

/-- The access from outside that can arrive now. -/
def barEvents (s : State) : List Act :=
  match s.bars with
  | [] => []
  | .atomic _ _ _ _ _ _ :: _ => if inTurn s 5 0 0 then [execBarAccess] else []
  | _ :: _ => [execBarAccess]

/-! ### Containment (R390, R406) -/

/-- The tiles of a launch that have not resolved before this clk. -/
def openTiles (s : State) (launch : Nat) : List STile :=
  s.tiles.filter fun t => t.launch == launch && t.bound && (t.phase == 0 || (t.phase == 1 && !inTurn s 6 t.token 0))

/-- A launch is terminated by a machine check, or those of its unresolved tiles that it touches err (R359, R390, R406). -/
def machineCheck (s : State) (launch : Nat) (touches : STile → Bool) : State :=
  match (openTiles s launch).filter touches with
  | [] => endLaunch s launch 4
  | ts => ts.foldl (fun s t => errTile s t.token) s

/-- A payload error (R406): every launch of the context named is contained. -/
def payloadError (s : State) (ctx : Nat) : State :=
  (s.launches.filter fun l => l.ctx == ctx).foldl (fun s l => machineCheck s l.id fun _ => true) s

/-- A span holds a cluster of a die: it owns the ports of the die (R406; log 26). -/
def spanOnDie (s : State) (p : Span) (die : Nat) : Bool :=
  (List.range (clustersPerDie s.part)).any fun c => p.holds s.part (die * clustersPerDie s.part + c)

/-- A header error on a die's port (R406): every launch of the spans that own it ends with END 4, the links of those spans' dies are
trained again, and the spans take no bind record. -/
def headerError (s : State) (die link : Nat) : State :=
  let hit := (List.range s.spans.length).filter fun i => (s.spans[i]?).any fun p => spanOnDie s p die
  let s1 := (s.launches.filter fun l => (s.ctxOf l.ctx).any fun x => hit.contains x.span).foldl (fun s l => endLaunch s l.id 4) s
  let dies := (List.range 4).filter fun d => hit.any fun i => (s.spans[i]?).any fun p => spanOnDie s p d
  { s1 with
    spans := hit.foldl (fun ps i => modAt (fun p => { p with closedToBind := true }) ps i) s1.spans
    ready := dies.foldl (fun r d => r &&& ~~~(BitVec.ofNat 32 (7 * 2 ^ (3 * d)))) s1.ready
    linkReplay := tset s1.linkReplay link 0 }

/-- FLIT_RECEIVE: a flit whose checks fail is sent again, up to 8 times (R401); what remains is contained (R406). Links 0 to
11 are the Kouzu links, three to a die; 12 to 15 stand for the bridge ports of the dies. No flit comes over a link that the part does
not have (R13). -/
def execFlitReceive (link : Nat) (flit : FlitIn) (s : State) : Out :=
  let die := if link < 12 then link / 3 else link - 12
  .next (if !hasLink s.part link && decide (link < 12) then s
    else if flit.headerOk && flit.payloadOk then { s with linkReplay := tset s.linkReplay link 0 }
    else if (tget s.linkReplay link).toNat < 8 then { s with linkReplay := tset s.linkReplay link (tget s.linkReplay link + 1) }
    else if !flit.headerOk then headerError s die link
    else payloadError { s with linkReplay := tset s.linkReplay link 0 } flit.ctx)

/-- An answer to a peer: 0 served, 1 refused, 2 refused for want of write permission, 3 poisoned (R403). -/
def answerPeer (s : State) (req : PeerReq) (code : Nat) (data : List Byte) : State :=
  { s with reports := s.reports ++ [.peer req.src code data] }

/-- The value that a peer's write, CAS or atomic leaves, from the old bytes; none when it leaves them. -/
def peerNew (req : PeerReq) (old : List Byte) : Option (List Byte) :=
  match req.form with
  | 0 => none
  | 1 => some req.data
  | 2 => if old = req.data.take req.size then some (req.data.drop req.size) else none
  | k => some (atomNew (k - 3) old req.data)

/-- IMPORT_INGRESS: a peer's request is checked against the import table, translated in the exporter's context, and served
or refused (R403). -/
def execImportIngress (req : PeerReq) (s : State) : Out :=
  let e := (tget s.importTable req.entry).toNat
  let write := decide (req.form ≠ 0)
  let ctx := nbits e 180 6
  let base : DWord := BitVec.ofNat 64 (nbits e 172 8 * 2 ^ 56 + nbits e 128 33 * 2 ^ 16 + req.off)
  .next (if nbits e 255 1 = 0 ∨ nbits e 192 12 ≠ req.src ∨ nbits e 64 64 ≠ req.gkey ∨ nbits e 39 25 * 65536 < req.off + req.size then
      answerPeer s req 1 []
    else if write && nbits e 254 1 == 0 then answerPeer s req 2 []
    else
      let places := fun (w : Bool) => (List.range req.size).mapM fun i => ctxPlace s ctx (base + BitVec.ofNat 64 i) 1 w
      match places true, places false with
      | none, some _ => if write then answerPeer s req 2 [] else serve ctx (places false) s
      | some ps, _ => serve ctx (some ps) s
      | none, none =>
        if (s.ctxOf ctx).any fun c => regionOk c base req.size && isPoisonedAt s c base req.size then answerPeer s req 3 []
        else answerPeer s req 1 [])
where
  isPoisonedAt (s : State) (c : Ctx) (ptr : DWord) (n : Nat) : Bool :=
    match walk s c (ptr.toNat % 2 ^ 49) with
    | .leaf e _ size => isPoisoned s (leafPa e (ptr.toNat % 2 ^ 49) size) n
    | .fail _ _ _ => false
  serve (_ctx : Nat) (ps : Option (List Loc)) (s : State) : State :=
    let locs := ps.getD []
    let old := locs.flatMap fun l => placeBytes s l 1
    let poisoned := locs.any fun l => poisonedAt s l 1
    if poisoned && decide (req.form ≠ 1) then answerPeer s req 3 []
    else
      let s1 := match peerNew req old with
        | none => s
        | some bs => (locs.zip bs).foldl (fun (s : State) (x : Loc × Byte) => keystoneWrite s x.1 [x.2]) s
      let s2 := locs.foldl (fun (s : State) l => match l with | .dev pa _ => portTurn s pa 1 | _ => s) s1
      answerPeer { s2 with freeN := s2.freeN + 1 } req 0 (if req.form = 1 then [] else old)

/-- A request of a memory word to the host or a peer times out: those that no route reaches, or else all that are not answered. PREF,
CWB and CINV send none (R225, R226). -/
def timeOutMem (s : State) (o : MemOp) : State :=
  if o.kind == .pref || o.kind.isLine then s else
  let openAcc := fun (a : Acc) => a.loc.outside && !a.complete o.kind
  let lost := fun (a : Acc) => openAcc a && (reached s o.ctx a.loc == !(o.accs.any fun b => openAcc b && !reached s o.ctx b.loc))
  if !o.accs.any lost then s
  else
    dataError { s with
      held := s.held.filter fun h => h.op != o.id || !((o.accs[h.acc]?).any lost)
      memOps := s.memOps.map fun x => if x.id = o.id then
        { x with accs := x.accs.map fun a => if lost a then { a with done := true, acked := true, got := List.replicate a.size 0 } else a }
        else x } o.launch o.token

/-- An engine's or tile unit's writes to the host or a peer time out: each is a fault of data class (R275, R404). Its reads do so when they
are made (`readPieces`). -/
def timeOutEng (s : State) (o : EngOp) : State :=
  let mine := s.held.filter fun h => h.op == o.id
  let lost := fun (h : HeldWrite) => h.op == o.id && (heldRoute s h == !(mine.any fun g => !heldRoute s g))
  if !mine.any lost then s
  else
    (mine.filter lost).foldl (fun s h => engDataError (engFault s o 3 0 h.va) o) { s with held := s.held.filter fun h => !lost h }

/-- FABRIC_TIMEOUT: a request to the host or a peer is not answered in time (R404): it completes as a poisoned response, an
uncorrectable data error (R390). -/
def execFabricTimeout (op : Nat) (s : State) : Out :=
  .next (match s.memOps.find? fun o => o.id == op with
    | some o => timeOutMem s o
    | none => match s.engOps.find? fun o => o.id == op with
      | some o => timeOutEng s o
      | none => s)

/-- CORRECTED_ERROR: counted, without effect on any value (R390). -/
def execCorrectedError (_kind : Nat) (s : State) : Out := .next { s with correctedErrors := s.correctedErrors + 1 }

/-- UNCORRECTABLE_SECTOR_ERROR: the sector is poisoned until a store writes all of it (R390). -/
def execUncorrectableSectorError (pa : Nat) (s : State) : Out :=
  .next (if pa < memLimit s.part then
      { s with
        poison := if s.poison.contains (pa / 64) then s.poison else (pa / 64) :: s.poison
        reports := s.reports ++ [.sector pa] }
    else s)

/-- REGISTER_ARRAY_ERROR: the wave's launch is terminated with END 4, or its tile errs (R390). -/
def execRegisterArrayError (wave : Nat) (s : State) : Out :=
  .next (match s.findWave wave with
    | some w => { dataError s w.launch w.token with reports := s.reports ++ [.array w.launch] }
    | none => s)

/-- SCRATCHPAD_ERROR: every launch whose reservation holds the word is terminated with END 4, or its tiles on the core err (R390). -/
def execScratchpadError (core off : Nat) (s : State) : Out :=
  .next ((s.resvs.filter fun r => r.core == core && decide (r.base ≤ off) && decide (off < r.base + r.size)).foldl (fun s r =>
    let here := fun (t : STile) => t.waves.any fun x => (s.findWave x.uid).any fun w => coreOf w.quad == core
    ({ machineCheck s r.launch here with reports := s.reports ++ [.array r.launch] } : State)) s)

/-- CACHE_ARRAY_ERROR: a line of the core's L1 or instruction cache is dropped, and filled again when it is next needed; it
counts as corrected (R390). -/
def execCacheArrayError (core : Nat) (s : State) : Out :=
  let a := s.l1.filter fun l => l.core == core
  let b := s.icache.filter fun l => l.core == core
  let k := Config.choose s.freeN % (a.length + b.length + 1)
  .next { s with
    l1 := match a[k]? with | some x => s.l1.filter (fun l => l != x) | none => s.l1
    icache := match (if k < a.length then none else b[k - a.length]?) with | some x => s.icache.filter (fun l => l != x) | none => s.icache
    correctedErrors := s.correctedErrors + 1
    freeN := s.freeN + 1 }

/-- Every context stops, and the stop is reported through both control ports (R390, R412). -/
def stopAll (s : State) : State := { s with stopped := true, reports := s.reports ++ [.stop 0, .stop 1] }

/-- SLOT_TABLE_ERROR: an error in the slot table or the Keystone core (R390). -/
def execSlotTableError (s : State) : Out := .next (stopAll s)

/-! ### Power and cooling (R412) -/

/-- POWER_LIMIT_EXCEEDED: PWR would exceed the limit, and issue is withheld for whole clk, first from matrix steps and, when those are
withheld already, from the vector pipes too. For how many clk, until the average falls to the limit (`powerAfter`), is free. -/
def execPowerLimitExceeded (s : State) : Out :=
  let n := 1 + Config.clkSlack s.freeN
  let s1 := { s with freeN := s.freeN + 1 }
  .next (if s.withheld = 0 then { s1 with withheld := n } else { s1 with withheld := max s.withheld n, withheldV := n })

/-- THERMAL_THROTTLE: at 105 °C the device lowers its own limit to 600 W. -/
def execThermalThrottle (s : State) : Out := .next { s with throttled := true }

/-- THERMAL_SHUTDOWN: at 115 °C every context stops. -/
def execThermalShutdown (s : State) : Out := .next (stopAll s)

/-- A memory word waits for a peer that no route reaches: it times out (R404, R408). -/
def lostOp (s : State) (o : MemOp) : Bool :=
  !(o.kind == .pref || o.kind.isLine) && o.accs.any fun a => !a.complete o.kind && !reached s o.ctx a.loc

/-- An engine's or tile unit's write waits so. -/
def lostEng (s : State) (o : EngOp) : Bool := s.held.any fun h => h.op == o.id && !heldRoute s h

/-- The events of the device's boundaries that happen of themselves. -/
def boundaryEvents (s : State) : List Act :=
  (match turnPort s with
    | some p => match turnRecord s p with
      | some bs => if resumeHeld s bs then [] else [commandEvent p bs]
      | none => []
    | none => []) ++
    (if bootPending s then [execFunctionReady 31] else []) ++
    (((List.range 31).filter fun i => unitBit s.part i && !s.ready.getLsbD i).map execFunctionReady) ++
    (s.memOps.filter (lostOp s)).map (fun o => execFabricTimeout o.id) ++
    (s.engOps.filter (lostEng s)).map fun o => execFabricTimeout o.id

end Sys2Proof.Machine
end

