-- ==== Sys2Proof/Machine/Dispatch.lean ====
section
/-!
DEFINITION. The dispatch of every instruction and event to its meaning.
-/
namespace Sys2Proof.Machine

/-- The meaning of an instruction or an event: one direct call for each. -/
def exec (i : Instr) (s : State) : Host.Outcome State Fault Refusal :=
  match i with
  | .clause f => Sys2Proof.Machine.execClause f s
  | .iadd f => Sys2Proof.Machine.execIadd f s
  | .isub f => Sys2Proof.Machine.execIsub f s
  | .imulLo f => Sys2Proof.Machine.execImulLo f s
  | .imulHiI32 f => Sys2Proof.Machine.execImulHiI32 f s
  | .imulHiN32 f => Sys2Proof.Machine.execImulHiN32 f s
  | .imulWideI32 f => Sys2Proof.Machine.execImulWideI32 f s
  | .imulWideN32 f => Sys2Proof.Machine.execImulWideN32 f s
  | .imad f => Sys2Proof.Machine.execImad f s
  | .iminI32 f => Sys2Proof.Machine.execIminI32 f s
  | .iminN32 f => Sys2Proof.Machine.execIminN32 f s
  | .imaxI32 f => Sys2Proof.Machine.execImaxI32 f s
  | .imaxN32 f => Sys2Proof.Machine.execImaxN32 f s
  | .iabsI32 f => Sys2Proof.Machine.execIabsI32 f s
  | .and f => Sys2Proof.Machine.execAnd f s
  | .or f => Sys2Proof.Machine.execOr f s
  | .xor f => Sys2Proof.Machine.execXor f s
  | .shl f => Sys2Proof.Machine.execShl f s
  | .shr f => Sys2Proof.Machine.execShr f s
  | .sar f => Sys2Proof.Machine.execSar f s
  | .rot f => Sys2Proof.Machine.execRot f s
  | .popc f => Sys2Proof.Machine.execPopc f s
  | .clz f => Sys2Proof.Machine.execClz f s
  | .brev f => Sys2Proof.Machine.execBrev f s
  | .bfeI32 f => Sys2Proof.Machine.execBfeI32 f s
  | .bfeN32 f => Sys2Proof.Machine.execBfeN32 f s
  | .bfi f => Sys2Proof.Machine.execBfi f s
  | .sel f => Sys2Proof.Machine.execSel f s
  | .mov f => Sys2Proof.Machine.execMov f s
  | .lea f => Sys2Proof.Machine.execLea f s
  | .icmp f => Sys2Proof.Machine.execIcmp f s
  | .iaddI64 f => Sys2Proof.Machine.execIaddI64 f s
  | .isubI64 f => Sys2Proof.Machine.execIsubI64 f s
  | .imulLoI64 f => Sys2Proof.Machine.execImulLoI64 f s
  | .iminI64 f => Sys2Proof.Machine.execIminI64 f s
  | .iminN64 f => Sys2Proof.Machine.execIminN64 f s
  | .imaxI64 f => Sys2Proof.Machine.execImaxI64 f s
  | .imaxN64 f => Sys2Proof.Machine.execImaxN64 f s
  | .shlI64 f => Sys2Proof.Machine.execShlI64 f s
  | .shrN64 f => Sys2Proof.Machine.execShrN64 f s
  | .sarI64 f => Sys2Proof.Machine.execSarI64 f s
  | .icmpI64 f => Sys2Proof.Machine.execIcmpI64 f s
  | .movI64 f => Sys2Proof.Machine.execMovI64 f s
  | .iabsI64 f => Sys2Proof.Machine.execIabsI64 f s
  | .movi f => Sys2Proof.Machine.execMovi f s
  | .movhi f => Sys2Proof.Machine.execMovhi f s
  | .iaddImm f => Sys2Proof.Machine.execIaddImm f s
  | .iaddWave f => Sys2Proof.Machine.execIaddWave f s
  | .isubWave f => Sys2Proof.Machine.execIsubWave f s
  | .imulLoWave f => Sys2Proof.Machine.execImulLoWave f s
  | .imulHiI32Wave f => Sys2Proof.Machine.execImulHiI32Wave f s
  | .imulHiN32Wave f => Sys2Proof.Machine.execImulHiN32Wave f s
  | .imulWideI32Wave f => Sys2Proof.Machine.execImulWideI32Wave f s
  | .imulWideN32Wave f => Sys2Proof.Machine.execImulWideN32Wave f s
  | .imadWave f => Sys2Proof.Machine.execImadWave f s
  | .iminI32Wave f => Sys2Proof.Machine.execIminI32Wave f s
  | .iminN32Wave f => Sys2Proof.Machine.execIminN32Wave f s
  | .imaxI32Wave f => Sys2Proof.Machine.execImaxI32Wave f s
  | .imaxN32Wave f => Sys2Proof.Machine.execImaxN32Wave f s
  | .iabsI32Wave f => Sys2Proof.Machine.execIabsI32Wave f s
  | .andWave f => Sys2Proof.Machine.execAndWave f s
  | .orWave f => Sys2Proof.Machine.execOrWave f s
  | .xorWave f => Sys2Proof.Machine.execXorWave f s
  | .shlWave f => Sys2Proof.Machine.execShlWave f s
  | .shrWave f => Sys2Proof.Machine.execShrWave f s
  | .sarWave f => Sys2Proof.Machine.execSarWave f s
  | .rotWave f => Sys2Proof.Machine.execRotWave f s
  | .popcWave f => Sys2Proof.Machine.execPopcWave f s
  | .clzWave f => Sys2Proof.Machine.execClzWave f s
  | .brevWave f => Sys2Proof.Machine.execBrevWave f s
  | .bfeI32Wave f => Sys2Proof.Machine.execBfeI32Wave f s
  | .bfeN32Wave f => Sys2Proof.Machine.execBfeN32Wave f s
  | .bfiWave f => Sys2Proof.Machine.execBfiWave f s
  | .selWave f => Sys2Proof.Machine.execSelWave f s
  | .movWave f => Sys2Proof.Machine.execMovWave f s
  | .leaWave f => Sys2Proof.Machine.execLeaWave f s
  | .icmpWave f => Sys2Proof.Machine.execIcmpWave f s
  | .iaddI64Wave f => Sys2Proof.Machine.execIaddI64Wave f s
  | .isubI64Wave f => Sys2Proof.Machine.execIsubI64Wave f s
  | .imulLoI64Wave f => Sys2Proof.Machine.execImulLoI64Wave f s
  | .iminI64Wave f => Sys2Proof.Machine.execIminI64Wave f s
  | .iminN64Wave f => Sys2Proof.Machine.execIminN64Wave f s
  | .imaxI64Wave f => Sys2Proof.Machine.execImaxI64Wave f s
  | .imaxN64Wave f => Sys2Proof.Machine.execImaxN64Wave f s
  | .shlI64Wave f => Sys2Proof.Machine.execShlI64Wave f s
  | .shrN64Wave f => Sys2Proof.Machine.execShrN64Wave f s
  | .sarI64Wave f => Sys2Proof.Machine.execSarI64Wave f s
  | .icmpI64Wave f => Sys2Proof.Machine.execIcmpI64Wave f s
  | .movI64Wave f => Sys2Proof.Machine.execMovI64Wave f s
  | .iabsI64Wave f => Sys2Proof.Machine.execIabsI64Wave f s
  | .moviWave f => Sys2Proof.Machine.execMoviWave f s
  | .movhiWave f => Sys2Proof.Machine.execMovhiWave f s
  | .iaddImmWave f => Sys2Proof.Machine.execIaddImmWave f s
  | .fadd f => Sys2Proof.Machine.execFadd f s
  | .fsub f => Sys2Proof.Machine.execFsub f s
  | .fmul f => Sys2Proof.Machine.execFmul f s
  | .ffma f => Sys2Proof.Machine.execFfma f s
  | .fnma f => Sys2Proof.Machine.execFnma f s
  | .fmin f => Sys2Proof.Machine.execFmin f s
  | .fmax f => Sys2Proof.Machine.execFmax f s
  | .fcmpEq f => Sys2Proof.Machine.execFcmpEq f s
  | .fclass f => Sys2Proof.Machine.execFclass f s
  | .frnd f => Sys2Proof.Machine.execFrnd f s
  | .fdiv f => Sys2Proof.Machine.execFdiv f s
  | .fsqrt f => Sys2Proof.Machine.execFsqrt f s
  | .frcp f => Sys2Proof.Machine.execFrcp f s
  | .frsq f => Sys2Proof.Machine.execFrsq f s
  | .fcmpLt f => Sys2Proof.Machine.execFcmpLt f s
  | .fcmpLe f => Sys2Proof.Machine.execFcmpLe f s
  | .sin f => Sys2Proof.Machine.execSin f s
  | .cos f => Sys2Proof.Machine.execCos f s
  | .exp2 f => Sys2Proof.Machine.execExp2 f s
  | .log2 f => Sys2Proof.Machine.execLog2 f s
  | .cvt f => Sys2Proof.Machine.execCvt f s
  | .qntHx4 f => Sys2Proof.Machine.execQntHx4 f s
  | .qntE4m3 f => Sys2Proof.Machine.execQntE4m3 f s
  | .qntE5m2 f => Sys2Proof.Machine.execQntE5m2 f s
  | .dqHx4 f => Sys2Proof.Machine.execDqHx4 f s
  | .dqE4m3 f => Sys2Proof.Machine.execDqE4m3 f s
  | .dqE5m2 f => Sys2Proof.Machine.execDqE5m2 f s
  | .spl3 f => Sys2Proof.Machine.execSpl3 f s
  | .packB16 f => Sys2Proof.Machine.execPackB16 f s
  | .packB8 f => Sys2Proof.Machine.execPackB8 f s
  | .unpack f => Sys2Proof.Machine.execUnpack f s
  | .shfl f => Sys2Proof.Machine.execShfl f s
  | .pswap f => Sys2Proof.Machine.execPswap f s
  | .bcast f => Sys2Proof.Machine.execBcast f s
  | .ballot f => Sys2Proof.Machine.execBallot f s
  | .voteAny f => Sys2Proof.Machine.execVoteAny f s
  | .voteAll f => Sys2Proof.Machine.execVoteAll f s
  | .voteUni f => Sys2Proof.Machine.execVoteUni f s
  | .ppop f => Sys2Proof.Machine.execPpop f s
  | .isectList f => Sys2Proof.Machine.execIsectList f s
  | .isectBits f => Sys2Proof.Machine.execIsectBits f s
  | .wredAdd f => Sys2Proof.Machine.execWredAdd f s
  | .wredMin f => Sys2Proof.Machine.execWredMin f s
  | .wredMax f => Sys2Proof.Machine.execWredMax f s
  | .wredAddI32 f => Sys2Proof.Machine.execWredAddI32 f s
  | .wredAddI64 f => Sys2Proof.Machine.execWredAddI64 f s
  | .wredAndB32 f => Sys2Proof.Machine.execWredAndB32 f s
  | .wredOrB32 f => Sys2Proof.Machine.execWredOrB32 f s
  | .wredMinI32 f => Sys2Proof.Machine.execWredMinI32 f s
  | .wredMaxI32 f => Sys2Proof.Machine.execWredMaxI32 f s
  | .wredMinN32 f => Sys2Proof.Machine.execWredMinN32 f s
  | .wredMaxN32 f => Sys2Proof.Machine.execWredMaxN32 f s
  | .ld f => Sys2Proof.Machine.execLd f s
  | .st f => Sys2Proof.Machine.execSt f s
  | .lds f => Sys2Proof.Machine.execLds f s
  | .sts f => Sys2Proof.Machine.execSts f s
  | .ldl f => Sys2Proof.Machine.execLdl f s
  | .stl f => Sys2Proof.Machine.execStl f s
  | .ldw f => Sys2Proof.Machine.execLdw f s
  | .atomAddI32 f => Sys2Proof.Machine.execAtomAddI32 f s
  | .atomAddI64 f => Sys2Proof.Machine.execAtomAddI64 f s
  | .atomAddF32 f => Sys2Proof.Machine.execAtomAddF32 f s
  | .atomAddF64 f => Sys2Proof.Machine.execAtomAddF64 f s
  | .atomMinI32 f => Sys2Proof.Machine.execAtomMinI32 f s
  | .atomMaxI32 f => Sys2Proof.Machine.execAtomMaxI32 f s
  | .atomMinN32 f => Sys2Proof.Machine.execAtomMinN32 f s
  | .atomMaxN32 f => Sys2Proof.Machine.execAtomMaxN32 f s
  | .atomAndB32 f => Sys2Proof.Machine.execAtomAndB32 f s
  | .atomOrB32 f => Sys2Proof.Machine.execAtomOrB32 f s
  | .atomXorB32 f => Sys2Proof.Machine.execAtomXorB32 f s
  | .atomExchB32 f => Sys2Proof.Machine.execAtomExchB32 f s
  | .atomExchB64 f => Sys2Proof.Machine.execAtomExchB64 f s
  | .casB32 f => Sys2Proof.Machine.execCasB32 f s
  | .casB64 f => Sys2Proof.Machine.execCasB64 f s
  | .fence f => Sys2Proof.Machine.execFence f s
  | .poll f => Sys2Proof.Machine.execPoll f s
  | .pref f => Sys2Proof.Machine.execPref f s
  | .cwb f => Sys2Proof.Machine.execCwb f s
  | .cinv f => Sys2Proof.Machine.execCinv f s
  | .ldef f => Sys2Proof.Machine.execLdef f s
  | .lchain f => Sys2Proof.Machine.execLchain f s
  | .lpart f => Sys2Proof.Machine.execLpart f s
  | .ltrans f => Sys2Proof.Machine.execLtrans f s
  | .lflat f => Sys2Proof.Machine.execLflat f s
  | .lswz f => Sys2Proof.Machine.execLswz f s
  | .lget f => Sys2Proof.Machine.execLget f s
  | .lchk f => Sys2Proof.Machine.execLchk f s
  | .hset f => Sys2Proof.Machine.execHset f s
  | .tcopy f => Sys2Proof.Machine.execTcopy f s
  | .gather f => Sys2Proof.Machine.execGather f s
  | .scatter f => Sys2Proof.Machine.execScatter f s
  | .mcread f => Sys2Proof.Machine.execMcread f s
  | .rbinit f => Sys2Proof.Machine.execRbinit f s
  | .rbpop f => Sys2Proof.Machine.execRbpop f s
  | .rbfree f => Sys2Proof.Machine.execRbfree f s
  | .coinit f => Sys2Proof.Machine.execCoinit f s
  | .coexpect f => Sys2Proof.Machine.execCoexpect f s
  | .coarrive f => Sys2Proof.Machine.execCoarrive f s
  | .codrop f => Sys2Proof.Machine.execCodrop f s
  | .cowait f => Sys2Proof.Machine.execCowait f s
  | .cotest f => Sys2Proof.Machine.execCotest f s
  | .trsend f => Sys2Proof.Machine.execTrsend f s
  | .mloopBf16 f => Sys2Proof.Machine.execMloopBf16 f s
  | .mloopF16 f => Sys2Proof.Machine.execMloopF16 f s
  | .mloopE4m3 f => Sys2Proof.Machine.execMloopE4m3 f s
  | .mloopE5m2 f => Sys2Proof.Machine.execMloopE5m2 f s
  | .mloopI8 f => Sys2Proof.Machine.execMloopI8 f s
  | .mloopHx4 f => Sys2Proof.Machine.execMloopHx4 f s
  | .mloopF64 f => Sys2Proof.Machine.execMloopF64 f s
  | .mzero f => Sys2Proof.Machine.execMzero f s
  | .mlda f => Sys2Proof.Machine.execMlda f s
  | .msta f => Sys2Proof.Machine.execMsta f s
  | .mrd f => Sys2Proof.Machine.execMrd f s
  | .mwr f => Sys2Proof.Machine.execMwr f s
  | .mstat f => Sys2Proof.Machine.execMstat f s
  | .spawn f => Sys2Proof.Machine.execSpawn f s
  | .spawnTry f => Sys2Proof.Machine.execSpawnTry f s
  | .close f => Sys2Proof.Machine.execClose f s
  | .tbset f => Sys2Proof.Machine.execTbset f s
  | .tbclr f => Sys2Proof.Machine.execTbclr f s
  | .tbtest f => Sys2Proof.Machine.execTbtest f s
  | .join f => Sys2Proof.Machine.execJoin f s
  | .leave => Sys2Proof.Machine.execLeave s
  | .bar f => Sys2Proof.Machine.execBar f s
  | .launch f => Sys2Proof.Machine.execLaunch f s
  | .verdict f => Sys2Proof.Machine.execVerdict f s
  | .bra f => Sys2Proof.Machine.execBra f s
  | .call f => Sys2Proof.Machine.execCall f s
  | .ret => Sys2Proof.Machine.execRet s
  | .exit => Sys2Proof.Machine.execExit s
  | .drain => Sys2Proof.Machine.execDrain s
  | .yield => Sys2Proof.Machine.execYield s
  | .give f => Sys2Proof.Machine.execGive f s
  | .claim f => Sys2Proof.Machine.execClaim f s
  | .claimTry f => Sys2Proof.Machine.execClaimTry f s
  | .trap f => Sys2Proof.Machine.execTrap f s
  | .bkpt f => Sys2Proof.Machine.execBkpt f s
  | .nop => Sys2Proof.Machine.execNop s
  | .srd f => Sys2Proof.Machine.execSrd f s
  | .swr f => Sys2Proof.Machine.execSwr f s
  | .ptew f => Sys2Proof.Machine.execPtew f s
  | .poolpop f => Sys2Proof.Machine.execPoolpop f s
  | .lpinv f => Sys2Proof.Machine.execLpinv f s
  | .tlbinv f => Sys2Proof.Machine.execTlbinv f s
  | .iinv f => Sys2Proof.Machine.execIinv f s
  | .rft => Sys2Proof.Machine.execRft s
  | .parkedRestoke wave => Sys2Proof.Machine.execParkedRestoke wave s
  | .vectorPass quad pipe => Sys2Proof.Machine.execVectorPass quad pipe s
  | .resultWriteback wave idx => Sys2Proof.Machine.execResultWriteback wave idx s
  | .hsetComplete wave => Sys2Proof.Machine.execHsetComplete wave s
  | .engineOpStart op => Sys2Proof.Machine.execEngineOpStart op s
  | .engineOpArrive op => Sys2Proof.Machine.execEngineOpArrive op s
  | .objectApply core off n => Sys2Proof.Machine.execObjectApply core off n s
  | .cowaitResult wave => Sys2Proof.Machine.execCowaitResult wave s
  | .rbpopResult wave => Sys2Proof.Machine.execRbpopResult wave s
  | .mcreadRequestArrive op => Sys2Proof.Machine.execMcreadRequestArrive op s
  | .mcreadSessionTimeout sess => Sys2Proof.Machine.execMcreadSessionTimeout sess s
  | .mcreadLineSend sess => Sys2Proof.Machine.execMcreadLineSend sess s
  | .mcreadLineWrite op => Sys2Proof.Machine.execMcreadLineWrite op s
  | .tileFetchPin op => Sys2Proof.Machine.execTileFetchPin op s
  | .matrixStepStart quad => Sys2Proof.Machine.execMatrixStepStart quad s
  | .matrixStepResult quad => Sys2Proof.Machine.execMatrixStepResult quad s
  | .tileMoveComplete wave idx => Sys2Proof.Machine.execTileMoveComplete wave idx s
  | .tileLoadStoreComplete op => Sys2Proof.Machine.execTileLoadStoreComplete op s
  | .spawnAccept wave => Sys2Proof.Machine.execSpawnAccept wave s
  | .cordCloseApply cord => Sys2Proof.Machine.execCordCloseApply cord s
  | .tileBufferApply n => Sys2Proof.Machine.execTileBufferApply n s
  | .taskEnterCord => Sys2Proof.Machine.execTaskEnterCord s
  | .crewOpApply crew n => Sys2Proof.Machine.execCrewOpApply crew n s
  | .barReturn wave => Sys2Proof.Machine.execBarReturn wave s
  | .claimGrant wave => Sys2Proof.Machine.execClaimGrant wave s
  | .ptewApply wave => Sys2Proof.Machine.execPtewApply wave s
  | .poolpopComplete wave => Sys2Proof.Machine.execPoolpopComplete wave s
  | .translationSweepEnd wave => Sys2Proof.Machine.execTranslationSweepEnd wave s
  | .iinvSweepEnd wave => Sys2Proof.Machine.execIinvSweepEnd wave s
  | .handlerEntry wave => Sys2Proof.Machine.execHandlerEntry wave s
  | .pageWalk core ctx quad lane ptr => Sys2Proof.Machine.execPageWalk core ctx quad lane ptr s
  | .icacheFill core ctx va => Sys2Proof.Machine.execIcacheFill core ctx va s
  | .memoryRequestApply op slot => Sys2Proof.Machine.execMemoryRequestApply op slot s
  | .memoryResponse op => Sys2Proof.Machine.execMemoryResponse op s
  | .storeAck op => Sys2Proof.Machine.execStoreAck op s
  | .pollReread op => Sys2Proof.Machine.execPollReread op s
  | .l2Fill pa => Sys2Proof.Machine.execL2Fill pa s
  | .writebackAck pa => Sys2Proof.Machine.execWritebackAck pa s
  | .hostWritePerformed idx => Sys2Proof.Machine.execHostWritePerformed idx s
  | .waveRetire wave => Sys2Proof.Machine.execWaveRetire wave s
  | .tileCommit token => Sys2Proof.Machine.execTileCommit token s
  | .tileDiscard token => Sys2Proof.Machine.execTileDiscard token s
  | .exactItemsEnter launch => Sys2Proof.Machine.execExactItemsEnter launch s
  | .tileReserve launch => Sys2Proof.Machine.execTileReserve launch s
  | .queueDoorbell q tail => Sys2Proof.Machine.execQueueDoorbell q tail s
  | .launchRecordIntake q => Sys2Proof.Machine.execLaunchRecordIntake q s
  | .bindRecordWrite cord quad wslot => Sys2Proof.Machine.execBindRecordWrite cord quad wslot s
  | .waveCreate entry => Sys2Proof.Machine.execWaveCreate entry s
  | .queueAgeing q => Sys2Proof.Machine.execQueueAgeing q s
  | .gangCloseSet launch set => Sys2Proof.Machine.execGangCloseSet launch set s
  | .preemptSave wave => Sys2Proof.Machine.execPreemptSave wave s
  | .waveResume saved quad wslot => Sys2Proof.Machine.execWaveResume saved quad wslot s
  | .launchEnd launch => Sys2Proof.Machine.execLaunchEnd launch s
  | .watchdogLimit wave => Sys2Proof.Machine.execWatchdogLimit wave s
  | .createContext port => Sys2Proof.Machine.execCreateContext port s
  | .destroyContext port => Sys2Proof.Machine.execDestroyContext port s
  | .setContextRoots port => Sys2Proof.Machine.execSetContextRoots port s
  | .writeRegionBounds port => Sys2Proof.Machine.execWriteRegionBounds port s
  | .addPoolFrames port => Sys2Proof.Machine.execAddPoolFrames port s
  | .grantTbWindow port => Sys2Proof.Machine.execGrantTbWindow port s
  | .setPriorityCap port => Sys2Proof.Machine.execSetPriorityCap port s
  | .setAge port => Sys2Proof.Machine.execSetAge port s
  | .setGangwait port => Sys2Proof.Machine.execSetGangwait port s
  | .installKey port => Sys2Proof.Machine.execInstallKey port s
  | .writeImportSlot port => Sys2Proof.Machine.execWriteImportSlot port s
  | .writeImportEntry port => Sys2Proof.Machine.execWriteImportEntry port s
  | .configureSpan port => Sys2Proof.Machine.execConfigureSpan port s
  | .terminateLaunch port => Sys2Proof.Machine.execTerminateLaunch port s
  | .resumeWave port => Sys2Proof.Machine.execResumeWave port s
  | .setRoute port => Sys2Proof.Machine.execSetRoute port s
  | .setPackageNumber port => Sys2Proof.Machine.execSetPackageNumber port s
  | .qcfgWrite q v => Sys2Proof.Machine.execQcfgWrite q v s
  | .semaphoreWrite port n v => Sys2Proof.Machine.execSemaphoreWrite port n v s
  | .plimWattsWrite port v => Sys2Proof.Machine.execPlimWattsWrite port v s
  | .recoveryAppend port v => Sys2Proof.Machine.execRecoveryAppend port v s
  | .recoveryCheck port v => Sys2Proof.Machine.execRecoveryCheck port v s
  | .controlWindowWrite port off size v => Sys2Proof.Machine.execControlWindowWrite port off size v s
  | .powerOn => Sys2Proof.Machine.execPowerOn s
  | .functionReady bit => Sys2Proof.Machine.execFunctionReady bit s
  | .flitReceive link flit => Sys2Proof.Machine.execFlitReceive link flit s
  | .importIngress req => Sys2Proof.Machine.execImportIngress req s
  | .fabricTimeout op => Sys2Proof.Machine.execFabricTimeout op s
  | .correctedError kind => Sys2Proof.Machine.execCorrectedError kind s
  | .uncorrectableSectorError pa => Sys2Proof.Machine.execUncorrectableSectorError pa s
  | .registerArrayError wave => Sys2Proof.Machine.execRegisterArrayError wave s
  | .scratchpadError core off => Sys2Proof.Machine.execScratchpadError core off s
  | .cacheArrayError core => Sys2Proof.Machine.execCacheArrayError core s
  | .slotTableError => Sys2Proof.Machine.execSlotTableError s
  | .powerLimitExceeded => Sys2Proof.Machine.execPowerLimitExceeded s
  | .thermalThrottle => Sys2Proof.Machine.execThermalThrottle s
  | .thermalShutdown => Sys2Proof.Machine.execThermalShutdown s
  | .modulePowerOff => Sys2Proof.Machine.execModulePowerOff s
  | .unknownCommandCode port => Sys2Proof.Machine.execUnknownCommandCode port s

end Sys2Proof.Machine
end

