-- ==== Sys2Proof/Machine/Issue.lean ====
section
/-!
DEFINITION. The issue stage and the choice of what happens next (R9, R23, R27 to R29, R65, R84, R243): a chain group issues
from one wave, or an event that can happen does, or an input from outside arrives.
-/
namespace Sys2Proof.Machine

/-! ### A chain group (R28, R29, R368) -/

/-- The words of a group executed in PC order. -/
def runWords : List Word → State → Out
  | [], s => .next s
  | b :: rest, s =>
    match decodeWord b with
    | .error _ => .next s
    | .ok i =>
      match exec i { s with wordBits := b, grpMore := rest.length } with
      | .next t => runWords rest t
      | o => o

/-- A group that the decode checks reject (R65): the trap is met at the word that fails, and nothing is executed. -/
def rejectGroup (s : State) (ws : List Word) (k cls code : Nat) : State :=
  let s1 := { s with
    w := { s.w with pc := s.w.pc + BitVec.ofNat 64 (4 * k) }, wordBits := ws.getD k 0, grpMore := ws.length - 1 - k }
  meetTrap s1 (mkTrap s1 cls code 7)

/-- A word that RFT repeated is done (R373): EXEC and PC come back, unless it trapped again. -/
def endReplay (s : State) (repeated : Bool) : State :=
  if repeated && s.w.replay then
    { s with w := { s.w with exec := s.w.uexec &&& s.w.live, pc := s.w.frame.trap.cont, replay := false } }
  else s

/-- The end of a group: the first trap of its words is met (R368). `repeated`: the group was a word that RFT repeats. -/
def endGroup (s : State) (repeated : Bool) : State :=
  match s.w.trap with
  | some t => meetTrap s t
  | none => endReplay s repeated

/-- The CLAIM of a group that its pool cannot meet (R98). -/
def unmetClaim (s : State) (ws : List Word) : Option Nat :=
  (ws.filterMap instrOf).findSome? fun x =>
    match x.2 with
    | .claim f => if s.w.nregs + f.imm.toNat ≤ 96 && !claimMet s s.w f.imm.toNat then some f.imm.toNat else none
    | _ => none

/-- A word that issued again after a stop is done (R387): the wave, `w0` before it, goes on where it had come to. -/
def endAgain (w0 : Wave) (s : State) : State :=
  if w0.supervisor then s
  else s.modW fun w =>
    { w with again := none
             pc := match againOf w0 with
               | some c => if !w.supervisor && w.pc == w0.pc + 4 then c else w.pc
               | none => w.pc }

/-- The issuing wave's chain group (R27 to R29): it is rejected, it blocks in a CLAIM, or its words are executed; operands
are read as the wave stood before the group. -/
def runGroup (s : State) : Out :=
  let ws := groupAt s s.w
  match checkGroup s s.w (packetPos s.w.pc) ws with
  | some (k, cls, code) => .next (rejectGroup s ws k cls code)
  | none =>
    match unmetClaim s ws with
    | some n => .next (blockClaim s n)
    | none =>
      match runWords ws { s with src := some s.w, grpFlags := 0 } with
      | .next t => .next (endGroup (endAgain s.w { t with src := none, grpMore := 0, grpFlags := 0, wordBits := 0 }) s.w.replay)
      | o => o

/-! ### Round robin (R23) -/

/-- A wave's issue priority: its launch's level, lowered by a POLL (R224, R346). -/
def issuePrio (w : Wave) : Nat := w.prio - w.polls

/-- Two waves stand in one round-robin order. -/
def sameOrder (a b : Wave) : Bool := a.quad == b.quad && issuePrio a == issuePrio b

/-- The place of a wave in the order. -/
def orderPlace (s : State) (uid : Nat) : Nat := (findIdxFrom (fun u => u == uid) 0 s.order).getD s.order.length

/-- The waves that may issue: in each quadrant the first, in its order, of the highest priority (R23). -/
def issuable (s : State) : List Nat :=
  let el := s.allWaves.filter (mayIssue s)
  (el.filter fun w => el.all fun x =>
    x.quad != w.quad || decide (issuePrio x < issuePrio w) ||
      (issuePrio x == issuePrio w && decide (orderPlace s w.uid ≤ orderPlace s x.uid))).map fun w => w.uid

/-- The next choice starts with the wave after the one that issued (R23). -/
def rotate (s : State) (w : Wave) : State :=
  let mine := fun (u : Nat) => (s.findWave u).any fun x => sameOrder x w
  let same := s.order.filter mine
  let k := (findIdxFrom (fun u => u == w.uid) 0 same).getD 0
  if same.contains w.uid then
    { s with order := (s.order.filter fun u => !mine u) ++ same.drop (k + 1) ++ same.take (k + 1) }
  else s

/-- The issuing wave's group issues: no decode check rejects it, and no CLAIM in it waits (R65, R98). -/
def groupIssues (s : State) : Bool :=
  let ws := groupAt s s.w
  (checkGroup s s.w (packetPos s.w.pc) ws).isNone && (unmetClaim s ws).isNone

/-- A wave's chain group issues, or traps or blocks instead; one of whose page walks a home slice serves in no order of this clk waits for
the next (R243). -/
def issueWave (uid : Nat) (s : State) : Out :=
  let s1 := checkOut s uid
  match runGroup s1 with
  | .next t => .next (if lateRead t then s else if groupIssues s1 then rotate t t.w else t)
  | o => o

/-! ### What can happen -/

/-- An instruction of the table that the outside world performs on the device. -/
def isInput : Instr → Bool
  | .queueDoorbell _ _ | .qcfgWrite _ _ | .semaphoreWrite _ _ _ | .plimWattsWrite _ _ | .recoveryAppend _ _
  | .recoveryCheck _ _ | .controlWindowWrite _ _ _ _ | .powerOn | .flitReceive _ _ | .importIngress _ | .fabricTimeout _
  | .correctedError _ | .uncorrectableSectorError _ | .registerArrayError _ | .scratchpadError _ _ | .cacheArrayError _
  | .slotTableError | .powerLimitExceeded | .thermalThrottle | .thermalShutdown | .modulePowerOff => true
  | _ => false

/-- The next input arrives. A module that is off takes only a power-on (R409). -/
def takeInput (s : State) : Out :=
  match s.inputs with
  | [] => .next s
  | i :: rest =>
    let s1 := { s with inputs := rest }
    if isInput i && (s.powered || i == .powerOn) then exec i s1 else .next s1

/-- The events that can happen of themselves. None does in a module that is off; in one that is stopped only its registers answer
(R390, R409). -/
def events (s : State) : List Act :=
  if !s.powered then []
  else if s.stopped then barEvents s
  else
    barEvents s ++ controlEvents s ++ layoutEvents s ++ memEvents s ++ engineEvents s ++ matrixEvents s ++ entryEvents s ++ taskEvents s ++
      systemEvents s ++ exactEvents s ++ launchEvents s ++ placeEvents s ++ boundaryEvents s

/-- A parked wave is to stoke again in this clk (R91). -/
def restokeDue (s : State) : Bool := s.powered && !s.stopped && s.allWaves.any (restokeReady s)

/-- All that can happen next. In a clk in which a parked wave stokes again, what else enters cords in that clk comes first, or the
waves do (R84, R91). -/
def actions (s : State) : List Act :=
  if restokeDue s then restokeEvents s ++ entryEvents s ++ exactEvents s
  else
    (if inputMay s then [takeInput] else []) ++ events s ++ (if s.powered then (issuable s).map issueWave else [])

/-- The one that does: among several the choice is free. -/
def pick (s : State) : List Act → Option (Act × State)
  | [] => none
  | [a] => some (a, s)
  | a :: b :: l =>
    some ((a :: b :: l).getD (Config.choose s.freeN % (l.length + 2)) a, { s with freeN := s.freeN + 1 })

/-! ### Time (R9, R38, R388) -/

/-- The wave's next group waits for the scoreboard (R35). -/
def stalled (s : State) (w : Wave) : Bool :=
  waveMay s w && (w.replay || (fetchMiss s w).isNone) &&
    (let ws := groupAt s w
     (checkGroup s w (packetPos w.pc) ws).isNone && !((ws.filterMap instrOf).all fun x => marksClear s w x.2))

/-- Some clk pass for a wave: WDCNT rises while it runs or is blocked, and saturates (R388); SBSTALL rises while it stalls,
and wraps (R364). -/
def waveTime (s : State) (n : Nat) (w : Wave) : Wave :=
  { w with
    wdcnt := if w.status = .running || w.status = .blocked then BitVec.ofNat 64 (min (w.wdcnt.toNat + n) (2 ^ 64 - 1)) else w.wdcnt
    sbstall := if stalled s w then w.sbstall + BitVec.ofNat 32 n else w.sbstall }

/-- The power limit in force: 600 W once the device has lowered it (R412). -/
def wattLimit (s : State) : Nat := if s.throttled then 600 else s.watts

/-- PWR after some clk (R393, R412): free, but that withheld issue ends when it is not above the limit. -/
def powerAfter (s : State) (n : Nat) : Word :=
  let p := Config.power s.freeN
  if 0 < s.withheld ∧ s.withheld ≤ n ∧ wattLimit s < p.toNat then BitVec.ofNat 32 (wattLimit s) else p

/-- `n` clk pass (log 5): what a clk has served is forgotten, and withheld issue comes nearer its end (R412). -/
def elapse (n : Nat) (s : State) : State :=
  { s with
    clk := s.clk + n, freeN := s.freeN + 1, src := none, withheld := s.withheld - n, withheldV := s.withheldV - n
    pwr := if n = 0 then s.pwr else powerAfter s n
    turns := if n = 0 then s.turns else []
    w := waveTime s n s.w, waves := s.waves.map (waveTime s n) }

/-- The clk until the next action pass, free in number; none where a parked wave stokes again in this one (R91). What has begun to wait
in this clk is noted (R346). -/
def passTime (s : State) : State := elapse (if restokeDue s then 0 else Config.clkSlack s.freeN) (noteWaits s)

/-- What follows of itself from the state of the machine: fences let go (R239), compressed lines expand (R207), tiles resolve (R356),
sectors lose their old key (R407). -/
def settle (s : State) : State := settleKeys (settleTiles (l2Settle (settleFences s)))

/-- One action of the machine; where none can happen, at least one clk passes. -/
def act (s : State) : Out :=
  let s0 := settle s
  match pick s0 (actions s0) with
  | none => .next (elapse (Config.clkSlack s0.freeN + 1) (noteWaits s0))
  | some (a, s1) =>
    match a s1 with
    | .next t => .next (passTime t)
    | o => o

end Sys2Proof.Machine
end

