-- ==== Sys2Proof/Machine/Step.lean ====
section
/-!
DEFINITION. One step of the machine, and the placing of an instruction where the machine fetches next.
-/
namespace Sys2Proof.Machine

/-- One step: an action that can happen now happens, then time passes. A module that is off and is given nothing stops. -/
def step (s : State) : Host.Outcome State Fault Refusal :=
  if !s.powered && s.inputs.isEmpty then .fault .poweredOff else act s

/-- The virtual address, in region 1, of the placed instruction; as a pointer it is a multiple of 12 (R26). -/
def State.fetchVa : Nat := 0x10004

/-- The context, launch, cord and wave that run a placed instruction: the wave of a launch that is under way, all its 32
slots live, with every register, tile and layout register it can have, in the mode that may run the word. -/
def State.fetchWave (s : State) (sup : Bool) : Wave :=
  { Wave.init with
    uid := s.nextUid, status := .running, width := 32, nregs := 96, acc := 32, nlay := 16,
    lays := List.replicate 16 Layout.empty, live := 0xFFFFFFFF, exec := 0xFFFFFFFF, supervisor := sup, isNew := false,
    pc := BitVec.ofNat 64 (2 ^ 56 + State.fetchVa) }

/-- The context of a placed instruction: region 1 is the page at 0, which allows everything. -/
def State.fetchCtx : Ctx :=
  { num := 0, span := 0, ptroot := 0, hentry := 0, ctxcfg := 0,
    bounds := [(1, BitVec.ofNat 128 (7 * 2 ^ 125 + (2 ^ 14 - 1) * 2 ^ 64))], handles := [], pool := [], tbBase := 0,
    tbCount := 0, prioCap := 7, imports := [] }

/-- The launch of a placed instruction. -/
def State.fetchLaunch : Launch :=
  { id := 0, ctx := 0, queue := none, prio := 0, main := 0, exactCord := none, roles := 0, rper := 0, gang := 0, gscope := 0,
    sg := false, tol := 0, budget := 0, titems := 0, argt := [], templates := [], scratch := 0, done := 0, irq := false,
    vec := 0, stkskip := 0, sgpass := 0, sgfail := 0, range := 0, made := 1, tileNext := 0, tileDone := 0, rerun := [],
    exactDue := [], ending := none, blockedBy := false, since := none, sinceX := none, sinceG := none }

/-- The cord of a placed instruction: open, and empty. -/
def State.fetchCord : Cord :=
  { num := 0, ctx := 0, launch := 0, entry := BitVec.ofNat 64 (2 ^ 56 + State.fetchVa),
    plan := { wq := 1, nregs := 96, acc := 32, nlay := 16, args := 0, scratch := 0 }, range := 0, taken := 0, items := [],
    nextOrd := 0, closed := false, closing := [], exact := false }

/-- `s` with an instruction placed so that the next step issues it: the launch under way that the wave belongs to, the page
table and the word in memory, the packet in the core's instruction cache, and every unit ready. -/
def State.withFetchWord (s : State) (nbits w : Nat) : State :=
  let b : Word := BitVec.ofNat 32 (w % 2 ^ nbits)
  let pk := leBytes b.toNat 4 ++ List.replicate 8 0
  let blk : IBlock := { core := 0, ctx := 0, va := State.fetchVa, bytes := pk }
  let sup := (privCause Wave.init (opOf b) (Sys2Proof.nbits b.toNat 4 12)).isSome
  { s with
    w := s.fetchWave sup, nextUid := s.nextUid + 1, order := [s.nextUid], ctxs := [State.fetchCtx],
    launches := [State.fetchLaunch], cords := [State.fetchCord], icache := [blk], ready := 0xCFFF0FFF,
    mem := tsetRun (tsetRun (tsetRun s.mem 0 (leBytes 0x2001 8)) 0x2000 (leBytes 0x47 8)) State.fetchVa (leBytes b.toNat 4) }

end Sys2Proof.Machine
end

