-- ==== Sys2Proof/Safety.lean ====
section
/-!
DEFINITION. What the claims are about: the words in which they are said.
-/
namespace Sys2Proof.Machine

/-- A step from the state goes on: it is no fault and no refusal. -/
def State.goesOn (s : State) : Prop := ∃ t, step s = .next t

/-- Memory is in its canonical form: addresses strictly rising, and no byte listed that is zero. -/
def Memory.wf (m : Table 8) : Bool := twf m

/-- The instruction completes: `exec` answers a next state, of which `P` holds. -/
def Answers (i : Instr) (s : State) (P : State → Prop) : Prop := ∃ t, exec i s = .next t ∧ P t

/-- Every byte of memory reads as before: device and host memory by physical address with the keys they are held under,
the scratchpads, and what surrogate tiles bank. -/
def SameMemory (s t : State) : Prop :=
  (∀ pa, tget t.mem pa = tget s.mem pa) ∧ (∀ pa, tget t.sectorKey pa = tget s.sectorKey pa) ∧ t.resvs = s.resvs ∧
    t.tiles = s.tiles

/-! ### Vector words -/

/-- What a vector word leaves in lr0 and lr1 of an EXEC slot (R37): one result moves lr0 to lr1, and of several the first
two are held. -/
def lrAfter (w : Wave) (vs : List Word) (slot : Nat) (r : BitVec 7) : Option Word :=
  match vs with
  | [] => none
  | [x] => if r = 0x68 then some x else if r = 0x69 then some (vRead w 0x68 slot) else none
  | x :: y :: _ => if r = 0x68 then some x else if r = 0x69 then some y else none

/-- What a vector word leaves in the per-thread register `r` of a slot: an EXEC slot takes its results in consecutive
registers from `d`, and in the last-result queue when `lr`; every other register keeps its value. -/
def vecNew (s : State) (lr : Bool) (d : BitVec 7) (vals : Nat → List Word) (r : BitVec 7) (slot : Nat) : Word :=
  if slot ∈ s.rd.slots then
    if d.toNat ≤ r.toNat ∧ r.toNat < d.toNat + (vals slot).length then (vals slot).getD (r.toNat - d.toNat) 0
    else ((if lr then lrAfter s.w (vals slot) slot r else none).getD (vRead s.w r slot))
  else vRead s.w r slot

/-- The per-thread registers after a vector word: v0 to v95, o0 to o7, lr0 and lr1 of every slot, and the other mode's
copies of o4 to o7 (R370) as they were. -/
def VecRegs (s t : State) (lr : Bool) (d : BitVec 7) (vals : Nat → List Word) : Prop :=
  (∀ r slot, r.toNat < 0x6A → slot < 128 → vRead t.w r slot = vecNew s lr d vals r slot) ∧
  (∀ r slot, 0x64 ≤ r.toNat → r.toNat < 0x68 → slot < 128 →
    vRead { t.w with supervisor := !s.w.supervisor } r slot = vRead { s.w with supervisor := !s.w.supervisor } r slot)

/-- What a vector word leaves as it was: all but the per-thread registers, the scoreboard, PC, which goes to the next word,
FPSR, and the pipe it holds. -/
def VecFrame (s t : State) (fpsr grp : Word) : Prop :=
  t = { s with
    w := { s.w with v := t.w.v, o := t.w.o, lr0 := t.w.lr0, lr1 := t.w.lr1, marks := t.w.marks, fpsr := fpsr, pc := s.w.pc + 4 },
    pipes := t.pipes, grpFlags := grp } ∧ SameMemory s t

/-- The effect of a vector word on one pipe: `n` results for each EXEC slot go to consecutive registers from `d`, marked in
every pass, the pipe is held for the passes after the first, and nothing else changes. -/
def VecEffect (s t : State) (p : Pipe) (d : BitVec 7) (n : Nat) (vals : Nat → List Word) : Prop :=
  VecRegs s t (decide (p = .valu)) d vals ∧ VecFrame s t s.w.fpsr s.grpFlags ∧
    t.w.marks = s.w.marks ++ vecMarks s.w d n (decide (p = .valu)) ∧ t.pipes = (occupy s p (s.w.width / 32)).pipes

/-- A vector word completes with these results, whatever the state, for every destination that can be written (R36). -/
def VecWord (i : Instr) (s : State) (p : Pipe) (d : BitVec 7) (n : Nat) (vals : Nat → List Word) : Prop :=
  d.toNat + n ≤ 0x68 → Answers i s fun t => VecEffect s t p d n vals

/-- The effect of a floating-point or conversion word: a vector word's, FPSR takes the flags raised in any EXEC slot, also
for a later word of the group that writes FPSR, and carries a mark (R119). -/
def FpEffect (s t : State) (p : Pipe) (d : BitVec 7) (n : Nat) (vals : Nat → List Word) (flags : Nat) : Prop :=
  VecRegs s t (decide (p = .valu)) d vals ∧
    VecFrame s t (s.w.fpsr ||| BitVec.ofNat 32 flags) (s.grpFlags ||| BitVec.ofNat 32 flags) ∧
    t.w.marks = s.w.marks ++ vecMarks s.w d n (decide (p = .valu)) ++ [{ reg := .fpsr, pass := none, op := none }] ∧
    t.pipes = (occupy s p (s.w.width / 32)).pipes

/-- A floating-point word whose result in a slot is a code of one register, or of a pair when `wide`, with its flags. -/
def FpWord (i : Instr) (s : State) (p : Pipe) (wide : Bool) (d : BitVec 7) (r : Nat → Nat × Nat) : Prop :=
  d.toNat + (if wide then 2 else 1) ≤ 0x68 → Answers i s fun t =>
    FpEffect s t p d (if wide then 2 else 1)
      (fun k => if wide then [lo32 (BitVec.ofNat 64 (r k).1), hi32 (BitVec.ofNat 64 (r k).1)] else [BitVec.ofNat 32 (r k).1])
      (slotFlags s r)

/-! ### Wave words -/

/-- The s registers after a word that writes consecutive ones from `d`: those hold the values, every other keeps its own, and
so do the other mode's copies of s48 to s63 (R370). -/
def SRegs (s t : State) (d : Nat) (vs : List Word) : Prop :=
  (∀ n, n < 64 → sReg t.w n = if d ≤ n ∧ n < d + vs.length then vs.getD (n - d) 0 else sReg s.w n) ∧
  (∀ n, 48 ≤ n → n < 64 →
    sReg { t.w with supervisor := !s.w.supervisor } n = sReg { s.w with supervisor := !s.w.supervisor } n)

/-- What a wave word leaves as it was: all but the s registers, EXEC, FPCR and FPSR, the scoreboard, and PC, which goes to the
next word. -/
def WaveFrame (s t : State) : Prop :=
  t = { s with w := { s.w with s := t.w.s, exec := t.w.exec, fpcr := t.w.fpcr, fpsr := t.w.fpsr, marks := t.w.marks,
                               pc := s.w.pc + 4 } } ∧ SameMemory s t

/-- The effect of a wave word that writes the value `v` to the wave selector `d` (R38): s0 to s63; a word of EXEC, ANDed
with LIVE and discarded at or beyond WIDTH/32; FPCR and FPSR without their reserved bits, FPSR with the flags that its own
group raises (R119). -/
def WaveEffect (s t : State) (d : BitVec 7) (v : Word) : Prop :=
  WaveFrame s t ∧ t.w.marks = s.w.marks ++ sMarks s.w d.toNat 1 none ∧
    SRegs s t d.toNat (if d.toNat < 0x40 then [v] else []) ∧
    (∀ k, k < 4 → maskWord t.w.exec k =
      if d.toNat = 0x40 + k ∧ 32 * k < s.w.width then v &&& maskWord s.w.live k else maskWord s.w.exec k) ∧
    t.w.fpcr = (if d.toNat = 0x56 then v &&& 3 else s.w.fpcr) ∧
    t.w.fpsr = (if d.toNat = 0x57 then (v &&& 0x3F) ||| s.grpFlags else s.w.fpsr)

/-- A wave word completes with this value at its destination. -/
def WaveWord (i : Instr) (s : State) (d : BitVec 7) (v : Word) : Prop := Answers i s fun t => WaveEffect s t d v

/-- A wave word with a pair result completes: s[d] takes the low word, s[d+1] the high one, nothing else changes. -/
def WaveWord64 (i : Instr) (s : State) (d : BitVec 7) (v : DWord) : Prop :=
  d.toNat + 2 ≤ 0x40 → Answers i s fun t =>
    WaveFrame s t ∧ t.w.marks = s.w.marks ++ sMarks s.w d.toNat 2 none ∧ SRegs s t d.toNat [lo32 v, hi32 v] ∧
      t.w.exec = s.w.exec ∧ t.w.fpcr = s.w.fpcr ∧ t.w.fpsr = s.w.fpsr

/-! ### Masks and predicates -/

/-- The effect of a vector word that writes a wave mask (R77): to the s registers from `d`, or at selector 0x40 to EXEC,
ANDed with LIVE; the bit of a slot is set only where EXEC holds it and `f` does; FPSR takes the flags `fl`; nothing else
changes. -/
def MaskEffect (s t : State) (p : Pipe) (d : BitVec 7) (f : Nat → Bool) (fl : Nat) : Prop :=
  t = { s with
    w := { s.w with s := t.w.s, exec := t.w.exec, marks := t.w.marks, fpsr := s.w.fpsr ||| BitVec.ofNat 32 fl, pc := s.w.pc + 4 },
    pipes := t.pipes, grpFlags := s.grpFlags ||| BitVec.ofNat 32 fl } ∧
    SameMemory s t ∧ t.pipes = (occupy s p (s.w.width / 32)).pipes ∧
    (if d = 0x40 then
      SRegs s t 0 [] ∧ ∀ i, t.w.exec.getLsbD i =
        if i < s.w.width then s.rd.exec.getLsbD i && f i && s.w.live.getLsbD i else s.w.exec.getLsbD i
     else
      t.w.exec = s.w.exec ∧ ∃ m : Mask, SRegs s t d.toNat ((List.range (s.w.width / 32)).map (maskWord m)) ∧
        ∀ i, m.getLsbD i = (decide (i < s.w.width) && s.rd.exec.getLsbD i && f i))

/-- A vector word that writes a wave mask completes, for a wave of a width the spec gives (R75) and every destination that
a mask may have: s registers from an aligned one on, or EXEC. -/
def MaskWord (i : Instr) (s : State) (p : Pipe) (d : BitVec 7) (f : Nat → Bool) (fl : Nat) : Prop :=
  s.w.width = 32 ∨ s.w.width = 64 ∨ s.w.width = 128 → d = 0x40 ∨ d.toNat + s.w.width / 32 ≤ 0x40 →
    Answers i s fun t => MaskEffect s t p d f fl

/-- A word that writes a wave predicate completes: q[n] holds the value, every other predicate and the other mode's q7 keep
theirs (R370), and nothing else changes. -/
def PredWord (i : Instr) (s : State) (p : Pipe) (passes n : Nat) (b : Bool) : Prop :=
  n < 8 → Answers i s fun t =>
    t = { s with w := { s.w with q := t.w.q, marks := t.w.marks, pc := s.w.pc + 4 }, pipes := t.pipes } ∧ SameMemory s t ∧
      t.pipes = (occupy s p passes).pipes ∧
      t.w.marks = s.w.marks ++ [{ reg := .q (qIdx s.w n), pass := none, op := none }] ∧
      (∀ k, k < 8 → qRead t.w k = if k = n then b else qRead s.w k) ∧
      qRead { t.w with supervisor := !s.w.supervisor } 7 = qRead { s.w with supervisor := !s.w.supervisor } 7

/-- A reduction or another word on VALU that writes s registers from `d` completes (R168): those take the values, FPSR the
flags (and a mark, when `fp`), and nothing else changes: no per-thread register, lr0 or lr1. -/
def ReduceWord (i : Instr) (s : State) (fp : Bool) (d : Nat) (vs : List Word) (fl : Nat) : Prop :=
  d + vs.length ≤ 0x40 → Answers i s fun t =>
    t = { s with
      w := { s.w with s := t.w.s, marks := t.w.marks, fpsr := s.w.fpsr ||| BitVec.ofNat 32 fl, pc := s.w.pc + 4 },
      pipes := t.pipes, grpFlags := s.grpFlags ||| BitVec.ofNat 32 fl } ∧ SameMemory s t ∧
    SRegs s t d vs ∧ t.pipes = (occupy s .valu (s.w.width / 32)).pipes ∧
    t.w.marks = s.w.marks ++ sMarks s.w d vs.length none ++ (if fp then [{ reg := .fpsr, pass := none, op := none }] else [])

/-! ### Memory words -/

/-- What a memory word issues when no slot's check fails (R202, R215): one operation in flight with its accesses, its flag
counts one more, its destinations are marked, PC goes on. Memory, the per-thread and the s registers, and everything but the
translation caches, the L1 and what walks touch of the L2 keep their values. -/
def MemIssue (s t : State) (m : MemW) (accs : List Acc) (passes : Nat) : Prop :=
  t = { s with
    w := { s.w with flags := (flagInc s.w m.flag).flags, marks := s.w.marks ++ destMarks s.w m.dest s.nextOp, pc := s.w.pc + 4 },
    nextOp := s.nextOp + 1, tlb := t.tlb, lanes := t.lanes, freeN := t.freeN, l1 := t.l1, l2 := t.l2, fills := t.fills,
    misses := t.misses, wbacks := t.wbacks, turns := t.turns,
    pipes := (occupy s .vmem passes).pipes,
    memOps := s.memOps ++ [
      { id := s.nextOp, wave := s.w.uid, launch := s.w.launch, core := coreOf s.w.quad, quad := s.w.quad, ctx := s.w.ctx,
        kind := m.kind, size := m.ask.n, seq := s.nextOp, dest := m.dest, q := m.q, sc := m.sc, hint := m.hint, l1 := m.l1,
        flag := m.flag, entries := entriesOf m (s.w.width / 32), accs := accs, backoff := 0, token := s.w.token,
        sup := s.w.supervisor, fwd := !s.w.scSys, unsent := false }] } ∧ SameMemory s t

/-- A memory word completes when its slots' addresses, formed by `ptr`, pass the checks of R202. -/
def MemWord (i : Instr) (s : State) (m : MemW) (ptr : Nat → DWord) (data : Nat → List Byte) (agent : Nat → Nat)
    (slots : List Nat) (passes bump : Nat) : Prop :=
  s.rd.replay = false → ∀ s1 accs,
    memSlots m ptr data (fun k => k % 32) agent s.rd slots { s with freeN := s.freeN + bump } = (s1, accs, []) →
    Answers i s fun t => MemIssue s t m accs passes

/-- The operation `op` is in flight and its access `i` is `a`. -/
def HasAcc (s : State) (op i : Nat) (o : MemOp) (a : Acc) : Prop :=
  s.memOps.find? (fun x => x.id == op) = some o ∧ o.accs[i]? = some a

/-! ### Control and traps -/

/-- The issuing wave changed, and nothing else. -/
def State.withW (s : State) (w : Wave) : State := { s with w := w }

/-- The address after the packet of an address (R81). -/
def afterPkt (pc : DWord) : DWord := BitVec.ofNat 64 (pc.toNat - pc.toNat % 12 + 12)

/-- A transfer of the issuing wave may land at an address (R34). -/
def MayLand (s : State) (t : DWord) : Prop := badTarget s (coreOf s.w.quad) s.w.ctx t = false

/-- HENTRY of the issuing wave's context is `h`, the address of a packet whose word 0 is a clause header (R366). -/
def HandlerAt (s : State) (h : DWord) : Prop :=
  ∃ c x, s.ctxOf s.w.ctx = some c ∧ c.hentry = h ∧ codeWord s (coreOf s.w.quad) s.w.ctx h = some x ∧ isHeader x = true ∧
    h.toNat % 12 = 0

/-- The state of the handler's first instruction (R369): FMASK, FPC, UEXEC, HCTL.ACT = `act`, the fault frame, lr0 and lr1
zero, EXEC the faulters, supervisor mode, PC at HENTRY; in each faulter the supervisor o4 to o7 hold FVA, FCAUSE and FINFO; nothing
else changes: no user register, no other wave, no byte of memory. -/
def EntersHandler (s t : State) (tr : Trap) (act : Nat) (h : DWord) : Prop :=
  t = { s with w := { s.w with
    fmask := tr.mask, fpc := tr.fpc, uexec := if s.w.replay then s.w.uexec else s.w.exec, hctl := BitVec.ofNat 32 act,
    frame := { lr0 := s.w.lr0, lr1 := s.w.lr1, fpcr := s.w.fpcr, fpsr := s.w.fpsr, seta := s.w.seta, setb := s.w.setb, trap := tr,
               cap := s.w.frame.cap },
    lr0 := [], lr1 := [], exec := tr.mask, supervisor := true, pc := h, trap := none, replay := false, o := t.w.o } } ∧
  (∀ f, f ∈ tr.faults →
    vRead t.w 0x64 f.slot = lo32 f.va ∧ vRead t.w 0x65 f.slot = hi32 f.va ∧ vRead t.w 0x66 f.slot = f.cause ∧
      vRead t.w 0x67 f.slot = finfo tr.faults f) ∧
  (∀ r k, 0x64 ≤ r.toNat → r.toNat < 0x68 → k < 128 → (∀ f ∈ tr.faults, f.slot ≠ k) →
    vRead t.w r k = vRead { s.w with supervisor := true } r k) ∧
  (∀ r k, 0x60 ≤ r.toNat → r.toNat < 0x68 → k < 128 → vRead { t.w with supervisor := false } r k =
    vRead { s.w with supervisor := false } r k)

/-- A layout word completes: its layout register takes the result, every other keeps its layout, and nothing else changes; or it
raises the layout trap with its cause (R181). -/
def LayWord (i : Instr) (s : State) (d : Nat) (r : Except Nat Layout) : Prop :=
  (∀ l, r = .ok l → Answers i s fun t =>
    t = { s with w := { s.w with
      lays := t.w.lays, marks := s.w.marks ++ [{ reg := .lay d, pass := none, op := none }], pc := s.w.pc + 4 } } ∧
    SameMemory s t ∧ ∀ n, n < 16 → layOf t.w n = if n = d then l else layOf s.w n) ∧
  (∀ c, r = .error c → exec i s = .next (trapNow s 8 c))

/-! ### Engine words -/

/-- What a word that validates its pairs leaves in TRCOST and BCD (R198). -/
def State.costed (s : State) (v : Verdict) : State :=
  s.withW { s.w with
    trcost := BitVec.ofNat 32 (v.why * 2 ^ 24 + v.cost * 2 ^ 8 + v.port * 4 + v.verd), bcd := BitVec.ofNat 32 v.bcd }

/-- The end of a word with two pairs and a parameter block (R190, R252): a rejected pair is the layout trap, or the unit-absent
trap; a bad parameter is the engine trap with its cause; otherwise the operation `op` is handed over: its flag counts one more, the
registers of a register-space destination are marked, PC goes on, and nothing else changes. -/
def EngWord (i : Instr) (s : State) (v : Verdict) (r : State → Except Nat EngOp) : Prop :=
  let s1 := s.costed v
  (v.verd = 2 → v.absent = true → exec i s = .next (trapNow s1 2 0)) ∧
  (v.verd = 2 → v.absent = false → exec i s = .next (trapNow s1 8 v.cause)) ∧
  (∀ c, v.verd ≠ 2 → r s1 = .error c → exec i s = .next (trapNow s1 9 c)) ∧
  (∀ op, v.verd ≠ 2 → r s1 = .ok op → Answers i s fun t => SameMemory s t ∧
    t = { s1 with
      w := { s1.w with
        flags := (flagInc s.w op.flag).flags, engFlags := (markEng s.w op.flag).engFlags, pc := s.w.pc + 4,
        marks := s.w.marks ++ (if hSpace op.hd = 0 then
          (List.range ((hBound op.hd + 4 * s.w.width - 1) / (4 * s.w.width))).map fun k =>
            { reg := .v (hBase op.hd + k), pass := none, op := some op.id } else []) }
      nextOp := s.nextOp + 1, engOps := s.engOps ++ [op] })

/-- What every new engine operation holds (R181, R251, R253): its wave and core, copies of its layouts and handle entries, the tag
of its object, the flag it will let fall, and no progress: all its units are left. -/
def NewEngOp (s : State) (op : EngOp) (kind : EngKind) (ld la : BitVec 4) (obj : Option (Nat × Nat)) (fs : Bool) (rel : BitVec 2) :
    Prop :=
  op.id = s.nextOp ∧ op.seq = s.nextOp ∧ op.wave = s.w.uid ∧ op.launch = s.w.launch ∧ op.ctx = s.w.ctx ∧
  op.core = s.w.quad / 4 ∧ op.engine = s.w.quad / 8 ∧ op.kind = kind ∧ op.ld = layOf s.rd ld.toNat ∧ op.la = layOf s.rd la.toNat ∧
  op.hd = handleOf s s.w.ctx op.ld ∧ op.ha = handleOf s s.w.ctx op.la ∧ op.obj = obj ∧
  op.tag = (match obj with | some (c, p) => (objOf (posRead s c p)).phase | none => 0) ∧ op.flag = flagSel s.w fs ∧
  op.rel = rel.toNat ∧ op.token = s.w.token ∧ op.started = false ∧ op.next = 0 ∧ op.stat = 0 ∧ op.slot = none ∧ op.joined = false ∧
  op.left = List.range op.total ∧ op.fwd = !s.w.scSys ∧ op.lost = false

/-- An object or ring word that is sent to its position (R258): an operation on its way, its flag counting one more, nothing
else. -/
def ObjSent (i : Instr) (s : State) (pos : Nat × Nat) (kind : ObjKind) (fs : Bool) : Prop :=
  exec i s = .next { s with
    w := { s.w with flags := (flagInc s.w (flagSel s.w fs)).flags, pc := s.w.pc + 4 }
    nextOp := s.nextOp + 1
    objOps := s.objOps ++ [{ wave := s.w.uid, quad := s.w.quad, engine := none, launch := s.w.launch, core := pos.1, off := pos.2,
                             kind := kind, flag := flagSel s.w fs, seq := s.nextOp }] }

/-- A word that waits at a position for a result (R262, R272): its register is marked, and its wave issues no VMEM or XENG word
before the result; one that asks for a ring's slot is the last in the order of asking (R292). -/
def WaitSent (i : Instr) (s : State) (pos : Nat × Nat) (kind : WaitKind) (phase dest : Nat) (fl : Option Nat) (b : Blocked) : Prop :=
  exec i s = .next { s with
    w := { s.w with
      flags := (flagInc s.w fl).flags, marks := s.w.marks ++ sMarks s.w dest 1 (some s.nextOp), blocked := b,
      blockArg := s.w.pc.toNat, pc := s.w.pc + 4 }
    nextOp := s.nextOp + 1
    asks := if kind = .rbpop then s.asks ++ [{ core := pos.1, pos := pos.2, op := s.nextOp, isB := false }] else s.asks
    objWaits := s.objWaits ++ [{ wave := s.w.uid, launch := s.w.launch, core := pos.1, off := pos.2, kind := kind, phase := phase,
                                 dest := dest, flag := fl, seq := s.nextOp }] }

/-- The answer to a word that waited for its result: consecutive s registers from `d`, of the user's or the supervisor's bank, take
the values, the word's marks clear and its flag counts one less; nothing else of the wave changes. -/
def SAnswered (w w2 : Wave) (sup : Bool) (d : Nat) (vs : List Word) (fl : Option Nat) (seq : Nat) : Prop :=
  w2 = { w with s := w2.s, flags := (flagDec w fl).flags, marks := w.marks.filter fun k => decide (k.op ≠ some seq) } ∧
  (∀ n, n < 64 → sReg { w2 with supervisor := sup } n =
    if d ≤ n ∧ n < d + vs.length then vs.getD (n - d) 0 else sReg { w with supervisor := sup } n) ∧
  ∀ n, 48 ≤ n → n < 64 → sReg { w2 with supervisor := !sup } n = sReg { w with supervisor := !sup } n

/-- Two pairs validated in order: the verdict that is written (R190). -/
def worstOf (a b : Verdict) : Verdict :=
  if a.verd = 2 then a
  else
    let pick := if a.verd < b.verd then b else if b.verd < a.verd then a
      else if a.cost < b.cost then b else if b.cost < a.cost then a else if b.port < a.port then b else a
    { pick with cost := max a.cost b.cost, bcd := max a.bcd b.bcd }

/-- The sixteen bytes at a position hold the object `o`, and the launch's other bytes on that core, and every other reservation, are
as they were, but for which positions are objects. -/
def PosFrame (s t : State) (core off : Nat) : Prop :=
  (∀ pa, tget t.mem pa = tget s.mem pa) ∧ (∀ pa, tget t.sectorKey pa = tget s.sectorKey pa) ∧ t.tiles = s.tiles ∧
  t.resvs.length = s.resvs.length ∧
  ∀ (i : Nat) (a b : Resv), s.resvs[i]? = some a → t.resvs[i]? = some b →
    b.launch = a.launch ∧ b.core = a.core ∧ b.base = a.base ∧ b.size = a.size ∧
    (a.core ≠ core → b = a) ∧
    (∀ x, a.base + x < off ∨ off + 16 ≤ a.base + x → tget b.mem x = tget a.mem x)

/-! ### Launches and commands -/

/-- A launch accepted from the record `bs` and the templates `ts` (R334 to R336): a launch under a new identifier with the record's
fields, and its main cord under a number that was free, Open or Closed as the record says, with the range. A guarded-surrogate launch
starts with no tile, and has its exact cord, Open and empty, from template XT. -/
def LaunchTaken (s t : State) (ts : List (DWord × Nat)) (id ctx : Nat) (queue : Option Nat) (bs : List Byte) (prio : Nat) : Prop :=
  let ctrl := recAt bs 0x18 8
  let plan := planOf (recAt bs 0x08 8)
  let range := recAt bs 0x10 8 % 2 ^ 48
  let sg := ctrl / 2 ^ 3 % 2 = 1
  (∀ l ∈ s.launches, l.id ≠ id) ∧ ∃ l c, t.launches = s.launches ++ [l] ∧
    (c.num < 512 ∧ ∀ x ∈ s.cords, x.num ≠ c.num) ∧
    (¬ sg → t.cords = s.cords ++ [c] ∧ l.exactCord = none) ∧
    (sg → ∃ x e p, ts[ctrl / 2 ^ 24 % 2 ^ 3]? = some (e, p) ∧ t.cords = s.cords ++ [c, x] ∧ l.exactCord = some x.num ∧
      (x.num < 512 ∧ x.num ≠ c.num ∧ ∀ y ∈ s.cords, y.num ≠ x.num) ∧
      x = { num := x.num, ctx := ctx, launch := id, entry := e, plan := planOf p, range := 0, taken := 0, items := [], nextOrd := 0,
            closed := false, closing := [], exact := true }) ∧
    c = { num := c.num, ctx := ctx, launch := id, entry := BitVec.ofNat 64 (recAt bs 0 8), plan := plan, range := range, taken := 0,
          items := [], nextOrd := range, closed := decide (ctrl / 2 ^ 4 % 2 = 0), closing := [], exact := false } ∧
    l.id = id ∧ l.ctx = ctx ∧ l.queue = queue ∧ l.prio = prio ∧ l.main = c.num ∧ l.sg = decide sg ∧
    l.tol = BitVec.ofNat 64 (recAt bs 0x38 8) ∧ l.budget = ctrl / 2 ^ 28 % 2 ^ 9 ∧ l.titems = ctrl / 2 ^ 37 % 2 ^ 15 ∧
    l.templates = ts.map (fun x => (x.1, planOf x.2)) ∧ l.tileNext = 0 ∧ l.tileDone = 0 ∧ l.rerun = [] ∧ l.exactDue = [] ∧
    l.roles = BitVec.ofNat 64 (recAt bs 0x20 8) ∧ l.rper = ctrl / 2 ^ 16 % 2 ^ 3 ∧ l.gang = ctrl / 2 ^ 8 % 2 ^ 8 ∧
    l.gscope = ctrl / 2 ^ 6 % 2 ^ 2 ∧ l.argt = (List.range 16).map (fun i => BitVec.ofNat 32 (recAt bs (0x40 + 4 * i) 4)) ∧
    l.scratch = plan.scratch ∧ l.done = BitVec.ofNat 64 (recAt bs 0x30 8) ∧
    l.irq = (decide (ctrl / 2 ^ 63 % 2 = 1) && queue.isSome) ∧ l.vec = ctrl / 2 ^ 52 % 2 ^ 11 ∧ l.range = range ∧ l.made = 0 ∧
    l.stkskip = 0 ∧ l.sgpass = 0 ∧ l.sgfail = 0 ∧ l.ending = none ∧ l.since = none ∧ l.sinceX = none ∧ l.sinceG = none

/-- Bytes have been written to device memory under a key (R211): a reader under that key finds them in place and every other byte as
it was; in other sectors no reader under any key finds a change. -/
def WroteBytes (s t : State) (key pa : Nat) (bs : List Byte) : Prop :=
  (∀ a, devByte t key a = if pa ≤ a ∧ a < pa + bs.length then bs.getD (a - pa) 0 else devByte s key a) ∧
  ∀ k a, a / 64 < pa / 64 ∨ (pa + bs.length - 1) / 64 < a / 64 → devByte t k a = devByte s k a

/-- The message of a vector has been sent, or, where its entry of the MSI-X table is masked, is pending (R391, R392). -/
def MsiSent (s t : State) (vec : Nat) : Prop :=
  ((tget s.msix vec).getLsbD 96 = false → Report.msi vec ∈ t.reports) ∧ ((tget s.msix vec).getLsbD 96 = true → tget t.pba vec = 1)

/-- A command has ended (R396, R398): its record's last 8 bytes hold RESULT and VALUE, HEAD has passed it, the other ring is next,
and all else is as the command left it in `u`. -/
def CmdEnds (u t : State) (port : Nat) (r : Ring) (res val : Nat) : Prop :=
  let pa := ringPlace r + 0x38
  t = { u with mem := t.mem, sectorKey := t.sectorKey, poison := t.poison, l2 := t.l2, fills := t.fills, wbacks := t.wbacks,
               misses := t.misses, turns := t.turns, rings := t.rings, nextRing := 1 - port } ∧
  WroteBytes u t 0 pa (leBytes res 4 ++ leBytes val 4) ∧
  t.rings[port]? = some { r with head := BitVec.ofNat 32 ((r.head.toNat + 1) % r.count) } ∧
  ∀ p, p ≠ port → t.rings[p]? = u.rings[p]?

/-- It is the turn of a port's ring `r` (R396), and its next record, in device memory, is `bs`. -/
def CmdTurn (s : State) (port : Nat) (r : Ring) (bs : List Byte) : Prop :=
  turnPort s = some port ∧ s.rings[port]? = some r ∧ bs = devBytes s 0 (ringPlace r) 64

/-- The bytes of a record that hold no operand are zero, but for CODE, TAG, RESULT and VALUE (R398). -/
def CmdClean (bs : List Byte) (fields : List (Nat × Nat)) : Prop :=
  ∀ i, 2 ≤ i → i < 56 → ¬ (4 ≤ i ∧ i < 8) → (∀ f ∈ fields, ¬ (f.1 ≤ i ∧ i < f.1 + f.2)) → recAt bs i 1 = 0

/-- A command completes with a result and a value, having left the state `u`. -/
def CmdDoes (i : Instr) (s : State) (port : Nat) (r : Ring) (res val : Nat) (u : State) : Prop :=
  Answers i s fun t => CmdEnds u t port r res val

/-- A launch contained (R390, R406): terminated with END `code`, unless it has ended already. -/
def State.ended (s : State) (launch code : Nat) : State :=
  { s with launches := s.launches.map fun l => if l.id = launch then { l with ending := some (l.ending.getD code) } else l }

/-- A phase that ends when its expectation is met or passed (R259). -/
def Obj.settle (o : Obj) : Obj :=
  let ends := fun (ovf : Nat) =>
    { o with lstat := o.stat + ovf * 128, phase := (o.phase + 1) % 65536, bal := 0, arr := (o.exp : Int), ep := false, stat := 0 }
  if o.ep = true ∧ (o.bal < 0 ∨ o.arr < 0) then ends 1
  else if o.ep = true ∧ o.bal = 0 ∧ o.arr = 0 then ends 0
  else o

/-! ### Exact values -/

/-- The exact value of a finite number; 0 for an infinity or a NaN. -/
def FVal.rat : FVal → ℚ
  | .fin n m e => (if n then -1 else 1) * (m : ℚ) * (2 : ℚ) ^ e
  | _ => 0

/-- The value is finite. -/
def FVal.isFin : FVal → Bool
  | .fin _ _ _ => true
  | _ => false

/-- The weight of the last place of a format at a nonzero magnitude `m · 2^e` (the ulp of "Approximate and special
functions"). -/
def unitAt (f : Fmt) (m : Nat) (e : Int) : ℚ := (2 : ℚ) ^ (max ((Nat.log2 m : Int) + e) f.emin - (f.prec : Int) + 1)

/-! ### The integer functions in the spec's words (R105 to R111)

Exact integers, reduced at the end: `wrap32` and `wrap64` are `BitVec.ofNat` and `BitVec.ofInt`; `sext` is `toInt` and `zext` is
`toNat`. -/

namespace Spec

/-- wrap(a + b). -/
def add {n : Nat} (a b : BitVec n) : BitVec n := BitVec.ofNat n (a.toNat + b.toNat)
/-- wrap(a − b). -/
def sub {n : Nat} (a b : BitVec n) : BitVec n := BitVec.ofInt n ((a.toNat : Int) - (b.toNat : Int))
/-- wrap(a · b). -/
def mulLo {n : Nat} (a b : BitVec n) : BitVec n := BitVec.ofNat n (a.toNat * b.toNat)
/-- Bits 63 to 32 of the signed product. -/
def mulHiS (a b : Word) : Word := BitVec.ofInt 32 (a.toInt * b.toInt / 2 ^ 32)
/-- Bits 63 to 32 of the unsigned product. -/
def mulHiU (a b : Word) : Word := BitVec.ofNat 32 (a.toNat * b.toNat / 2 ^ 32)
/-- The signed product on 64 bits. -/
def mulWideS (a b : Word) : DWord := BitVec.ofInt 64 (a.toInt * b.toInt)
/-- The unsigned product on 64 bits. -/
def mulWideU (a b : Word) : DWord := BitVec.ofNat 64 (a.toNat * b.toNat)
/-- wrap(a · b + d). -/
def mad (d a b : Word) : Word := BitVec.ofNat 32 (a.toNat * b.toNat + d.toNat)
/-- The smaller signed value. -/
def minS {n : Nat} (a b : BitVec n) : BitVec n := if a.toInt ≤ b.toInt then a else b
/-- The larger signed value. -/
def maxS {n : Nat} (a b : BitVec n) : BitVec n := if a.toInt ≤ b.toInt then b else a
/-- The smaller unsigned value. -/
def minU {n : Nat} (a b : BitVec n) : BitVec n := if a.toNat ≤ b.toNat then a else b
/-- The larger unsigned value. -/
def maxU {n : Nat} (a b : BitVec n) : BitVec n := if a.toNat ≤ b.toNat then b else a
/-- wrap(abs(sext a)). -/
def abs {n : Nat} (a : BitVec n) : BitVec n := BitVec.ofInt n a.toInt.natAbs
/-- Each 1 bit of d takes a's bit, each 0 bit takes b's. -/
def sel (d a b : Word) : Word := (a &&& d) ||| (b &&& ~~~d)
/-- The number of 1 bits. -/
def popc (a : Word) : Word := BitVec.ofNat 32 ((List.range 32).filter fun i => a.getLsbD i).length
/-- The number of leading 0 bits, counted from bit 31. -/
def clz (a : Word) : Word := BitVec.ofNat 32 ((List.range 32).takeWhile fun i => !a.getLsbD (31 - i)).length
/-- Bit i of the result is bit 31 − i of a. -/
def brev (a : Word) : Word := BitVec.ofNat 32 (((List.range 32).map fun i => bitOf (a.getLsbD (31 - i)) * 2 ^ i).sum)
/-- SHL with a count of the width or more giving 0. -/
def shl {n : Nat} (a : BitVec n) (c : Word) : BitVec n := if n ≤ c.toNat then 0 else BitVec.ofNat n (a.toNat * 2 ^ c.toNat)
/-- SHR with a count of the width or more giving 0. -/
def shr {n : Nat} (a : BitVec n) (c : Word) : BitVec n := if n ≤ c.toNat then 0 else BitVec.ofNat n (a.toNat / 2 ^ c.toNat)
/-- SAR: floor(sext a / 2^c), a count of the width or more counting as the width less one. -/
def sar {n : Nat} (a : BitVec n) (c : Word) : BitVec n := BitVec.ofInt n (a.toInt / 2 ^ min c.toNat (n - 1))
/-- ROT: left rotate by c mod 32. -/
def rot (a c : Word) : Word :=
  BitVec.ofNat 32 (a.toNat * 2 ^ (c.toNat % 32)) ||| BitVec.ofNat 32 (a.toNat / 2 ^ (32 - c.toNat % 32))
/-- The position of a field control: bits 4 to 0. -/
def pos (c : Word) : Nat := c.toNat % 32
/-- The width of a field control: bits 13 to 8, cut at bit 31. -/
def wid (c : Word) : Nat := min (c.toNat / 2 ^ 8 % 64) (32 - pos c)
/-- BFE.n32. -/
def bfeU (a c : Word) : Word := BitVec.ofNat 32 (a.toNat / 2 ^ pos c % 2 ^ wid c)
/-- BFE.i32. -/
def bfeS (a c : Word) : Word :=
  if wid c = 0 then 0
  else if a.toNat / 2 ^ pos c % 2 ^ wid c < 2 ^ (wid c - 1) then bfeU a c
  else BitVec.ofInt 32 (((a.toNat / 2 ^ pos c % 2 ^ wid c : Nat) : Int) - 2 ^ wid c)
/-- BFI. -/
def bfi (d a c : Word) : Word :=
  (d &&& ~~~(BitVec.ofNat 32 ((2 ^ wid c - 1) * 2 ^ pos c))) |||
    (BitVec.ofNat 32 (a.toNat * 2 ^ pos c) &&& BitVec.ofNat 32 ((2 ^ wid c - 1) * 2 ^ pos c))
/-- LEA: wrap64(a + sext b · 2^k). -/
def lea (k : Nat) (a : DWord) (b : Word) : DWord := BitVec.ofInt 64 (a.toInt + b.toInt * 2 ^ k)
/-- MOVHI: IMM16 · 2^16 + bits(d, 15, 0). -/
def movhi (imm : BitVec 16) (d : Word) : Word := BitVec.ofNat 32 (imm.toNat * 2 ^ 16 + d.toNat % 2 ^ 16)
/-- wrap32(d + sext(IMM15, 15)). -/
def addImm (imm : BitVec 15) (d : Word) : Word := BitVec.ofInt 32 ((d.toNat : Int) + imm.toInt)
/-- The six conditions of ICMP. -/
def cmp {n : Nat} (c : Nat) (a b : BitVec n) : Bool :=
  match c with
  | 0 => decide (a.toNat = b.toNat)
  | 1 => decide (a.toNat ≠ b.toNat)
  | 2 => decide (a.toInt < b.toInt)
  | 3 => decide (a.toInt ≤ b.toInt)
  | 4 => decide (a.toNat < b.toNat)
  | _ => decide (a.toNat ≤ b.toNat)

end Spec

end Sys2Proof.Machine
end

