-- ==== Sys2Proof/Certificates/Slice0/Obligations.lean ====
section
/-!
DEFINITION. The statements for the provers.
-/
open Sys2Proof Sys2Proof.Machine

/-! ### Integer words (R100 to R112) -/

/-- R105 (04_integer.md), the vector forms of 32 bits that write one register: each EXEC slot takes the wrapped exact result of
its A and of its B (or, under X = 1, of the wave's B), lr0 takes it and lr1 the old lr0, and nothing else changes. -/
def Sys2Proof.Claims.VectorArithmetic : Prop :=
  ∀ (s : State) (f : RBin) (u : RUn) (m : ImmF),
    let on := fun (g : Word → Word → Word) (k : Nat) => [g (vRead s.rd f.a k) (bRead s f.b f.x k)]
    VecWord (.iadd f) s .valu f.d 1 (on Spec.add) ∧
    VecWord (.isub f) s .valu f.d 1 (on Spec.sub) ∧
    VecWord (.imulLo f) s .valu f.d 1 (on Spec.mulLo) ∧
    VecWord (.imulHiI32 f) s .valu f.d 1 (on Spec.mulHiS) ∧
    VecWord (.imulHiN32 f) s .valu f.d 1 (on Spec.mulHiU) ∧
    VecWord (.imad f) s .valu f.d 1 (fun k => [Spec.mad (vRead s.rd f.d k) (vRead s.rd f.a k) (bRead s f.b f.x k)]) ∧
    VecWord (.iminI32 f) s .valu f.d 1 (on Spec.minS) ∧
    VecWord (.imaxI32 f) s .valu f.d 1 (on Spec.maxS) ∧
    VecWord (.iminN32 f) s .valu f.d 1 (on Spec.minU) ∧
    VecWord (.imaxN32 f) s .valu f.d 1 (on Spec.maxU) ∧
    VecWord (.iabsI32 u) s .valu u.d 1 (fun k => [Spec.abs (vRead s.rd u.a k)]) ∧
    VecWord (.iaddImm m) s .valu m.d 1 (fun k => [Spec.addImm m.imm (vRead s.rd m.d k)])

/-- R105, the vector forms with a pair result: the low word goes to the even register and to lr0, the high word to the odd
one and to lr1, and nothing else changes. -/
def Sys2Proof.Claims.VectorPairArithmetic : Prop :=
  ∀ (s : State) (f : RBin) (u : RUn),
    let two := fun (v : DWord) => [lo32 v, hi32 v]
    let wide := fun (g : Word → Word → DWord) (k : Nat) => two (g (vRead s.rd f.a k) (bRead s f.b f.x k))
    let on := fun (g : DWord → DWord → DWord) (k : Nat) => two (g (vRead64 s.rd f.a k) (bRead64 s f.b f.x k))
    VecWord (.imulWideI32 f) s .valu f.d 2 (wide Spec.mulWideS) ∧
    VecWord (.imulWideN32 f) s .valu f.d 2 (wide Spec.mulWideU) ∧
    VecWord (.iaddI64 f) s .valu f.d 2 (on Spec.add) ∧
    VecWord (.isubI64 f) s .valu f.d 2 (on Spec.sub) ∧
    VecWord (.imulLoI64 f) s .valu f.d 2 (on Spec.mulLo) ∧
    VecWord (.iminI64 f) s .valu f.d 2 (on Spec.minS) ∧
    VecWord (.imaxI64 f) s .valu f.d 2 (on Spec.maxS) ∧
    VecWord (.iminN64 f) s .valu f.d 2 (on Spec.minU) ∧
    VecWord (.imaxN64 f) s .valu f.d 2 (on Spec.maxU) ∧
    VecWord (.iabsI64 u) s .valu u.d 2 (fun k => two (Spec.abs (vRead64 s.rd u.a k)))

/-- The vector integer arithmetic of R105, on 32 and on 64 bits. -/
def Obligations.VectorIntegerArithmetic : Prop :=
  Sys2Proof.Claims.VectorArithmetic ∧ Sys2Proof.Claims.VectorPairArithmetic

/-- R106 and R107, the vector logic, bit and shift forms. A shift by the width or more gives 0, but the arithmetic right shift
gives the sign in every bit; the 64-bit shifts take a pair and a 32-bit count. -/
def Sys2Proof.Claims.VectorBitsAndShifts : Prop :=
  ∀ (s : State) (f : RBin) (u : RUn),
    let on := fun (g : Word → Word → Word) (k : Nat) => [g (vRead s.rd f.a k) (bRead s f.b f.x k)]
    let un := fun (g : Word → Word) (k : Nat) => [g (vRead s.rd u.a k)]
    let sh := fun (g : DWord → Word → DWord) (k : Nat) =>
      [lo32 (g (vRead64 s.rd f.a k) (bRead s f.b f.x k)), hi32 (g (vRead64 s.rd f.a k) (bRead s f.b f.x k))]
    VecWord (.and f) s .valu f.d 1 (on fun a b => a &&& b) ∧
    VecWord (.or f) s .valu f.d 1 (on fun a b => a ||| b) ∧
    VecWord (.xor f) s .valu f.d 1 (on fun a b => a ^^^ b) ∧
    VecWord (.sel f) s .valu f.d 1 (fun k => [Spec.sel (vRead s.rd f.d k) (vRead s.rd f.a k) (bRead s f.b f.x k)]) ∧
    VecWord (.popc u) s .valu u.d 1 (un Spec.popc) ∧
    VecWord (.clz u) s .valu u.d 1 (un Spec.clz) ∧
    VecWord (.brev u) s .valu u.d 1 (un Spec.brev) ∧
    VecWord (.shl f) s .valu f.d 1 (on Spec.shl) ∧
    VecWord (.shr f) s .valu f.d 1 (on Spec.shr) ∧
    VecWord (.sar f) s .valu f.d 1 (on Spec.sar) ∧
    VecWord (.rot f) s .valu f.d 1 (on Spec.rot) ∧
    VecWord (.shlI64 f) s .valu f.d 2 (sh Spec.shl) ∧
    VecWord (.shrN64 f) s .valu f.d 2 (sh Spec.shr) ∧
    VecWord (.sarI64 f) s .valu f.d 2 (sh Spec.sar)

/-- R108, R109 and R110, the vector field, move and address forms: with p the low five bits of the control and w the smaller of
its bits 13 to 8 and 32 - p, BFE takes the w bits of A from p on and BFI puts them into D; the moves; LEA adds the shifted
signed index to the base pair. -/
def Sys2Proof.Claims.VectorFieldsMovesAddresses : Prop :=
  ∀ (s : State) (f : RBin) (u : RUn) (m : MovF) (l : LeaF),
    let on := fun (g : Word → Word → Word) (k : Nat) => [g (vRead s.rd f.a k) (bRead s f.b f.x k)]
    let two := fun (v : DWord) => [lo32 v, hi32 v]
    VecWord (.bfeN32 f) s .valu f.d 1 (on Spec.bfeU) ∧
    VecWord (.bfeI32 f) s .valu f.d 1 (on Spec.bfeS) ∧
    VecWord (.bfi f) s .valu f.d 1 (fun k => [Spec.bfi (vRead s.rd f.d k) (vRead s.rd f.a k) (bRead s f.b f.x k)]) ∧
    VecWord (.mov u) s .valu u.d 1 (fun k => [vRead s.rd u.a k]) ∧
    VecWord (.movI64 u) s .valu u.d 2 (fun k => two (vRead64 s.rd u.a k)) ∧
    VecWord (.movi m) s .valu m.d 1 (fun _ => [BitVec.ofInt 32 m.imm.toInt]) ∧
    VecWord (.movhi m) s .valu m.d 1 (fun k => [Spec.movhi m.imm (vRead s.rd m.d k)]) ∧
    VecWord (.lea l) s .valu l.d 2 (fun k => two (Spec.lea l.sh.toNat (vRead64 s.rd l.a k) (bRead s l.b l.x k)))

/-- R111, the vector ICMP forms: the mask at D has, up to WIDTH, the bit of a slot set exactly where EXEC holds it and the
condition does; at EXEC0 each word is ANDed with LIVE. lr0, lr1, FPSR and everything else keep their values. -/
def Sys2Proof.Claims.VectorCompares : Prop :=
  ∀ (s : State) (f : CmpF),
    MaskWord (.icmp f) s .valu f.d (fun k => Spec.cmp f.n.toNat (vRead s.rd f.a k) (bRead s f.b f.x k)) 0 ∧
    MaskWord (.icmpI64 f) s .valu f.d (fun k => Spec.cmp f.n.toNat (vRead64 s.rd f.a k) (bRead64 s f.b f.x k)) 0

/-- The vector bit operations, shifts, fields, moves, addresses and compares of R106 to R111. -/
def Obligations.VectorBitsMovesAndCompares : Prop :=
  Sys2Proof.Claims.VectorBitsAndShifts ∧ Sys2Proof.Claims.VectorFieldsMovesAddresses ∧ Sys2Proof.Claims.VectorCompares

/-- R112, the wave twins of one register: each has the effect of its vector form once, with wave operands, and writes s0 to
s63, a word of EXEC (ANDed with LIVE), FPCR or FPSR; no per-thread register and nothing else changes. -/
def Sys2Proof.Claims.WaveForms : Prop :=
  ∀ (s : State) (f : R3) (u : RUn) (m : MovF) (n : ImmF),
    let on := fun (g : Word → Word → Word) => g (sRead s.clk s.rd f.a) (sRead s.clk s.rd f.b)
    let ter := fun (g : Word → Word → Word → Word) => g (sRead s.clk s.rd f.d) (sRead s.clk s.rd f.a) (sRead s.clk s.rd f.b)
    let a := sRead s.clk s.rd u.a
    WaveWord (.iaddWave f) s f.d (on Spec.add) ∧ WaveWord (.isubWave f) s f.d (on Spec.sub) ∧
    WaveWord (.imulLoWave f) s f.d (on Spec.mulLo) ∧ WaveWord (.imulHiI32Wave f) s f.d (on Spec.mulHiS) ∧
    WaveWord (.imulHiN32Wave f) s f.d (on Spec.mulHiU) ∧ WaveWord (.imadWave f) s f.d (ter Spec.mad) ∧
    WaveWord (.iminI32Wave f) s f.d (on Spec.minS) ∧ WaveWord (.iminN32Wave f) s f.d (on Spec.minU) ∧
    WaveWord (.imaxI32Wave f) s f.d (on Spec.maxS) ∧ WaveWord (.imaxN32Wave f) s f.d (on Spec.maxU) ∧
    WaveWord (.iabsI32Wave u) s u.d (Spec.abs a) ∧
    WaveWord (.andWave f) s f.d (on fun a b => a &&& b) ∧ WaveWord (.orWave f) s f.d (on fun a b => a ||| b) ∧
    WaveWord (.xorWave f) s f.d (on fun a b => a ^^^ b) ∧ WaveWord (.selWave f) s f.d (ter Spec.sel) ∧
    WaveWord (.shlWave f) s f.d (on Spec.shl) ∧ WaveWord (.shrWave f) s f.d (on Spec.shr) ∧
    WaveWord (.sarWave f) s f.d (on Spec.sar) ∧ WaveWord (.rotWave f) s f.d (on Spec.rot) ∧
    WaveWord (.popcWave u) s u.d (Spec.popc a) ∧ WaveWord (.clzWave u) s u.d (Spec.clz a) ∧
    WaveWord (.brevWave u) s u.d (Spec.brev a) ∧ WaveWord (.bfeI32Wave f) s f.d (on Spec.bfeS) ∧
    WaveWord (.bfeN32Wave f) s f.d (on Spec.bfeU) ∧ WaveWord (.bfiWave f) s f.d (ter Spec.bfi) ∧
    WaveWord (.movWave u) s u.d a ∧ WaveWord (.moviWave m) s m.d (BitVec.ofInt 32 m.imm.toInt) ∧
    WaveWord (.movhiWave m) s m.d (Spec.movhi m.imm (sRead s.clk s.rd m.d)) ∧
    WaveWord (.iaddImmWave n) s n.d (Spec.addImm n.imm (sRead s.clk s.rd n.d))

/-- R112, the wave twins of pairs and the wave compares: a pair result goes to an even s pair, a compare to a predicate. -/
def Sys2Proof.Claims.WavePairsAndCompares : Prop :=
  ∀ (s : State) (f : R3) (u : RUn) (l : LeaW) (c : CmpW),
    let wide := fun (g : Word → Word → DWord) => g (sRead s.clk s.rd f.a) (sRead s.clk s.rd f.b)
    let on := fun (g : DWord → DWord → DWord) => g (sRead64 s.clk s.rd f.a) (sRead64 s.clk s.rd f.b)
    let sh := fun (g : DWord → Word → DWord) => g (sRead64 s.clk s.rd f.a) (sRead s.clk s.rd f.b)
    WaveWord64 (.imulWideI32Wave f) s f.d (wide Spec.mulWideS) ∧ WaveWord64 (.imulWideN32Wave f) s f.d (wide Spec.mulWideU) ∧
    WaveWord64 (.iaddI64Wave f) s f.d (on Spec.add) ∧ WaveWord64 (.isubI64Wave f) s f.d (on Spec.sub) ∧
    WaveWord64 (.imulLoI64Wave f) s f.d (on Spec.mulLo) ∧ WaveWord64 (.iminI64Wave f) s f.d (on Spec.minS) ∧
    WaveWord64 (.iminN64Wave f) s f.d (on Spec.minU) ∧ WaveWord64 (.imaxI64Wave f) s f.d (on Spec.maxS) ∧
    WaveWord64 (.imaxN64Wave f) s f.d (on Spec.maxU) ∧ WaveWord64 (.shlI64Wave f) s f.d (sh Spec.shl) ∧
    WaveWord64 (.shrN64Wave f) s f.d (sh Spec.shr) ∧ WaveWord64 (.sarI64Wave f) s f.d (sh Spec.sar) ∧
    WaveWord64 (.movI64Wave u) s u.d (sRead64 s.clk s.rd u.a) ∧
    WaveWord64 (.iabsI64Wave u) s u.d (Spec.abs (sRead64 s.clk s.rd u.a)) ∧
    WaveWord64 (.leaWave l) s l.d (Spec.lea l.sh.toNat (sRead64 s.clk s.rd l.a) (sRead s.clk s.rd l.b)) ∧
    PredWord (.icmpWave c) s .wave 1 c.p.toNat (Spec.cmp c.n.toNat (sRead s.clk s.rd c.a) (sRead s.clk s.rd c.b)) ∧
    PredWord (.icmpI64Wave c) s .wave 1 c.p.toNat (Spec.cmp c.n.toNat (sRead64 s.clk s.rd c.a) (sRead64 s.clk s.rd c.b))

/-- The wave twins of the integer words (R56, R112). -/
def Obligations.WaveWordsOfInteger : Prop :=
  Sys2Proof.Claims.WaveForms ∧ Sys2Proof.Claims.WavePairsAndCompares

/-! ### Floating-point and conversion words (R115 to R151) -/

/-- R124, R125, R128 to R131: the arithmetic, extreme-value, rounding, division, root and function forms complete in every
EXEC slot, in both elements of a packed operand, with the type's operands, on VDP for .f64 and for the divisions, roots and
functions; their flags join FPSR (R119). -/
def Sys2Proof.Claims.FloatForms : Prop :=
  ∀ (s : State) (f : FBin) (u : FUn) (r : FrndF),
    let fm := fmtT f.t
    let two := fun (g : Nat → Nat → Nat × Nat) (k : Nat) => lift2 fm g (fpRead s.rd fm f.a k) (fpReadB s fm f.b f.x k)
    let ter := fun (g : Nat → Nat → Nat → Nat × Nat) (k : Nat) =>
      lift3 fm g (fpRead s.rd fm f.a k) (fpReadB s fm f.b f.x k) (fpRead s.rd fm f.d k)
    let wide := fun (t : BitVec 2) => decide (t.toNat = 1)
    let one := fun (g : Nat → Nat × Nat) (k : Nat) => lift1 (fmtT u.t) g (fpRead s.rd (fmtT u.t) u.a k)
    let v := fdecode fm
    let pipe := fun (t : BitVec 2) => if t.toNat = 1 then Pipe.vdp else Pipe.valu
    let rm := rmOf s.rd.fpcr
    FpWord (.fadd f) s (pipe f.t) (wide f.t) f.d (two fun a b => faddV fm rm (v a) (v b)) ∧
    FpWord (.fsub f) s (pipe f.t) (wide f.t) f.d (two fun a b => faddV fm rm (v a) (v b).flip) ∧
    FpWord (.fmul f) s (pipe f.t) (wide f.t) f.d (two fun a b => fmulV fm rm (v a) (v b)) ∧
    FpWord (.ffma f) s (pipe f.t) (wide f.t) f.d (ter fun a b d => ffmaV fm rm false (v a) (v b) (v d)) ∧
    FpWord (.fnma f) s (pipe f.t) (wide f.t) f.d (ter fun a b d => ffmaV fm rm true (v a) (v b) (v d)) ∧
    FpWord (.fmin f) s (pipe f.t) (wide f.t) f.d (two (fminmax fm false)) ∧
    FpWord (.fmax f) s (pipe f.t) (wide f.t) f.d (two (fminmax fm true)) ∧
    FpWord (.fdiv f) s .vdp (wide f.t) f.d (two (fdiv fm rm)) ∧
    FpWord (.fsqrt u) s .vdp (wide u.t) u.d (one (fsqrt (fmtT u.t) rm)) ∧
    FpWord (.frcp u) s .vdp (wide u.t) u.d (one (sfunc .frcp (fmtT u.t))) ∧
    FpWord (.frsq u) s .vdp (wide u.t) u.d (one (sfunc .frsq (fmtT u.t))) ∧
    FpWord (.sin u) s .vdp (wide u.t) u.d (one (sfunc .sin (fmtT u.t))) ∧
    FpWord (.cos u) s .vdp (wide u.t) u.d (one (sfunc .cos (fmtT u.t))) ∧
    FpWord (.exp2 u) s .vdp (wide u.t) u.d (one (sfunc .exp2 (fmtT u.t))) ∧
    FpWord (.log2 u) s .vdp (wide u.t) u.d (one (sfunc .log2 (fmtT u.t))) ∧
    FpWord (.frnd r) s (pipe r.t) (wide r.t) r.d (fun k =>
      lift1 (fmtT r.t) (frnd (fmtT r.t) (match r.mode.toNat with | 0 => rm | 1 => .rne | 2 => .rtz | 3 => .rup | _ => .rdn))
        (fpRead s.rd (fmtT r.t) r.a k))

/-- R126 and R127: FCMP writes the mask of the EXEC slots whose element 0 compares so, with the NV flags of the EXEC slots;
FCLASS writes a class mask for each element and raises no flag. -/
def Sys2Proof.Claims.FloatComparesAndClasses : Prop :=
  ∀ (s : State) (f : FBin) (u : FUn),
    let fm := fmtT f.t
    let pipe := fun (t : BitVec 2) => if t.toNat = 1 then Pipe.vdp else Pipe.valu
    let cmp := fun (c k : Nat) =>
      fcmp fm c (fpRead s.rd fm f.a k % 2 ^ fm.width) (fpReadB s fm f.b f.x k % 2 ^ fm.width)
    let fl := fun (c : Nat) => slotFlags s fun k => (0, (cmp c k).2)
    MaskWord (.fcmpEq f) s (pipe f.t) f.d (fun k => (cmp 0 k).1) (fl 0) ∧
    MaskWord (.fcmpLt f) s (pipe f.t) f.d (fun k => (cmp 1 k).1) (fl 1) ∧
    MaskWord (.fcmpLe f) s (pipe f.t) f.d (fun k => (cmp 2 k).1) (fl 2) ∧
    FpWord (.fclass u) s (pipe u.t) false u.d (fun k =>
      lift1 (fmtT u.t) (fun a => (fclass (fmtT u.t) a, 0)) (fpRead s.rd (fmtT u.t) u.a k))

/-- The floating-point words of every format, and their compares and classes.
It rests on choices of the model: logs 6 and 8. -/
def Obligations.FloatWords : Prop :=
  Sys2Proof.Claims.FloatForms ∧ Sys2Proof.Claims.FloatComparesAndClasses

/-- R120 and R121 on finite operands: what is rounded, once, is the exact sum, product, or fused sum; an exact zero sum takes
its terms' common sign, and otherwise is +0 but -0 under RDN; the sign of a product is the exclusive OR of the signs. -/
def Sys2Proof.Claims.ExactBeforeRounding : Prop :=
  ∀ (f : Fmt) (rm : RMode) (a b d : FVal) (negate : Bool), a.isFin = true → b.isFin = true → d.isFin = true →
    (∃ v, v.isFin = true ∧ faddV f rm a b = fput f rm v ∧ v.rat = a.rat + b.rat ∧
      (v.rat = 0 → v.neg = if a.isZero && b.isZero && a.neg == b.neg then a.neg else decide (rm = .rdn))) ∧
    (∃ v, v.isFin = true ∧ fmulV f rm a b = fput f rm v ∧ v.rat = a.rat * b.rat ∧ v.neg = (a.neg != b.neg)) ∧
    (∃ v, v.isFin = true ∧ ffmaV f rm negate a b d = fput f rm v ∧
      v.rat = (if negate then -(a.rat * b.rat) else a.rat * b.rat) + d.rat)

/-- R117 and R120, rounding: a nonzero magnitude rounded without overflow gives a finite code of its sign; to nearest it
errs by at most half a unit of the last place, a tie going to the even code, toward zero, up and down by less than one and to that side;
NX says exactly whether the value changed. -/
def Sys2Proof.Claims.RoundingModes : Prop :=
  ∀ (f : Fmt) (rm : RMode) (neg : Bool) (m : Nat) (e : Int), m ≠ 0 →
    let r := fround f rm false neg m e false
    let x := (FVal.fin neg m e).rat
    let y := (fdecode f r.1).rat
    let u := unitAt f m e
    r.2 / 4 % 2 = 0 →
      (fdecode f r.1).isFin = true ∧ (fdecode f r.1).neg = neg ∧ (r.2 % 2 = 1 ↔ y ≠ x) ∧
      match rm with
      | .rne => 2 * |y - x| ≤ u ∧ (2 * |y - x| = u → r.1 % 2 = 0)
      | .rtz => |y| ≤ |x| ∧ |x| - |y| < u
      | .rup => x ≤ y ∧ y < x + u
      | .rdn => y ≤ x ∧ x < y + u

/-- R117, R128, R129, R145 to R147 on ordinary operands: FDIV is the exact quotient and FSQRT the exact root, rounded once in the mode, with
NX saying whether that changed it; FRND is the integer that the mode gives, with the operand's sign and no flag. CVT rounds the exact
source once into a float format; into an integer it takes the integer that the mode gives, NX if that is another value, and one out of
range gives, with NV, the nearest bound under .sat and else the lowest code of a signed and the highest of an unsigned type. -/
def Sys2Proof.Claims.CorrectlyRounded : Prop :=
  ∀ (f : Fmt) (rm : RMode), f = .f32 ∨ f = .f64 ∨ f = .f16 ∨ f = .bf16 →
    let integral := fun (m : RMode) (x : ℚ) (k : Int) => match m with
      | .rne => 2 * |(k : ℚ) - x| ≤ 1 ∧ (2 * |(k : ℚ) - x| = 1 → k % 2 = 0)
      | .rtz => k = if x < 0 then ⌈x⌉ else ⌊x⌋
      | .rup => k = ⌈x⌉
      | .rdn => k = ⌊x⌋
    (∀ x y n1 m1 e1 n2 m2 e2, fdecode f x = .fin n1 m1 e1 → fdecode f y = .fin n2 m2 e2 → m1 ≠ 0 → m2 ≠ 0 →
      let q := (fdecode f x).rat / (fdecode f y).rat
      let r := fdiv f rm x y
      let z := (fdecode f r.1).rat
      let u := (2 : ℚ) ^ (max (Int.log 2 |q|) f.emin - (f.prec : Int) + 1)
      r.2 / 4 % 2 = 0 → (fdecode f r.1).isFin = true ∧ (fdecode f r.1).neg = (n1 != n2) ∧ (r.2 % 2 = 1 ↔ z ≠ q) ∧
        match rm with
        | .rne => 2 * |z - q| ≤ u ∧ (2 * |z - q| = u → r.1 % 2 = 0)
        | .rtz => |z| ≤ |q| ∧ |q| - |z| < u
        | .rup => q ≤ z ∧ z < q + u
        | .rdn => z ≤ q ∧ q < z + u) ∧
    (∀ x m e, fdecode f x = .fin false m e → m ≠ 0 →
      let q := Real.sqrt ((fdecode f x).rat : ℝ)
      let r := fsqrt f rm x
      let z := ((fdecode f r.1).rat : ℝ)
      let u := (2 : ℝ) ^ (max (Int.log 2 q) f.emin - (f.prec : Int) + 1)
      (fdecode f r.1).isFin = true ∧ r.2 < 2 ∧ (r.2 = 1 ↔ z ≠ q) ∧
        match rm with
        | .rne => 2 * |z - q| ≤ u
        | .rup => q ≤ z ∧ z < q + u
        | _ => z ≤ q ∧ q < z + u) ∧
    (∀ x n m e, x < 2 ^ f.width → fdecode f x = .fin n m e →
      let r := frnd f rm x
      r.2 = 0 ∧ (fdecode f r.1).isFin = true ∧ (fdecode f r.1).neg = n ∧
        ∃ k : Int, (fdecode f r.1).rat = k ∧ integral rm (fdecode f x).rat k) ∧
    ∀ dst src sat raw n m e, cvtSrc src raw = .fin n m e →
      let c := cvtElem dst src rm sat raw
      (∀ g, fmtCode dst = some g → c = fround g rm sat n m e false) ∧
      (fmtCode dst = none → dst ≠ 7 → src < 8 → ∃ k : Int, integral rm (cvtSrc src raw).rat k ∧
        let reg := fun (v : Int) => (BitVec.ofInt (if intWidth dst = 64 then 64 else 32) v).toNat
        let bad := if intSigned dst then intLo dst else intHi dst
        (intLo dst ≤ k → k ≤ intHi dst → c = (reg k, if (k : ℚ) = (cvtSrc src raw).rat then 0 else 1)) ∧
        (k < intLo dst → c = (reg (if sat then intLo dst else bad), 16)) ∧
        (intHi dst < k → c = (reg (if sat then intHi dst else bad), 16)))

/-- R120: a finite value of a format rounds to its own code, in every mode, and raises no flag. -/
def Sys2Proof.Claims.RepresentableIsExact : Prop :=
  ∀ (f : Fmt) (rm : RMode) (c : Nat) (n : Bool) (m : Nat) (e : Int), c < 2 ^ f.width → fdecode f c = .fin n m e →
    fround f rm false n m e false = (c, 0)

/-- Results are exact before rounding, rounding follows the mode, quotients, roots, integral values and conversions are rounded once, and a value that the format holds is not changed. -/
def Obligations.RoundingIsCorrect : Prop :=
  Sys2Proof.Claims.ExactBeforeRounding ∧ Sys2Proof.Claims.RoundingModes ∧ Sys2Proof.Claims.CorrectlyRounded ∧ Sys2Proof.Claims.RepresentableIsExact

/-- R120 to R126, the special cases of every format of 16 bits and more: a NaN operand gives the canonical NaN, with NV when
one is signalling; infinities of opposite signs do not add, nor does 0 multiply an infinity; FMIN and FMAX prefer a number and
order -0 below +0; a comparison with a NaN is false. -/
def Sys2Proof.Claims.FloatSpecialCases : Prop :=
  ∀ (f : Fmt) (rm : RMode) (a b : FVal), f = .f32 ∨ f = .f64 ∨ f = .f16 ∨ f = .bf16 →
    ((a.isNan || b.isNan) = true →
      faddV f rm a b = (f.qnan, if a.isSnan || b.isSnan then 16 else 0) ∧
      fmulV f rm a b = (f.qnan, if a.isSnan || b.isSnan then 16 else 0)) ∧
    (∀ n, faddV f rm (.inf n) (.inf !n) = (f.qnan, 16) ∧ faddV f rm (.inf n) (.inf n) = (f.signed n f.infCode, 0)) ∧
    (∀ n k e, fmulV f rm (.inf n) (.fin k 0 e) = (f.qnan, 16) ∧ fmulV f rm (.fin k 0 e) (.inf n) = (f.qnan, 16)) ∧
    (∀ x y, (fdecode f x).isNan = true → (fdecode f y).isNan = false →
      (fminmax f false x y).1 = y ∧ (fminmax f true x y).1 = y ∧ (fminmax f false y x).1 = y ∧ (fminmax f true y x).1 = y ∧
      ∀ c, (fcmp f c x y).1 = false ∧ (fcmp f c y x).1 = false) ∧
    fminmax f false 0 f.signBit = (f.signBit, 0) ∧ fminmax f true f.signBit 0 = (0, 0) ∧ (fcmp f 0 0 f.signBit).1 = true

/-- R129 to R131 at the ends: a finite nonzero number divided by zero is an infinity with DZ; 0/0 is NaN with NV; roots of
zeros are those zeros, of a negative number NaN with NV; FRCP and FRSQ of a zero are infinities with DZ; SIN and EXP2 and LOG2 at
the values of R131's table. -/
def Sys2Proof.Claims.FloatEnds : Prop :=
  ∀ (f : Fmt) (rm : RMode), f = .f32 ∨ f = .f64 ∨ f = .f16 ∨ f = .bf16 →
    let one := (fround f .rne false false 1 0 false).1
    let inf := f.infCode
    let nzero := f.signBit
    let ninf := f.signBit + f.infCode
    fdiv f rm one 0 = (inf, 8) ∧ fdiv f rm one nzero = (ninf, 8) ∧ fdiv f rm 0 0 = (f.qnan, 16) ∧ fdiv f rm inf inf = (f.qnan, 16) ∧
    fdiv f rm one ninf = (nzero, 0) ∧ fsqrt f rm 0 = (0, 0) ∧ fsqrt f rm nzero = (nzero, 0) ∧ fsqrt f rm inf = (inf, 0) ∧
    fsqrt f rm (f.signBit + one) = (f.qnan, 16) ∧
    sfunc .frcp f 0 = (inf, 8) ∧ sfunc .frcp f nzero = (ninf, 8) ∧ sfunc .frcp f inf = (0, 0) ∧ sfunc .frcp f ninf = (nzero, 0) ∧
    sfunc .frsq f nzero = (ninf, 8) ∧ sfunc .frsq f ninf = (f.qnan, 16) ∧ sfunc .frsq f one = (one, 0) ∧
    sfunc .sin f nzero = (nzero, 0) ∧ sfunc .sin f inf = (f.qnan, 16) ∧ sfunc .cos f nzero = (one, 0) ∧
    sfunc .exp2 f nzero = (one, 0) ∧ sfunc .exp2 f ninf = (0, 0) ∧ sfunc .exp2 f inf = (inf, 0) ∧
    sfunc .log2 f 0 = (ninf, 8) ∧ sfunc .log2 f one = (0, 0) ∧ sfunc .log2 f (f.signBit + one) = (f.qnan, 16)

/-- The special operands, and the ends of the formats. -/
def Obligations.FloatCornerCases : Prop :=
  Sys2Proof.Claims.FloatSpecialCases ∧ Sys2Proof.Claims.FloatEnds

/-- R143, R144, R149, R150 and R151: DQ, CVT, PACK and UNPACK complete in every EXEC slot; SPL3 writes three parts to
consecutive registers, the first two also to lr0 and lr1. -/
def Sys2Proof.Claims.ConversionForms : Prop :=
  ∀ (s : State) (b : RBin) (c : CvtF) (u : RUn) (x : R3),
    let word := fun (lane k : Nat) => (vRead s.rd b.a (k / 32 * 32 + lane)).toNat
    let sc := fun (k : Nat) => (bRead s b.b b.x k).toNat % 256
    let byte := fun (k : Nat) => word (k % 32 / 4) k / 2 ^ (8 * (k % 4)) % 256
    FpWord (.dqHx4 b) s .valu false b.d (fun k =>
      let r := hx4Decode (hxSlots ((List.range 4).map fun lane => word lane k)) (sc k)
      let y := fput .f32 (rmOf s.rd.fpcr) (r.1.getD (k % 32) FVal.zero)
      (y.1, y.2 ||| (if r.2 then 32 else 0))) ∧
    FpWord (.dqE4m3 b) s .valu false b.d (fun k => dqElem s (fdecode .e4m3 (byte k)) (sc k)) ∧
    FpWord (.dqE5m2 b) s .valu false b.d (fun k => dqElem s (fdecode .e5m2 (byte k)) (sc k)) ∧
    FpWord (.cvt c) s (if c.dst.toNat = 0 ∨ c.src.toNat = 0 then .vdp else .valu) (code64 c.dst.toNat) c.d (fun k =>
      cvtElem c.dst.toNat c.src.toNat (rmOf s.rd.fpcr) c.sat (cvtRaw s.rd c.src.toNat c.a k)) ∧
    VecWord (.packB16 b) s .valu b.d 1 (fun k =>
      [BitVec.ofNat 32 ((vRead s.rd b.a k).toNat % 2 ^ 16 + (bRead s b.b b.x k).toNat % 2 ^ 16 * 2 ^ 16)]) ∧
    VecWord (.packB8 b) s .valu b.d 1 (fun k =>
      [BitVec.ofNat 32 ((vRead s.rd b.a k).toNat % 2 ^ 8 + (bRead s b.b b.x k).toNat % 2 ^ 8 * 2 ^ 8 +
        (vRead s.rd b.d k).toNat % 2 ^ 16 * 2 ^ 16)]) ∧
    VecWord (.unpack x) s .valu x.d 1 (fun k => [unpackW (vRead s.rd x.a k) x.b.toNat]) ∧
    (u.d.toNat + 3 ≤ 0x68 → Answers (.spl3 u) s fun t =>
      let part := fun (k : Nat) => spl3 (fpRead s.rd .f32 u.a k)
      FpEffect s t .valu u.d 3 (fun k => [BitVec.ofNat 32 (part k).1, BitVec.ofNat 32 (part k).2.1, BitVec.ofNat 32 (part k).2.2.1])
        (slotFlags s fun k => (0, (part k).2.2.2)))

/-- R140 to R142, QNT: in every pass that has an EXEC slot, the block of the pass's 32 elements, +0 outside EXEC, is quantised;
each EXEC slot takes its lane's packed word in D and lr0 and the scale in B and lr1; other slots and registers keep theirs; FPSR takes NV from a
block with a NaN or an infinity, and NX from one whose codes decode to other values. D and B are two registers. -/
def Sys2Proof.Claims.QuantiseForms : Prop :=
  ∀ (s : State) (h : QntF) (g : R3),
    let effect := fun (i : Instr) (d a b : BitVec 7) (bits : Nat) (q : List Nat → List Nat × Nat × Bool × List FVal) =>
      s.w.width ≤ 128 → s.w.width % 32 = 0 → d.toNat < 0x68 → b.toNat < 0x68 → d ≠ b → Answers i s fun t =>
        (∀ r k, r.toNat < 0x6A → k < 128 →
          vRead t.w r k =
            if k ∈ s.rd.slots then
              let z := q (qntBlock s a (k / 32))
              let word := qntWord bits z.1 (k % 32)
              let scale : Word := BitVec.ofNat 32 z.2.1
              if r = d ∨ r = 0x68 then word else if r = b ∨ r = 0x69 then scale else vRead s.w r k
            else vRead s.w r k) ∧
        let passFlags := fun (p : Nat) =>
          let z := q (qntBlock s a p)
          if z.2.2.1 then 16 else bitOf (qntInexact s p (qntBlock s a p) z.2.2.2)
        let fl := BitVec.ofNat 32 (((List.range (s.w.width / 32)).filter fun p =>
          (List.range 32).any fun j => s.rd.exec.getLsbD (32 * p + j)).foldl (fun x p => x ||| passFlags p) 0)
        t = { s with
          w := { s.w with v := t.w.v, o := t.w.o, lr0 := t.w.lr0, lr1 := t.w.lr1, marks := t.w.marks,
                          fpsr := s.w.fpsr ||| fl, pc := s.w.pc + 4 },
          pipes := (occupy s .valu (s.w.width / 32)).pipes, grpFlags := s.grpFlags ||| fl } ∧ SameMemory s t
    effect (.qntHx4 h) h.d h.a h.b 4 (qntHx4 h.n.toNat) ∧
    effect (.qntE4m3 g) g.d g.a g.b 8 (qntFp8 .e4m3) ∧
    effect (.qntE5m2 g) g.d g.a g.b 8 (qntFp8 .e5m2)

/-- The conversions, and the narrow formats' words.
It rests on choices of the model: log 7. -/
def Obligations.ConversionsAndQuantising : Prop :=
  Sys2Proof.Claims.ConversionForms ∧ Sys2Proof.Claims.QuantiseForms

/-! ### Cross-lane words (R155 to R168) -/

/-- R159 to R166: each EXEC slot takes the A of its source slot where that is below WIDTH and in EXEC, and its own A
otherwise; PSWAP transposes pairs of slots by halves; PPOP counts the bits of the EXEC slots below; ISECT writes its result
and its count word. -/
def Sys2Proof.Claims.MovesBetweenSlots : Prop :=
  ∀ (s : State) (f : ShflF) (b : RBin) (u : RUn),
    let a := fun (r : BitVec 7) (k : Nat) => vRead s.rd r k
    let takes := fun (r : BitVec 7) (j : Int) (k : Nat) =>
      if 0 ≤ j ∧ j < (s.w.width : Int) ∧ s.rd.exec.getLsbD j.toNat = true then a r j.toNat else a r k
    let bits := fun (x : Word) => ((List.range 32).filter fun i => x.getLsbD i).length
    let low := fun (x : Word) => ((List.range 32).find? fun i => x.getLsbD i).getD 0
    VecWord (.shfl f) s .valu f.d 1 (fun k =>
      let c := (bRead s f.b f.x k).toNat
      [takes f.a (match f.m.toNat with
        | 0 => ((c % s.w.width : Nat) : Int)
        | 1 => (k : Int) - c
        | 2 => (k : Int) + c
        | _ => ((k ^^^ c % s.w.width : Nat) : Int)) k]) ∧
    VecWord (.bcast b) s .valu b.d 1 (fun k => [takes b.a ((bRead s b.b b.x k).toNat : Int) k]) ∧
    VecWord (.pswap u) s .valu u.d 1 (fun k =>
      [if s.rd.exec.getLsbD (k ^^^ 1) = false then a u.a k
       else if k % 2 = 0 then BitVec.ofNat 32 ((a u.a k).toNat % 2 ^ 16 + (a u.a (k ^^^ 1)).toNat % 2 ^ 16 * 2 ^ 16)
       else BitVec.ofNat 32 ((a u.a (k ^^^ 1)).toNat / 2 ^ 16 + (a u.a k).toNat / 2 ^ 16 * 2 ^ 16)]) ∧
    VecWord (.ppop b) s .valu b.d 1 (fun k =>
      [BitVec.ofNat 32 ((bRead s b.b b.x k).toNat +
        ((s.rd.slots.filter fun j => decide (j < k)).map fun j => bits (a b.a j)).sum)]) ∧
    VecWord (.isectBits b) s .valu b.d 2 (fun k =>
      let m := a b.a k &&& bRead s b.b b.x k
      [m, BitVec.ofNat 32 (bits (a b.a k) + bits (bRead s b.b b.x k) * 2 ^ 8 + bits m * 2 ^ 16 + low m * 2 ^ 24 +
        (if m = 0 then 2 ^ 31 else 0))]) ∧
    VecWord (.isectList b) s .valu b.d 2 (fun k =>
      let sl := s.rd.slots
      let av := fun j => (a b.a j).toNat
      let bv := fun j => (bRead s b.b b.x j).toNat
      let lim := min ((sl.map av).foldl max 0) ((sl.map bv).foldl max 0)
      let hit := fun j => sl.find? fun j2 => bv j2 == av j
      let hits := sl.filter fun j => (hit j).isSome
      [match hit k with | some j => BitVec.ofNat 32 j | none => 0xFFFFFFFF,
       BitVec.ofNat 32 ((sl.filter fun j => decide (av j ≤ lim)).length + (sl.filter fun j => decide (bv j ≤ lim)).length * 2 ^ 8 +
         hits.length * 2 ^ 16 + hits.headD 0 * 2 ^ 24 + (if hits.length = 0 then 2 ^ 31 else 0))])

/-- R162: BALLOT writes the mask of the EXEC slots whose A is not zero; VOTE sets its predicate when some EXEC slot's A is
not zero, when every one's is, or when all are equal: with EXEC empty 0, 1 and 1. -/
def Sys2Proof.Claims.BallotAndVotes : Prop :=
  ∀ (s : State) (u : RUn) (v : VoteF),
    MaskWord (.ballot u) s .valu u.d (fun k => decide (vRead s.rd u.a k ≠ 0)) 0 ∧
    PredWord (.voteAny v) s .valu (s.w.width / 32) v.p.toNat (decide (∃ k ∈ s.rd.slots, vRead s.rd v.a k ≠ 0)) ∧
    PredWord (.voteAll v) s .valu (s.w.width / 32) v.p.toNat (decide (∀ k ∈ s.rd.slots, vRead s.rd v.a k ≠ 0)) ∧
    PredWord (.voteUni v) s .valu (s.w.width / 32) v.p.toNat
      (decide (∀ k ∈ s.rd.slots, ∀ j ∈ s.rd.slots, vRead s.rd v.a k = vRead s.rd v.a j))

/-- The words that move values between slots, and the ballots and votes. -/
def Obligations.WordsBetweenSlots : Prop :=
  Sys2Proof.Claims.MovesBetweenSlots ∧ Sys2Proof.Claims.BallotAndVotes

/-- R167 and R168: WRED reduces A over slots 0 to WIDTH - 1 by the canonical tree, a slot outside EXEC holding the form's
neutral value, and writes the root to D; a .f16 or .bf16 reduction is two trees, one for each element. -/
def Sys2Proof.Claims.Reductions : Prop :=
  ∀ (s : State) (f : FUn) (u : RUn),
    let fm := fmtT f.t
    let v := fun (k : Nat) => fpRead s.rd fm f.a k
    let fl := fun (node : Nat → Nat → Nat × Nat) (id : Nat) =>
      let lo := wredRoot s node id fun k => v k % 65536
      let hi := wredRoot s node id fun k => v k / 65536
      let all := wredRoot s node id v
      if f.t.toNat = 2 ∨ f.t.toNat = 3 then ([BitVec.ofNat 32 (lo.1 + hi.1 * 65536)], lo.2 ||| hi.2)
      else if f.t.toNat = 1 then ([lo32 (BitVec.ofNat 64 all.1), hi32 (BitVec.ofNat 64 all.1)], all.2)
      else ([lo32 (BitVec.ofNat 64 all.1)], all.2)
    let flt := fun (i : Instr) (node : Nat → Nat → Nat × Nat) (id : Nat) =>
      ReduceWord i s true f.d.toNat (fl node id).1 (fl node id).2
    let int := fun (i : Instr) (g : Word → Word → Word) (id : Word) =>
      ReduceWord i s false u.d.toNat
        [BitVec.ofNat 32 (wredRoot s (fun a b => ((g (BitVec.ofNat 32 a) (BitVec.ofNat 32 b)).toNat, 0)) id.toNat
          fun k => (vRead s.rd u.a k).toNat).1] 0
    let sum := BitVec.ofNat 64 (wredRoot s (fun a b => ((a + b) % 2 ^ 64, 0)) 0 fun k => (vRead64 s.rd u.a k).toNat).1
    flt (.wredAdd f) (fun a b => faddV fm .rne (fdecode fm a) (fdecode fm b)) 0 ∧
    flt (.wredMin f) (fminmax fm false) fm.infCode ∧
    flt (.wredMax f) (fminmax fm true) (fm.signBit + fm.infCode) ∧
    int (.wredAddI32 u) Spec.add 0 ∧ int (.wredAndB32 u) (fun a b => a &&& b) 0xFFFFFFFF ∧
    int (.wredOrB32 u) (fun a b => a ||| b) 0 ∧ int (.wredMinI32 u) Spec.minS 0x7FFFFFFF ∧
    int (.wredMaxI32 u) Spec.maxS 0x80000000 ∧ int (.wredMinN32 u) Spec.minU 0xFFFFFFFF ∧
    int (.wredMaxN32 u) Spec.maxU 0 ∧
    ReduceWord (.wredAddI64 u) s false u.d.toNat [lo32 sum, hi32 sum] 0

/-- R167, R168: an integer sum over the tree is the sum of the EXEC slots' A reduced modulo 2^32, whatever the order, for a
wave of a width the spec gives. -/
def Sys2Proof.Claims.TreeSumIsSum : Prop :=
  ∀ (s : State) (a : Nat → Word), s.w.width = 32 ∨ s.w.width = 64 ∨ s.w.width = 128 →
    (wredRoot s (fun x y => ((Spec.add (BitVec.ofNat 32 x) (BitVec.ofNat 32 y)).toNat, 0)) 0 fun k => (a k).toNat).1 =
      (((List.range s.w.width).filter fun k => s.rd.exec.getLsbD k).map fun k => (a k).toNat).sum % 2 ^ 32

/-- The reductions and their trees. -/
def Obligations.ReductionsOverSlots : Prop :=
  Sys2Proof.Claims.Reductions ∧ Sys2Proof.Claims.TreeSumIsSum

/-! ### Memory words (R200 to R244) -/

/-- R216, R217 and R219: LD and LDS ask for 1, 2, 4, 8 or 16 bytes at each EXEC slot's address, LD at its pointer pair and LDS
at its scratchpad address; ST and STS send the low bytes of D; LDW reads once for the wave at an s pair, and holds VMEM as the others do
(R215). When no address fails
its checks each completes: one operation in flight with one access for each piece. -/
def Sys2Proof.Claims.LoadsAndStoresIssue : Prop :=
  ∀ (s : State) (f : MemZ),
    let ld := ([(1, false), (1, true), (2, false), (2, true), (4, false), (8, false), (16, false)] : List (Nat × Bool)).getD
      f.z.toNat (16, false)
    let st := ([1, 2, 4, 8, 16] : List Nat).getD f.z.toNat 16
    let load := fun (fk n : Nat) (aligned l1 : Bool) (dest : Dest) =>
      ({ kind := .load, fk := fk, ask := { n := n, write := false, aligned := aligned, atom := none }, dest := dest, q := f.q.toNat,
         sc := f.sc.toNat, hint := f.h.toNat, l1 := l1, flag := flagSel s.w f.fs } : MemW)
    let store := fun (aligned : Bool) =>
      ({ kind := .store, fk := 1, ask := { n := st, write := true, aligned := aligned, atom := none }, dest := .none,
         q := f.q.toNat, sc := f.sc.toNat, hint := f.h.toNat, l1 := false, flag := flagSel s.w f.fs } : MemW)
    let pair := fun k =>
      if 0x70 ≤ f.a.toNat then sext64 (vRead s.rd f.a k) else pair64 (vRead s.rd f.a k) (vRead s.rd (f.a + 1) k)
    let scratch := fun k => BitVec.ofNat 64 (0xFF * 2 ^ 56 + (vRead s.rd f.a k).toNat)
    let passes := s.w.width / 32
    let n := 4 * 2 ^ (f.z.toNat - 2)
    MemWord (.ld f) s (load 0 ld.1 (decide (f.q.toNat = 1)) (decide (f.q.toNat = 0)) (.thread f.d.toNat ld.1 ld.2)) pair
      (fun _ => []) id s.rd.slots passes 0 ∧
    MemWord (.st f) s (store (decide (f.q.toNat = 2))) pair (stBytes s f.d st) id s.rd.slots passes 1 ∧
    MemWord (.lds f) s (load 0 ld.1 true false (.thread f.d.toNat ld.1 ld.2)) scratch (fun _ => []) id s.rd.slots passes 0 ∧
    MemWord (.sts f) s (store true) scratch (stBytes s f.d st) id s.rd.slots passes 1 ∧
    MemWord (.ldw f) s (load 4 n true (decide (f.q.toNat = 0)) (.wave f.d.toNat n)) (fun _ => sReg64 s.rd f.a.toNat)
      (fun _ => []) (fun _ => 128) [(lowestSlot s.rd.live s.w.width).getD 0] passes 0

/-- R216: the bytes that a store sends: the low bytes of D, of the pair D, or of the quad D, the lowest register first. -/
def Sys2Proof.Claims.StoreBytes : Prop :=
  ∀ (s : State) (d : BitVec 7) (k : Nat), d.toNat < 0x70 →
    (∀ n, n = 1 ∨ n = 2 ∨ n = 4 → leNat (stBytes s d n k) = (vRead s.rd d k).toNat % 2 ^ (8 * n) ∧ (stBytes s d n k).length = n) ∧
    leNat (stBytes s d 8 k) = (vRead s.rd d k).toNat + (vRead s.rd (d + 1) k).toNat * 2 ^ 32 ∧ (stBytes s d 8 k).length = 8 ∧
    (d.toNat % 4 = 0 → leNat (stBytes s d 16 k) =
      (vRead s.rd d k).toNat + (vRead s.rd (d + 1) k).toNat * 2 ^ 32 + (vRead s.rd (d + 2) k).toNat * 2 ^ 64 +
        (vRead s.rd (d + 3) k).toNat * 2 ^ 96) ∧ (stBytes s d 16 k).length = 16

/-- The load and store words issue with the bytes that they name.
It rests on choices of the model: logs 11, 12 and 31. -/
def Obligations.LoadAndStoreWords : Prop :=
  Sys2Proof.Claims.LoadsAndStoresIssue ∧ Sys2Proof.Claims.StoreBytes

/-- R220, R223 to R226: each atomic form, CAS, POLL, CWB and CINV answers a next state whenever no slot's address fails its checks:
its operation is in flight (no peer package refuses a CWB, CINV or PREF). The operand is D, CAS takes its comparand from D and its new value from the register or pair after it,
POLL its comparand from D. PREF answers a next state whatever its checks say, its failing slots doing nothing. -/
def Sys2Proof.Claims.AtomicsAndMaintenanceIssue : Prop :=
  ∀ (s : State) (f : MemF) (p : PrefF) (c : CacheF),
    let v := fun (r : BitVec 7) k => vRead s.rd r k
    let pair := fun (r : BitVec 7) k => if 0x70 ≤ r.toNat then sext64 (v r k) else pair64 (v r k) (v (r + 1) k)
    let passes := s.w.width / 32
    let m := fun (kind : MKind) (form n : Nat) =>
      ({ kind := kind, fk := 2, ask := { n := n, write := true, aligned := true, atom := some (form, f.sc.toNat) },
         dest := .thread f.d.toNat n false, q := f.q.toNat, sc := f.sc.toNat, hint := f.h.toNat, l1 := false,
         flag := flagSel s.w f.fs } : MemW)
    let w4 := fun k => leBytes (v f.d k).toNat 4
    let w8 := fun k => leBytes (pair f.d k).toNat 8
    let line := fun (kind : MKind) =>
      ({ kind := kind, fk := 6, ask := { n := 1, write := false, aligned := false, atom := none, peers := false }, dest := .none, q := 0,
         sc := c.sc.toNat, hint := 0, l1 := false, flag := flagSel s.w c.fs } : MemW)
    MemWord (.atomAddI32 f) s (m (.atom 0) 0 4) (pair f.a) w4 id s.rd.slots passes 0 ∧
    MemWord (.atomAddI64 f) s (m (.atom 1) 1 8) (pair f.a) w8 id s.rd.slots passes 0 ∧
    MemWord (.atomAddF32 f) s (m (.atom 2) 2 4) (pair f.a) w4 id s.rd.slots passes 0 ∧
    MemWord (.atomAddF64 f) s (m (.atom 3) 3 8) (pair f.a) w8 id s.rd.slots passes 0 ∧
    MemWord (.atomMinI32 f) s (m (.atom 4) 4 4) (pair f.a) w4 id s.rd.slots passes 0 ∧
    MemWord (.atomMaxI32 f) s (m (.atom 5) 5 4) (pair f.a) w4 id s.rd.slots passes 0 ∧
    MemWord (.atomMinN32 f) s (m (.atom 6) 6 4) (pair f.a) w4 id s.rd.slots passes 0 ∧
    MemWord (.atomMaxN32 f) s (m (.atom 7) 7 4) (pair f.a) w4 id s.rd.slots passes 0 ∧
    MemWord (.atomAndB32 f) s (m (.atom 8) 8 4) (pair f.a) w4 id s.rd.slots passes 0 ∧
    MemWord (.atomOrB32 f) s (m (.atom 9) 9 4) (pair f.a) w4 id s.rd.slots passes 0 ∧
    MemWord (.atomXorB32 f) s (m (.atom 10) 10 4) (pair f.a) w4 id s.rd.slots passes 0 ∧
    MemWord (.atomExchB32 f) s (m (.atom 11) 11 4) (pair f.a) w4 id s.rd.slots passes 0 ∧
    MemWord (.atomExchB64 f) s (m (.atom 12) 12 8) (pair f.a) w8 id s.rd.slots passes 0 ∧
    MemWord (.casB32 f) s (m .cas 13 4) (pair f.a) (fun k => leBytes (v f.d k).toNat 4 ++ leBytes (v (f.d + 1) k).toNat 4) id
      s.rd.slots passes 0 ∧
    MemWord (.casB64 f) s (m .cas 14 8) (pair f.a) (fun k => leBytes (pair f.d k).toNat 8 ++ leBytes (pair (f.d + 2) k).toNat 8) id
      s.rd.slots passes 0 ∧
    MemWord (.poll f) s
      { kind := .poll, fk := 0, ask := { n := 4, write := false, aligned := true, atom := none }, dest := .thread f.d.toNat 4 false,
        q := f.q.toNat, sc := f.sc.toNat, hint := f.h.toNat, l1 := false, flag := flagSel s.w f.fs } (pair f.a) w4 id s.rd.slots
      passes 0 ∧
    MemWord (.cwb c) s (line .cwb) (pair c.a) (fun _ => []) id s.rd.slots passes 0 ∧
    MemWord (.cinv c) s (line .cinv) (pair c.a) (fun _ => []) id s.rd.slots passes 0 ∧
    (let pm : MemW :=
       { kind := .pref, fk := 6, ask := { n := 1, write := false, aligned := false, atom := none, peers := false }, dest := .none, q := 0, sc := 0,
         hint := p.h.toNat, l1 := false, flag := none }
     let r := memSlots pm (pair p.a) (fun _ => []) (fun k => k % 32) id s.rd s.rd.slots s
     ∃ t, exec (.pref p) s = .next t ∧ MemIssue { s with reports := t.reports } t pm r.2.1 passes ∧
       (r.2.2 = [] → t.reports = s.reports))

/-- R239, R242, R244: FENCE completes at once and stands; while a fence of a wave stands, no group of it with a VMEM or XENG word
issues. A fence goes as soon as every read of the wave before it has been performed (but for rel), every access before it has been
performed at its scope (but for acq), and, for sc at system scope, no fabric port holds a write whose bytes the wave was given; the
acquire of a TBTEST, kind 4, goes when the TBTEST has been applied. One that acquires at cluster scope or wider leaves nothing in
its core's L1. -/
def Sys2Proof.Claims.FenceHolds : Prop :=
  (∀ (s : State) (f : FenceF), ∃ t, exec (.fence f) s = .next t ∧
    t = { s with
      w := { s.w with pc := s.w.pc + 4, scSys := s.w.scSys || (decide (f.q.toNat = 0) && decide (f.sc.toNat = 4)) },
      nextOp := s.nextOp + 1,
      fences := s.fences ++ [{ wave := s.w.uid, kind := f.q.toNat, sc := f.sc.toNat, seq := s.nextOp }] } ∧ SameMemory s t) ∧
  (∀ (s : State) (w : Wave) (h : FenceHold) (op : Nat) (i : Instr) (b : Word) (rest : List Word), h ∈ s.fences → h.wave = w.uid →
    pipeOf op i = .vmem ∨ pipeOf op i = .xeng →
    wordMay s w op i = false ∧
      (groupAt s w = b :: rest → isHeader b = false → checkGroup s w (packetPos w.pc) (b :: rest) = none →
        (op, i) ∈ (b :: rest).filterMap instrOf → mayIssue s w = false)) ∧
  (∀ (s : State) (h : FenceHold),
    let early := fun (o : MemOp) => o ∈ s.memOps ∧ o.wave = h.wave ∧ o.seq < h.seq
    let met :=
      if h.kind = 4 then ∀ o ∈ s.tbOps, o.wave = h.wave → o.seq ≠ h.seq
      else
        (h.kind = 2 ∨ ∀ o, early o → o.kind.reads = true → ∀ a ∈ o.accs, a.done = true) ∧
        (h.kind = 1 ∨ ∀ o, early o → ∀ a ∈ o.accs, a.done = true ∧ (o.kind = .store → a.acked = true)) ∧
        (h.kind = 0 → h.sc = 4 → ∀ x ∈ s.held, h.wave ∉ x.readers)
    (h ∈ (settleFences s).fences ↔ h ∈ s.fences ∧ ¬ met) ∧
    (h ∈ s.fences → met → h.kind ≠ 2 → 2 ≤ h.sc → ∀ w, s.findWave h.wave = some w →
      ∀ l ∈ (settleFences s).l1, l.core ≠ coreOf w.quad))

/-- The atomic, cache and fence words issue, and a fence holds the words behind it.
It rests on choices of the model: log 11. -/
def Obligations.AtomicAndFenceWords : Prop :=
  Sys2Proof.Claims.AtomicsAndMaintenanceIssue ∧ Sys2Proof.Claims.FenceHolds

/-- R202, the first checks of an address in their order: reserved bits are cause 0x01, an aperture address outside the
reservation 0x06, a misaligned one 0x05, a region that does not admit the bytes 0x02; a scratchpad address that passes them all is one access
of those bytes, at its offset of the launch's reservation on the core that it names. -/
def Obligations.AddressChecks : Prop :=
  ∀ (s : State) (w : Wave) (lane : Nat) (a : Ask) (ptr : DWord), a.n ≠ 0 →
    let p := ptr.toNat
    let x := p % 2 ^ 32
    let region := p / 2 ^ 56
    let core := if x / 2 ^ 22 % 2 = 1 then coreOf w.quad / 4 * 4 + x / 2 ^ 20 % 4 else coreOf w.quad
    let fails := fun (code : Nat) => (checkPtr s w lane a ptr).2 = .error (AddrFail.of code)
    (region = 0xFF → p / 2 ^ 32 % 2 ^ 24 ≠ 0 → fails 1) ∧
    (region ≠ 0xFF → p / 2 ^ 49 % 2 ^ 7 ≠ 0 → fails 1) ∧
    (region ≠ 0xFF → p / 2 ^ 49 % 2 ^ 7 = 0 → ∀ c, s.ctxOf w.ctx = some c → regionOk c ptr a.n = false →
      (checkPtr s w lane a ptr).2 = .error { AddrFail.of 2 with off := regionOff c ptr }) ∧
    (region = 0xFF → p / 2 ^ 32 % 2 ^ 24 = 0 →
      (x / 2 ^ 23 ≠ 0 ∨ x / 2 ^ 19 % 2 ≠ 0 → fails 6) ∧
      (x / 2 ^ 23 = 0 → x / 2 ^ 19 % 2 = 0 →
        (s.resvOf w.launch core = none → fails 6) ∧
        ∀ r, s.resvOf w.launch core = some r →
          (r.size < x % 2 ^ 19 + a.n → (checkPtr s w lane a ptr).2 = .error { AddrFail.of 6 with off := r.size - x % 2 ^ 19 }) ∧
          (x % 2 ^ 19 + a.n ≤ r.size →
            (p % a.n ≠ 0 → a.direct = false → fails 5) ∧
            (p % a.n = 0 ∨ a.direct = true → placeRules s w a (.scr core (x % 2 ^ 19)) 0 = none →
              checkPtr s w lane a ptr =
                (s, .ok [{ loc := .scr core (x % 2 ^ 19), va := ptr, size := a.n, voff := 0, kind := 0, leafW := true }])))))

/-- The bytes at an address and after it set, every other kept. -/
def Spec.overlay (m : Nat → Byte) (at_ : Nat) (bs : List Byte) (x : Nat) : Byte :=
  if at_ ≤ x ∧ x < at_ + bs.length then bs.getD (x - at_) 0 else m x

/-- R216, R220, R222, R223: what an access of a kind writes, from the bytes that stand at its place and its own data; nothing for a
read, and for a CAS whose comparand differs. -/
def Spec.stores (kind : MKind) (size : Nat) (old data : List Byte) : Option (List Byte) :=
  let word := fun (bs : List Byte) => (BitVec.ofNat 32 (leNat bs) : Word)
  let out := fun (v : Word) => some (leBytes v.toNat data.length)
  let a := word old
  let b := word data
  match kind with
  | .store => some data
  | .atom 0 => some (leBytes (leNat old + leNat data) data.length)
  | .atom 1 => some (leBytes (leNat old + leNat data) data.length)
  | .atom 2 => some (leBytes (faddV .f32 .rne (fdecode .f32 (leNat old)) (fdecode .f32 (leNat data))).1 data.length)
  | .atom 3 => some (leBytes (faddV .f64 .rne (fdecode .f64 (leNat old)) (fdecode .f64 (leNat data))).1 data.length)
  | .atom 4 => out (Spec.minS a b)
  | .atom 5 => out (Spec.maxS a b)
  | .atom 6 => out (Spec.minU a b)
  | .atom 7 => out (Spec.maxU a b)
  | .atom 8 => out (a &&& b)
  | .atom 9 => out (a ||| b)
  | .atom 10 => out (a ^^^ b)
  | .atom _ => some data
  | .cas => if old = data.take size then some (data.drop size) else none
  | _ => none

/-- What an access has become when it has been performed over bytes `old`: a POLL whose word still equals its comparand waits for
its next round, every other access is done, and one that reads has those bytes. -/
def Spec.performed (kind : MKind) (a : Acc) (old : List Byte) : Acc :=
  match kind with
  | .store => { a with done := true, acked := true }
  | .poll => if old = a.data then { a with acked := true } else { a with got := old, done := true }
  | .load => { a with got := old, done := true }
  | .atom _ => { a with got := old, done := true }
  | .cas => { a with got := old, done := true }
  | _ => { a with done := true }

/-- R215, R222: the accesses of one request, each with its key and address, performed one after another over memory as it is seen under
each key: what memory holds then, and the accesses. -/
def Spec.serve (kind : MKind) : List (Nat × Nat × Acc) → (Nat → Nat → Byte) → (Nat → Nat → Byte) × List Acc
  | [], m => (m, [])
  | (key, x, a) :: l, m =>
    let old := (List.range a.size).map fun i => m key (x + i)
    let m1 := match Spec.stores kind a.size old a.data with
      | some bs => fun k => if k = key then Spec.overlay (m key) x bs else m k
      | none => m
    let r := Spec.serve kind l m1
    (r.1, Spec.performed kind a old :: r.2)

/-- R215, R235, R243, R220 to R224: MEMORY_REQUEST_APPLY on device memory, for a wave in no surrogate tile (a load's L1 aside). The
accesses of the request (those of one pass in one sector, and every load of the word that reads a byte with one of them) are performed
in slot order, each in one act: a load and a POLL read the bytes that stand there, a store leaves its own, an atomic returns the old bytes and leaves its form's value, a CAS stores only when the old bytes equal its
comparand. As a reader under their key sees them, no other byte changes; no byte outside their sectors changes for any
reader; the scratchpads, the tiles and the waves keep what they hold. -/
def Sys2Proof.Claims.DeviceAccessesApply : Prop :=
  ∀ (s : State) (op i : Nat) (o : MemOp) (a0 : Acc) (pa0 key : Nat), HasAcc s op i o a0 → a0.loc = .dev pa0 key → key < 4096 →
    mayApply s o i = true → o.token = none → o.l1 = false →
    let is := requestOf o i
    let at_ := fun (a : Acc) => match a.loc with | .dev pa k => (k, pa) | _ => (0, 0)
    let accs := (is.filterMap fun j => o.accs[j]?).map fun a => ((at_ a).1, (at_ a).2, a)
    let r := Spec.serve o.kind accs (devByte s)
    o.kind = .store ∨ (∀ x ∈ accs, isPoisoned s x.2.1 x.2.2.size = false) →
    (∃ k, o.kind = .load ∨ o.kind = .store ∨ o.kind = .atom k ∨ o.kind = .cas ∨ o.kind = .poll) →
    Answers (.memoryRequestApply op i) s fun t =>
      (∃ o2, t.memOps.find? (fun x => x.id == op) = some o2 ∧ o2.accs.length = o.accs.length ∧
        (∀ k j : Nat, is[k]? = some j → o2.accs[j]? = r.2[k]?) ∧ ∀ j, j ∉ is → o2.accs[j]? = o.accs[j]?) ∧
      (∀ x, devByte t key x = r.1 key x) ∧
      (∀ k x, (∀ y ∈ accs, x / 64 < y.2.1 / 64 ∨ (y.2.1 + max y.2.2.size y.2.2.data.length) / 64 < x / 64) →
        devByte t k x = devByte s k x) ∧
      t.resvs = s.resvs ∧ t.tiles = s.tiles ∧ t.w = s.w ∧ t.waves = s.waves

/-- R204, R215, R217, R220 to R224, R243: MEMORY_REQUEST_APPLY on a scratchpad within the launch's reservation there. The accesses of
the request, those of one pass in one bank group (log 61) and every load of the word that reads a byte with one of them, are performed in
slot order at one moment: a load and a POLL read the bytes that stand there, a store leaves its own, an atomic returns the old bytes and leaves its form's value in one act, a CAS
stores only when the old bytes equal its comparand. Every other byte of that scratchpad, the other reservations, memory and
the waves keep what they hold. -/
def Sys2Proof.Claims.ScratchpadAccessesApply : Prop :=
  ∀ (s : State) (op i : Nat) (o : MemOp) (a : Acc) (core off : Nat) (r : Resv), HasAcc s op i o a → mayApply s o i = true →
    a.loc = .scr core off → s.resvOf o.launch core = some r →
    (∃ k, o.kind = .load ∨ o.kind = .store ∨ o.kind = .atom k ∨ o.kind = .cas ∨ o.kind = .poll) →
    let is := requestOf o i
    let at_ := fun (b : Acc) => match b.loc with | .scr _ x => x | _ => 0
    let v := Spec.serve o.kind ((is.filterMap fun j => o.accs[j]?).map fun b => (0, at_ b, b)) fun _ => tget r.mem
    Answers (.memoryRequestApply op i) s fun t =>
      (∃ o2, t.memOps.find? (fun x => x.id == op) = some o2 ∧ o2.accs.length = o.accs.length ∧
        (∀ k j : Nat, is[k]? = some j → o2.accs[j]? = v.2[k]?) ∧ ∀ j, j ∉ is → o2.accs[j]? = o.accs[j]?) ∧
      (∃ r2, t.resvOf o.launch core = some r2 ∧ ∀ x, tget r2.mem x = v.1 0 x) ∧
      (∀ launch core2, launch ≠ o.launch ∨ core2 ≠ core → t.resvOf launch core2 = s.resvOf launch core2) ∧
      t.mem = s.mem ∧ t.sectorKey = s.sectorKey ∧ t.tiles = s.tiles ∧ t.w = s.w ∧ t.waves = s.waves

/-- What a load, a store, an atomic, a CAS and a POLL do where they are served.
It rests on choices of the model: logs 2, 31 and 63. -/
def Obligations.AccessesApply : Prop :=
  Sys2Proof.Claims.DeviceAccessesApply ∧ Sys2Proof.Claims.ScratchpadAccessesApply

/-- R215: MEMORY_RESPONSE of an operation all of whose accesses are done writes its destinations, in the registers of the mode
it issued in (R370), lets its flag fall and its marks go, and it leaves. A load's bytes fill the registers from D on of each of
its slots, lowest first, a narrow one extended by zero or by its sign. STORE_ACK does the same for a store, which has no
destination. Memory keeps every byte. -/
def Obligations.OperationsComplete : Prop :=
  ∀ (s : State) (op : Nat) (o : MemOp) (w : Wave), s.memOps.find? (fun x => x.id == op) = some o → opReady s o = true →
    s.findWave o.wave = some w → w.uid = o.wave →
    let leaves := fun (t : State) (w2 : Wave) =>
      t.findWave o.wave = some w2 ∧ t.memOps = s.memOps.filter (fun x => x.id != o.id) ∧ SameMemory s t ∧
        w2.flags = (flagDec w o.flag).flags ∧ w2.marks = w.marks.filter (fun m => decide (m.op ≠ some o.id)) ∧ w2.pc = w.pc
    (o.kind = .store → Answers (.storeAck op) s fun t => ∃ w2, leaves t w2 ∧
      ∀ r k, vRead w2 r k = vRead w r k) ∧
    (o.kind.isStore = false → ∀ sel n signed, o.dest = .thread sel n signed → sel + max 1 (n / 4) ≤ 0x68 →
      (∀ a ∈ o.accs, a.slot < 128) →
      Answers (.memoryResponse op) s fun t => ∃ w2, leaves t w2 ∧ (o.kind = .poll → w2.polls = 0) ∧
        ∀ r k, r.toNat < 0x68 → k < 128 →
          vRead { w2 with supervisor := o.sup } r k =
            let ws := loadWords n signed (slotBytes o.accs k n)
            if (∃ a ∈ o.accs, a.slot = k) ∧ sel ≤ r.toNat ∧ r.toNat < sel + ws.length then ws.getD (r.toNat - sel) 0
            else vRead { w with supervisor := o.sup } r k) ∧
    (o.kind.isStore = false → ∀ reg n, o.dest = .wave reg n → reg + max 1 (n / 4) ≤ 64 →
      Answers (.memoryResponse op) s fun t => ∃ w2, leaves t w2 ∧
        ∀ r, r < 64 → sReg { w2 with supervisor := o.sup } r =
          let ws := loadWords n false (slotBytes o.accs 128 n)
          if reg ≤ r ∧ r < reg + ws.length then ws.getD (r - reg) 0 else sReg { w with supervisor := o.sup } r)

/-- R224: a round of a POLL in which every pending slot has been read and some waits still begins again, and the wave's issue
priority falls one step. R209: a write-back's entry is free when the memory acknowledges it. R244: a write that a fabric port
holds is performed at its host address, and acknowledged. -/
def Sys2Proof.Claims.MemoryUnitEvents : Prop :=
  ∀ (s : State),
    (∀ op o w, s.memOps.find? (fun x => x.id == op) = some o → o.kind = .poll →
      o.unsent = false → o.accs.all (fun a => a.done || a.acked) = true → o.accs.any (fun a => !a.done) = true → s.findWave o.wave = some w →
      w.uid = o.wave →
      Answers (.pollReread op) s fun t => t.findWave o.wave = some { w with polls := w.polls + 1 } ∧ SameMemory s t ∧
        ∃ o2, t.memOps.find? (fun x => x.id == op) = some o2 ∧ o2.backoff = o.backoff + 1 ∧
          o2.accs = o.accs.map fun a => { a with acked := false }) ∧
    (∀ pa, pa % 512 = 0 → pa ∈ s.wbacks → Answers (.writebackAck pa) s fun t =>
      t = { s with wbacks := t.wbacks } ∧ t.wbacks.length + 1 = s.wbacks.length ∧ ∀ x, x ≠ pa → (x ∈ t.wbacks ↔ x ∈ s.wbacks)) ∧
    (∀ idx h pa, s.held[idx]? = some h → h.loc = .host pa → heldFirst s idx = true →
      Answers (.hostWritePerformed idx) s fun t =>
        t = { s with held := t.held, mem := t.mem, memOps := t.memOps } ∧ t.held.length + 1 = s.held.length ∧
        (∀ x, tget t.mem x = if pa ≤ x ∧ x < pa + h.data.length then h.data.getD (x - pa) 0 else tget s.mem x) ∧
        ∀ o a, HasAcc s h.op h.acc o a → ∃ o2, HasAcc t h.op h.acc o2 { a with acked := true })

/-- R208, R209: the sectors of a missed line that come from Shudor memory join the line where the slice holds it, and otherwise
take a free place of its set: the line is held with those sectors valid, the written ones dirty, and its request entry is
free. -/
def Sys2Proof.Claims.LineFills : Prop :=
  ∀ (s : State) (pa : Nat) (f : Fill), s.fills.find? (fun x => x.pa == lineOf pa) = some f →
    let held := s.l2.find? fun l => l.pa == f.pa && l.token.isNone
    (∀ l, held = some l → l.comp = false → f.pa = lineOf f.pa → Answers (.l2Fill pa) s fun t =>
      t = { s with l2 := t.l2, fills := s.fills.filter fun x => x != f } ∧ SameMemory s t ∧
      t.l2 = { l with valid := l.valid ||| f.sectors, dirty := l.dirty ||| f.dirty, prio := max l.prio f.prio } ::
        s.l2.filter (fun x => x != l)) ∧
    (held = none → f.pa = lineOf f.pa → ∀ half, l2Room s f.pa (lineComp s none f.pa f.sectors) none [] = some (half, []) →
      Answers (.l2Fill pa) s fun t =>
      t = { s with l2 := t.l2, fills := s.fills.filter fun x => x != f } ∧ SameMemory s t ∧
      t.l2 = { pa := f.pa, comp := lineComp s none f.pa f.sectors, prio := f.prio, valid := f.sectors, dirty := f.dirty, half := half,
               inv := false, token := none, grow := false } :: s.l2)

/-- The events of the memory units. -/
def Obligations.MemoryEvents : Prop :=
  Sys2Proof.Claims.MemoryUnitEvents ∧ Sys2Proof.Claims.LineFills

/-! ### Control (R27 to R34, R64, R78 to R98) -/

/-- R64, R79, R80: NOP only goes on; BRA goes to pkt + 12·sext(OFF15) when its condition holds on the wave as it stood before
its chain group, and to the next word otherwise; CALL pushes the next packet and RET pops it. A target whose word 0 is no clause
header is trap code 0x11 (R34), and CALL with eight entries is the call-depth trap. Nothing else changes. -/
def Sys2Proof.Claims.TransfersOfControl : Prop :=
  ∀ (s : State) (f : BraF) (g : CallF), f.cond.toNat < 7 →
    let pkt := s.w.pc.toNat - s.w.pc.toNat % 12
    let target := fun (off : BitVec 15) => (BitVec.ofInt 64 ((pkt : Int) + 12 * off.toInt) : DWord)
    let q := s.rd.q.getLsbD (if s.rd.supervisor ∧ f.qp.toNat = 7 then 8 else f.qp.toNat)
    let taken := [true, q, !q, decide (s.rd.exec = 0), decide (s.rd.exec ≠ 0), decide (s.rd.live = 0),
      decide (s.rd.fresh ≠ 0)].getD f.cond.toNat false
    exec .nop s = .next (s.withW { s.w with pc := s.w.pc + 4 }) ∧
    (taken = false → exec (.bra f) s = .next (s.withW { s.w with pc := s.w.pc + 4 })) ∧
    (taken = true → MayLand s (target f.off) → exec (.bra f) s = .next (s.withW { s.w with pc := target f.off })) ∧
    (taken = true → ¬ MayLand s (target f.off) → exec (.bra f) s = .next (trapNow s 1 0x11)) ∧
    (s.w.rstack.length < 8 → MayLand s (target g.off) → exec (.call g) s =
      .next (s.withW { s.w with pc := target g.off, rstack := afterPkt s.w.pc :: s.w.rstack })) ∧
    (s.w.rstack.length < 8 → ¬ MayLand s (target g.off) → exec (.call g) s = .next (trapNow s 1 0x11)) ∧
    (8 ≤ s.w.rstack.length → exec (.call g) s = .next (trapNow s 4 1)) ∧
    (∀ a rest, s.w.rstack = a :: rest → MayLand s a → exec .ret s = .next (s.withW { s.w with pc := a, rstack := rest })) ∧
    (∀ a rest, s.w.rstack = a :: rest → ¬ MayLand s a → exec .ret s = .next (trapNow s 1 0x11))

/-- R88 to R90, R93: EXIT, and RET with an empty stack, darken the slots that EXEC held before the group: LIVE and FRESH lose them,
and EXEC becomes empty; with no item left in a draining wave or in one whose cord is Closed and empty the wave retires, and otherwise
it goes on at the next packet, which must be a clause header (R34). DRAIN makes the wave draining, and one without an item retires. YIELD puts the wave last in its order. -/
def Sys2Proof.Claims.LeavingAndYielding : Prop :=
  ∀ (s : State),
    let m := s.rd.exec
    let lost := s.w.live &&& m
    let dark : Wave := { s.w with
      live := s.w.live &&& ~~~m, fresh := s.w.fresh &&& ~~~m, exec := 0,
      wdcnt := if lost = 0 then s.w.wdcnt else 0, wdArmed := s.w.wdArmed || decide (lost ≠ 0) }
    let gone := dark.live = 0 ∧ (s.w.draining = true ∨ cordDone s s.w = true)
    (∀ i, i = .exit ∨ (i = .ret ∧ s.w.rstack = []) →
      (gone → exec i s = .next (s.withW { dark with status := .retiring })) ∧
      (¬ gone → MayLand s (afterPkt s.w.pc) → exec i s = .next (s.withW { dark with pc := afterPkt s.w.pc })) ∧
      (¬ gone → ¬ MayLand s (afterPkt s.w.pc) → exec i s = .next (trapNow s 1 0x11))) ∧
    exec .drain s = .next (s.withW
      { s.w with draining := true, pc := s.w.pc + 4, status := if s.w.live = 0 then .retiring else s.w.status }) ∧
    exec .yield s = .next { s with
      w := { s.w with pc := s.w.pc + 4 }, order := s.order.filter (fun u => decide (u ≠ s.w.uid)) ++ [s.w.uid] }

/-- The words that transfer control, and the words by which slots and waves leave.
It rests on choices of the model: log 14. -/
def Obligations.TransfersAndLeaving : Prop :=
  Sys2Proof.Claims.TransfersOfControl ∧ Sys2Proof.Claims.LeavingAndYielding

/-- R31 to R33, R82, R85, R88, R89, R91: a clause header waits while a flag that it names counts an operation. Otherwise it answers a
next state: lr0 and lr1 are clear, SETA and SETB set, YLD puts the wave last; one that waited for a flag of engine operations joins
them, and its core's L1 is empty. Where it is no stoke point PC goes on and nothing else changes. At a stoke point, or the first
header of a new wave, a wave in the handler keeps FRESH and any other clears it, and one whose EXEC is not LIVE counts in STKSKIP;
where no slot is refilled, a wave with an item goes on, one that drains, or whose cord is Closed and empty, begins to retire, and any
other parks at the header. Waves parked on a cord that is Closed and empty begin to retire. -/
def Sys2Proof.Claims.ClauseHeaders : Prop :=
  ∀ (s : State) (f : ClauseF),
    let waits := ∃ i, i < 12 ∧ f.wait.getLsbD i = true ∧ fRead s.w i ≠ 0
    let names := fun (k : Nat) => (List.range 12).any fun i => f.wait.getLsbD i && fIdx s.w i == k
    let joins := (List.range 13).any fun k => names k && s.w.engFlags.getLsbD k
    let order := if f.yld then s.order.filter (fun u => decide (u ≠ s.w.uid)) ++ [s.w.uid] else s.order
    let l1 := if joins then s.l1.filter (fun l => decide (l.core ≠ coreOf s.w.quad)) else s.l1
    let w1 : Wave := { s.w with lr0 := [], lr1 := [], seta := f.seta.toNat, setb := f.setb.toNat }
    let flags := fun (t : State) => ∀ k, k < 13 → t.w.engFlags.getLsbD k = (s.w.engFlags.getLsbD k && !names k)
    let fills := s.w.supervisor = false ∧ s.w.draining = false ∧ s.w.exec = s.w.live
    let skips := s.w.supervisor = false ∧ s.w.draining = false ∧ s.w.exec ≠ s.w.live
    let closedEmpty := match s.cordOf s.w.cord with | some c => c.closed && cordEmpty s c | none => false
    let leave := fun (x : Wave) => if closedEmpty && decide (x.status = .parked) && decide (x.cord = s.w.cord) && x.token.isNone then
      { x with draining := true, status := .retiring } else x
    (waits → exec (.clause f) s = .next s) ∧
    (¬ waits → f.stk = false → s.w.isNew = false → ∃ t, exec (.clause f) s = .next t ∧ flags t ∧
      t = { s with w := { w1 with engFlags := t.w.engFlags, pc := s.w.pc + 4 }, order := order, l1 := l1 }) ∧
    (¬ waits → (f.stk = true ∨ s.w.isNew = true) →
      ¬ fills ∨ takeItem s s.w = none ∨ (∀ i, i < s.w.width → s.w.live.getLsbD i = true) →
      ∃ t, exec (.clause f) s = .next t ∧ flags t ∧
        let w2 : Wave := { w1 with engFlags := t.w.engFlags, fresh := if s.w.supervisor then s.w.fresh else 0 }
        t = { s with
          order := order, l1 := l1, nextOp := s.nextOp + 1, waves := s.waves.map leave, saved := s.saved.map leave,
          turns := if fills then (1, s.w.cord, if s.w.status = .parked then 1 else stokeRank s.w) :: s.turns else s.turns
          launches := if skips then
            s.launches.map fun l => if l.id = s.w.launch then { l with stkskip := l.stkskip + 1 } else l else s.launches
          w :=
            if s.w.live ≠ 0 then { w2 with status := .running, isNew := false, pc := s.w.pc + 4 }
            else if s.w.draining = true ∨ cordDone s s.w = true then { w2 with status := .retiring, isNew := false }
            else if s.w.status = .parked then w2
            else { w2 with status := .parked, blockArg := s.nextOp } })

/-- R82 to R84, R309, R311: the stoke step of a wave in user mode whose EXEC is LIVE and which is not draining. The dark slots take, in
ascending order, the items that its cord holds ready, the range's items first and then those that have entered, as many as there
are: each such slot has its item's ordinal and argument words, LIVE and EXEC then hold it, and FRESH holds the refilled ones. A
slot that was live, or found no item, keeps its registers and its item; the cord has given exactly those items. -/
def Sys2Proof.Claims.StokeRefills : Prop :=
  ∀ (s : State) (f : ClauseF) (c : Cord),
    let dark := (List.range s.w.width).filter fun i => !s.w.live.getLsbD i
    let words := argWords s c.launch c.plan.args
    let left := c.range - c.taken
    let ready := ((List.range left).map fun k => ({ ord := c.taken + k, args := words } : Item)) ++ c.items
    let got := dark.zip ready
    (∀ i, i < 12 → f.wait.getLsbD i = true → fRead s.w i = 0) → (f.stk = true ∨ s.w.isNew = true) → s.w.supervisor = false →
    s.w.draining = false → s.w.exec = s.w.live → s.w.token = none → s.cordOf s.w.cord = some c →
    s.w.width ≤ 128 → s.w.args ≤ 96 → (∀ x ∈ ready, x.args.length = s.w.args) →
    (∀ i, s.w.width ≤ i → s.w.live.getLsbD i = false) → s.w.live ≠ 0 ∨ got ≠ [] →
    ∃ t, exec (.clause f) s = .next t ∧
      t.w.status = .running ∧ t.w.pc = s.w.pc + 4 ∧ SameMemory s t ∧ t.w.s = s.w.s ∧ t.w.o = s.w.o ∧
      t.cordOf s.w.cord =
        some { c with taken := c.taken + min dark.length left, items := c.items.drop (dark.length - left) } ∧
      (∀ i, t.w.live.getLsbD i = (s.w.live.getLsbD i || decide (∃ x ∈ got, x.1 = i))) ∧ t.w.exec = t.w.live ∧
      (∀ i, t.w.fresh.getLsbD i = decide (∃ x ∈ got, x.1 = i)) ∧
      (∀ x ∈ got, vRead t.w 0x6D x.1 = BitVec.ofNat 32 x.2.ord ∧
        ∀ r : BitVec 7, r.toNat < 96 → vRead t.w r x.1 = if r.toNat < s.w.args then x.2.args.getD r.toNat 0 else vRead s.w r x.1) ∧
      (∀ i, i < s.w.width → (∀ x ∈ got, x.1 ≠ i) → vRead t.w 0x6D i = vRead s.w 0x6D i ∧
        ∀ r : BitVec 7, r.toNat < 96 → vRead t.w r i = vRead s.w r i)

/-- The clause header, and the stoke step. -/
def Obligations.HeadersAndStoking : Prop :=
  Sys2Proof.Claims.ClauseHeaders ∧ Sys2Proof.Claims.StokeRefills

/-- R91, R23, R35: PARKED_RESTOKE of a parked wave with no item that is first in its cord's line while its cord holds an item:
the wave runs, slot 0 is refilled, and PC leaves the header. VECTOR_PASS counts one pass of a held pipe down and frees it after
the last. RESULT_WRITEBACK clears one latency mark of a wave and leaves the marks of operations. -/
def Sys2Proof.Claims.IssueEvents : Prop :=
  ∀ (s : State) (u : Nat) (w : Wave), s.findWave u = some w → w.uid = u →
    (restokeReady s w = true → w.live = 0 → w.exec = 0 → w.supervisor = false → w.draining = false → 0 < w.width →
      Answers (.parkedRestoke u) s fun t => t.mem = s.mem ∧ t.resvs = s.resvs ∧ ∃ w2, t.findWave u = some w2 ∧ w2.status = .running ∧
        w2.pc = w.pc + 4 ∧ w2.live.getLsbD 0 = true ∧ w2.exec.getLsbD 0 = true ∧ w2.fresh.getLsbD 0 = true) ∧
    (∀ n b rest, s.pipes = b :: rest → pipeNo n = b.pipe →
      exec (.vectorPass b.quad n) s =
        .next { s with pipes := if b.left ≤ 1 then rest else { b with left := b.left - 1 } :: rest }) ∧
    (∀ n m, w.marks[n]? = some m → Answers (.resultWriteback u n) s fun t => SameMemory s t ∧
      t.findWave u = some { w with marks := if m.op = none then w.marks.eraseIdx n else w.marks })

/-- R96 to R98: GIVE returns the highest registers to the launch's pool of the quadrant and CLAIM takes registers from it, in
rows of one register of a pass each; registers that come back read zero, the others keep their values, and no other pool
changes. A GIVE below the least of R97, or a CLAIM beyond 96, is trap code 0x08. CLAIM.TRY writes 1 or 0; a CLAIM that cannot
be met blocks in the line, and CLAIM_GRANT lets it run. -/
def Sys2Proof.Claims.RegisterSharing : Prop :=
  ∀ (s : State) (g : GiveF) (f : ClaimTryF),
    let rows := fun (n : Nat) => n * s.w.width / 32
    let pool := poolOf s s.w.launch s.w.quad
    let others := fun (t : State) => SameMemory s t ∧
      ∀ l q, l ≠ s.w.launch ∨ q ≠ s.w.quad → poolOf t l q = poolOf s l q
    let keeps := fun (t : State) (n : Nat) => ∀ r i, r.toNat < 0x60 → i < 128 →
      vRead t.w r i = if r.toNat < n then vRead s.w r i else 0
    let taken := fun (t : State) (n : Nat) => others t ∧ t.w.nregs = s.w.nregs + n ∧ t.w.pc = s.w.pc + 4 ∧
      (poolOf t s.w.launch s.w.quad).rows = pool.rows - rows n ∧ keeps t s.w.nregs
    (g.imm.toNat + 8 ≤ s.w.nregs → g.imm.toNat + 8 * ((s.w.args + 7) / 8) ≤ s.w.nregs →
      Answers (.give g) s fun t => others t ∧ t.w.nregs = s.w.nregs - g.imm.toNat ∧ t.w.pc = s.w.pc + 4 ∧
        poolOf t s.w.launch s.w.quad = { pool with rows := pool.rows + rows g.imm.toNat } ∧ keeps t (s.w.nregs - g.imm.toNat) ∧
        t.w.s = s.w.s ∧ t.w.o = s.w.o) ∧
    (s.w.nregs < g.imm.toNat + 8 ∨ s.w.nregs < g.imm.toNat + 8 * ((s.w.args + 7) / 8) →
      exec (.give g) s = .next (trapNow s 1 8)) ∧
    (96 < s.w.nregs + g.imm.toNat → exec (.claim g) s = .next (trapNow s 1 8)) ∧
    (s.w.nregs + g.imm.toNat ≤ 96 → claimMet s s.w g.imm.toNat = true →
      Answers (.claim g) s fun t => taken t g.imm.toNat ∧ t.w.s = s.w.s) ∧
    (s.w.nregs + g.imm.toNat ≤ 96 → claimMet s s.w g.imm.toNat = false →
      Answers (.claim g) s fun t => others t ∧ t.w = { s.w with
          status := .blocked, blocked := .claim g.imm.toNat, blockArg := s.w.pc.toNat } ∧
        (poolOf t s.w.launch s.w.quad).rows = pool.rows ∧ ∃ n, (s.w.uid, n) ∈ (poolOf t s.w.launch s.w.quad).line) ∧
    (96 < s.w.nregs + f.imm.toNat → exec (.claimTry f) s = .next (trapNow s 1 8)) ∧
    (s.w.nregs + f.imm.toNat ≤ 96 → f.sd.toNat < 64 →
      Answers (.claimTry f) s fun t =>
        (if claimMet s s.w f.imm.toNat then taken t f.imm.toNat
         else others t ∧ t.w.nregs = s.w.nregs ∧ t.pools = s.pools ∧ t.w.v = s.w.v ∧ t.w.pc = s.w.pc + 4) ∧
        SRegs s t f.sd.toNat [if claimMet s s.w f.imm.toNat then 1 else 0]) ∧
    (∀ u w n, s.findWave u = some w → w.uid = u → w.status = .blocked → w.group = 0 → w.blocked = .claim n →
      claimMet s w n = true →
      Answers (.claimGrant u) s fun t => SameMemory s t ∧ t.pools = s.pools ∧
        t.findWave u = some { w with status := .running, blocked := .none })

/-- The events of issue, and the register pools.
It rests on choices of the model: log 39. -/
def Obligations.IssueAndRegisterPools : Prop :=
  Sys2Proof.Claims.IssueEvents ∧ Sys2Proof.Claims.RegisterSharing

/-! ### Traps (R94, R361 to R374) -/

/-- R366, R369: a trap in user mode whose handler can be entered sets every record of the handler: the faulters are those of its
slots that are live. HANDLER_ENTRY takes a trap that waited for the wave's floating-point words in the same way. (A BKPT of a context
with debug enabled is R94's.) -/
def Sys2Proof.Claims.TrapsEnterTheHandler : Prop :=
  ∀ (s : State) (tr : Trap) (h : DWord), tr.escalates = false → tr.kind ≠ .partner → (tr.faults.map fun f => f.slot).Nodup →
    (∀ f ∈ tr.faults, f.slot < 128) →
    let enters := fun (s t : State) =>
      let live := tr.faults.filter fun f => s.w.live.getLsbD f.slot
      EntersHandler s t { tr with mask := tr.mask &&& s.w.live, faults := live }
        (if tr.cls = 5 ∨ tr.cls = 6 then 1
         else if tr.cls = 7 ∧ ∀ f ∈ live, f.cause.toNat / 2 ^ 16 % 2 ^ 16 = 0x0703 then 0 else 2) h
    (tr.cls ≠ 6 ∨ debugOn s s.w.ctx = false → HandlerAt s h → s.w.supervisor = false → tr.mask &&& s.w.live ≠ 0 → enters s (takeTrap s tr)) ∧
    (∀ u w, s.findWave u = some w → w.uid = u → w.trap = some tr → w.status = .running →
      tr.cls ≠ 6 ∨ debugOn s w.ctx = false →
      (∀ m ∈ w.marks, m.reg ≠ .fpsr) → w.supervisor = false → tr.mask &&& w.live ≠ 0 → HandlerAt (checkOut s u) h →
      Answers (.handlerEntry u) s fun t => (checkOut s u).w = w ∧ enters (checkOut s u) t)

/-- R374: a trap in supervisor mode, one that must escalate (cause 0x09 of R366), one without a live slot, and one with no
handler suspend the wave and are reported with FPC and FMASK; the wave keeps its registers and memory every byte. Only the
watchdog's ends the launch. A fault of a word of RFT's own group (R368) suspends the wave as a fault of its handler would, with that
fault's address and cause in the report beside the first one's FPC and FMASK. -/
def Sys2Proof.Claims.TrapsEscalate : Prop :=
  ∀ (s : State) (tr : Trap),
    (∀ c, s.ctxOf s.w.ctx = some c → tr.kind = .partner → tr.cls ≠ 0x0D → s.w.supervisor = false →
      let cause := fun (fs : List SlotFault) => match fs.head? with | some f => f.cause | none => 0
      takeTrap s tr = { s with
        w := { s.w with status := .suspended, trap := none, replay := false }
        reports := s.reports ++ [.escalation s.w.launch s.w.uid s.w.fpc s.w.fmask (cause s.w.frame.trap.faults) tr.fpc
          (cause (tr.faults.filter fun f => s.w.live.getLsbD f.slot))] }) ∧
    (tr.kind ≠ .partner →
    s.w.supervisor = true ∨ tr.escalates = true ∨ tr.mask &&& s.w.live = 0 ∨ (∀ h, ¬ HandlerAt s h) →
    s.w.supervisor = true ∨ tr.cls ≠ 6 ∨ debugOn s s.w.ctx = false →
    let t := takeTrap s tr
    t.w.status = .suspended ∧ t.w.trap = none ∧ SameMemory s t ∧ t.waves = s.waves ∧
      (∀ r k, vRead t.w r k = vRead s.w r k) ∧ (∀ n, sReg t.w n = sReg s.w n) ∧ t.w.q = s.w.q ∧ t.w.exec = s.w.exec ∧
      t.w.live = s.w.live ∧ t.w.pc = s.w.pc ∧ t.w.supervisor = s.w.supervisor ∧
      (s.w.supervisor = false → t.w.fpc = tr.fpc ∧ t.w.fmask = tr.mask &&& s.w.live) ∧
      (s.w.supervisor = true → t.w.fpc = s.w.fpc ∧ t.w.fmask = s.w.fmask) ∧
      (∃ cause sup supc, t.reports = s.reports ++ [.escalation s.w.launch s.w.uid t.w.fpc t.w.fmask cause sup supc]) ∧
      t.launches = s.launches.map fun l =>
        if tr.cls = 0x0D ∧ l.id = s.w.launch then { l with ending := some (l.ending.getD 1) } else l)

/-- How a trap is taken: the handler's entry, and escalation.
It rests on choices of the model: log 13. -/
def Obligations.TakingATrap : Prop :=
  Sys2Proof.Claims.TrapsEnterTheHandler ∧ Sys2Proof.Claims.TrapsEscalate

/-- R94, R119, R366, R367, R369: TRAP and BKPT with an empty EXEC go to the next packet. Otherwise, as the last word of a group in user
mode whose floating-point words have completed, each enters the handler, with every EXEC slot a faulter, FVA 0, IMM15 in FCAUSE, the
class 0x05 or 0x06, HCTL.ACT 1, FPC its own address, and the next packet as its continuation; while a floating-point word is in its
passes, the trap waits. A BKPT of a context with debug enabled makes those records and suspends its wave instead, and the Keystone
core is told its place.
It rests on choices of the model: log 13. -/
def Obligations.TrapWords : Prop :=
  ∀ (s : State) (f : TrapF), s.w.supervisor = false → s.w.trap = none → s.grpMore = 0 →
    let next := afterPkt s.w.pc
    let tr := fun (cls : Nat) => ({
      cls := cls, mask := s.rd.exec &&& s.w.live, fpc := s.w.pc, cont := next, kind := .packet,
      faults := (s.rd.slots.filter fun i => s.w.live.getLsbD i).map fun i =>
        { slot := i, cause := BitVec.ofNat 32 (cls * 2 ^ 24 + f.code.toNat), va := 0 },
      wordBits := s.wordBits, escalates := false } : Trap)
    let passed := ∀ m ∈ s.w.marks, m.reg ≠ .fpsr
    (s.rd.exec = 0 → MayLand s next →
      exec (.trap f) s = .next (s.withW { s.w with pc := next }) ∧ exec (.bkpt f) s = .next (s.withW { s.w with pc := next })) ∧
    (s.rd.exec &&& s.w.live ≠ 0 → s.rd.width ≤ 128 → passed → ∀ h, HandlerAt s h →
      Answers (.trap f) s (fun t => EntersHandler s t (tr 5) 1 h) ∧
      (debugOn s s.w.ctx = false → Answers (.bkpt f) s fun t => EntersHandler s t (tr 6) 1 h)) ∧
    (s.rd.exec ≠ 0 → ¬ passed → ∀ i cls, (i = .trap f ∧ cls = 5) ∨ (i = .bkpt f ∧ cls = 6) → ∃ x : Trap,
      exec i s = .next (s.withW { s.w with trap := some x }) ∧ x.cls = cls ∧ x.mask = s.rd.exec ∧ x.fpc = s.w.pc ∧ x.cont = next) ∧
    (s.rd.exec ≠ 0 → s.rd.width ≤ 128 → passed → debugOn s s.w.ctx = true → Answers (.bkpt f) s fun t =>
      t.w.status = .suspended ∧ t.w.fpc = s.w.pc ∧ t.w.fmask = s.rd.exec &&& s.w.live ∧ t.w.exec = s.w.exec ∧ t.w.pc = s.w.pc ∧
        t.w.frame.trap.cont = next ∧ t.reports = s.reports ++ [.breakpoint s.w.launch s.w.uid s.w.pc] ∧
        t = { s with w := t.w, reports := t.reports } ∧ (∀ r k, vRead t.w r k = vRead s.w r k) ∧
        ∀ x ∈ (tr 6).faults, vRead { t.w with supervisor := true } 0x66 x.slot = x.cause)

/-- R373, R374: RFT waits for the wave's system words. It then gives back lr0, lr1, FPCR, FPSR (with the flags of its own group, R119),
the user clause's flag selection and user mode, and by HCTL.ACT: 1
goes on after the trap with EXEC = UEXEC & LIVE; 3 does so after darkening the faulters, and a wave with no item left in a
draining wave or a Closed and empty cord retires; 0 executes the word at FPC again in the faulters; 2 suspends the wave and is
reported. Every other register keeps its value, in both banks. A fault of another word of its group, in supervisor mode, escalates once
the wave's floating-point words have completed.
It rests on choices of the model: log 28. -/
def Obligations.ReturnsFromTheHandler : Prop :=
  ∀ (s : State),
    let fr := s.w.frame
    let back : Wave := { s.w with
      lr0 := fr.lr0, lr1 := fr.lr1, fpcr := fr.fpcr, fpsr := fr.fpsr ||| s.grpFlags, seta := fr.seta, setb := fr.setb,
      supervisor := false, trap := none, replay := false,
      status := .running }
    let act := s.w.hctl.toNat % 4
    let dark := s.w.live &&& ~~~s.w.fmask
    let lands := fr.trap.kind ≠ .packet ∨ MayLand s fr.trap.cont
    ((∃ o ∈ s.sysOps, o.wave = s.w.uid) → exec .rft s = .next s) ∧
    ((∀ o ∈ s.sysOps, o.wave ≠ s.w.uid) → ∀ x, s.w.trap = some x →
      ((∀ m ∈ s.w.marks, m.reg ≠ .fpsr) → Answers .rft s fun t =>
        t.w.status = .suspended ∧ (act = 0 ∨ act = 2 ∨ lands → t.w.supervisor = false) ∧ SameMemory s t ∧
          ∃ fpc mask cause sup supc, t.reports.getLast? = some (.escalation s.w.launch s.w.uid fpc mask cause sup supc)) ∧
      (¬ (∀ m ∈ s.w.marks, m.reg ≠ .fpsr) → Answers .rft s fun t =>
        t.w.trap = some { x with kind := .partner } ∧ t.w.supervisor = false ∧ SameMemory s t)) ∧
    ((∀ o ∈ s.sysOps, o.wave ≠ s.w.uid) → s.w.trap = none →
      (act = 1 → lands → exec .rft s = .next (s.withW
        { back with exec := s.w.uexec &&& s.w.live, wdcnt := 0, wdArmed := true, pc := fr.trap.cont })) ∧
      (act = 3 →
        let w3 : Wave := { back with
          live := dark, fresh := s.w.fresh &&& ~~~s.w.fmask, exec := s.w.uexec &&& dark, wdcnt := 0, wdArmed := true }
        (dark = 0 ∧ (s.w.draining = true ∨ cordDone s s.w = true) →
          exec .rft s = .next (s.withW { w3 with status := .retiring })) ∧
        (¬ (dark = 0 ∧ (s.w.draining = true ∨ cordDone s s.w = true)) → lands →
          exec .rft s = .next (s.withW { w3 with pc := fr.trap.cont }))) ∧
      (act = 0 → fr.trap.cls ≠ 0x0C → fr.trap.kind ≠ .header →
        exec .rft s = .next (s.withW { back with exec := s.w.fmask, pc := s.w.fpc, replay := true })) ∧
      (act = 0 → fr.trap.cls = 0x0C → exec .rft s = .next (s.withW
        { back with exec := s.w.uexec &&& s.w.live, pc := fr.trap.fpc + 4 * BitVec.ofNat 64 fr.trap.wordBits.toNat })) ∧
      (act = 0 → fr.trap.cls ≠ 0x0C → fr.trap.kind = .header →
        exec .rft s = .next (s.withW { back with exec := s.w.uexec &&& s.w.live, pc := fr.trap.fpc })) ∧
      (act = 2 → Answers .rft s fun t => t.w = { back with status := .suspended } ∧ SameMemory s t ∧
        ∃ cause, t.reports = s.reports ++ [.escalation s.w.launch s.w.uid s.w.fpc s.w.fmask cause 0 0]))

/-! ### Layouts (R169 to R199) -/

/-- R181 to R188: LDEF, LCHAIN, LPART, LTRANS, LFLAT and LSWZ write their layout register from their sources as they stood before
the group, or raise the layout trap; LGET writes a descriptor word to a wave register and traps for no layout. -/
def Sys2Proof.Claims.LayoutWords : Prop :=
  ∀ (s : State) (de : LdefF) (ch : LchainF) (pa : LpartF) (tr : LldF) (fl : LflatF) (g : LgetF),
    let lay := fun (n : BitVec 4) => layOf s.rd n.toNat
    let par := fun (n : BitVec 6) => (sReg s.rd n.toNat).toNat
    LayWord (.ldef de) s de.ld.toNat (ldefOf fun k => (sReg s.rd (de.s.toNat + k)).toNat) ∧
    LayWord (.lchain ch) s ch.ld.toNat (lchainOf (lay ch.la) (lay ch.lb)) ∧
    LayWord (.lpart pa) s pa.ld.toNat (lpartOf (lay pa.la) (par pa.s) pa.k.toNat) ∧
    LayWord (.ltrans tr) s tr.ld.toNat (ltransOf (lay tr.la) (par tr.s)) ∧
    LayWord (.lflat fl) s fl.ld.toNat (lflatOf (lay fl.la) fl.k.toNat) ∧
    LayWord (.lswz tr) s tr.ld.toNat
      (if (lay tr.la).modes = [] then .error 2
       else if 2 ^ 12 ≤ par tr.s then .error 1
       else if par tr.s / 2 ^ 8 ≠ 0 ∧ par tr.s / 2 ^ 4 % 2 ^ 4 < par tr.s / 2 ^ 8 then .error 3
       else .ok { lay tr.la with sb := par tr.s % 2 ^ 4, sm := par tr.s / 2 ^ 4 % 2 ^ 4, ss := par tr.s / 2 ^ 8 }) ∧
    Answers (.lget g) s (fun t =>
      t = { s with w := { s.w with s := t.w.s, marks := t.w.marks, pc := s.w.pc + 4 } } ∧ SameMemory s t ∧
        SRegs s t g.s.toNat [lgetWord (lay g.la) g.k.toNat])

/-- R175, R182, R183: a descriptor that is well-formed becomes a layout whose descriptor words LGET returns unchanged, ORIGIN's
high part extended by its sign; any other is refused with cause 0x01 for a reserved bit, 0x03 for the swizzle, 0x02 for the rest.
LGET's word 13 is the product of the extents, saturated, and an empty register reads zero. -/
def Sys2Proof.Claims.LayoutDescriptors : Prop :=
  ∀ (d : Nat → Nat), (∀ k, d k < 2 ^ 32) →
    let nm := d 9 % 8
    let km := d 9 / 2 ^ 3 % 8
    let lev := fun i => d 9 / 2 ^ (12 + 2 * i) % 4
    let die := fun i => d 9 / 2 ^ (6 + i) % 2
    let ext := fun i => d (6 + i / 2) / 2 ^ (16 * (i % 2)) % 2 ^ 16
    let ss := d 10 / 2 ^ 20 % 2 ^ 4
    let sm := d 10 / 2 ^ 16 % 2 ^ 4
    let reserved := d 9 / 2 ^ 24 ≠ 0 ∨ d 10 / 2 ^ 26 ≠ 0 ∨ d 12 / 2 ^ 16 ≠ 0
    let shape := 1 ≤ nm ∧ nm ≤ 6 ∧ (km < nm ∨ km = 7) ∧
      (∀ i, i < 6 → nm ≤ i → d i = 0 ∧ ext i = 0 ∧ lev i = 0 ∧ die i = 0) ∧
      (∀ i, i < nm → lev i ≠ 3 ∧ (0 < i → lev (i - 1) ≤ lev i))
    (reserved → ldefOf d = .error 1) ∧
    (¬ reserved → ss ≠ 0 ∧ sm < ss → ldefOf d = .error 3) ∧
    (¬ reserved → ¬ (ss ≠ 0 ∧ sm < ss) → ¬ shape → ldefOf d = .error 2) ∧
    (¬ reserved → ¬ (ss ≠ 0 ∧ sm < ss) → shape → ∃ l, ldefOf d = .ok l ∧ l.modes.length = nm ∧
      (∀ k, k < 12 → lgetWord l k = BitVec.ofNat 32 (d k)) ∧ lgetWord l 12 = (BitVec.ofNat 16 (d 12)).signExtend 32 ∧
      (lgetWord l 13).toNat = min (l.modes.map fun m => m.ext).prod 0xFFFFFFFF) ∧
    ∀ k, lgetWord Layout.empty k = 0

/-- R176, R177: the place that a layout gives to coordinates, with the sums exact, and the faults in their order; the swizzle is
its own inverse and changes only bits [SB+SS−1 : SB].
It rests on choices of the model: log 30. -/
def Obligations.LayoutLocates : Prop :=
  (∀ (l : Layout) (h : BitVec 256) (c : List Nat), c.length = l.modes.length →
    let part := fun (die : Bool) => (((l.modes.zip c).filter fun x => x.1.die == die).map fun x => (x.2 : Int) * x.1.step).sum
    let e := l.origin + part false
    let die := l.dorg + part true
    let b0 := e * (size2 (hFmt h) : Int) / 2
    let r := layoutLocate l h c
    let dies := die ≠ 0 ∨ ∃ m ∈ l.modes, m.die = true
    let inside := ∀ x ∈ l.modes.zip c, x.2 < x.1.ext
    (¬ inside → r = .fault 0x0A) ∧
    (inside → ¬ (-(2 ^ 47) ≤ e ∧ e < 2 ^ 47) → r = .fault 0x0D) ∧
    (inside → -(2 ^ 47) ≤ e ∧ e < 2 ^ 47 →
      (hV h = false → r = .fault 0x08) ∧
      (hV h = true → dies → hSpace h ≠ 4 → r = .fault 0x0C) ∧
      (hV h = true → (dies → hSpace h = 4) →
        (die < 0 ∨ 3 < die → r = .fault 0x0C) ∧
        (0 ≤ die → die ≤ 3 →
          (b0 < 0 → r = if hOobz h then .oob else .fault 0x0B) ∧
          ∀ n : Nat, b0 = n →
            (hBound h < swz l n + esize (hFmt h) → r = if hOobz h then .oob else .fault 0x0B) ∧
            (swz l n + esize (hFmt h) ≤ hBound h → r = .at die.toNat (swz l n) (e % 2).toNat e))))) ∧
  (∀ (l : Layout) (b : Nat), (l.ss = 0 → swz l b = b) ∧
    (0 < l.ss → l.ss ≤ l.sm →
      swz l (swz l b) = b ∧ swz l b / 2 ^ (l.sb + l.ss) = b / 2 ^ (l.sb + l.ss) ∧ swz l b % 2 ^ l.sb = b % 2 ^ l.sb ∧
      swz l b / 2 ^ l.sb % 2 ^ l.ss = (b / 2 ^ l.sb % 2 ^ l.ss) ^^^ (b / 2 ^ (l.sb + l.sm) % 2 ^ l.ss)))

/-- R185 to R188: what the composed layouts mean. Coordinate c of the part's mode stands for part·n + c or part + f·c of the
source's; a transposed layout gives the same place to the permuted coordinates; a merged mode's coordinate stands for the two that
it was made from; and chaining with one mode from index 0 gives index c·STEP of the source's coordinates in layout order. -/
def Sys2Proof.Claims.LayoutAlgebra : Prop :=
  (∀ (l l2 : Layout) (p k : Nat), k < 16 → lpartOf l p k = .ok l2 → ∀ c, c.length = l.modes.length →
    let n := ((l2.modes[k % 8]?).map fun m => m.ext).getD 0
    let x := c.getD (k % 8) 0
    l2.modes.length = l.modes.length ∧ ((l.modes[k % 8]?).map fun m => m.ext) = some (n * (p % 2 ^ 16 + 1)) ∧
      layPoint l2 c =
        layPoint l (c.set (k % 8) (if k < 8 then p / 2 ^ 16 * n + x else p / 2 ^ 16 + (p % 2 ^ 16 + 1) * x))) ∧
  (∀ (l l2 : Layout) (p : Nat), ltransOf l p = .ok l2 → ∀ c, c.length = l.modes.length →
    l2.modes.length = l.modes.length ∧
      layPoint l2 ((List.range c.length).map fun i => c.getD (p / 2 ^ (3 * i) % 8) 0) = layPoint l c) ∧
  (∀ (l l2 : Layout) (k : Nat), lflatOf l k = .ok l2 → ∀ c, c.length = l2.modes.length →
    let e := ((l.modes[k]?).map fun m => m.ext).getD 0
    l2.modes.length + 1 = l.modes.length ∧
      layPoint l2 c = layPoint l (c.take k ++ [c.getD k 0 % e, c.getD k 0 / e] ++ c.drop (k + 1))) ∧
  (∀ (a b d : Layout) (m : LMode), lchainOf a b = .ok d → b.modes = [m] → b.origin = 0 → (∀ x ∈ a.modes, 0 < x.ext) →
    ∀ c, c < m.ext → layPoint d (coordsOf d.modes c) = layPoint a (coordsOf a.modes (c * m.step.toNat)))

/-- R188, the first loop for a mode of LB: the modes of LA and the first one that is left, once LA's indices have been divided by `t`;
none where the loop fails. `i` is the loop's index, and each round raises it or ends the loop. -/
def Spec.chainDivide : Nat → List LMode → Nat → Nat → Option (List LMode × Nat)
  | 0, xs, i, _ => some (xs, i)
  | n + 1, xs, i, t =>
    if t ≤ 1 then some (xs, i)
    else match xs[i]? with
      | none => none
      | some m =>
        if t % m.ext = 0 then Spec.chainDivide n xs (i + 1) (t / m.ext)
        else if m.ext % t = 0 then some (xs.set i { m with ext := m.ext / t, step := m.step * (t : Int) }, i)
        else none

/-- R188, the second loop: `e` coordinates taken from mode `i` of LA on, under level `lv`. -/
def Spec.chainTake (lv : Nat) : Nat → List LMode → Nat → Nat → Option (List LMode)
  | 0, _, _, _ => some []
  | n + 1, xs, i, e =>
    if e ≤ 1 then some []
    else match xs[i]? with
      | none => none
      | some m =>
        if m.ext = 1 then Spec.chainTake lv n xs (i + 1) e
        else if e % m.ext = 0 then
          (Spec.chainTake lv n xs (i + 1) (e / m.ext)).map fun r => { ext := m.ext, step := m.step, die := m.die, lev := lv } :: r
        else if m.ext % e = 0 then some [{ ext := e, step := m.step, die := m.die, lev := lv }]
        else none

/-- R188: the modes that a mode of LB appends, over the modes of LA; none where it fails. -/
def Spec.chained (as : List LMode) (b : LMode) : Option (List LMode) :=
  if b.step < 0 then none
  else if b.ext = 1 ∨ b.step = 0 then some [{ ext := b.ext, step := 0, die := false, lev := b.lev }]
  else match Spec.chainDivide (as.length + 1) as 0 b.step.toNat with
    | none => none
    | some (xs, i) => Spec.chainTake b.lev (xs.length + 1) xs i b.ext

/-- R185 to R189: when LPART, LTRANS, LFLAT and LCHAIN succeed, with which result, and with which cause they refuse. An empty register as
a source is cause 0x02. LPART: a mode or factor or part that does not suit is 0x05, a step outside 32 bits or an ORIGIN outside 48 is 0x0D, a
DORG outside 0 to 3 is 0x0C. LTRANS: bits beyond its fields are 0x01, no permutation or levels that decrease 0x06. LFLAT: a merge that is
not exact is 0x07. LCHAIN: a source LB that R188 does not admit, a loop that fails, and more than six modes are 0x04, a step outside 32 bits
0x0D; for an ORIGIN or DORG out of its range the model takes LPART's causes (log 30). -/
def Sys2Proof.Claims.LayoutCompositions : Prop :=
  (∀ (l : Layout) (p k : Nat), l.modes = [] →
    lpartOf l p k = .error 2 ∧ ltransOf l p = .error 2 ∧ lflatOf l k = .error 2 ∧ ∀ b, lchainOf l b = .error 2 ∧ lchainOf b l = .error 2) ∧
  (∀ (l : Layout) (p k : Nat), k < 16 → l.modes ≠ [] →
    let f := p % 2 ^ 16 + 1
    let part := p / 2 ^ 16
    (l.modes.length ≤ k % 8 → lpartOf l p k = .error 5) ∧
    ∀ m, l.modes[k % 8]? = some m →
      let n := m.ext / f
      let suits := m.ext % f = 0 ∧ part < f
      let step : Int := if k < 8 then m.step else m.step * (f : Int)
      let shift : Int := if k < 8 then (part : Int) * (n : Int) * m.step else (part : Int) * m.step
      let stepIn := -(2 ^ 31) ≤ step ∧ step < 2 ^ 31
      let l2 : Layout := { l with modes := l.modes.set (k % 8) { m with ext := n, step := step } }
      (¬ suits → lpartOf l p k = .error 5) ∧
      (suits → ¬ stepIn → lpartOf l p k = .error 0x0D) ∧
      (suits → stepIn → m.die = true →
        lpartOf l p k = if 0 ≤ l.dorg + shift ∧ l.dorg + shift ≤ 3 then .ok { l2 with dorg := l.dorg + shift } else .error 0x0C) ∧
      (suits → stepIn → m.die = false →
        lpartOf l p k = if -(2 ^ 47) ≤ l.origin + shift ∧ l.origin + shift < 2 ^ 47 then .ok { l2 with origin := l.origin + shift }
          else .error 0x0D)) ∧
  (∀ (l : Layout) (p : Nat), l.modes ≠ [] →
    let nm := l.modes.length
    let field := fun (i : Nat) => p / 2 ^ (3 * i) % 8
    let lev := fun (i : Nat) => ((l.modes[field i]?).map fun m => m.lev).getD 0
    let perm := ∀ j, j < nm → ∃ i, i < nm ∧ field i = j
    let rising := ∀ i, i + 1 < nm → lev i ≤ lev (i + 1)
    (p / 2 ^ (3 * nm) ≠ 0 → ltransOf l p = .error 1) ∧
    (p / 2 ^ (3 * nm) = 0 → ¬ (perm ∧ rising) → ltransOf l p = .error 6) ∧
    (p / 2 ^ (3 * nm) = 0 → perm → rising → ∃ ms km, ltransOf l p = .ok { l with modes := ms, km := km } ∧ ms.length = nm ∧
      (∀ i, i < nm → ms[i]? = l.modes[field i]?) ∧ (l.km = 7 → km = 7) ∧ (l.km < nm → l.km ≠ 7 → km < nm ∧ field km = l.km))) ∧
  (∀ (l : Layout) (k : Nat), l.modes ≠ [] →
    (l.modes.length ≤ k + 1 → lflatOf l k = .error 7) ∧
    ∀ a b, l.modes[k]? = some a → l.modes[k + 1]? = some b →
      let exact := a.lev = b.lev ∧ a.die = b.die ∧ b.step = a.step * (a.ext : Int) ∧ a.ext * b.ext ≤ 65536 ∧ l.km ≠ k ∧ l.km ≠ k + 1
      (¬ exact → lflatOf l k = .error 7) ∧
      (exact → lflatOf l k = .ok { l with
        modes := l.modes.take k ++ [{ a with ext := a.ext * b.ext }] ++ l.modes.drop (k + 2)
        km := if l.km = 7 ∨ l.km < k then l.km else l.km - 1 })) ∧
  (∀ (a b : Layout), a.modes ≠ [] → b.modes ≠ [] →
    let admitted := (∀ m ∈ b.modes, m.die = false) ∧ b.dorg = 0 ∧ b.ss = 0 ∧ 0 ≤ b.origin ∧ b.origin < ((a.modes.map fun m => m.ext).prod : Nat)
    (¬ admitted → lchainOf a b = .error 4) ∧
    (admitted → (∃ m ∈ b.modes, Spec.chained a.modes m = none) → lchainOf a b = .error 4) ∧
    (admitted → ∀ ls : List (List LMode), b.modes.map (Spec.chained a.modes) = ls.map some →
      let out := ls.flatten
      let at_ := layPoint a (coordsOf a.modes b.origin.toNat)
      let stepsIn := ∀ m ∈ out, -(2 ^ 31) ≤ m.step ∧ m.step < 2 ^ 31
      let originIn := -(2 ^ 47) ≤ at_.1 ∧ at_.1 < 2 ^ 47
      (6 < out.length → lchainOf a b = .error 4) ∧
      (out.length ≤ 6 → ¬ stepsIn → lchainOf a b = .error 0x0D) ∧
      (out.length ≤ 6 → stepsIn → ¬ originIn → lchainOf a b = .error 0x0D) ∧
      (out.length ≤ 6 → stepsIn → originIn → at_.2 < 0 ∨ 3 < at_.2 → lchainOf a b = .error 0x0C) ∧
      (out.length ≤ 6 → stepsIn → originIn → 0 ≤ at_.2 → at_.2 ≤ 3 → b.km = 7 ∨ b.km < b.modes.length →
        lchainOf a b = .ok { a with
          modes := out, origin := at_.1, dorg := at_.2, km := if b.km = 7 then 7 else (ls.take b.km).flatten.length })))

/-- What layout descriptors mean, and the laws of composing them.
It rests on choices of the model: log 30. -/
def Obligations.LayoutMeaning : Prop :=
  Sys2Proof.Claims.LayoutDescriptors ∧ Sys2Proof.Claims.LayoutAlgebra ∧ Sys2Proof.Claims.LayoutCompositions

/-- R190, R197, R198: LCHK writes the verdict of its port, TRCOST and BCD, moves no data and raises no trap for a rejection; a
trestle ring on a part without links is the unit-absent trap. At ports 0 and 1 a ring's pair, as MLOOP would use it, is rejected with WHY
10 where its offsets leave the slot (R284, R292). -/
def Sys2Proof.Claims.LayoutCheckWord : Prop :=
  ∀ (s : State) (g : LgetF), g.k.toNat < 6 →
    let l := layOf s.rd g.la.toNat
    let h := handleOf s s.w.ctx l
    let v0 := portCheck (hasTrestle s.part) (wavBytes s.rd) l (handleOf s s.rd.ctx l) g.k.toNat (decide (g.k.toNat = 3)) none
    let v := if g.k.toNat ≤ 1 then slotRange s l h g.k.toNat v0 else v0
    let bcd := if g.k.toNat = 4 ∧ v.verd ≠ 2 then
        laneDegree s.rd s.rd.slots l h fun i => (List.range l.modes.length).map fun k => vRead s.rd (BitVec.ofNat 7 k) i
      else v.bcd
    let tr : Word := BitVec.ofNat 32 (v.why * 2 ^ 24 + v.cost * 2 ^ 8 + v.port * 4 + v.verd)
    (g.k.toNat ≤ 1 → v0.verd ≠ 2 → hSpace h = 6 → ∀ d, ringDesc s h = some d →
      (layBytes l h none).1 < 0 ∨ (d.ssize : Int) < (layBytes l h none).2 → v.verd = 2 ∧ v.why = 10 ∧ v.cause = 0x0B) ∧
    (v.absent = false → Answers (.lchk g) s fun t =>
      t = { s with w := { s.w with
        s := t.w.s, trcost := tr, bcd := BitVec.ofNat 32 bcd, marks := t.w.marks, pc := s.w.pc + 4 } } ∧ SameMemory s t ∧
      SRegs s t g.s.toNat [BitVec.ofNat 32 (v.why * 2 ^ 24 + bcd * 2 ^ 16 + v.cost * 2 ^ 8 + v.verd)]) ∧
    (v.absent = true → exec (.lchk g) s = .next (trapNow
      (s.withW { s.w with trcost := tr, bcd := BitVec.ofNat 32 bcd }) 2 0))

/-- The words that make, change and check layouts.
It rests on choices of the model: logs 9, 30 and 33. -/
def Obligations.LayoutWordsAndCheck : Prop :=
  Sys2Proof.Claims.LayoutWords ∧ Sys2Proof.Claims.LayoutCheckWord

/-- R218: LDL and STL validate their pair at port 4 and write TRCOST and BCD; each EXEC slot forms its own element. When the
pair is accepted and no slot fails, one operation is in flight: an access for each element inside BOUND, and for an LDL zero bytes
for each outside it under OOBZ. -/
def Sys2Proof.Claims.ElementLoadsAndStores : Prop :=
  ∀ (s s1 : State) (f : LelF) (store : Bool) (accs : List Acc), s.rd.replay = false →
    let w := s.rd
    let l := layOf w f.l.toNat
    let h := handleOf s w.ctx l
    let v := portCheck (hasTrestle s.part) (wavBytes w) l h 4 store none
    let n := esize (hFmt h)
    let coord := fun i => (List.range l.modes.length).map fun k =>
      if f.x then sRead s.clk w (f.a + BitVec.ofNat 7 k) else vRead w (f.a + BitVec.ofNat 7 k) i
    let elem := fun i => elemOf w l h (coord i)
    let m : MemW :=
      { kind := if store then .store else .load, fk := 3, ask := { n := n, write := store, aligned := false, atom := none, direct := decide (hSpace h = 1 ∨ hSpace h = 2) },
        dest := if store then .none else .thread f.d.toNat n (decide (hFmt h = 8 ∨ hFmt h = 9)), q := 0, sc := 0,
        hint := f.h.toNat, l1 := !store, flag := flagSel s.w f.fs }
    let data := fun i => if store then
        (if n = 8 then leBytes (vRead64 w f.d i).toNat 8 else leBytes (vRead w f.d i).toNat n) else []
    let ptr := fun i => match elem i with | .ptr p => p | _ => 0
    let s0 := s.withW { s.w with trcost := v.trcost, bcd := BitVec.ofNat 32 (laneDegree w w.slots l h coord) }
    let zeros := if store then [] else (w.slots.filter fun i => decide (elem i = .oob)).map fun i =>
      ({ slot := i, loc := .scr 0 0, va := 0, size := n, voff := 0, kind := 2, data := [], got := List.replicate n 0,
         done := true, acked := true } : Acc)
    (f.x = true ∨ 0x60 ≤ f.a.toNat ∨ f.a.toNat + l.modes.length ≤ w.nregs) → (size2 (hFmt h) = 16 → f.d.toNat % 2 = 0 ∧
      (0x60 ≤ f.d.toNat ∨ f.d.toNat + 2 ≤ w.nregs)) →
    v.verd ≠ 2 → (∀ i ∈ w.slots, ∀ c, elem i ≠ .fault c) →
    memSlots m ptr data (fun k => k % 32) id w (w.slots.filter fun i => match elem i with | .ptr _ => true | _ => false) s0 =
      (s1, accs, []) →
    Answers (if store then .stl f else .ldl f) s fun t => MemIssue s0 t m (accs ++ zeros) (s.w.width / 32)

/-- R172, R173: HSET sends its nine wave registers as a handle entry and an index, and its wave issues nothing until every port
uses the entry; an ill-formed entry is layout cause 0x0E. HSET_COMPLETE puts exactly that entry into the context's handle table
and lets the wave go on. -/
def Sys2Proof.Claims.HandleTableWrites : Prop :=
  ∀ (s : State) (f : HsetF),
    let e : BitVec 256 := BitVec.ofNat 256 (((List.range 8).map fun k => (sReg s.rd (f.s.toNat + k)).toNat * 2 ^ (32 * k)).sum)
    let ix := (sReg s.rd (f.s.toNat + 8)).toNat
    (2 ^ 12 ≤ ix ∨ illFormed e = true → exec (.hset f) s = .next (trapNow s 8 0x0E)) ∧
    (ix < 2 ^ 12 → illFormed e = false → isTrestle e = true → hasTrestle s.part = false →
      exec (.hset f) s = .next (trapNow s 2 0)) ∧
    (ix < 2 ^ 12 → illFormed e = false → (isTrestle e = false ∨ hasTrestle s.part = true) →
      exec (.hset f) s = .next { s with
        w := { s.w with blocked := .hset, blockArg := s.w.pc.toNat, pc := s.w.pc + 4 }
        hsets := s.hsets ++ [{ wave := s.w.uid, quad := s.w.quad, ctx := s.w.ctx, idx := ix, entry := e }] }) ∧
    (∀ u h c w, s.hsets.find? (fun x => x.wave == u) = some h → s.ctxOf h.ctx = some c → s.findWave u = some w →
      Answers (.hsetComplete u) s fun t => SameMemory s t ∧ t.findWave u = some { w with blocked := .none } ∧
        t.hsets = s.hsets.filter (fun x => decide (x ≠ h)) ∧ ∃ c2 : Ctx, t.ctxOf h.ctx = some { c with handles := c2.handles } ∧
          ∀ i, tget c2.handles i = if i = h.idx then h.entry else tget c.handles i)

/-- The words that load and store elements, and the handle table.
It rests on choices of the model: logs 33 and 43. -/
def Obligations.ElementWordsAndHandles : Prop :=
  Sys2Proof.Claims.ElementLoadsAndStores ∧ Sys2Proof.Claims.HandleTableWrites

/-! ### Engines (R245 to R279) -/

/-- R190, R252, R263, R266, R269, R274: each data word validates its two pairs at its ports, and then its parameter block; what it
hands over is a new operation that copies its layouts and handles. -/
def Sys2Proof.Claims.EngineDataWords : Prop :=
  ∀ (s : State) (c : TcopyF) (e : EngF),
    let lay := fun (n : BitVec 4) => layOf s.rd n.toNat
    let port := fun (n : BitVec 4) (p : Nat) (w : Bool) =>
      portCheck (hasTrestle s.part) (wavBytes s.rd) (lay n) (handleOf s s.rd.ctx (lay n)) p w none
    EngWord (.tcopy c) s (worstOf (port c.la 2 false) (port c.ld 3 true)) (fun s1 => tcopyOp s1 c) ∧
    EngWord (.gather e) s (worstOf (port e.la 5 false) (port e.ld 3 true)) (fun s1 => rowsOp s1 e false) ∧
    EngWord (.scatter e) s (worstOf (port e.la 2 false) (port e.ld 5 true)) (fun s1 => rowsOp s1 e true) ∧
    EngWord (.mcread e) s (worstOf (port e.la 2 false) (port e.ld 3 true)) (fun s1 => mcreadOp s1 e (port e.la 2 false).cost) ∧
    EngWord (.trsend e) s (worstOf (port e.la 2 false) (port e.ld 3 true)) (fun s1 => trsendOp s1 e)

/-- R256, R263 to R269, R274: the parameter blocks. A block that meets the stated conditions is accepted with these values: the
counts pair, the formats suit the mode, the reserved bits are zero, and the object is none or an initialised one. -/
def Sys2Proof.Claims.EngineParameters : Prop :=
  ∀ (s : State) (c : TcopyF) (e : EngF) (obj : Option (Nat × Nat)),
    let ha := fun (n : BitVec 4) => handleOf s s.w.ctx (layOf s.rd n.toNat)
    let count := fun (n : BitVec 4) => (layOf s.rd n.toNat).count
    let fmt := fun (n : BitVec 4) => hFmt (ha n)
    let word := fun (n : BitVec 6) (k : Nat) => (sReg s.rd (n.toNat + k)).toNat
    let p := word c.s 1
    let red := p / 2 ^ 4 % 2 ^ 3
    let redExt := (((layOf s.rd c.la.toNat).modes[red]?).map fun m => m.ext).getD 1
    let m := c.m.toNat
    (s.w.token = none ∨ hSpace (ha c.ld) ≠ 5 → hSpace (ha c.ld) ≠ 6 → c.fp = false →
      p / 2 ^ 3 % 2 = 0 ∧ p / 2 ^ 7 % 2 = 0 ∧ p < 2 ^ 12 → p % 2 ^ 3 ≤ 4 → red < (layOf s.rd c.la.toNat).modes.length →
      p / 2 ^ 8 % 2 ^ 2 ≠ 3 → p / 2 ^ 10 % 2 ^ 2 ≠ 3 → count c.la = count c.ld * (if m = 2 then redExt else 1) →
      (m = 0 → hScaled (ha c.ld) = true → fmt c.la = fmt c.ld) →
      (m = 1 → (fmt c.ld = 4 ∨ fmt c.ld = 5 ∨ fmt c.ld = 6) ∧ hScaled (ha c.ld) = true) →
      (m = 2 → fmt c.ld ≤ 3 ∨ fmt c.ld = 10 ∨ fmt c.ld = 11 ∨ fmt c.ld = 14 ∨ fmt c.ld = 15) →
      objArg s (sReg s.rd c.s.toNat) (isObject s) = .ok obj →
      ∃ op, tcopyOp s c = .ok op ∧ NewEngOp s op .tcopy c.ld c.la obj c.fs c.e ∧ op.mode = m ∧ op.sat = c.sat ∧ op.fp = false ∧
        op.qb = p % 2 ^ 3 ∧ op.rm = red ∧ op.sh = p / 2 ^ 8 % 2 ^ 2 ∧ op.dh = p / 2 ^ 10 % 2 ^ 2 ∧ op.count = count c.ld ∧
        op.total = if m = 1 then (count c.ld + 31) / 32 else count c.ld) ∧
    (∀ scatter : Bool,
      let n := word e.s 1 % 2 ^ 13
      let list := sReg64 s.rd (e.s.toNat + 2)
      let rows := if scatter then layOf s.rd e.ld.toNat else layOf s.rd e.la.toNat
      (s.w.token = none ∨ (scatter = false ∧ hSpace (ha e.ld) ≠ 5)) → fmt e.la = fmt e.ld → word e.s 1 < 2 ^ 15 → word e.s 1 / 2 ^ 13 ≠ 3 → 1 ≤ n → n ≤ 4096 →
      list.toNat % 4 = 0 → count (if scatter then e.la else e.ld) = n * ((rows.modes.head?).map fun m => m.ext).getD 1 →
      hSpace (ha e.ld) ≠ 6 → objArg s (sReg s.rd e.s.toNat) (isObject s) = .ok obj →
      ∃ op, rowsOp s e scatter = .ok op ∧ NewEngOp s op (if scatter then .scatter else .gather) e.ld e.la obj e.fs e.e ∧
        op.list = list ∧ op.total = n ∧ op.sh = word e.s 1 / 2 ^ 13) ∧
    (hSpace (ha e.la) = 3 ∨ hSpace (ha e.la) = 4 → hSpace (ha e.ld) = 1 → fmt e.la = fmt e.ld →
      spanBytes (layOf s.rd e.la.toNat) (ha e.la) ≤ 65536 → word e.s 1 < 2 ^ 28 → count e.la = count e.ld →
      objArg s (sReg s.rd e.s.toNat) (isObject s) = .ok obj →
      ∃ op, mcreadOp s e 0 = .ok op ∧ NewEngOp s op .mcread e.ld e.la obj e.fs e.e ∧ op.key = word e.s 1 % 2 ^ 24 ∧
        op.expm = word e.s 1 / 2 ^ 24) ∧
    (∀ nb, hSpace (ha e.la) = 1 → hSpace (ha e.ld) = 6 → fmt e.la = fmt e.ld → hfld (ha e.ld) 20 4 ≠ 0 → count e.la = count e.ld →
      objArg s (sReg s.rd e.s.toNat) (isObject s) = .ok obj →
      neighbour s.part (s.w.quad / 4) (hfld (ha e.ld) 20 4) = some nb → s.inSpan s.w.ctx (nb / 4) = true →
      ringCheck s (newEng s .trsend 0x9D (layOf s.rd e.ld.toNat) (layOf s.rd e.la.toNat) obj e.fs e.e.toNat) nb
        (opposite (hfld (ha e.ld) 20 4)) = .ok () →
      ∃ op, trsendOp s e = .ok op ∧ NewEngOp s op .trsend e.ld e.la obj e.fs e.e ∧ op.ringCore = nb)

/-- The engine words that move data, and their parameter blocks.
It rests on choices of the model: logs 33 and 34. -/
def Obligations.EngineWords : Prop :=
  Sys2Proof.Claims.EngineDataWords ∧ Sys2Proof.Claims.EngineParameters

/-- R256, R258, R260 to R262, R272: an object or ring word whose operands are good sends its operation to its position, and COWAIT,
COTEST and RBPOP wait there; a byte amount of 2^31 or more is engine cause 0x03, reserved bits are cause 0x01, no position is 0x02, one
where no object or ring stands 0x02, and one where an object stands in a ring's place 0x06.
It rests on choices of the model: log 34. -/
def Obligations.ObjectAndRingWords : Prop :=
  ∀ (s : State) (f : ObjF) (ci : CoinitF) (wf : WaitF) (pos : Nat × Nat),
    let word := fun (n : BitVec 6) (k : Nat) => (sReg s.rd (n.toNat + k)).toNat
    let arg := fun (n : BitVec 6) (known : Nat → Nat → Bool) => objArg s (sReg s.rd n.toNat) known
    let cause := fun (i : Instr) (c : Nat) => exec i s = .next (trapNow s 9 c)
    (word ci.s 1 < 2 ^ 15 → arg ci.s (fun _ _ => true) = .ok (some pos) →
      ObjSent (.coinit ci) s pos (.coinit (word ci.s 1) ci.u) ci.fs) ∧
    (2 ^ 15 ≤ word ci.s 1 → cause (.coinit ci) 1) ∧
    (word f.s 1 < 2 ^ 31 → arg f.s (objKnown s) = .ok (some pos) →
      ObjSent (.coexpect f) s pos (.expect (word f.s 1)) f.fs ∧ ObjSent (.coarrive f) s pos (.arrive (word f.s 1)) f.fs) ∧
    (2 ^ 31 ≤ word f.s 1 → cause (.coexpect f) 3 ∧ cause (.coarrive f) 3) ∧
    (arg f.s (objKnown s) = .ok (some pos) → ObjSent (.codrop f) s pos .drop f.fs) ∧
    (∀ c, arg f.s (objKnown s) = .error c → cause (.codrop f) c) ∧
    (rbinitBad s f = none → arg f.s (fun _ _ => true) = .ok (some pos) →
      ObjSent (.rbinit f) s pos
        (.rbinit (word f.s 1) (word f.s 2 % 2 ^ 16) (word f.s 2 / 2 ^ 16 % 2 ^ 9) (word f.s 2 / 2 ^ 25 % 2 ^ 3)) f.fs) ∧
    (∀ c, rbinitBad s f = some c → cause (.rbinit f) c) ∧
    (arg f.s (fun _ _ => true) = .ok (some pos) → ringKnown s pos.1 pos.2 = true →
      ObjSent (.rbfree f) s pos .rbfree f.fs ∧
      WaitSent (.rbpop f) s pos .rbpop 0 (f.s.toNat + 1) (flagSel s.w f.fs) .rbpop) ∧
    (arg f.s (fun _ _ => true) = .ok (some pos) → ringKnown s pos.1 pos.2 = false →
      let c := if objKnown s pos.1 pos.2 then 6 else 2
      cause (.rbfree f) c ∧ cause (.rbpop f) c) ∧
    (word wf.s 1 < 2 ^ 16 → arg wf.s (objKnown s) = .ok (some pos) →
      WaitSent (.cowait wf) s pos .cowait (word wf.s 1) (wf.s.toNat + 2) none .cowait ∧
      WaitSent (.cotest wf) s pos .cotest (word wf.s 1) (wf.s.toNat + 2) none .cowait) ∧
    (2 ^ 16 ≤ word wf.s 1 → cause (.cowait wf) 1 ∧ cause (.cotest wf) 1) ∧
    (arg wf.s (objKnown s) = .ok none → word wf.s 1 < 2 ^ 16 → cause (.cowait wf) 2)

/-- R257 to R261, R271, R272: OBJECT_APPLY with the one operation that can reach its position leaves in the position's sixteen bytes
what R259 gives, completion being tested once; every other byte keeps its value, the operation is gone and its flag falls. After a
COINIT.unsync no object stands in the line, and operations on their way from engines to one of it count nowhere (R260). -/
def Sys2Proof.Claims.ObjectsApply : Prop :=
  ∀ (s : State) (op : ObjOp) (r : Resv) (w : Wave),
    (s.objOps.filter fun o => o.core == op.core && o.off == op.off && objMay s o) = [op] →
    resvAt s op.core op.off = some r → (s.resvs.filter fun a => a.launch == r.launch && a.core == r.core) = [r] →
    s.findWave op.wave = some w → w.uid = op.wave →
    let o := objOf (posRead s op.core op.off)
    let wrap := fun (x : Int) => (BitVec.ofInt 32 x).toInt
    let less := max (o.arr - 1) (-32768)
    let leaves := fun (t : State) => PosFrame s t op.core op.off ∧ t.objOps = s.objOps.filter (fun x => decide (x ≠ op)) ∧
      t.findWave op.wave = some (flagDec w op.flag)
    let gives := fun (v : Obj) => Answers (.objectApply op.core op.off 1) s fun t =>
      leaves t ∧ isObject t op.core op.off = true ∧ objOf (posRead t op.core op.off) = v.settle
    (isObject s op.core op.off = true → o.exp < 2 ^ 15 →
      (∀ n, op.kind = .expect n → n < 2 ^ 31 → gives { o with bal := wrap (o.bal + n), ep := true }) ∧
      (∀ n, op.kind = .arrive n → n < 2 ^ 31 → gives { o with bal := wrap (o.bal - n), arr := less }) ∧
      (op.kind = .drop → 0 < o.exp → gives { o with exp := o.exp - 1, arr := less }) ∧
      (op.kind = .drop → o.exp = 0 → gives { o with stat := o.stat ||| 64 }) ∧
      (∀ n tag st, op.kind = .engArrive n tag st → st < 128 → tag = o.phase →
        gives { o with bal := wrap (o.bal - n), arr := less, stat := o.stat ||| st }) ∧
      (∀ n tag st, op.kind = .engArrive n tag st → tag ≠ o.phase → gives { o with stale := min (o.stale + 1) 65535, stl := true }) ∧
      (op.kind = .void → gives o) ∧
      (∀ e, op.kind = .coinit e false → e < 2 ^ 15 →
        gives { o with phase := (o.phase + 1) % 65536, exp := e, arr := e, bal := 0, ep := false, stat := 0 })) ∧
    (isObject s op.core op.off = false →
      (∀ e, op.kind = .coinit e false → e < 2 ^ 15 → Answers (.objectApply op.core op.off 1) s fun t =>
        leaves t ∧ isObject t op.core op.off = true ∧ isRing t op.core op.off = false ∧ objOf (posRead t op.core op.off) =
          { stale := 0, stl := false, ep := false, lstat := 0, stat := 0, phase := 0, exp := e, arr := e, bal := 0 }) ∧
      (∀ sb ss ns feed, op.kind = .rbinit sb ss ns feed → sb < 2 ^ 19 → ss < 2 ^ 16 → ns ≤ 256 → feed < 8 →
        Answers (.objectApply op.core op.off 1) s fun t =>
          leaves t ∧ isRing t op.core op.off = true ∧ isObject t op.core op.off = false ∧ ringOf (posRead t op.core op.off) =
            { feed := feed, inuse := 0, filled := 0, free := ns, reti := 0, cons := 0, prod := 0, nslot := ns, ssize := ss,
              sbase := sb }) ∧
      (op.kind = .rbfree → isRing s op.core op.off = true →
        let d := ringOf (posRead s op.core op.off)
        0 < d.nslot → d.nslot ≤ 256 → d.inuse + d.free < 512 → Answers (.objectApply op.core op.off 1) s fun t =>
          leaves t ∧ ringOf (posRead t op.core op.off) =
            if d.inuse = 0 then d else { d with reti := (d.reti + 1) % d.nslot, inuse := d.inuse - 1, free := d.free + 1 })) ∧
    (∀ e, op.kind = .coinit e true → Answers (.objectApply op.core op.off 1) s fun t =>
      let line := fun (core off : Nat) => core = op.core ∧ r.base ≤ off ∧ (off - r.base) / 64 = (op.off - r.base) / 64
      PosFrame s t op.core op.off ∧ t.findWave op.wave = some (flagDec w op.flag) ∧ posRead t op.core op.off = posRead s op.core op.off ∧
      isObject t op.core op.off = false ∧
      t.objOps = (s.objOps.filter fun x => decide (x ≠ op)).map (fun x =>
        if x.engine.isSome ∧ line x.core x.off then { x with kind := .void } else x) ∧
      t.engOps = s.engOps.map (fun x => if ∃ p, x.obj = some p ∧ line p.1 p.2 then { x with lost := true } else x))

/-- R246, R262, R272: a COWAIT or COTEST is answered with the result word of R262, and an observed completion invalidates its core's
L1; an RBPOP that is the first to have asked takes the slot that is next, its register takes the slot's offset, and it too is a join.
The wave goes on, its mark clears and its flag
falls. -/
def Sys2Proof.Claims.WaitsAreAnswered : Prop :=
  ∀ (s : State) (x : ObjWait) (w : Wave), waitReady s x = true → s.findWave x.wave = some w → w.uid = x.wave → x.dest < 64 →
    let answered := fun (t : State) (v : Word) => ∃ w2, t.findWave x.wave = some w2 ∧
      w2.flags = (flagDec w x.flag).flags ∧ w2.blocked = .none ∧ w2.marks = w.marks.filter (fun m => decide (m.op ≠ some x.seq)) ∧
      t.objWaits = s.objWaits.filter (fun y => decide (y ≠ x)) ∧
      ∀ n, n < 64 → sReg { w2 with supervisor := false } n = if n = x.dest then v else sReg { w with supervisor := false } n
    let o := objOf (posRead s x.core x.off)
    let late := if 1 < (o.phase + 65536 - x.phase) % 65536 then 1 else 0
    let err := if o.lstat.testBit 7 = true ∨ o.lstat.testBit 6 = true then 1 else 0
    (x.kind ≠ .rbpop → (s.objWaits.find? fun y => y.wave == x.wave && y.kind != .rbpop) = some x →
      Answers (.cowaitResult x.wave) s fun t => SameMemory s t ∧
        (o.phase ≠ x.phase → answered t (BitVec.ofNat 32 (o.phase + o.lstat * 2 ^ 16 + late * 2 ^ 24 + 2 ^ 30 + err * 2 ^ 31)) ∧
          t.l1 = s.l1.filter fun l => decide (l.core ≠ w.quad / 4)) ∧
        (o.phase = x.phase → x.kind = .cotest ∧ answered t (BitVec.ofNat 32 o.phase) ∧ t.l1 = s.l1)) ∧
    (x.kind = .rbpop → (s.objWaits.find? fun y => y.wave == x.wave && y.kind == .rbpop) = some x →
      let d := ringOf (posRead s x.core x.off)
      ∀ r, resvAt s x.core x.off = some r → (s.resvs.filter fun a => a.launch == r.launch && a.core == r.core) = [r] →
        d.inuse < 511 → 0 < d.nslot → d.nslot ≤ 256 → Answers (.rbpopResult x.wave) s fun t =>
          PosFrame s t x.core x.off ∧ answered t (BitVec.ofNat 32 (d.sbase + d.cons * d.ssize)) ∧
          t.l1 = s.l1.filter (fun l => decide (l.core ≠ w.quad / 4)) ∧
          t.asks = s.asks.filter (fun b => decide (b ≠ { core := x.core, pos := x.off, op := x.seq, isB := false })) ∧
          ringOf (posRead t x.core x.off) =
            { d with cons := (d.cons + 1) % d.nslot, filled := d.filled - 1, inuse := d.inuse + 1 })

/-- Operations applied at completion objects and rings, and the answers to those who wait. -/
def Obligations.ObjectsAndWaits : Prop :=
  Sys2Proof.Claims.ObjectsApply ∧ Sys2Proof.Claims.WaitsAreAnswered

/-- R245, R251, R253, R264, R273: ENGINE_OP_START starts the first waiting operation of an engine, and then moves its elements one by
one: of those left, one before which none is left that writes a byte of it; a plain copy between two places of the launch's
scratchpad copies the element's bytes and leaves every other. ENGINE_OP_ARRIVE takes a finished operation away: it arrives at its
object with its bytes, tag and status, or without one its flag falls. -/
def Sys2Proof.Claims.EngineOperationSteps : Prop :=
  ∀ (s : State) (id : Nat) (op : EngOp) (w : Wave), s.engOps.find? (fun o => o.id == id) = some op →
    s.findWave op.wave = some w → w.uid = op.wave →
    (engCan s op = true → op.started = false → hSpace op.hd ≠ 6 → exec (.engineOpStart id) s = .next { s with
      engOps := s.engOps.map fun o => if o.id = id then { o with started := true } else o }) ∧
    (∀ (r : Resv) (src dst : Nat → Nat),
      let n := esize (hFmt op.hd)
      engCan s op = true → op.started = true → op.kind = .tcopy → op.mode = 0 → op.fp = false →
      hSpace op.ha = 1 → hSpace op.hd = 1 → hFmt op.ha = hFmt op.hd → hFmt op.hd ≠ 6 → hScaled op.ha = false →
      hScaled op.hd = false → s.resvOf op.launch op.core = some r →
      (∀ k ∈ op.left, ∃ sb sn se db dn de, layoutLocate op.la op.ha (coordsOf op.la.modes k) = .at 0 sb sn se ∧
        layoutLocate op.ld op.hd (coordsOf op.ld.modes k) = .at 0 db dn de ∧ src k = hBase op.ha % 2 ^ 19 + sb ∧
        dst k = hBase op.hd % 2 ^ 19 + db ∧ src k + n ≤ r.size ∧ dst k + n ≤ r.size ∧
        ∀ i, i < n → r.sync.contains ((dst k + i) / 64) = false) →
      Answers (.engineOpStart id) s fun t =>
        (∀ pa, tget t.mem pa = tget s.mem pa) ∧ t.w = s.w ∧ t.waves = s.waves ∧ ∃ before k after,
        op.left = before ++ k :: after ∧ (∀ u ∈ before, dst u + n ≤ dst k ∨ dst k + n ≤ dst u) ∧
        t.engOps.find? (fun o => o.id == id) = some { op with left := before ++ after, waiting := false } ∧
        ∃ r2, t.resvOf op.launch op.core = some r2 ∧ ∀ x, tget r2.mem x =
          if dst k ≤ x ∧ x < dst k + n then tget r.mem (src k + (x - dst k)) else tget r.mem x) ∧
    (engDone s op = true → op.kind ≠ .mlda → op.kind ≠ .msta → hSpace op.hd ≠ 6 → op.fp = false →
      Answers (.engineOpArrive id) s fun t => SameMemory s t ∧
        t.engOps = s.engOps.filter (fun x => decide (x.id ≠ id)) ∧
        (∀ core off, op.obj = some (core, off) →
          (let bytes := (op.count * size2 (hFmt op.hd) + 1) / 2
           let kind : ObjKind := if op.lost then .void else .engArrive bytes op.tag op.stat
           let arrival : ObjOp :=
             { wave := op.wave, quad := op.quad, engine := some op.engine, launch := op.launch, core := core, off := off,
               kind := kind, flag := op.flag, seq := op.seq }
           t.objOps = s.objOps ++ [arrival]) ∧
          t.findWave op.wave = some { w with marks := w.marks.filter fun m => decide (m.op ≠ some id) }) ∧
        (op.obj = none → t.objOps = s.objOps ∧
          t.findWave op.wave = some (flagDec { w with marks := w.marks.filter fun m => decide (m.op ≠ some id) } op.flag)))

/-- The byte that stands at a place: of the launch's reservation, or of device memory as its key reads it. -/
def Spec.byteIn (s : State) (launch : Nat) (l : Loc) : Byte :=
  match l with
  | .scr core off => match s.resvOf launch core with | some r => tget r.mem off | none => 0
  | .dev pa key => devByte s key pa
  | _ => 0

/-- The place `i` bytes on. -/
def Spec.after (l : Loc) (i : Nat) : Loc :=
  match l with
  | .scr core off => .scr core (off + i)
  | .dev pa key => .dev (pa + i) key
  | .host pa => .host (pa + i)
  | .imp ctx slot off => .imp ctx slot (off + i)

/-- Bytes by place, with a run of them set. -/
def Spec.put (m : Loc → Byte) (w : Loc × List Byte) : Loc → Byte := fun x =>
  match (List.range w.2.length).find? fun i => decide (Spec.after w.1 i = x) with
  | some i => w.2.getD i 0
  | none => m x

/-- The bytes that stand from a place on. -/
def Spec.runIn (s : State) (launch : Nat) (l : Loc) (n : Nat) : List Byte := (List.range n).map fun i => Spec.byteIn s launch (Spec.after l i)

/-- R200, R376: where a pointer of an operation leads: into the aperture, or by a leaf of its context's page table to device memory. -/
def Spec.ptrPlace (s : State) (op : EngOp) (p : DWord) : Option Loc :=
  let x := p.toNat
  if x / 2 ^ 56 = 0xFF then
    some (.scr (if x / 2 ^ 22 % 2 = 1 then op.quad / 4 / 4 * 4 + x / 2 ^ 20 % 4 else op.quad / 4) (x % 2 ^ 19))
  else match s.ctxOf op.ctx with
    | none => none
    | some c => match walk s c (x % 2 ^ 49) with
      | .leaf e _ size => let pa := leafPa e (x % 2 ^ 49) size; if pa < 2 ^ 51 then some (.dev pa (leafKey e)) else none
      | .fail _ _ _ => none

/-- R170, R178, R273: where byte `b` of a die lies from a base of a handle's space: the issuing core's scratchpad, one of its cluster's, a
pointer, or the ring slot that the operation holds. -/
def Spec.enginePlace (s : State) (op : EngOp) (h : BitVec 256) (base die b : Nat) : Option Loc :=
  match hSpace h with
  | 1 => some (.scr op.core (base % 2 ^ 19 + b))
  | 2 => some (.scr (op.core / 4 * 4 + base / 2 ^ 20 % 4) (base % 2 ^ 19 + b))
  | 3 => Spec.ptrPlace s op (BitVec.ofNat 64 (base + b))
  | 4 => Spec.ptrPlace s op (BitVec.ofNat 64 (base + die * 2 ^ hDshift h + b))
  | 6 => (s.resvOf op.launch op.ringCore).map fun r =>
      let d := ringOf (posRead s op.ringCore (r.base + base % 2 ^ 19))
      .scr op.ringCore (d.sbase + op.slot.getD 0 * d.ssize + b)
  | _ => none

/-- The element of a handle at coordinates lies at this place, within one sector. -/
def Spec.ElemAt (s : State) (op : EngOp) (l : Layout) (h : BitVec 256) (c : List Nat) (p : Loc) : Prop :=
  (∃ die b nib e, layoutLocate l h c = .at die b nib e ∧ Spec.enginePlace s op h (hBase h) die b = some p) ∧
    ∀ pa key, p = .dev pa key → pa % 64 + esize (hFmt h) ≤ 64

/-- A place shares no sector with a page-table entry that a walk in the operation's context reads. -/
def Spec.OffTables (s : State) (op : EngOp) (q : Loc) : Prop :=
  ∀ c va pa x key, s.ctxOf op.ctx = some c → pa ∈ walkPas s c va → q = .dev x key → x / 64 ≠ pa / 64 ∧ x / 64 ≠ (pa + 7) / 64

/-- A place is not in device memory under another key than this one. -/
def Spec.Under (key : Nat) (p : Loc) : Prop := ∀ pa k, p = .dev pa k → k = key

/-- ENGINE_OP_START has moved a unit of the operation `id`: the unit is no longer left, and no fault is recorded in its status. -/
def Spec.UnitMoved (s t : State) (id k : Nat) (o2 : EngOp) : Prop :=
  exec (.engineOpStart id) s = .next t ∧ t.engOps.find? (fun o => o.id == id) = some o2 ∧ k ∉ o2.left ∧ o2.stat.testBit 6 = false

/-- As every place under the key shows: the writes have been made, in their order, and no other byte has changed. -/
def Spec.Wrote (s t : State) (launch key : Nat) (ws : List (Loc × List Byte)) : Prop :=
  ∀ x, Spec.Under key x → Spec.byteIn t launch x = ws.foldl Spec.put (Spec.byteIn s launch) x

/-- R264 to R268, R273, R274: the bytes that the engines leave, of an operation in no surrogate tile. `k` is the unit that the operation does
next: a destination element, a block of 32, or a row. Elements lie in scratchpads, ring slots and device memory alike (those of a block or
row in no page table that the operation walks). A copy leaves the
source element's bytes, and where the formats differ its conversion (RNE, with SAT); TRSEND leaves them in the neighbour's slot; its
value goes to the fingerprint. A reduction leaves the canonical sum of its terms, or the wrapped sum of integers. A block quantised to an
FP8 format leaves its codes, and the block's scale at the scale address. A row of a GATHER or SCATTER moves the elements of the row that its
index names; an index beyond the rows, under OOBZ, gives zeros, or moves nothing. -/
def Sys2Proof.Claims.EngineUnits : Prop :=
  ∀ (s t : State) (id k : Nat) (op o2 : EngOp), s.engOps.find? (fun o => o.id == id) = some op → engCan s op = true → op.started = true →
    slotHeld op = true → op.token = none → hFmt op.ha ≠ 6 → hScaled op.ha = false → (nextUnit s op).2 = k → Spec.UnitMoved s t id k o2 →
    let fa := hFmt op.ha
    let fd := hFmt op.hd
    let src := fun (c : List Nat) => Spec.ElemAt s op op.la op.ha c
    let dst := fun (c : List Nat) => Spec.ElemAt s op op.ld op.hd c
    let raw := fun (p : Loc) => leNat (Spec.runIn s op.launch p (esize fa))
    (fd ≠ 6 → hScaled op.hd = false →
      (∀ (p q : Loc) (key : Nat), (op.kind = .tcopy ∧ op.mode = 0) ∨ (op.kind = .trsend ∧ fa = fd) → src (coordsOf op.la.modes k) p →
        dst (coordsOf op.ld.modes k) q → Spec.Under key q →
        let code := if fa = fd then raw p else (cvtElem fd fa .rne op.sat (raw p)).1
        Spec.Wrote s t op.launch key [(q, leBytes code (esize fd))] ∧
          (op.kind = .tcopy → op.fp = true → tget o2.fpv (fpHas k) = 1 ∧
            tget o2.fpv k = BitVec.ofNat 64 (toFloat .f64 .rne false (cvtSrc fd code)).1)) ∧
      (∀ (p : Nat → Loc) (q : Loc) (key : Nat), op.kind = .tcopy → op.mode = 2 → dst (coordsOf op.ld.modes k) q → Spec.Under key q →
        let n := ((op.la.modes[op.rm]?).map fun m => m.ext).getD 1
        let others := coordsOf (op.la.modes.eraseIdx op.rm) k
        (∀ c, c < n → src (others.take op.rm ++ [c] ++ others.drop op.rm) (p c)) →
        let terms := (List.range n).map fun c => raw (p c)
        (∀ f, fmtCode fd = some f → Spec.Wrote s t op.launch key
          [(q, leBytes (canonicalSum f (terms.map fun x => (toFloat f .rne op.sat (cvtSrc fa x)).1)).1 (esize fd))]) ∧
        (8 ≤ fa → 8 ≤ fd →
          let value := fun x => if op.sat then max (intLo fd) (min (intHi fd) (intSrc fa x)) else intSrc fa x
          Spec.Wrote s t op.launch key [(q, leBytes ((terms.map value).sum % 2 ^ intWidth fd).toNat (esize fd))]))) ∧
    (∀ (p q : Nat → Loc) (z : Loc) (key : Nat), op.kind = .tcopy → op.mode = 1 → fd = 4 ∨ fd = 5 → hScaled op.hd = true → hSpace op.hd ≠ 6 →
      (∀ i, i < 32 → 32 * k + i < op.count → src (coordsOf op.la.modes (32 * k + i)) (p i) ∧ dst (coordsOf op.ld.modes (32 * k + i)) (q i) ∧
        Spec.Under key (q i) ∧ Spec.OffTables s op (q i)) →
      (let e := elemPlace op.ld (coordsOf op.ld.modes (32 * k))
       Spec.enginePlace s op op.hd (hScb op.hd) e.1 (e.2 / 32 * hScstep op.hd) = some z) → Spec.Under key z → Spec.OffTables s op z →
      let xs := (List.range 32).map fun i =>
        if 32 * k + i < op.count then (toFloat .f32 .rne op.sat (cvtSrc fa (raw (p i)))).1 else 0
      let b := qntFp8 (if fd = 4 then .e4m3 else .e5m2) xs
      Spec.Wrote s t op.launch key
        (((List.range (min 32 (op.count - 32 * k))).map fun i => (q i, leBytes (b.1.getD i 0) 1)) ++ [(z, leBytes b.2.1 1)])) ∧
    (∀ (li : Loc) (p q : Nat → Loc) (key : Nat), op.kind = .gather ∨ op.kind = .scatter → fa = fd → hScaled op.hd = false → hSpace op.hd ≠ 6 →
      let scatter := decide (op.kind = .scatter)
      let row := rowMode (if scatter then op.ld else op.la)
      Spec.ptrPlace s op (op.list + BitVec.ofNat 64 (4 * k)) = some li → (∀ pa ky, li = .dev pa ky → pa % 64 + 4 ≤ 64) →
      let x := leNat (Spec.runIn s op.launch li 4)
      let inRow := fun j => (List.range (if scatter then op.ld else op.la).modes.length).map fun i =>
        if i = 0 then j else if i = row.2.1 then x else 0
      let inList := fun j => coordsOf (if scatter then op.la else op.ld).modes (k * row.1 + j)
      (x < row.2.2 →
        (∀ j, j < row.1 → src (if scatter then inList j else inRow j) (p j) ∧ dst (if scatter then inRow j else inList j) (q j) ∧
          Spec.Under key (p j) ∧ Spec.Under key (q j) ∧ Spec.OffTables s op (q j)) →
        (∀ i j, i < row.1 → j < row.1 → overlaps (p i) (esize fa) (q j) (esize fa) = false) →
        Spec.Wrote s t op.launch key ((List.range row.1).map fun j => (q j, Spec.runIn s op.launch (p j) (esize fa)))) ∧
      (row.2.2 ≤ x → scatter = false → hOobz op.ha = true → (∀ j, j < row.1 → dst (inList j) (q j) ∧ Spec.Under key (q j) ∧
          Spec.OffTables s op (q j)) →
        Spec.Wrote s t op.launch key ((List.range row.1).map fun j => (q j, List.replicate (esize fd) 0))) ∧
      (row.2.2 ≤ x → scatter = true → hOobz op.hd = true → Spec.Wrote s t op.launch key []))

/-- R265: ENGINE_OP_ARRIVE of a fingerprinting copy leaves its record in the 32 bytes after the object, computed over the values of its
destination elements as the operation formed them: how many are NaN, how many there are, the largest magnitude, and the canonical
sums of the values and of their squares, a NaN counting as +0. R273: an operation into a ring reserves slot PROD when it starts, and waits
where none is free; when it arrives its slot is filled. -/
def Sys2Proof.Claims.EngineRecords : Prop :=
  ∀ (s : State) (id : Nat) (op : EngOp) (w : Wave), s.engOps.find? (fun o => o.id == id) = some op → s.findWave op.wave = some w →
    w.uid = op.wave →
    (∀ core p r, engDone s op = true → op.kind = .tcopy → op.fp = true → op.lost = false → hSpace op.hd ≠ 6 → op.obj = some (core, p) →
      resvAt s core p = some r → (s.resvs.filter fun a => a.launch == r.launch && a.core == r.core) = [r] →
      (∀ k, k < op.count → tget op.fpv (fpHas k) ≠ 0) →
      let vs := (List.range op.count).map fun k => (tget op.fpv k).toNat
      let isNan := fun (v : Nat) => (fdecode .f64 v).isNan
      let square := fun (v : Nat) => (fmulV .f64 .rne (fdecode .f64 v) (fdecode .f64 v)).1
      let most := vs.foldl (fun m v => if isNan v then m else max m (v % 2 ^ 63)) 0
      let sum := fun (f : Nat → Nat) => (canonicalSum .f64 (vs.map fun v => if isNan v then 0 else f v)).1
      let record := leBytes (min (vs.filter isNan).length (2 ^ 32 - 1)) 4 ++ leBytes (min op.count (2 ^ 32 - 1)) 4 ++ leBytes most 8 ++
        leBytes (sum id) 8 ++ leBytes (sum square) 8
      Answers (.engineOpArrive id) s fun t => ∃ r2, t.resvOf r.launch core = some r2 ∧ ∀ x, tget r2.mem x =
        if p - r.base + 16 ≤ x ∧ x < p - r.base + 48 then record.getD (x - (p - r.base + 16)) 0 else tget r.mem x) ∧
    (∀ r, hSpace op.hd = 6 → s.resvOf op.launch op.ringCore = some r →
      (s.resvs.filter fun a => a.launch == r.launch && a.core == r.core) = [r] →
      let p := r.base + hBase op.hd % 2 ^ 19
      let d := ringOf (posRead s op.ringCore p)
      resvAt s op.ringCore p = some r → 0 < d.nslot → d.nslot ≤ 256 →
      (engCan s op = true → op.started = false → op.slot = none → Answers (.engineOpStart id) s fun t =>
        (0 < d.free → PosFrame s t op.ringCore p ∧
          t.engOps.find? (fun o => o.id == id) = some { op with started := true, slot := some d.prod } ∧
          ringOf (posRead t op.ringCore p) = { d with prod := (d.prod + 1) % d.nslot, free := d.free - 1 }) ∧
        (d.free = 0 → t = { s with engOps := s.engOps.map fun o => if o.id = id then { o with started := true } else o })) ∧
      (engDone s op = true → op.kind ≠ .mlda → op.kind ≠ .msta → op.fp = false → d.filled < 511 → Answers (.engineOpArrive id) s fun t =>
        PosFrame s t op.ringCore p ∧ ringOf (posRead t op.ringCore p) = { d with filled := d.filled + 1 } ∧
        t.engOps = s.engOps.filter (fun x => decide (x.id ≠ id))))

/-- What the engines do with their operations: how one starts and arrives, and the bytes that it leaves.
It rests on choices of the model: logs 15 and 35. -/
def Obligations.EngineOperations : Prop :=
  Sys2Proof.Claims.EngineOperationSteps ∧ Sys2Proof.Claims.EngineUnits ∧ Sys2Proof.Claims.EngineRecords

/-- R269, R270: an MCREAD's request goes to the home slice of the source's first byte. It joins the session that is open there for its
multicast group, context, KEY and lines, and otherwise opens one, that of one member where the slice holds eight. A session sends after 256
clk or as soon as it has its EXPM members. Each line goes once to every member, and a replay to the one that was late; a line that
arrives counts for its member, and leaves its bytes in that member's elements.
It rests on choices of the model: log 38. -/
def Obligations.MulticastReads : Prop :=
  ∀ (s : State),
    (∀ id op s1 s2 xl, s.engOps.find? (fun o => o.id == id) = some op → mcCan s op = true →
      mcTranslate s op (mcGranules op) = (s1, .ok xl) → mcRest op xl (List.range op.ld.count) s1 = (s2, .ok ()) →
      (s2.engOps.find? fun o => o.id == id).isSome = true → Answers (.mcreadRequestArrive id) s fun t =>
        (∃ o2, t.engOps.find? (fun o => o.id == id) = some o2 ∧ o2.joined = true ∧ o2.xl = xl ∧
          o2.total = (mcLinesOf op xl).length ∧ o2.waiting = false) ∧
        (mcLinesOf op xl = [] → t.sessions = s2.sessions) ∧
        (mcLinesOf op xl ≠ [] →
          let slice := (homeSlice s2.part (mcFirst op xl)).1 * 64 + (homeSlice s2.part (mcFirst op xl)).2
          let open_ := s2.sessions.find? fun x => !x.solo && x.slice == slice && x.group == mcGroup s2.part op.core && x.ctx == op.ctx &&
            x.key == op.key && x.lines == mcLinesOf op xl
          (∀ x, open_ = some x → t.sessions = s2.sessions.map fun y => if y.id = x.id then
            { x with members := x.members ++ [id], replays := x.replays ++ (List.range x.sent).map (fun j => (id, j))
                     sending := x.sending || decide (x.want ≤ x.members.length + 1) } else y) ∧
          (open_ = none →
            let full := 8 ≤ (s2.sessions.filter fun x => !x.solo && x.slice == slice).length
            let x : Session :=
              { id := s2.nextOp, slice := slice, group := mcGroup s2.part op.core, ctx := op.ctx, key := op.key, solo := decide full,
                lines := mcLinesOf op xl, want := if full then 1 else op.expm, members := [id], sending := decide (full ∨ op.expm ≤ 1),
                sent := 0, replays := [], opened := s2.clk }
            t.sessions = s2.sessions ++ [x]))) ∧
    (∀ id, exec (.mcreadSessionTimeout id) s = .next { s with sessions := s.sessions.map fun x =>
      if x.id = id ∧ x.opened + 256 ≤ s.clk then { x with sending := true } else x }) ∧
    (∀ id x line, s.sessions.find? (fun y => y.id == id) = some x → sessionMay s x = true → x.lines[x.sent]? = some line →
      Answers (.mcreadLineSend id) s fun t => SameMemory s t ∧
        t.mcLines.map (fun m => (m.op, m.line)) = s.mcLines.map (fun m => (m.op, m.line)) ++ x.members.map (fun o => (o, line.1)) ∧
        (x.sent + 1 < x.lines.length → t.sessions.find? (fun y => y.id == id) = some { x with sent := x.sent + 1 })) ∧
    (∀ id x o j rest line, s.sessions.find? (fun y => y.id == id) = some x → sessionMay s x = true → x.lines[x.sent]? = none →
      x.replays = (o, j) :: rest → x.lines[j]? = some line →
      Answers (.mcreadLineSend id) s fun t => SameMemory s t ∧
        t.mcLines.map (fun m => (m.op, m.line)) = s.mcLines.map (fun m => (m.op, m.line)) ++ [(o, line.1)]) ∧
    (∀ id op m rest, s.engOps.find? (fun o => o.id == id) = some op → s.mcLines = m :: rest → m.op = id →
      Answers (.mcreadLineWrite id) s fun t => t.mcLines = rest ∧ ∃ o2, t.engOps.find? (fun o => o.id == id) = some o2 ∧
        o2.next = op.next + 1) ∧
    (∀ (id : Nat) (op : EngOp) (m : McLine) (rest : List McLine) (r : Resv) (at_ : Nat → Nat) (from_ : Nat → List (Nat × Nat)),
      s.engOps.find? (fun o => o.id == id) = some op → s.mcLines = m :: rest → m.op = id → hSpace op.hd = 1 → hFmt op.hd = hFmt op.ha →
      hFmt op.hd ≠ 6 → s.resvOf op.launch op.core = some r →
      let n := esize (hFmt op.hd)
      (∀ k, k < op.ld.count → mcBytes op op.xl k = some (from_ k) ∧ (∀ x ∈ from_ k, isPoisoned s x.1 1 = false) ∧
        (∃ die b nib e, layoutLocate op.ld op.hd (coordsOf op.ld.modes k) = .at die b nib e ∧ at_ k = hBase op.hd % 2 ^ 19 + b) ∧
        at_ k + n ≤ r.size ∧ (∀ i, i < n → r.sync.contains ((at_ k + i) / 64) = false) ∧
        ∀ j, j < k → at_ j + n ≤ at_ k ∨ at_ k + n ≤ at_ j) →
      Answers (.mcreadLineWrite id) s fun t => ∃ r2, t.resvOf op.launch op.core = some r2 ∧
        (∀ k i, k < op.ld.count → i < n → ∀ x, (from_ k)[i]? = some x → tget r2.mem (at_ k + i) =
          if x.1 / 512 * 512 = m.line then m.data.getD (x.1 - m.line) 0 else tget r.mem (at_ k + i)) ∧
        ∀ x, (∀ k, k < op.ld.count → x < at_ k ∨ at_ k + n ≤ x) → tget r2.mem x = tget r.mem x)

/-! ### The matrix unit (R280 to R307) -/

/-- R281, R284, R285, R292, R296: each MLOOP is validated in order, and a validated one with steps to do joins its quadrant's queue with
its own copies of both layouts and handles, its tile marked and its flag raised; with a count of 0 it only sets STEPS to 0 and gives
up what its quadrant's latch holds. The two formats must be those of the type, and a ring operand must name an initialised descriptor
whose FEED is the handle's direction.
It rests on choices of the model: logs 33 and 34. -/
def Obligations.MatrixLoops : Prop :=
  ∀ (s : State) (f : MloopF),
    let c := (sReg s.rd f.s.toNat).toNat
    let la := layOf s.rd f.la.toNat
    let lb := layOf s.rd f.lb.toNat
    let ha := handleOf s s.w.ctx la
    let hb := handleOf s s.w.ctx lb
    let n := c * (if hSparse ha then 2 else 1)
    let port := fun (l : Layout) (h h0 : BitVec 256) (p k : Nat) => slotRange s l h p
      (portCheck (hasTrestle s.part) (wavBytes s.rd) l h0 p false (if hSpace h0 = 6 then none else some k))
    let v := worstOf (port la ha ha 0 c) (port lb (hb &&& ~~~BitVec.ofNat 256 (2 ^ 217)) (hb &&& ~~~BitVec.ofNat 256 (2 ^ 217)) 1 n)
    let s1 := s.costed v
    let badRing := fun (h : BitVec 256) => hSpace h = 6 ∧ ∀ d, ringDesc s h = some d → d.feed ≠ hfld h 20 4
    let short := (hSpace ha ≠ 6 ∧ kmExt la < c) ∨ (hSpace hb ≠ 6 ∧ kmExt lb < n)
    let steps := tset s.w.tstat f.t.toNat (tget s.w.tstat f.t.toNat &&& 0xFFFE0000)
    let fl := flagSel s.w f.fs
    let loop := fun (i : Instr) (ty : Nat) (fits : Prop) =>
      let sparse := hSparse hb = true ∨ (hSparse ha = true ∧ (hSpace ha = 6 ∨ 5 ≤ ty))
      (s.rd.exec ≠ s.rd.live → exec i s = .next (trapNow s 0x0A 1)) ∧
      (s.rd.exec = s.rd.live → 2 ^ 17 ≤ c → exec i s = .next (trapNow s 0x0A 2)) ∧
      (s.rd.exec = s.rd.live → c < 2 ^ 17 → 65536 < c → exec i s = .next (trapNow s 0x0A 3)) ∧
      (s.rd.exec = s.rd.live → c ≤ 65536 →
        (v.verd = 2 → exec i s = .next (if v.absent then trapNow s1 2 0 else trapNow s1 8 v.cause)) ∧
        (v.verd ≠ 2 → ¬ fits ∨ sparse → exec i s = .next (trapNow s1 0x0A 4)) ∧
        (v.verd ≠ 2 → fits → ¬ sparse →
          (badRing ha ∨ badRing hb → exec i s = .next (trapNow s1 0x0A 5)) ∧
          (¬ (badRing ha ∨ badRing hb) → short → exec i s = .next (trapNow s1 0x0A 3)) ∧
          (¬ (badRing ha ∨ badRing hb) → ¬ short →
            (0 < c → exec i s = .next { s1 with
              w := { s1.w with
                tstat := steps, flags := (flagInc s.w fl).flags, engFlags := (markEng s.w fl).engFlags, pc := s.w.pc + 4,
                marks := s.w.marks ++ (if ty = 6 then [f.t.toNat, f.t.toNat + 1] else [f.t.toNat]).map fun k =>
                  { reg := .tile k, pass := none, op := some s.nextOp } }
              nextOp := s.nextOp + 1
              matOps := s.matOps ++ [
                { id := s.nextOp, wave := s.w.uid, launch := s.w.launch, ctx := s.w.ctx, quad := s.w.quad, ty := ty, tile := f.t.toNat,
                  la := la, ha := ha, lb := lb, hb := hb, count := c, step := 0, busy := false, result := [], rflags := 0,
                  flag := fl, latch := if f.x then some f.rb else none, reuseA := false, reuseB := false,
                  slotA := none, slotB := none, seq := s.nextOp, token := s.w.token, kept := [], waiting := false,
                  fwd := !s.w.scSys, rows := [], begun := false }] }) ∧
            (c = 0 → ∃ t, exec i s = .next t ∧ SameMemory s t ∧ t.w = { s1.w with tstat := steps, pc := s.w.pc + 4 } ∧
              t.matOps.length = s.matOps.length ∧
              ((∀ o ∈ s.matOps, o.quad ≠ s.w.quad) → t.latches = s.latches.filter fun x => x.quad != s.w.quad)))))
    loop (.mloopBf16 f) 0 (hFmt ha = 3 ∧ hFmt hb = 3) ∧
    loop (.mloopF16 f) 1 (hFmt ha = 2 ∧ hFmt hb = 2) ∧
    loop (.mloopE4m3 f) 2 (hFmt ha = 4 ∧ (hFmt hb = 4 ∨ hFmt hb = 5)) ∧
    loop (.mloopE5m2 f) 3 (hFmt ha = 5 ∧ (hFmt hb = 4 ∨ hFmt hb = 5)) ∧
    loop (.mloopI8 f) 4 ((hFmt ha = 8 ∨ hFmt ha = 12) ∧ (hFmt hb = 8 ∨ hFmt hb = 12)) ∧
    loop (.mloopHx4 f) 5 (hFmt ha = 6 ∧ hFmt hb = 6) ∧
    loop (.mloopF64 f) 6 (hFmt ha = 0 ∧ hFmt hb = 0)

/-- R301 to R304: MZERO clears its tile; MRD moves the tile's elements to the registers of its EXEC slots and MWR the other way; MSTAT
reads a tile's status with BUSY and clears bits [30:24]; MLDA and MSTA hand a tile load or store to the tile unit. Every other register
and tile element, and every byte of memory, keeps its value.
It rests on choices of the model: logs 16, 17 and 37. -/
def Obligations.MatrixTileWords : Prop :=
  ∀ (s : State) (z : MzeroF) (m : MmovF) (st : MstatF) (l : MldF),
    let per := 256 / s.w.width
    let width := s.w.width = 32 ∨ s.w.width = 64 ∨ s.w.width = 128
    let moved := fun (toTile : Bool) (regs : List RegId) (w : Wave) => ({ s with
      w := { w with
        flags := (flagInc s.w (flagSel s.w m.fs)).flags, pc := s.w.pc + 4,
        marks := s.w.marks ++ regs.map fun r => { reg := r, pass := none, op := some s.nextOp } }
      moves := s.moves ++ [{ wave := s.w.uid, toTile := toTile, flag := flagSel s.w m.fs, id := s.nextOp }]
      nextOp := s.nextOp + 1 } : State)
    Answers (.mzero z) s (fun t => t = { s with w := { s.w with tiles := t.w.tiles, marks := t.w.marks, pc := s.w.pc + 4 } } ∧
      SameMemory s t ∧ ∀ k, tget t.w.tiles k = if k / 256 = z.t.toNat then 0 else tget s.w.tiles k) ∧
    (width → s.rd.width = s.w.width → m.v.toNat + per ≤ 0x68 →
      Answers (.mrd m) s (fun t => SameMemory s t ∧
        t = moved false ((List.range per).map fun r => vReg s.w (m.v + BitVec.ofNat 7 r)) { s.w with v := t.w.v, o := t.w.o } ∧ ∀ r k, r.toNat < 0x68 → k < 128 →
        vRead t.w r k = if k ∈ s.rd.slots ∧ m.v.toNat ≤ r.toNat ∧ r.toNat < m.v.toNat + per
          then tget s.rd.tiles (m.t.toNat * 256 + (r.toNat - m.v.toNat) * s.w.width + k) else vRead s.w r k) ∧
      Answers (.mwr m) s (fun t => SameMemory s t ∧ t = moved true [.tile m.t.toNat] { s.w with tiles := t.w.tiles } ∧
        (∀ r k, k ∈ s.rd.slots → r < per →
          tget t.w.tiles (m.t.toNat * 256 + r * s.w.width + k) = vRead s.rd (m.v + BitVec.ofNat 7 r) k) ∧
        (∀ k, (∀ r i, i ∈ s.rd.slots → r < per → k ≠ m.t.toNat * 256 + r * s.w.width + i) →
          tget t.w.tiles k = tget s.w.tiles k))) ∧
    Answers (.mstat st) s (fun t => SameMemory s t ∧
      t = { s with w := { s.w with s := t.w.s, tstat := t.w.tstat, marks := t.w.marks, pc := s.w.pc + 4 } } ∧
      SRegs s t st.s.toNat [tget s.w.tstat st.t.toNat ||| (if tileBusy s s.w st.t.toNat then 0x80000000 else 0)] ∧
      ∀ k, tget t.w.tstat k = if k = st.t.toNat then tget s.w.tstat k &&& 0x80FFFFFF else tget s.w.tstat k) ∧
    (let la := layOf s.rd l.la.toNat
     let h := handleOf s s.w.ctx la
     let tiles := if hFmt h = 0 then [l.t.toNat, l.t.toNat + 1] else [l.t.toNat]
     let good := la.count = 256 ∧ (hFmt h ≤ 3 ∨ hFmt h = 10 ∨ hFmt h = 14) ∧
       (hFmt h = 0 → l.t.toNat % 2 = 0 ∧ l.t.toNat + 1 < s.w.acc) ∧ hSpace h ≠ 6
     let port := fun (p : Nat) (w : Bool) => portCheck (hasTrestle s.part) (wavBytes s.rd) la (handleOf s s.rd.ctx la) p w none
     let s1 := s.costed (port 2 false)
     let s2 := s.costed (port 3 true)
     let fl := flagSel s.w l.fs
     (good → (port 2 false).verd ≠ 2 → exec (.mlda l) s = .next { s1 with
       w := { s1.w with
         flags := (flagInc s.w fl).flags, engFlags := (markEng s.w fl).engFlags, pc := s.w.pc + 4,
         marks := s.w.marks ++ tiles.map fun k => { reg := .tile k, pass := none, op := some s.nextOp } }
       nextOp := s.nextOp + 1, engOps := s.engOps ++ [{ newEng s .mlda 0xA9 la la none l.fs 0 with hd := 0, tile := l.t.toNat }] }) ∧
     (good → (port 3 true).verd ≠ 2 → (s.w.token = none ∨ hSpace h ≠ 5) → exec (.msta l) s = .next { s2 with
       w := { s2.w with
         flags := (flagInc s.w fl).flags, engFlags := (markEng s.w fl).engFlags, pc := s.w.pc + 4,
         marks := s.w.marks ++ (if hSpace h = 0 then
           (List.range ((hBound h + 4 * s.w.width - 1) / (4 * s.w.width))).map fun k =>
             { reg := .v (hBase h + k), pass := none, op := some s.nextOp } else []) }
       nextOp := s.nextOp + 1
       engOps := s.engOps ++ [{ newEng s .msta 0xAA la la none l.fs 0 with
         tile := l.t.toNat,
         fpv := mstaVals s.rd l.t.toNat (decide (hFmt h = 0)) }] }) ∧
     (∀ e, e < 256 → tget (mstaVals s.rd l.t.toNat (decide (hFmt h = 0))) e = pair64 (tget s.rd.tiles (l.t.toNat * 256 + e))
       (if hFmt h = 0 then tget s.rd.tiles ((l.t.toNat + 1) * 256 + e) else 0)) ∧
     (s.w.token.isSome = true → hSpace h = 5 → (port 3 true).verd ≠ 2 → exec (.msta l) s = .next (trapNow s2 0x0A 7)))

/-- R287 to R289: the sums of a step. Integer steps are exact and wrap; a binary64 step is a chain of fused multiply-adds in ascending
position, which starts from the accumulator and gathers the flags of each; an FP32 step adds its terms, each cut toward zero at the last
place of the 48-bit window below the largest, and rounds the sum once, to nearest. NX says that a term was cut or the sum was rounded, OF
that it overflowed. A sum of 0 is +0; it is -0 where every term is -0. A NaN operand, a product of zero and infinity, and infinite terms
of both signs give the quiet NaN with NV; infinite terms of one sign give that infinity, with no flag. -/
def Obligations.StepSums : Prop :=
  (∀ (c : Nat) (as bs : List FVal), stepI8 c as bs =
    (BitVec.ofInt 32 ((BitVec.ofNat 32 c).toInt + ((as.zip bs).map fun x => intOfV x.1 * intOfV x.2).sum)).toNat) ∧
  (∀ (c : Nat), stepF64 c [] [] = (c, 0)) ∧
  (∀ (c : Nat) (a b : FVal) (as bs : List FVal),
    let r := ffmaV .f64 .rne false a b (fdecode .f64 c)
    let st := (if r.2.testBit 0 then 1 else 0) + (if r.2.testBit 2 then 2 else 0) + (if r.2.testBit 4 then 4 else 0)
    stepF64 c (a :: as) (b :: bs) = ((stepF64 r.1 as bs).1, st ||| (stepF64 r.1 as bs).2)) ∧
  (∀ (c : FVal) (as bs : List FVal), (as.zip bs).length = as.length →
    (c.isNan = true ∨ (∃ x ∈ as, x.isNan = true) ∨ (∃ x ∈ bs, x.isNan = true) ∨ (∃ x ∈ as.zip bs, mulV x.1 x.2 = none) →
      stepSum c as bs = (0x7FC00000, 4)) ∧
    (c.isNan = false → (∀ x ∈ as, x.isNan = false) → (∀ x ∈ bs, x.isNan = false) → (∀ x ∈ as.zip bs, mulV x.1 x.2 ≠ none) →
      let terms := c :: (as.zip bs).filterMap (fun x => mulV x.1 x.2)
      (.inf false ∈ terms → .inf true ∈ terms → stepSum c as bs = (0x7FC00000, 4)) ∧
      (.inf false ∈ terms → .inf true ∉ terms → stepSum c as bs = (0x7F800000, 0)) ∧
      (.inf true ∈ terms → .inf false ∉ terms → stepSum c as bs = (0xFF800000, 0)) ∧
      ((∀ t ∈ terms, t.isFin = true) → (∀ t ∈ terms, t.rat = 0) →
        stepSum c as bs = (if ∀ t ∈ terms, t.neg = true then 0x80000000 else 0, 0)) ∧
      ∀ (q : Int), (∀ t ∈ terms, t.isFin = true) → (∀ t ∈ terms, ∀ n m e, t = .fin n m e → m ≠ 0 → flog m e ≤ q + 47) →
        (∃ t ∈ terms, ∃ n m e, t = .fin n m e ∧ m ≠ 0 ∧ flog m e = q + 47) →
        let part := fun (t : FVal) => if t.rat < 0 then -⌊-t.rat / (2 : ℚ) ^ q⌋ else ⌊t.rat / (2 : ℚ) ^ q⌋
        let lost := ∃ t ∈ terms, t.rat ≠ part t * (2 : ℚ) ^ q
        let sum := (terms.map part).sum
        let r := fround .f32 .rne false (decide (sum < 0)) sum.natAbs q false
        (sum = 0 → (¬ lost → stepSum c as bs = (0, 0)) ∧ (lost → stepSum c as bs = (0, 1))) ∧
        (sum ≠ 0 → (stepSum c as bs).1 = r.1 ∧ ((stepSum c as bs).2.testBit 0 = true ↔ lost ∨ r.2.testBit 0 = true) ∧
          (stepSum c as bs).2.testBit 1 = r.2.testBit 2 ∧ (stepSum c as bs).2 < 4)))

/-- R286, R293, R296, R298, R300, R303 to R305: the unit's events. A pin is added for a line that the operation at the head will read,
within the quadrant's 64; a row whose lines are pinned goes into the collector; a step whose operand tiles are both there begins and
fixes its result, element by element, from them and the tile; its result then goes to the tile, STEPS counts it, and the last one
ends the MLOOP, and MLSTEP's V with it; a tile move ends with its marks and its flag; a tile load moves one element after another, and
with the last it ends in the same way.
It rests on choices of the model: log 17. -/
def Obligations.MatrixEvents : Prop :=
  ∀ (s : State) (w : Wave),
    (∀ id m pa spare, s.matOps.find? (fun o => o.id == id) = some m → pinNow s m = some (pa, spare) →
      Answers (.tileFetchPin id) s fun t => SameMemory s t ∧
        t.pins = s.pins.filter (fun p => decide (p ∉ spare)) ++ [{ quad := m.quad, op := m.id, pa := pa }] ∧
        (t.pins.filter fun p => p.quad == m.quad).length ≤ 64 ∧ t.w = s.w ∧ t.waves = s.waves ∧
        t.matOps = s.matOps.map fun o => if o.id = m.id then
          { o with got := o.got ++ (spare.filter fun p => p.op == m.id).map fun p => p.pa } else o) ∧
    (∀ quad m s1 b u i r, matHead s quad = some m → stepCan s m = true → m.begun = true → (s.matOps.find? fun o => o.id == m.id) = some m →
      slotAsk s m false = none → slotAsk s m true = none → readyRows s m = [(b, u, i)] → m.isRing b = false →
      readRow s m b u i = (s1, .ok r) → (s1.matOps.find? fun o => o.id == m.id) = some m →
      stepFull { m with rows := m.rows ++ [r] } = false →
      Answers (.matrixStepStart quad) s fun t =>
        (t.matOps.find? fun o => o.id == m.id) = some { m with rows := m.rows ++ [r] } ∧ t.mem = s1.mem ∧ t.w = s1.w) ∧
    (∀ quad m, matHead s quad = some m → stepCan s m = true → m.begun = true → stepFull m = true →
      s.findWave m.wave = some w → (s.matOps.find? fun o => o.id == m.id) = some m →
      Answers (.matrixStepStart quad) s fun t => SameMemory s t ∧ ∃ o2, t.matOps.find? (fun o => o.id == m.id) = some o2 ∧ o2.busy = true ∧
        o2.step = m.step ∧ ∀ e, e < 256 →
          let x := stepOperands m
          tget o2.result e = BitVec.ofNat 32 (stepCell m w x.2.1 x.2.2 e).1 ∧
          tget o2.result (256 + e) = BitVec.ofNat 32 ((stepCell m w x.2.1 x.2.2 e).1 / 2 ^ 32)) ∧
    (∀ quad m, matHead s quad = some m → m.busy = true → s.findWave m.wave = some w → w.uid = m.wave →
      (s.matOps.find? fun o => o.id == m.id) = some m →
      Answers (.matrixStepResult quad) s fun t => SameMemory s t ∧ ∃ w2, t.findWave m.wave = some w2 ∧
        (∀ e, e < 256 → tget w2.tiles (m.tile * 256 + e) = tget m.result e) ∧
        (m.ty = 6 → ∀ e, e < 256 → tget w2.tiles ((m.tile + 1) * 256 + e) = tget m.result (256 + e)) ∧
        (∀ k, k / 256 ≠ m.tile → (m.ty = 6 → k / 256 ≠ m.tile + 1) → tget w2.tiles k = tget w.tiles k) ∧
        (m.rflags < 2 ^ 31 → m.rflags % 2 ^ 17 = 0 → (tget w2.tstat m.tile).toNat % 2 ^ 17 = (m.step + 1) % 2 ^ 17) ∧
        (m.step + 1 < m.count → ∃ o2, t.matOps.find? (fun o => o.id == m.id) = some o2 ∧ o2.step = m.step + 1 ∧ o2.busy = false) ∧
        (m.count ≤ m.step + 1 → t.matOps = s.matOps.filter (fun o => decide (o.id ≠ m.id)) ∧ w2.flags = (flagDec w m.flag).flags ∧
          w2.marks = w.marks.filter (fun k => decide (k.op ≠ some m.id)) ∧ w2.mlstep = w.mlstep &&& 0x7FFFFFFF)) ∧
    (∀ u m rest, (s.moves.filter fun x => x.wave == u) = m :: rest → s.findWave u = some w → w.uid = u →
      Answers (.tileMoveComplete u 0) s fun t => SameMemory s t ∧ t.moves = s.moves.filter (fun x => decide (x.id ≠ m.id)) ∧
        t.findWave u = some { w with
          flags := (flagDec w m.flag).flags, marks := w.marks.filter fun k => decide (k.op ≠ some m.id) }) ∧
    (∀ id o, s.engOps.find? (fun x => x.id == id) = some o → tlsCan s o = true → s.findWave o.wave = some w → w.uid = o.wave →
      (o.left = [] → hSpace o.hd ≠ 6 → Answers (.tileLoadStoreComplete id) s fun t => SameMemory s t ∧
        t.engOps = s.engOps.filter (fun x => decide (x.id ≠ id)) ∧ ∃ w2, t.findWave o.wave = some w2 ∧ w2.tiles = w.tiles ∧
          w2.flags = (flagDec w o.flag).flags ∧ w2.marks = w.marks.filter (fun k => decide (k.op ≠ some id))) ∧
      (∀ r (src : Nat → Nat), o.kind = .mlda → o.left ≠ [] → hSpace o.hd ≠ 6 → hSpace o.ha = 1 → hFmt o.ha = 1 →
        s.resvOf o.launch o.core = some r →
        (∀ k ∈ o.left, ∃ b n e, layoutLocate o.la o.ha (coordsOf o.la.modes k) = .at 0 b n e ∧ src k = hBase o.ha % 2 ^ 19 + b ∧
          src k + 4 ≤ r.size) →
        Answers (.tileLoadStoreComplete id) s fun t => SameMemory s t ∧ ∃ before k after, o.left = before ++ k :: after ∧
          t.engOps.find? (fun x => x.id == id) = some { o with left := before ++ after, waiting := false } ∧
          ∃ w2, t.findWave o.wave = some w2 ∧ ∀ x, tget w2.tiles x =
            if x = o.tile * 256 + k then BitVec.ofNat 32 (leNat (tgetRun r.mem (src k) 4)) else tget w.tiles x))

/-! ### Tasks, crews and barriers (R308 to R333) -/

/-- R314 to R317: SPAWN and SPAWN.TRY. The task trap names the first failing check of the operand block and has no effect; a good
block is handed over with its flag raised and its register marked, and nothing else changes. -/
def Sys2Proof.Claims.SpawnWords : Prop :=
  ∀ (s : State) (f : SpawnF) (c : Ctx) (p : Plan), s.ctxOf s.w.ctx = some c →
    let r := fun k => (sReg s.rd (f.sa.toNat + k)).toNat
    let nin := r 0 / 2 ^ 9 % 2 ^ 3
    let isNew := r 0 / 2 ^ 31 = 1
    let num := r 0 % 2 ^ 9
    let ins := [r 1 % 2 ^ 16, r 1 / 2 ^ 16, r 2 % 2 ^ 16, r 2 / 2 ^ 16]
    let out := if r 0 / 2 ^ 12 % 2 = 1 then some (r 3 % 2 ^ 16) else none
    let malformed := r 0 / 2 ^ 13 % 2 ^ 18 ≠ 0 ∨ 4 < nin ∨ (isNew ∧ 8 ≤ num) ∨ 2 ^ 16 ≤ r 3 ∨ ∃ x ∈ ins.drop nin, x ≠ 0
    let names := if isNew then ∃ l e, s.launchOf s.w.launch = some l ∧ l.templates[num]? = some (e, p)
      else ∃ k, s.cordOf num = some k ∧ k.ctx = s.w.ctx ∧ k.plan = p
    let unnamed := if isNew then ∀ l, s.launchOf s.w.launch = some l → l.templates[num]? = none
      else ∀ k, s.cordOf num = some k → k.ctx ≠ s.w.ctx
    let closed := ¬ isNew ∧ ∃ k, s.cordOf num = some k ∧ (k.closed = true ∨ s.w.uid ∈ k.closing)
    let outside := (∃ x ∈ ins.take nin, c.tbCount ≤ x) ∨ ∃ x, out = some x ∧ c.tbCount ≤ x
    let claims := fun (i : Instr) (isTry : Bool) =>
      (s.w.token.isSome = true → exec i s = .next (trapNow s 0x0B 8)) ∧
      (s.w.token = none → malformed → exec i s = .next (trapNow s 0x0B 1)) ∧
      (s.w.token = none → ¬ malformed → unnamed → exec i s = .next (trapNow s 0x0B 2)) ∧
      (s.w.token = none → ¬ malformed → names →
        (closed → exec i s = .next (trapNow s 0x0B 3)) ∧
        (¬ closed → p.args < f.n.toNat → exec i s = .next (trapNow s 0x0B 4)) ∧
        (¬ closed → f.n.toNat ≤ p.args → outside → exec i s = .next (trapNow s 0x0B 5)) ∧
        (¬ closed → f.n.toNat ≤ p.args → ¬ outside → exec i s = .next { s with
          w := { s.w with
            flags := (flagInc s.w (flagSel s.w f.fs)).flags,
            marks := s.w.marks ++ sMarks s.w f.sd.toNat 1 (some s.nextOp),
            pc := s.w.pc + 4 }
          nextOp := s.nextOp + 1
          spawns := s.spawns ++ [
            { wave := s.w.uid, launch := s.w.launch, ctx := s.w.ctx, sd := f.sd.toNat, isTry := isTry,
              tmpl := if isNew then some num else none, cord := num,
              args := (List.range f.n.toNat).map fun k => sReg s.rd (f.sa.toNat + 4 + k),
              ins := (ins.take nin).map fun x => c.tbBase + x, out := out.map fun x => c.tbBase + x,
              flag := flagSel s.w f.fs, seq := s.nextOp }] }))
    claims (.spawn f) false ∧ claims (.spawnTry f) true

/-- R309, R316, R317: SPAWN_ACCEPT judges the first pending word of a wave. An eligible task enters its cord as its last item with
the next ordinal, another enters the pen; a cord template makes a free cord Open first. SD takes the cord's number and 2^31. A
SPAWN.TRY without room takes its reason instead, and nothing is added or created; a SPAWN waits. -/
def Sys2Proof.Claims.SpawnsAreAccepted : Prop :=
  ∀ (s : State) (u : Nat) (o : SpawnOp) (w : Wave), spawnTurn s u = some o → s.findWave o.wave = some w → w.uid = o.wave →
    o.sd < 64 →
    let answered := fun (t : State) (v : Nat) => SameMemory s t ∧ t.tb = s.tb ∧ t.spawns = s.spawns.filter (fun x => decide (x ≠ o)) ∧
      ∃ w2, t.findWave o.wave = some w2 ∧ SAnswered w w2 false o.sd [BitVec.ofNat 32 v] o.flag o.seq
    let ready := (o.ins.all fun x => decide (tget s.tb x = 1)) = true ∧ (o.out.all fun x => decide (tget s.tb x = 0)) = true
    let noFree := ∀ n, n < 512 → ∃ c ∈ s.cords, c.num = n
    let item := fun (p : Plan) (ord : Nat) => ({ ord := ord, args := o.args ++ List.replicate (p.args - o.args.length) 0 } : Item)
    let task := fun (n : Nat) => ({ cord := n, args := o.args, ins := o.ins, out := o.out, batch := 0 } : Task)
    (∀ c, o.tmpl = none → s.cordOf o.cord = some c →
      (ready → c.items.length < 65536 → Answers (.spawnAccept u) s fun t => answered t (2 ^ 31 + o.cord) ∧ t.pen = s.pen ∧
        t.cordOf o.cord = some { c with items := c.items ++ [item c.plan c.nextOrd], nextOrd := c.nextOrd + 1 } ∧
        ∀ n, n ≠ o.cord → t.cordOf n = s.cordOf n) ∧
      (¬ ready → s.pen.length < 16384 → Answers (.spawnAccept u) s fun t => answered t (2 ^ 31 + o.cord) ∧
        t.pen = s.pen ++ [task o.cord] ∧ t.cords = s.cords)) ∧
    (∀ k l e p, o.tmpl = some k → s.launchOf o.launch = some l → l.templates[k]? = some (e, p) → ¬ noFree →
      ready ∨ s.pen.length < 16384 → Answers (.spawnAccept u) s fun t => ∃ n, n < 512 ∧ (∀ c ∈ s.cords, c.num ≠ n) ∧
        answered t (2 ^ 31 + n) ∧ (ready → t.pen = s.pen) ∧ (¬ ready → t.pen = s.pen ++ [task n]) ∧
        t.cords = s.cords ++ [{
          num := n, ctx := o.ctx, launch := o.launch, entry := e, plan := p, range := 0, taken := 0,
          items := if ready then [item p 0] else [], nextOrd := if ready then 1 else 0, closed := false, closing := [],
          exact := false }]) ∧
    (∀ why, (why = 1 ∧ o.tmpl = none ∧ ready ∧ (∃ c, s.cordOf o.cord = some c ∧ 65536 ≤ c.items.length)) ∨
        (why = 2 ∧ (o.tmpl = none ∨ ¬ noFree) ∧ ¬ ready ∧ 16384 ≤ s.pen.length) ∨ (why = 3 ∧ o.tmpl.isSome = true ∧ noFree) →
      (o.isTry = true → Answers (.spawnAccept u) s fun t => answered t (why * 2 ^ 28) ∧ t.cords = s.cords ∧ t.pen = s.pen) ∧
      (o.isTry = false → exec (.spawnAccept u) s = .next s))

/-- SPAWN and SPAWN.TRY, and how they are accepted.
It rests on choices of the model: logs 18 and 42. -/
def Obligations.Spawning : Prop :=
  Sys2Proof.Claims.SpawnWords ∧ Sys2Proof.Claims.SpawnsAreAccepted

/-- R318 to R322: CLOSE and the tile-buffer words, with their task traps, and what comes of them. CORD_CLOSE_APPLY closes the cord,
and drains the waves parked on an empty one, pre-empted ones among them; the exact cord of a launch stays Open until every tile has resolved
and every exact item has entered (R358). TILE_BUFFER_APPLY applies words in port order and then releases the pen's eligible tasks in
their order, one batch a clk; SD takes the previous states. TASK_ENTER_CORD enters the tasks of one batch into their cords, in their
order and with the next ordinals, as far as each cord has room: a full cord holds back only its own tasks.
It rests on choices of the model: logs 41 and 42. -/
def Obligations.TileBuffersAndCords : Prop :=
  ∀ (s : State) (g : SaF) (tb : TbF) (tt : TbtF),
    let v := (sReg s.rd g.sa.toNat).toNat
    let n := if v / 2 ^ 31 = 1 then s.w.cord else v % 2 ^ 9
    let mine := ∃ c, s.cordOf n = some c ∧ c.ctx = s.w.ctx
    (s.w.token.isSome = true → exec (.close g) s = .next (trapNow s 0x0B 8)) ∧
    (s.w.token = none →
      (v / 2 ^ 9 % 2 ^ 22 ≠ 0 → exec (.close g) s = .next (trapNow s 0x0B 1)) ∧
      (v / 2 ^ 9 % 2 ^ 22 = 0 → ¬ mine → exec (.close g) s = .next (trapNow s 0x0B 2)) ∧
      (v / 2 ^ 9 % 2 ^ 22 = 0 → mine → exec (.close g) s = .next { s with
        w := { s.w with pc := s.w.pc + 4 }
        cords := s.cords.map fun c => if c.num = n then { c with closing := c.closing ++ [s.w.uid] } else c })) ∧
    (∀ m c, (s.cords.filter fun x => x.num == m) = [c] → c.closing ≠ [] →
      let kept := c.exact = true ∧ ∃ l, s.launchOf c.launch = some l ∧ l.ending = none ∧
        (l.tileDone ≠ (l.range + l.titems - 1) / l.titems ∨ l.exactDue ≠ [])
      (kept → exec (.cordCloseApply m) s = .next s) ∧
      (¬ kept → Answers (.cordCloseApply m) s fun t => SameMemory s t ∧
        (cordEmpty s c = false → t.cordOf m = some { c with closed := true, closing := [] } ∧ t.w = s.w ∧ t.waves = s.waves) ∧
        (cordEmpty s c = true → cordUsed s m = false → t.cordOf m = none) ∧
        (cordEmpty s c = true → ∀ u w, s.findWave u = some w → w.status = .parked → w.cord = m → w.token = none →
          t.findWave u = some { w with draining := true, status := .retiring }) ∧
        (cordEmpty s c = true → ∀ w ∈ s.saved, w.status = .parked → w.cord = m → w.token = none →
          { w with draining := true, status := .retiring } ∈ t.saved))) ∧
    (∀ c, s.ctxOf s.w.ctx = some c →
      let claims := fun (i : Instr) (kind : Nat) (sd sa : BitVec 6) (cnt : Nat) (fl : Option Nat) =>
        let x := (sReg s.rd sa.toNat).toNat
        (s.w.token.isSome = true → kind ≠ 2 → exec i s = .next (trapNow s 0x0B 8)) ∧
        (s.w.token = none ∨ kind = 2 → 2 ^ 16 ≤ x → exec i s = .next (trapNow s 0x0B 1)) ∧
        (s.w.token = none ∨ kind = 2 → x < 2 ^ 16 → c.tbCount < x + cnt → exec i s = .next (trapNow s 0x0B 5)) ∧
        (s.w.token = none ∨ kind = 2 → x < 2 ^ 16 → x + cnt ≤ c.tbCount → exec i s = .next { s with
          w := { s.w with
            flags := (flagInc s.w fl).flags, marks := s.w.marks ++ sMarks s.w sd.toNat 1 (some s.nextOp), pc := s.w.pc + 4 }
          nextOp := s.nextOp + 1
          tbOps := s.tbOps ++ [
            { wave := s.w.uid, quad := s.w.quad, kind := kind, idx := c.tbBase + x, n := cnt, sd := sd.toNat, flag := fl,
              seq := s.nextOp }]
          fences := s.fences ++ if kind = 2 then [{ wave := s.w.uid, kind := 4, sc := 3, seq := s.nextOp }] else [] })
      claims (.tbset tb) 0 tb.sd tb.sa (tb.n.toNat + 1) (flagSel s.w tb.fs) ∧
        claims (.tbclr tb) 1 tb.sd tb.sa (tb.n.toNat + 1) (flagSel s.w tb.fs) ∧
        claims (.tbtest tt) 2 tt.sd tt.sa (tt.n.toNat + 1) none) ∧
    (∀ k, 0 < k → (s.tbOps.filter (tbMay s)) ≠ [] →
      Answers (.tileBufferApply k) s fun t => SameMemory s t ∧ t.cords = s.cords ∧
        (∃ ops : List TbOp, ops.Perm ((s.tbOps.filter (tbMay s)).take k) ∧
          ops.Pairwise (fun a b => a.quad < b.quad ∨ (a.quad = b.quad ∧ a.seq ≤ b.seq)) ∧
          ∀ x, tget t.tb x = ops.foldl (fun b o =>
            if o.kind ≠ 2 ∧ o.idx ≤ x ∧ x < o.idx + o.n then (if o.kind = 0 then 1 else 0) else b) (tget s.tb x)) ∧
        t.released = s.released ++ (s.pen.filter fun p => eligible t p.ins p.out).map (fun p => { p with batch := s.nextOp }) ∧
        t.pen = s.pen.filter (fun p => !eligible t p.ins p.out) ∧
        ∀ o rest w, s.tbOps.filter (tbMay s) = o :: rest → k = 1 → s.findWave o.wave = some w → w.uid = o.wave → o.sd < 64 →
          o.n ≤ 16 → t.tbOps = s.tbOps.filter (fun y => decide (y ≠ o)) ∧
            ∃ old : Word, (∀ b, b < 32 → old.getLsbD b = (decide (b < o.n) && decide (tget s.tb (o.idx + b) = 1))) ∧
              ∃ w2, t.findWave o.wave = some w2 ∧ SAnswered w w2 false o.sd [old] o.flag o.seq) ∧
    (enterBatch s = none → exec .taskEnterCord s = .next s) ∧
    (∀ b, enterBatch s = some b →
      (∃ k ∈ s.released, k.batch = b ∧ ∀ c, s.cordOf k.cord = some c → c.items.length < 65536) ∧
      Answers .taskEnterCord s fun t => SameMemory s t ∧ t.pen = s.pen ∧ t.tb = s.tb ∧ t.w = s.w ∧ t.waves = s.waves ∧
        (∀ n c, s.cordOf n = some c →
          let all := s.released.filter fun k => decide (k.batch = b ∧ k.cord = n)
          let go := all.take (65536 - c.items.length)
          t.cordOf n = some { c with
            items := c.items ++ go.mapIdx fun j k =>
              { ord := c.nextOrd + j, args := k.args ++ List.replicate (c.plan.args - k.args.length) 0 },
            nextOrd := c.nextOrd + go.length }) ∧
        ((∀ k ∈ s.released, k.batch = b → ∀ c, s.cordOf k.cord = some c →
            c.items.length + (s.released.filter fun x => decide (x.batch = b ∧ x.cord = k.cord)).length ≤ 65536) →
          t.released = s.released.filter fun k => decide (k.batch ≠ b)))

/-- R314, R324 to R332: JOIN, LEAVE and BAR, with their task traps: each is handed over, and JOIN and BAR block their wave. -/
def Sys2Proof.Claims.CrewWords : Prop :=
  ∀ (s : State) (j : SdaF) (b : SdF),
    let v := (sReg s.rd j.sa.toNat).toNat
    let scope := v / 2 ^ 16 % 2
    let op := fun (scope place key : Nat) (kind : CrewKind) =>
      ({ wave := s.w.uid, launch := s.w.launch, scope := scope, place := place, key := key, kind := kind, seq := s.nextOp } : CrewOp)
    (s.w.token.isSome = true ∨ s.w.crew.isSome = true → exec (.join j) s = .next (trapNow s 0x0B 6)) ∧
    (s.w.token = none → s.w.crew = none → 2 ^ 17 ≤ v → exec (.join j) s = .next (trapNow s 0x0B 1)) ∧
    (s.w.token = none → s.w.crew = none → v < 2 ^ 17 → exec (.join j) s = .next { s with
      w := { s.w with
        marks := s.w.marks ++ sMarks s.w j.sd.toNat 1 (some s.nextOp), blocked := .join, blockArg := s.w.pc.toNat, pc := s.w.pc + 4 }
      nextOp := s.nextOp + 1
      crewOps := s.crewOps ++ [op scope (if scope = 0 then s.w.quad / 4 else s.w.quad / 16) (v % 2 ^ 16) (.join j.sd.toNat)] }) ∧
    (s.w.token.isSome = true → exec .leave s = .next (trapNow s 0x0B 8)) ∧
    (s.w.token = none → crewOf s s.w = none → exec .leave s = .next (s.withW { s.w with pc := s.w.pc + 4 })) ∧
    (∀ c, s.w.token = none → crewOf s s.w = some c → exec .leave s = .next { s with
      w := { s.w with pc := s.w.pc + 4 }
      nextOp := s.nextOp + 1, crewOps := s.crewOps ++ [op c.scope c.place c.key .leave] }) ∧
    (crewOf s s.w = none → exec (.bar b) s = .next (trapNow s 0x0B 7)) ∧
    (∀ c, crewOf s s.w = some c →
      let w := { s.w with
        marks := s.w.marks ++ sMarks s.w b.sd.toNat 1 (some 0), blocked := .bar, blockArg := s.w.pc.toNat, pc := s.w.pc + 4 }
      (hasArrived s c s.w.uid = false → exec (.bar b) s = .next { s with
        w := w, nextOp := s.nextOp + 1, crewOps := s.crewOps ++ [op c.scope c.place c.key (.bar b.sd.toNat)] }) ∧
      (hasArrived s c s.w.uid = true → exec (.bar b) s = .next (s.withW w)))

/-- R324 to R329, R332: the operations applied at a crew. A JOIN makes the wave a member, of a new crew when there is none, but not of
an open phase; it and LEAVE change CREW. The first BAR opens a phase of all members; the last one, or a drop that leaves nothing
pending, completes it: each wave that waits will read the phase, and the phase counts on. BAR_RETURN gives the phase to its wave,
and drops the core's L1 when the crew is a cluster crew or spans quadrants. -/
def Sys2Proof.Claims.CrewsAndBarriers : Prop :=
  ∀ (s : State) (k : Nat) (o : CrewOp) (rest : List CrewOp) (w : Wave), crewBatch s k = o :: rest → s.findWave o.wave = some w →
    w.uid = o.wave →
    let crew := fun (t : State) => findCrew t o.launch o.scope o.place o.key
    let sent := fun (t : State) => SameMemory s t ∧ t.crewOps = s.crewOps.filter fun p => decide (p ≠ o)
    let quiet := fun (c : Crew) => ¬ (c.isOpen = true ∧ c.pend = 0)
    let complete := fun (c : Crew) (waits : List (Nat × Nat)) => { c with
      isOpen := false, pend := 0, inPhase := [], waiting := [], phase := (c.phase + 1) % 65536,
      returning := c.returning ++ waits.map fun x => (x.1, x.2, c.phase) }
    (∀ sd, o.kind = .join sd → sd < 64 →
      let joined := fun (t : State) => ∃ w2, t.findWave o.wave = some w2 ∧
        SAnswered { w with crew := some (o.key + o.scope * 2 ^ 16), blocked := .none } w2 false sd
          [BitVec.ofNat 32 (o.key + o.scope * 2 ^ 16)] none o.seq
      (∀ c, crew s = some c → quiet c → Answers (.crewOpApply k 1) s fun t => sent t ∧ joined t ∧
        crew t = some { c with members := c.members ++ [o.wave] }) ∧
      (crew s = none → Answers (.crewOpApply k 1) s fun t => sent t ∧ joined t ∧ ∃ c, crew t = some c ∧ c.members = [o.wave] ∧
        c.isOpen = false ∧ c.phase = 0 ∧ c.waiting = [] ∧ c.deferred = [])) ∧
    (∀ sd c, o.kind = .bar sd → crew s = some c → o.wave ∈ c.members → c.deferred = [] →
      (c.isOpen = false → c.members.length ≠ 1 → c.waiting = [] → Answers (.crewOpApply k 1) s fun t => sent t ∧ t.w = s.w ∧
        crew t = some { c with
          isOpen := true, pend := c.members.length - 1, inPhase := c.members, waiting := [(o.wave, sd)] }) ∧
      (c.isOpen = false → c.members.length = 1 → c.waiting = [] → Answers (.crewOpApply k 1) s fun t => sent t ∧ t.w = s.w ∧
        crew t = some (complete c [(o.wave, sd)])) ∧
      (c.isOpen = true → o.wave ∈ c.inPhase → 2 ≤ c.pend → Answers (.crewOpApply k 1) s fun t => sent t ∧ t.w = s.w ∧
        crew t = some { c with pend := c.pend - 1, waiting := c.waiting ++ [(o.wave, sd)] }) ∧
      (c.isOpen = true → o.wave ∈ c.inPhase → c.pend = 1 → Answers (.crewOpApply k 1) s fun t => sent t ∧ t.w = s.w ∧
        crew t = some (complete c (c.waiting ++ [(o.wave, sd)]))) ∧
      (c.isOpen = true → o.wave ∉ c.inPhase → c.pend ≠ 0 → Answers (.crewOpApply k 1) s fun t => sent t ∧ t.w = s.w ∧
        crew t = some { c with deferred := [(o.wave, sd)] })) ∧
    (∀ c, o.kind = .leave → crew s = some c → o.wave ∈ c.members → c.deferred = [] → (∀ x ∈ c.returning, x.1 ≠ o.wave) →
      (∀ x ∈ c.waiting, x.1 ≠ o.wave) → (s.crews.filter fun x => x.id == c.id) = [c] →
      let left := { c with members := c.members.filter fun x => decide (x ≠ o.wave),
                           inPhase := c.inPhase.filter fun x => decide (x ≠ o.wave) }
      let gone := fun (t : State) => sent t ∧ t.findWave o.wave = some { w with crew := none }
      (c.members.all (fun x => x == o.wave) = true → Answers (.crewOpApply k 1) s fun t => gone t ∧ ∀ x ∈ t.crews, x.id ≠ c.id) ∧
      (c.members.all (fun x => x == o.wave) = false →
        (c.isOpen = false ∨ (o.wave ∉ c.inPhase ∧ c.pend ≠ 0) → Answers (.crewOpApply k 1) s fun t => gone t ∧ crew t = some left) ∧
        (c.isOpen = true → o.wave ∈ c.inPhase → 2 ≤ c.pend → Answers (.crewOpApply k 1) s fun t => gone t ∧
          crew t = some { left with pend := c.pend - 1 }) ∧
        (c.isOpen = true → o.wave ∈ c.inPhase → c.pend = 1 → Answers (.crewOpApply k 1) s fun t => gone t ∧
          crew t = some (complete left c.waiting)))) ∧
    (∀ u x c sd ph, s.findWave u = some x → x.uid = u → x.blocked = .bar → sd < 64 →
      (s.crews.find? fun y => y.returning.any fun z => z.1 == u) = some c → (c.returning.find? fun z => z.1 == u) = some (u, sd, ph) →
      Answers (.barReturn u) s fun t => SameMemory s t ∧
        t.l1 = (if crewWide s c then s.l1.filter fun l => decide (l.core ≠ x.quad / 4) else s.l1) ∧
        ∃ w2, t.findWave u = some w2 ∧ SAnswered { x with blocked := .none } w2 false sd [BitVec.ofNat 32 ph] none 0)

/-- The crew words, and the crews they reach.
It rests on choices of the model: logs 41 and 42. -/
def Obligations.CrewsAndTheirBarriers : Prop :=
  Sys2Proof.Claims.CrewWords ∧ Sys2Proof.Claims.CrewsAndBarriers

/-- R339, R340, R354, R355: LAUNCH, whose record's address passes its check, is handed over to the device queue of its wave's level;
it is forbidden in a tile. VERDICT, once for a wave of a tile, records its residual and makes the wave draining. -/
def Sys2Proof.Claims.LaunchAndVerdict : Prop :=
  ∀ (s : State) (f : LaunchF) (g : SaF),
    let k := (lowestSlot s.rd.live s.w.width).getD 0
    let ptr := if s.rd.replay then tget s.rd.frame.cap.addr k else sReg64 s.rd f.sa.toNat
    let ask := ({ n := 128, write := false, aligned := true, atom := none, peers := false } : Ask)
    (s.w.token.isSome = true → exec (.launch f) s = .next (trapNow s 0x0B 8)) ∧
    (∀ s1 ps, s.w.token = none → checkPtr s s.rd (k % 32) ask ptr = (s1, .ok ps) →
      Answers (.launch f) s fun t => SameMemory s t ∧ t = { s with
        w := { s.w with
          flags := (flagInc s.w (flagSel s.w f.fs)).flags,
          marks := s.w.marks ++ sMarks s.w f.sd.toNat 1 (some s.nextOp), pc := s.w.pc + 4 }
        nextOp := s.nextOp + 1, tlb := t.tlb, lanes := t.lanes, freeN := t.freeN, l2 := t.l2, fills := t.fills, misses := t.misses
        wbacks := t.wbacks, turns := t.turns
        intake := s.intake ++ [
          { wave := s.w.uid, ctx := s.w.ctx, level := s.w.prio, sd := f.sd.toNat, flag := flagSel s.w f.fs, ptr := ptr,
            seq := s.nextOp }] }) ∧
    (s.w.token = none → exec (.verdict g) s = .next (trapNow s 0x0B 9)) ∧
    (s.w.token.isSome = true → s.w.verdict.isSome = true → exec (.verdict g) s = .next (trapNow s 0x0B 0xA)) ∧
    (s.w.token.isSome = true → s.w.verdict = none → exec (.verdict g) s = .next (s.withW { s.w with
      verdict := some (sReg64 s.rd g.sa.toNat), wdcnt := 0, wdArmed := true, draining := true, pc := s.w.pc + 4,
      status := if s.w.live = 0 then .retiring else s.w.status }))

/-! ### System words, translation and fetch (R361 to R390) -/

/-- R3, R363, R364, R405: SRD copies a special register into an s register, or a pair for one of 64 bits; SWR writes the writable fields of
one, and nothing else.
It rests on choices of the model: log 1. -/
def Obligations.SpecialRegisters : Prop :=
  ∀ (s : State) (f : SrF) (c : Ctx) (l : Launch), s.ctxOf s.w.ctx = some c → s.launchOf s.w.launch = some l →
    let d := f.s.toNat
    let rd := s.rd
    let word := fun (m : Mask) (k : Nat) => if 32 * k < rd.width then maskWord m k else 0
    let v := sReg rd d
    let wide := sReg64 rd d
    let reads := fun (n : Nat) (vs : List Word) => f.srn.toNat = n → d + vs.length ≤ 64 → Answers (.srd f) s fun t =>
      WaveFrame s t ∧ t.w.marks = s.w.marks ++ sMarks s.w d vs.length none ∧ SRegs s t d vs ∧ t.w.exec = s.w.exec ∧
        t.w.fpcr = s.w.fpcr ∧ t.w.fpsr = s.w.fpsr
    let pair := fun (x : DWord) => [lo32 x, hi32 x]
    (rd.ctx = s.w.ctx → rd.launch = s.w.launch →
      reads 0x000 (pair (capsValue s.part s.stepping)) ∧ reads 0x002 [BitVec.ofNat 32 s.w.ctx] ∧
        reads 0x003 [BitVec.ofNat 32 s.w.launch] ∧ reads 0x004 [BitVec.ofNat 32 (s.l2.filter fun l => decide (l.half < 32)).length] ∧
        reads 0x005 [BitVec.ofNat 32 c.tbCount] ∧ reads 0x006 [l.stkskip] ∧ reads 0x007 [l.sgpass] ∧ reads 0x008 [l.sgfail] ∧
        reads 0x009 [rd.sbstall] ∧ reads 0x00A (pair rd.wdcnt) ∧ reads 0x010 [rd.trcost] ∧ reads 0x011 [rd.bcd] ∧
        reads 0x012 [rd.mlstep] ∧ reads 0x013 [rd.efcause] ∧ reads 0x014 (pair rd.efva) ∧ reads 0x020 [rd.hctl] ∧
        reads 0x021 (pair rd.fpc) ∧ reads 0x030 (pair c.ptroot) ∧ reads 0x031 [BitVec.ofNat 32 c.pool.length] ∧
        reads 0x032 [c.ctxcfg] ∧ reads 0x033 (pair c.hentry) ∧
      (∀ p, s.spans[c.span]? = some p → reads 0x001 (pair (BitVec.ofNat 64 (c.span * 2 ^ 61 + p.shape * 2 ^ 59 + s.pkg * 2 ^ 44 +
        p.col0 * 2 ^ 40 + p.row0 * 2 ^ 36 + p.ncol * 2 ^ 32 + p.nrow * 2 ^ 28)))) ∧
      (∀ k, k < 4 → reads (0x022 + k) [word rd.uexec k] ∧ reads (0x026 + k) [word rd.fmask k]) ∧
      (∀ n, n < 256 → reads (0x200 + 2 * n) (pair (BitVec.ofNat 64 (tget c.bounds n).toNat)) ∧
        reads (0x201 + 2 * n) (pair (BitVec.ofNat 64 ((tget c.bounds n).toNat / 2 ^ 64))))) ∧
    (
      let writes := fun (n : Nat) (w : Wave) => f.srn.toNat = n → exec (.swr f) s = .next (s.withW { w with pc := s.w.pc + 4 })
      writes 0x009 { s.w with sbstall := v } ∧ writes 0x013 { s.w with efcause := v &&& 0xBFFFFFFF } ∧
        writes 0x014 { s.w with efva := wide } ∧ writes 0x020 { s.w with hctl := v &&& 3 }) ∧
    (∀ k, k < 4 → f.srn.toNat = 0x022 + k → s.w.width = 32 ∨ s.w.width = 64 ∨ s.w.width = 128 → Answers (.swr f) s fun t =>
      t = s.withW { s.w with uexec := t.w.uexec, pc := s.w.pc + 4 } ∧
        ∀ j, j < 4 → maskWord t.w.uexec j = if j = k ∧ 32 * k < s.w.width then v else maskWord s.w.uexec j)

/-- R379 to R381, R383: PTEW, POOLPOP, LPINV, TLBINV and IINV are handed over: their flag counts one more, a result pair is
marked, and nothing else changes but the pool that POOLPOP pops. POOLPOP_COMPLETE writes the frame, or all ones from an empty pool. -/
def Sys2Proof.Claims.SystemWordsIssue : Prop :=
  ∀ (s : State) (p : PtewF) (q : PopF) (f : InvF),
    let sent := fun (kind : SysKind) (d : Option Nat) (fs : Bool) => { s with
      w := { s.w with
        flags := (flagInc s.w (flagSel s.w fs)).flags, pc := s.w.pc + 4
        marks := s.w.marks ++ d.elim [] fun d => sMarks s.w d 2 (some s.nextOp) }
      nextOp := s.nextOp + 1
      sysOps := s.sysOps ++ [{ wave := s.w.uid, kind := kind, sd := d.getD 0, flag := flagSel s.w fs, seq := s.nextOp }] }
    let va := (sReg64 s.rd f.sa.toNat).toNat % 2 ^ 49
    let n := (sReg s.rd (f.sa.toNat + 2)).toNat
    exec (.ptew p) s = .next (sent (.ptew (sReg64 s.rd p.sa.toNat) (sReg64 s.rd (p.sa.toNat + 2)) p.lvl.toNat p.force p.ret)
      (some p.sd.toNat) p.fs) ∧
    exec (.lpinv f) s = .next (sent (.lpinv f.all f.scope.toNat va) none f.fs) ∧
    exec (.tlbinv f) s = .next (sent (.tlbinv f.all f.scope.toNat va) none f.fs) ∧
    exec (.iinv f) s = .next (sent (.iinv (f.all || decide (2 ^ 24 < n)) f.scope.toNat va n) none f.fs) ∧
    (∀ c top rest, s.ctxOf s.w.ctx = some c → c.pool = top :: rest → exec (.poolpop q) s = .next
      { sent (.poolpop top) (some q.sd.toNat) q.fs with
        ctxs := s.ctxs.map fun x => if x.num = c.num then { x with pool := rest } else x }) ∧
    (∀ c, s.ctxOf s.w.ctx = some c → c.pool = [] →
      exec (.poolpop q) s = .next (sent (.poolpop (BitVec.allOnes 64)) (some q.sd.toNat) q.fs)) ∧
    (∀ u o v w, (sysFind s u fun o => match o.kind with | .poolpop _ => true | _ => false) = some o → o.kind = .poolpop v →
      s.findWave o.wave = some w → w.uid = o.wave → o.sd + 2 ≤ 64 → Answers (.poolpopComplete u) s fun t => SameMemory s t ∧
        t.ctxs = s.ctxs ∧ t.sysOps = s.sysOps.filter (fun x => decide (x ≠ o)) ∧
        ∃ w2, t.findWave o.wave = some w2 ∧ SAnswered w w2 true o.sd [lo32 v, hi32 v] o.flag o.seq)

/-- R376, R377, R380: the walk of an address through the four levels, and the place of the entry that PTEW writes. It stops with the
level at the first entry that is not present or malformed (memory cause 0x03; FT counts at level 3 only), whose stack is not ready (0x09,
log 29) or whose sector is poisoned (0x03, R390); a leaf gives its page, and its address is FRAME · 2^16 + (VA mod page size).
It rests on choices of the model: logs 20 and 29. -/
def Obligations.PageTablesWalked : Prop :=
  ∀ (s : State) (c : Ctx) (va : Nat),
    let root := c.ptroot.toNat
    let here := fun (e : DWord) => e.getLsbD 0 = true
    let leafBit := fun (e : DWord) => e.getLsbD 6 = true
    let below := fun (e : DWord) => e.toNat / 2 ^ 8 % 2 ^ 44 * 2 ^ 8
    let frame := fun (e : DWord) => e.toNat / 2 ^ 16 % 2 ^ 36 * 2 ^ 16
    let isTable := fun (e : DWord) (k : Nat) => here e ∧ e.toNat / 2 ^ 52 = 0 ∧ e.toNat / 2 % 2 ^ 7 = 0 ∧ below e % 2 ^ k = 0
    let isLeaf := fun (e : DWord) (k : Nat) => here e ∧ e.toNat / 2 ^ 7 % 2 ^ 9 = 0 ∧ e.toNat / 2 ^ 4 % 4 ≠ 3 ∧
      frame e % 2 ^ k = 0 ∧ (frame e < 2 ^ 51 → frame e + 2 ^ k ≤ if s.part = 0 then 512 * 2 ^ 30 else 384 * 2 ^ 30)
    let page := fun (e : DWord) (k : Nat) => WalkRes.leaf e (va / 2 ^ k * 2 ^ k) (2 ^ k)
    let at0 := root + 8 * (va / 2 ^ 39 % 2 ^ 10)
    let at1 := fun (e : DWord) => below e + 8 * (va / 2 ^ 30 % 2 ^ 9)
    let at2 := fun (e : DWord) => below e + 8 * (va / 2 ^ 21 % 2 ^ 9)
    let at3 := fun (e : DWord) => below e + 8 * (va / 2 ^ 16 % 2 ^ 5)
    (∀ e k, leafPa e va (2 ^ k) = frame e / 2 ^ k * 2 ^ k + va % 2 ^ k) ∧
    (∀ pa, pa + 8 ≤ memLimit s.part →
      (stackReady s pa = false → readPte s pa = .error 9) ∧
      (stackReady s pa = true → isPoisoned s pa 8 = true → readPte s pa = .error 3) ∧
      (stackReady s pa = true → isPoisoned s pa 8 = false → readPte s pa = .ok (BitVec.ofNat 64 (leNat (tgetRun s.mem pa 8))))) ∧
    (∀ k, readPte s at0 = .error k → walk s c va = .fail k 0 false) ∧
    ∀ e0, readPte s at0 = .ok e0 →
      (¬ isTable e0 12 → walk s c va = .fail 3 0 false ∧ ∀ n, pteAt s va (n + 1) 0 root = none) ∧
      (isTable e0 12 → pteAt s va 1 0 root = some (at1 e0) ∧
        (∀ k, readPte s (at1 e0) = .error k → walk s c va = .fail k 1 false) ∧ ∀ e1, readPte s (at1 e0) = .ok e1 →
        (isLeaf e1 30 → leafBit e1 → walk s c va = page e1 30) ∧
        (¬ (isLeaf e1 30 ∧ leafBit e1) → ¬ isTable e1 12 →
          walk s c va = .fail 3 1 false ∧ ∀ n, pteAt s va (n + 2) 0 root = none) ∧
        (isTable e1 12 → pteAt s va 2 0 root = some (at2 e1) ∧
          (∀ k, readPte s (at2 e1) = .error k → walk s c va = .fail k 2 false) ∧ ∀ e2, readPte s (at2 e1) = .ok e2 →
          (isLeaf e2 21 → leafBit e2 → walk s c va = page e2 21) ∧
          (¬ (isLeaf e2 21 ∧ leafBit e2) → ¬ isTable e2 8 → walk s c va = .fail 3 2 false ∧ pteAt s va 3 0 root = none) ∧
          (isTable e2 8 → pteAt s va 3 0 root = some (at3 e2) ∧
            (∀ k, readPte s (at3 e2) = .error k → walk s c va = .fail k 3 false) ∧ ∀ e3, readPte s (at3 e2) = .ok e3 →
            (isLeaf e3 16 → walk s c va = page e3 16) ∧
            (here e3 → ¬ isLeaf e3 16 → walk s c va = .fail 3 3 false) ∧
            (¬ here e3 → walk s c va = .fail 3 3 (e3.getLsbD 3)))))

/-- R379, R380: PTEW_APPLY. Where the walk fails, or bits 55 to 49 of the pointer are not zero, the result is all ones and no entry is
written. Otherwise the result is the old entry, and the new one is written, as 8 bytes, when FORCE is set or the old one is not
present; a frame that RET names and that was not used goes back on the pool. No other byte, translation or register changes. The walk's
reads stand in the order of their slices' clk (R243): where one has come too late, the word waits for the next clk. -/
def Sys2Proof.Claims.PageTableEntriesWritten : Prop :=
  ∀ (s : State) (u : Nat) (o : SysOp) (w : Wave) (c : Ctx) (ptr new : DWord) (lvl : Nat) (force ret : Bool),
    ptewTurn s u = some o → o.kind = .ptew ptr new lvl force ret → o.wave = u → s.findWave u = some w → w.uid = u →
    s.ctxOf w.ctx = some c → o.sd + 2 ≤ 64 →
    let va := ptr.toNat % 2 ^ 49
    let low := ptr.toNat / 2 ^ 49 % 2 ^ 7 = 0
    let walks := pteAt s va lvl 0 c.ptroot.toNat
    let t0 := if low then softReads s (w.quad + 1) ((walkPas s c va).take (lvl + 1)) else s
    let done := fun (t : State) (v : DWord) => t.lanes = s.lanes ∧ t.tlb = s.tlb ∧ t.resvs = s.resvs ∧ t.tiles = s.tiles ∧
      t.sectorKey = s.sectorKey ∧ t.sysOps = s.sysOps.filter (fun x => decide (x ≠ o)) ∧
      ∃ w2, t.findWave u = some w2 ∧ SAnswered w w2 true o.sd [lo32 v, hi32 v] o.flag o.seq
    (lateRead t0 = true → exec (.ptewApply u) s = .next s) ∧
    (lateRead t0 = false → ¬ low ∨ walks = none ∨ (∃ pa k, walks = some pa ∧ readPte s pa = .error k) →
      Answers (.ptewApply u) s fun t => done t (BitVec.allOnes 64) ∧ t.mem = s.mem ∧ t.ctxs = s.ctxs ∧
        t.reports = s.reports ++ if low then ptewErrors s c va lvl else []) ∧
    (∀ pa old, lateRead t0 = false → low → walks = some pa → readPte s pa = .ok old →
      pa + 8 ≤ memLimit s.part →
      let write := force = true ∨ old.getLsbD 0 = false
      (write → Answers (.ptewApply u) s fun t => done t old ∧ t.ctxs = s.ctxs ∧ ∀ x, tget t.mem x =
        if pa ≤ x ∧ x < pa + 8 then BitVec.ofNat 8 (new.toNat / 2 ^ (8 * (x - pa))) else tget s.mem x) ∧
      (¬ write → Answers (.ptewApply u) s fun t => done t old ∧ t.mem = s.mem ∧
        t.ctxOf w.ctx = some { c with
          pool := if ret then BitVec.ofNat 64 (new.toNat / 2 ^ 16 * 2 ^ 16) :: c.pool else c.pool }))

/-- The system words, and the page-table entries that PTEW writes.
It rests on choices of the model: log 29. -/
def Obligations.SystemWords : Prop :=
  Sys2Proof.Claims.SystemWordsIssue ∧ Sys2Proof.Claims.PageTableEntriesWritten

/-- R376, R378, R381: PAGE_WALK loads a lane's last-page register with the page it found, which also enters the core's TLB, or with a
marker for the 64 KiB granule, where an entry's error is reported; a read that comes too late for its slice's clk puts it off (R243). A sweep removes the wave's context's entries and registers in its scope that hold the pointer's page, or
all of them, and no others; LPINV touches no TLB; TLBINV waits, swept, for accesses that used what it removed.
It rests on choices of the model: logs 10 and 29. -/
def Obligations.TranslationsSwept : Prop :=
  ∀ (s : State),
    (∀ core ctx quad lane ptr c, s.ctxOf ctx = some c → quad / 4 = core → laneHit s quad lane ctx (ptr % 2 ^ 49) = none →
      let va := ptr % 2 ^ 49
      let t0 := softReads s (quad + 1) (walkPas s c va)
      (lateRead t0 = true → exec (.pageWalk core ctx quad lane ptr) s = .next s) ∧
      (lateRead t0 = false → Answers (.pageWalk core ctx quad lane ptr) s fun t => SameMemory s t ∧
        t = { t0 with tlb := t.tlb, lanes := t.lanes, freeN := t.freeN, reports := t.reports } ∧
        (∀ r ∈ s.lanes, (r.quad, r.lane) ≠ (quad, lane) → r ∈ t.lanes) ∧
        (∀ e base size, walk s c va = .leaf e base size → base ≤ va → va < base + size →
          laneHit t quad lane ctx va = some { quad := quad, lane := lane, ctx := ctx, base := base, size := size, val := .leaf e } ∧
          t.reports = s.reports ∧ { core := core, ctx := ctx, base := base, size := size, leaf := e } ∈ t.tlb ∧ ∀ x ∈ s.tlb, x.core ≠ core → x ∈ t.tlb) ∧
        (∀ code lv ft, walk s c va = .fail code lv ft → t.tlb = s.tlb ∧ t.reports = s.reports ++ walkErrors s c va ∧
          laneHit t quad lane ctx va = some { quad := quad, lane := lane, ctx := ctx, base := va / 65536 * 65536, size := 65536,
                                              val := .marker code lv ft }))) ∧
    (∀ u o w, sweepTurn s u = some o → o.wave = u → s.findWave u = some w → w.uid = u →
      let core := fun (scope k : Nat) => scope = 2 ∨ k = w.quad / 4
      let lane := fun (scope q : Nat) => if scope = 0 then q = w.quad else core scope (q / 4)
      let hit := fun (all : Bool) (va base size : Nat) => all = true ∨ (base ≤ va ∧ va < base + size)
      let ended := fun (t : State) => SameMemory s t ∧ t.sysOps = s.sysOps.filter (fun x => decide (x ≠ o)) ∧
        t.findWave u = some { w with flags := (flagDec w o.flag).flags, marks := w.marks.filter fun k => decide (k.op ≠ some o.seq) }
      let lanesGone := fun (t : State) (all : Bool) (scope va : Nat) => ∀ r, r ∈ t.lanes ↔
        r ∈ s.lanes ∧ ¬ (r.ctx = w.ctx ∧ lane scope r.quad ∧ hit all va r.base r.size)
      (∀ all scope va, o.kind = .lpinv all scope va → Answers (.translationSweepEnd u) s fun t => ended t ∧
        lanesGone t all scope va ∧ t.tlb = s.tlb) ∧
      (∀ all scope va, o.kind = .tlbinv all scope va → Answers (.translationSweepEnd u) s fun t => SameMemory s t ∧
        lanesGone t all scope va ∧
        (∀ e, e ∈ t.tlb ↔ e ∈ s.tlb ∧ ¬ (e.ctx = w.ctx ∧ core scope e.core ∧ hit all va e.base e.size)) ∧
        ((∀ x ∈ s.memOps, x.ctx ≠ w.ctx ∨ ∀ a ∈ x.accs, a.complete x.kind = true) → ended t)) ∧
      (∀ ops, o.kind = .swept ops → Answers (.translationSweepEnd u) s fun t => ended t ∧ t.tlb = s.tlb ∧ t.lanes = s.lanes))

/-- R366, R369, R383, R388: ICACHE_FILL holds the bytes of the block of VA[48:0] as they stand in memory, or gives the fetch trap to the
waves that wait for it; a read that comes too late for its slice's clk puts it off (R243). A held word is used only where the region's
bounds let it be fetched (R375). IINV_SWEEP_END removes the 192-byte blocks of the wave's context in scope that overlap the range, or all, and no others.
WATCHDOG_LIMIT gives the watchdog trap to a wave at a stopping point whose count has reached WDLIM · 65,536, once.
It rests on choices of the model: logs 10, 27 and 44. -/
def Obligations.FetchAndWatchdog : Prop :=
  ∀ (s : State),
    let walked := fun (ctx ptr : Nat) => match s.ctxOf ctx with
      | some c => if fetchAllowed c (BitVec.ofNat 64 ptr) then walkPas s c (ptr % 2 ^ 49) else []
      | none => []
    let block := fun (ptr : Nat) => let va := ptr % 2 ^ 49
      (max (va / 192 * 192) (va / 65536 * 65536), min (va / 192 * 192 + 192) (va / 65536 * 65536 + 65536))
    let late := fun (core : Nat) (pas : List Nat) => lateRead (softReads s (4 * core + 1) pas) = true
    (∀ core ctx ptr c, s.ctxOf ctx = some c → heldWord s core ctx ptr ≠ none → fetchAllowed c ptr = true) ∧
    (∀ core ctx ptr pa key, codePlace s ctx (BitVec.ofNat 64 ptr) = .ok (pa, key) →
      let va := ptr % 2 ^ 49
      let code := (sectorsOf (pa - (va - (block ptr).1)) ((block ptr).2 - (block ptr).1)).map fun x => 64 * x
      (late core (walked ctx ptr ++ code) → exec (.icacheFill core ctx ptr) s = .next s) ∧
      (¬ late core (walked ctx ptr ++ code) → Answers (.icacheFill core ctx ptr) s fun t =>
      SameMemory s t ∧ t.w = s.w ∧ t.waves = s.waves ∧ ∃ b rest, t.icache = b :: rest ∧ b.core = core ∧ b.ctx = ctx ∧ b.va = (block ptr).1 ∧
        b.bytes.length = (block ptr).2 - (block ptr).1 ∧ b.va ≤ va ∧ va < b.va + b.bytes.length ∧ b.bytes = devBytes s key (pa - (va - b.va)) b.bytes.length ∧
        (∀ x ∈ rest, x ∈ s.icache) ∧ ∀ x ∈ s.icache, x.core ≠ core → x ∈ rest)) ∧
    (∀ core ctx va e, codePlace s ctx (BitVec.ofNat 64 va) = .error e → ¬ late core (walked ctx va) → Answers (.icacheFill core ctx va) s fun t =>
      SameMemory s t ∧ t.icache = s.icache ∧ ∀ u w, s.findWave u = some w →
        let pk : DWord := BitVec.ofNat 64 (w.pc.toNat - w.pc.toNat % 12)
        (awaits s core ctx va w = false → t.findWave u = some w) ∧
        (awaits s core ctx va w = true → t.findWave u = some { w with trap := some {
          cls := 0x0C, mask := trapMask w, fpc := pk, cont := pk + 12, kind := .packet,
          faults := (slotsIn (trapMask w) w.width).map fun i =>
            { slot := i, va := pk, cause := BitVec.ofNat 32 (0x0C * 2 ^ 24 + e.cause * 2 ^ 16 + 5 * 2 ^ 12 +
              (if e.ft then 2 ^ 11 else 0) + e.level * 2 ^ 9) },
          wordBits := BitVec.ofNat 32 (w.pc.toNat % 12 / 4), escalates := decide (e.cause = 9) } })) ∧
    (∀ u o w all scope va n, iinvTurn s u = some o → o.kind = .iinv all scope va n → o.wave = u → s.findWave u = some w →
      w.uid = u → Answers (.iinvSweepEnd u) s fun t => SameMemory s t ∧
        t.sysOps = s.sysOps.filter (fun x => decide (x ≠ o)) ∧
        t.findWave u = some { w with flags := (flagDec w o.flag).flags, marks := w.marks.filter fun k => decide (k.op ≠ some o.seq) } ∧
        ∀ b, b ∈ t.icache ↔ b ∈ s.icache ∧ ¬ (b.ctx = w.ctx ∧
          (if scope = 0 then b.core = w.quad / 4 else if scope = 1 then b.core / 4 = w.quad / 16 else True) ∧
          (all = true ∨ (n ≠ 0 ∧ va < b.va / 192 * 192 + 192 ∧ b.va / 192 * 192 < va + n)))) ∧
    (∀ u w c pc back, s.findWave u = some w → w.uid = u → s.ctxOf w.ctx = some c → stopPoint s w = some (pc, back) →
      w.wdArmed = true → c.ctxcfg.toNat / 2 ^ 8 ≠ 0 → c.ctxcfg.toNat / 2 ^ 8 * 65536 ≤ w.wdcnt.toNat →
      let tr : Trap := {
        cls := 0x0D, mask := trapMask w, fpc := pc, cont := pc, kind := .header,
        faults := (slotsIn (trapMask w) w.width).map fun i =>
          { slot := i, cause := BitVec.ofNat 32 (0x0D * 2 ^ 24 + 7 * 2 ^ 12), va := 0 },
        wordBits := 0, escalates := false }
      (back = false → Answers (.watchdogLimit u) s fun t => SameMemory s t ∧
        t.findWave u = some { w with trap := some tr, wdArmed := false }) ∧
      (back = true → Answers (.watchdogLimit u) s fun t => SameMemory s t ∧ ∃ w2, t.findWave u = some w2 ∧ w2.trap = some tr ∧
        w2.wdArmed = false ∧ w2.pc = pc ∧
        w2.again = (if (w.blocked = .join ∨ w.blocked = .bar) ∧ w.pc ≠ pc + 4 then some (pc, w.pc) else w.again) ∧ w2.blocked = .none ∧ w2.status = .running ∧ w2.s = w.s ∧ w2.v = w.v))

/-! ### Launches, tiles and placement (R334 to R360) -/

/-- R335 to R337: a launch record is accepted exactly when every check of the table holds (CAPS.SGL is 1 in both parts). An SGTOL of -0 is
taken as the zero that it is (log 67). -/
def Sys2Proof.Claims.LaunchRecordChecks : Prop :=
  ∀ (s : State) (ctx prio : Nat) (bs : List Byte),
    let planGood := fun (p : Nat) (main : Bool) =>
      (p % 2 ^ 8 = 1 ∨ p % 2 ^ 8 = 2 ∨ p % 2 ^ 8 = 4) ∧ 8 ≤ p / 2 ^ 8 % 2 ^ 8 ∧ p / 2 ^ 8 % 2 ^ 8 ≤ 96 ∧ p / 2 ^ 8 % 8 = 0 ∧
      p / 2 ^ 16 % 2 ^ 8 ≤ 32 ∧ p / 2 ^ 24 % 2 ^ 8 ≤ 16 ∧ p / 2 ^ 32 % 2 ^ 5 ≤ 16 ∧ p / 2 ^ 32 % 2 ^ 5 ≤ p / 2 ^ 8 % 2 ^ 8 ∧
      p / 2 ^ 37 % 2 ^ 3 = 0 ∧ p / 2 ^ 51 % 2 ^ 13 = 0 ∧ (main = true → p / 2 ^ 40 % 2 ^ 11 ≤ 1024)
    let entry := fun (a : DWord) => a.toNat % 12 = 0 ∧
      ∃ pa key, codePlace s ctx a = .ok (pa, key) ∧ isHeader (wordAt (devBytes s key pa 4)) = true
    let ctrl := recAt bs 0x18 8
    let range := recAt bs 0x10 8
    let plan := recAt bs 0x08 8
    let done : DWord := BitVec.ofNat 64 (recAt bs 0x30 8)
    let tol := recAt bs 0x38 8
    let gang := ctrl / 2 ^ 8 % 2 ^ 8
    let gscope := ctrl / 2 ^ 6 % 2 ^ 2
    let nct := ctrl / 2 ^ 20 % 2 ^ 4
    let sg := ctrl / 2 ^ 3 % 2 = 1
    rejectReason s ctx bs prio = 0 ↔
      entry (BitVec.ofNat 64 (recAt bs 0 8)) ∧ planGood plan true ∧
      (ctrl / 2 ^ 27 % 2 = 0 ∧ ctrl / 2 ^ 19 % 2 = 0 ∧ ctrl / 2 ^ 5 % 2 = 0 ∧ range / 2 ^ 48 % 2 ^ 16 = 0 ∧ nct ≤ 8 ∧ gscope ≠ 3 ∧
        (gang = 0 ↔ gscope = 0) ∧ (done = 0 ∨ (done.toNat % 16 = 0 ∧ (ctxPlace s ctx done 16 true).isSome = true))) ∧
      (gang = 0 ∨ gang ≤ quadCapacity (planOf plan) * if gscope = 1 then 4 else 16) ∧
      (nct = 0 ∨ ∃ ts, templatesOf s ctx (BitVec.ofNat 64 (recAt bs 0x28 8)) nct = some ts ∧
        ∀ x ∈ ts, entry x.1 ∧ planGood x.2 false) ∧
      (if sg then 2 else 1) ≤ ((List.range 512).filter fun n => !(s.cords.any fun c => c.num == n)).length ∧
      (sg → 1 ≤ gang ∧ ctrl / 2 ^ 24 % 2 ^ 3 < nct ∧ 1 ≤ ctrl / 2 ^ 28 % 2 ^ 9 ∧ ctrl / 2 ^ 28 % 2 ^ 9 ≤ 256 ∧
        1 ≤ ctrl / 2 ^ 37 % 2 ^ 15 ∧ 1 ≤ range % 2 ^ 48 ∧ ctrl / 2 ^ 4 % 2 = 0 ∧ (tol = 2 ^ 63 ∨ (tol / 2 ^ 63 = 0 ∧ tol / 2 ^ 52 % 2 ^ 11 ≠ 2047))) ∧
      (s.launches.filter fun l => l.ctx == ctx).length < 1024 ∧ ∃ c, s.ctxOf ctx = some c ∧ prio ≤ c.prioCap

/-- R336 to R339, R341: a doorbell sets TAIL. LAUNCH_RECORD_INTAKE reads the record at HEAD, which moves on; or the record of the
LAUNCH whose turn it is at a level, with its priority capped by the level, as an acquire. An accepted record makes the launch, and a
LAUNCH answers 2^31 and its identifier; a rejected one makes nothing, and its reason is written: with END 3 at DONE, or as reason · 2^24
in the register. -/
def Sys2Proof.Claims.LaunchRecordsTaken : Prop :=
  ∀ (s : State), s.launches.length < 65536 →
    (∀ q tail x, s.queues[q]? = some x → Answers (.queueDoorbell q tail) s fun t => t = { s with queues := t.queues } ∧
      t.queues[q]? = some { x with tail := tail % 2 ^ 32 } ∧ ∀ p, p ≠ q → t.queues[p]? = s.queues[p]?) ∧
    (∀ q x, q < 64 → s.queues[q]? = some x → queueReady s x = true →
      let bs := physBytes s (x.base.toNat + 128 * (x.head % 2 ^ (x.cfg.toNat % 2 ^ 4))) 128
      let s1 := { s with
        queues := modAt (fun y => { y with head := (y.head + 1) % 2 ^ (y.cfg.toNat % 2 ^ 4) }) s.queues q, freeN := s.freeN + 1 }
      let ctx := x.cfg.toNat / 2 ^ 4 % 2 ^ 6
      let ctrl := recAt bs 0x18 8
      let prio := ctrl % 2 ^ 3
      let ts := (templatesOf s1 ctx (BitVec.ofNat 64 (recAt bs 0x28 8)) (ctrl / 2 ^ 20 % 2 ^ 4)).getD []
      (rejectReason s1 ctx bs prio = 0 → Answers (.launchRecordIntake q) s fun t => SameMemory s t ∧
        t.queues = s1.queues ∧ t.waves = s.waves ∧ ∃ id, LaunchTaken s t ts id ctx (some q) bs prio) ∧
      (∀ r, rejectReason s1 ctx bs prio = r → r ≠ 0 → Answers (.launchRecordIntake q) s fun t => t.launches = s.launches ∧
        t.cords = s.cords ∧ t.queues = s1.queues ∧
        (ctrl / 2 ^ 63 % 2 = 1 → MsiSent s t (ctrl / 2 ^ 52 % 2 ^ 11)) ∧
        ∀ done pa key, done = BitVec.ofNat 64 (recAt bs 0x30 8) → done ≠ 0 → done.toNat % 16 = 0 →
          ctxPlace s1 ctx done 16 true = some (.dev pa key) →
          WroteBytes s t key pa (leBytes (7 + 256 * r) 4 ++ List.replicate 12 0))) ∧
    (∀ level o w, level < 8 → deviceTurn s level = some o → s.findWave o.wave = some w → w.uid = o.wave → o.sd < 64 →
      let s1 := { s with l1 := s.l1.filter fun l => l.core != w.quad / 4 }
      let answered := fun (t : State) (v : Nat) => SameMemory s t ∧ t.l1 = s1.l1 ∧ t.intake = s.intake.filter (fun x => decide (x ≠ o)) ∧
        ∃ w2, t.findWave o.wave = some w2 ∧ SAnswered w w2 false o.sd [BitVec.ofNat 32 v] o.flag o.seq
      (∀ pa key, ctxPlace s1 o.ctx o.ptr 128 false = some (.dev pa key) →
        let bs := devBytes s key pa 128
        let prio := min (recAt bs 0x18 8 % 2 ^ 3) o.level
        let ts := (templatesOf s1 o.ctx (BitVec.ofNat 64 (recAt bs 0x28 8)) (recAt bs 0x18 8 / 2 ^ 20 % 2 ^ 4)).getD []
        (rejectReason s1 o.ctx bs prio = 0 → Answers (.launchRecordIntake (64 + level)) s fun t =>
          ∃ id, answered t (2 ^ 31 + id) ∧ LaunchTaken s t ts id o.ctx none bs prio) ∧
        (∀ r, rejectReason s1 o.ctx bs prio = r → r ≠ 0 → Answers (.launchRecordIntake (64 + level)) s fun t =>
          answered t (r * 2 ^ 24) ∧ t.launches = s.launches ∧ t.cords = s.cords)) ∧
      ((∀ pa key, ctxPlace s1 o.ctx o.ptr 128 false ≠ some (.dev pa key)) → Answers (.launchRecordIntake (64 + level)) s fun t =>
        answered t (1 * 2 ^ 24) ∧ t.launches = s.launches ∧ t.cords = s.cords))

/-- LAUNCH and VERDICT, the checks of a launch record, and the intake of records.
It rests on choices of the model: logs 21, 45 and 67. -/
def Obligations.Launching : Prop :=
  Sys2Proof.Claims.LaunchAndVerdict ∧ Sys2Proof.Claims.LaunchRecordChecks ∧ Sys2Proof.Claims.LaunchRecordsTaken

/-- R350, R351, R356 to R359: a tile reserves a token that no tile holds. It resolves when its last wave has retired and nothing of it is in
flight, or at once when it has overrun or erred: it fails when it has, or when a wave that held an item gave no verdict or one that is a
NaN or wider than TOL, by exact comparison. A passing tile's banked bytes, and no others, become
visible, and it is counted; a failed one changes no byte, is counted, and its items fall due at the exact cord; a pre-empted one runs
again, in tile order. Exact items enter their cord in the order of their ordinals, while it has room.
It rests on choices of the model: logs 40 and 46. -/
def Obligations.SurrogateTiles : Prop :=
  ∀ (s : State),
    (∀ n l k, s.launchOf n = some l → mayReserve s l = true → tileDue l = some k → Answers (.tileReserve n) s fun t =>
      t.mem = s.mem ∧ t.resvs = s.resvs ∧ t.w = s.w ∧ t.waves = s.waves ∧
      t.launchOf n = some (if l.rerun = [] then { l with tileNext := l.tileNext + 1 } else { l with rerun := l.rerun.tail }) ∧
      ∃ token, token < 4096 ∧ (∀ x ∈ s.tiles, x.token ≠ token) ∧ t.tiles = s.tiles ++ [{
        token := token, launch := n, tile := k, next := k * l.titems, stop := min ((k + 1) * l.titems) l.range,
        waves := [], banked := [], sectors := [], overrun := false, erred := false, bound := false, phase := 0, spilled := [] }]) ∧
    (∀ token x l, s.tileOf token = some x → s.launchOf x.launch = some l → (s.tiles.map fun y => y.token).Nodup →
      let wide := fun (r : DWord) => ¬ r.toNat % 2 ^ 63 ≤ l.tol.toNat % 2 ^ 63
      let fails := x.overrun = true ∨ x.erred = true ∨ ∃ w ∈ x.waves, w.held = true ∧ ∀ r, w.verdict = some r → wide r
      let due := x.phase = 0 ∧ x.bound = true ∧ l.ending = none ∧ (x.overrun = true ∨ x.erred = true ∨
        ((∀ w ∈ x.waves, w.gone = true) ∧ boundTile s token = false ∧ tileStill s token = true))
      (due → fails → (settleTiles s).tileOf token = some { x with phase := 2 }) ∧
      (due → ¬ fails → (settleTiles s).tileOf token = some { x with phase := 1 }) ∧
      (¬ due → (settleTiles s).tileOf token = some x) ∧
      (tolOk l.tol.toNat = true → ∀ r : DWord, ¬ wide r ↔ (fdecode .f64 r.toNat).isFin = true ∧
        |(fdecode .f64 r.toNat).rat| ≤ (fdecode .f64 l.tol.toNat).rat)) ∧
    (∀ token x l, s.tileOf token = some x → s.launchOf x.launch = some l →
      let sibling := fun (t : State) => t.tiles = s.tiles.filter (fun y => decide (y.token ≠ token)) ∧ t.resvs = s.resvs ∧
        ∀ m, m ≠ x.launch → t.launchOf m = s.launchOf m
      (x.phase = 1 → Answers (.tileCommit token) s fun t => sibling t ∧
        t.launchOf x.launch = some { l with sgpass := l.sgpass + 1, tileDone := l.tileDone + 1 } ∧
        (∀ pa key, key < 4096 → (pa / 64, key) ∈ x.sectors → (∀ k, (pa / 64, k) ∈ x.sectors → k = key) →
          devByte t key pa = if 2 ^ 8 ≤ (tget x.banked pa).toNat then BitVec.ofNat 8 (tget x.banked pa).toNat else devByte s key pa) ∧
        ∀ k pa, (∀ key, (pa / 64, key) ∉ x.sectors) → devByte t k pa = devByte s k pa) ∧
      (x.phase = 2 → tileEmpty s x = true → tileStill s token = true → l.ending = none → Answers (.tileDiscard token) s fun t => sibling t ∧ t.mem = s.mem ∧
        t.sectorKey = s.sectorKey ∧ ∃ due, t.launchOf x.launch = some { l with
          sgfail := l.sgfail + 1, tileDone := l.tileDone + 1, exactDue := l.exactDue ++ due } ∧
          due.map (fun i => i.ord) = (List.range (x.stop - x.tile * l.titems)).map (fun i => x.tile * l.titems + i) ∧
          ∀ n c, l.exactCord = some n → s.cordOf n = some c → ∀ i ∈ due, i.args = l.argt.take c.plan.args) ∧
      (x.phase = 3 → tileEmpty s x = true → tileStill s token = true → Answers (.tileDiscard token) s fun t => sibling t ∧
        t.mem = s.mem ∧ t.sectorKey = s.sectorKey ∧ ∃ rerun, t.launchOf x.launch = some { l with rerun := rerun } ∧
          rerun.Perm (x.tile :: l.rerun) ∧ (l.rerun.Pairwise (fun a b => a ≤ b) → rerun.Pairwise fun a b => a ≤ b))) ∧
    (∀ n l k c, s.launchOf n = some l → l.exactCord = some k → s.cordOf k = some c → l.ending = none → l.exactDue ≠ [] →
      c.items.length < 65536 → Answers (.exactItemsEnter n) s fun t => SameMemory s t ∧ ∃ c2, t.cordOf k = some c2 ∧
        c2.items.Perm (c.items ++ l.exactDue.take (65536 - c.items.length)) ∧
        (c.items.Pairwise (fun a b => a.ord ≤ b.ord) → c2.items.Pairwise fun a b => a.ord ≤ b.ord) ∧
        ∃ l2, t.launchOf n = some l2 ∧ l2.exactDue = l.exactDue.drop (65536 - c.items.length))

/-- R92, R344 to R346, R349: BIND_RECORD_WRITE writes the records of a whole placement, in free wave slots, with consecutive wave
numbers from a multiple of the gang's size, in one core or cluster that has the resources; the launch has its reservation there. WAVE_CREATE makes the wave of a record, with its
cord's plan, in user mode at the cord's entry, and clears V. QUEUE_AGEING raises a head that has waited over AGE once, counted from the clk
in which its launch began to wait for a wave; GANG_CLOSE_SET closes the best set for a gang that has waited over GANGWAIT.
It rests on choices of the model: logs 22 and 46. -/
def Obligations.WavesArePlaced : Prop :=
  ∀ (s : State),
    (∀ cord quad wslot w, (waiters s).find? (fun w => w.cord.num == cord) = some w →
      (mayPlace s (waiters s) w quad fun _ => 0).isSome = true →
      let l := w.launch
      let first := roundUp l.made (gangSize l cord)
      let tile := if l.sg = true ∧ cord = l.main then openTile s l.id else none
      let unit := if cord ≠ l.main then 1 else if l.gscope = 2 then 16 else if l.gscope = 1 then 4 else 1
      Answers (.bindRecordWrite cord quad wslot) s fun t => t.mem = s.mem ∧ t.w = s.w ∧ t.waves = s.waves ∧
        ∃ spots : List Spot, spots.length = gangSize l cord ∧ (∀ x ∈ spots, x.1 / unit = quad / unit) ∧
          (spots.head?.map fun x => x.1) = some quad ∧
          (gangSize l cord = 1 → wslot ∈ (quadUse s quad).free → spots.map (fun x => (x.1, x.2.1)) = [(quad, wslot)]) ∧
          (∀ k, s.launchOf l.id = some k →
            t.launchOf l.id = some { k with
              made := first + spots.length, since := if w.cord.exact then k.since else none,
              sinceX := if w.cord.exact then none else k.sinceX, sinceG := if cord = l.main then none else k.sinceG }) ∧
          t.raised = s.raised.filter (fun x => x != (w.queue, l.id)) ∧
          (∀ x, tile = some x → s.tileOf x.token = some x → t.tileOf x.token = some { x with bound := true }) ∧
          (∀ o ∈ waiters s, servedBefore s (waiters s) o w = true →
            couldTake s o l (if l.sg = true ∧ cord = l.main then [l.gscope - 1] else []) (spots.map fun x => x.1) = false) ∧
          (∀ x ∈ spots,
            let n := (spots.filter fun y => y.1 == x.1).length
            (quadUse s x.1).rows + n * (planNeed w.cord.plan).rows ≤ 1024 ∧
            (quadUse s x.1).tiles + n * (planNeed w.cord.plan).tiles ≤ 32 ∧
            (quadUse s x.1).lays + n * (planNeed w.cord.plan).lays ≤ 64 ∧
            ∀ o ∈ waiters s, servedBefore s (waiters s) o w = true → couldUse s o x.1 = false) ∧
          (∀ (j : Nat) (x : Spot), spots[j]? = some x → x.2.1 < 16 ∧ x.2.1 ∈ (quadUse s x.1).free ∧
            tget t.slotTable (16 * x.1 + x.2.1) = bindWord (if w.cord.exact then exactLevel l.prio else l.prio) l.ctx w.cord.num l.id
              (first + j) (if w.cord.num = l.main then l.roles.toNat / 2 ^ (8 * ((first + j) % (l.rper + 1))) % 2 ^ 8 else 0)
              (tile.map fun x => x.token) (tile.map fun x => (l.gscope - 1, x.token)) ∧
            (l.scratch ≠ 0 → (t.resvOf l.id (x.1 / 4)).isSome = true)) ∧
          ∀ e, (∀ x ∈ spots, e ≠ 16 * x.1 + x.2.1) → tget t.slotTable e = tget s.slotTable e) ∧
    (∀ entry l c, let r := (tget s.slotTable entry).toNat
      r / 2 ^ 127 = 1 → s.launchOf (r / 2 ^ 93 % 2 ^ 16) = some l → s.cordOf (r / 2 ^ 109 % 2 ^ 9) = some c → l.ending = none →
      (r / 2 ^ 52 % 2 = 0 ∨ ∃ x, s.tileOf (r / 2 ^ 40 % 2 ^ 12) = some x ∧ x.overrun = false ∧ x.erred = false ∧ x.phase = 0) →
      Answers (.waveCreate entry) s fun t => t.mem = s.mem ∧ t.w = s.w ∧
        t.l1 = s.l1.filter (fun x => x.core != entry / 64) ∧ (tget t.slotTable entry).toNat = r % 2 ^ 127 ∧ (∀ e, e ≠ entry → tget t.slotTable e = tget s.slotTable e) ∧
        t.waves = s.waves ++ [{ Wave.init with
          uid := s.nextUid, status := .running, quad := entry / 16, wslot := entry % 16, ctx := r / 2 ^ 118 % 2 ^ 6,
          launch := r / 2 ^ 93 % 2 ^ 16, cord := r / 2 ^ 109 % 2 ^ 9, waveNo := r / 2 ^ 61 % 2 ^ 32, role := r / 2 ^ 53 % 2 ^ 8,
          width := 32 * c.plan.wq, nregs := c.plan.nregs, acc := c.plan.acc, nlay := c.plan.nlay, args := c.plan.args,
          prio := r / 2 ^ 124 % 2 ^ 3, pc := c.entry, lays := List.replicate c.plan.nlay Layout.empty,
          token := if r / 2 ^ 52 % 2 = 1 then some (r / 2 ^ 40 % 2 ^ 12) else none, placed := s.nextOp,
          crew := if r / 2 ^ 39 % 2 = 1 then some (r / 2 ^ 22 % 2 ^ 16 + r / 2 ^ 38 % 2 * 2 ^ 16) else none }]) ∧
    (∀ q w, (waiters s).find? (fun w => w.queue == q) = some w →
      let level := if w.cord.exact then min (w.launch.prio + 1) 7 else w.launch.prio
      let age := (tget s.age level).toNat
      let since := if w.cord.exact then w.launch.sinceX else w.launch.since
      (∀ c, since = some c → age ≠ 0 → c + 1800 * age < s.clk → (q, w.launch.id) ∉ s.raised →
        exec (.queueAgeing q) s = .next { s with raised := s.raised ++ [(q, w.launch.id)] }) ∧
      (age = 0 ∨ (∀ c, since = some c → s.clk ≤ c + 1800 * age) ∨ (q, w.launch.id) ∈ s.raised →
        exec (.queueAgeing q) s = .next s)) ∧
    (∀ n l, s.launchOf n = some l → ∃ l2, (noteWaits s).launchOf n = some l2 ∧
      l2 = { l with since := l2.since, sinceX := l2.sinceX, sinceG := l2.sinceG } ∧
      let noted := fun (old new : Option Nat) (of : Waiter → Prop) =>
        ((∃ w ∈ waiters s, w.launch.id = n ∧ of w) → new = some (old.getD s.clk)) ∧
          ((∀ w ∈ waiters s, w.launch.id = n → ¬ of w) → new = none)
      noted l.since l2.since (fun w => w.cord.exact = false) ∧ noted l.sinceX l2.sinceX (fun w => w.cord.exact = true) ∧
        noted l.sinceG l2.sinceG fun w => w.cord.num = l.main) ∧
    (∀ n l set, s.launchOf n = some l → (∃ w ∈ waiters s, w.launch.id = l.id ∧ w.cord.num = l.main) →
        (∃ c, l.sinceG = some c ∧ (tget s.gangwait l.prio).toNat ≠ 0 ∧ c + 1800 * (tget s.gangwait l.prio).toNat < s.clk) →
        1 ≤ l.gang → s.closedSets.length < 8 →
      (∀ x ∈ s.closedSets, x.1 ≠ l.id) → bestSet s l = some set → exec (.gangCloseSet n set) s =
        .next { s with closedSets := s.closedSets ++ [(n, l.gscope - 1, set)] })

/-- R90, R97, R326, R341, R356, R389: WAVE_RETIRE takes away a wave whose work is done, and nothing of any other wave; a reservation stays
while its launch occupies the core. The wave's tile takes its verdict, and resolves with the last one; in the wave's crew it counts as
arrive-and-drop. LAUNCH_END writes the completion record, or reports that it cannot, sends the message, and frees the cords,
reservations and pools of the launch. -/
def Sys2Proof.Claims.WavesRetireAndLaunchesEnd : Prop :=
  ∀ (s : State),
    (∀ u w, 0 < u → s.findWave u = some w → w.uid = u → mayRetire s w = true →
      Answers (.waveRetire u) s fun t => t.mem = s.mem ∧ t.sectorKey = s.sectorKey ∧ t.findWave u = none ∧
        (w.token = none → t.tiles = s.tiles) ∧
        (∀ k x l, w.token = some k → s.tileOf k = some x → s.launchOf x.launch = some l → (s.tiles.map fun y => y.token).Nodup →
          let waves := x.waves.map fun y => if y.uid = u then { y with verdict := w.verdict, gone := true } else y
          let due := x.phase = 0 ∧ x.bound = true ∧ l.ending = none ∧ (x.overrun = true ∨ x.erred = true ∨
            ((∀ y ∈ waves, y.gone = true) ∧ boundTile s k = false ∧ tileStill s k = true))
          (∀ j, j ≠ k → t.tileOf j = s.tileOf j) ∧
          (¬ due → t.tileOf k = some { x with waves := waves }) ∧
          (due → t.tileOf k = some { x with
            waves := waves, phase := if tileFails { x with waves := waves } l.tol then 2 else 1 })) ∧
        (crewOf s w = none → t.crews = s.crews) ∧
        (∀ c, crewOf s w = some c → (s.crews.filter fun x => x.id == c.id) = [c] → c.deferred = [] → (∀ x ∈ c.returning, x.1 ≠ u) →
          (∀ x ∈ c.waiting, x.1 ≠ u) →
          let now := t.crews.filter fun x => x.id == c.id
          let left := { c with members := c.members.filter fun x => decide (x ≠ u), inPhase := c.inPhase.filter fun x => decide (x ≠ u) }
          (∀ x, x.id ≠ c.id → (x ∈ t.crews ↔ x ∈ s.crews)) ∧
          (c.members.all (fun x => x == u) = true → now = []) ∧
          (c.members.all (fun x => x == u) = false →
            (c.isOpen = false ∨ (u ∉ c.inPhase ∧ c.pend ≠ 0) → now = [left]) ∧
            (c.isOpen = true → u ∈ c.inPhase → 2 ≤ c.pend → now = [{ left with pend := c.pend - 1 }]) ∧
            (c.isOpen = true → u ∈ c.inPhase → c.pend = 1 → now = [{ left with
              isOpen := false, pend := 0, inPhase := [], waiting := [], phase := (c.phase + 1) % 65536,
              returning := c.returning ++ c.waiting.map fun x => (x.1, x.2, c.phase) }]))) ∧
        (∀ v, 0 < v → v ≠ u → t.findWave v = s.findWave v) ∧ (∀ x, x ∈ t.order ↔ x ∈ s.order ∧ x ≠ u) ∧ t.launches = s.launches ∧
        (∀ r ∈ t.resvs, r ∈ s.resvs) ∧ ∀ r ∈ s.resvs, (∃ v x, v ≠ u ∧ 0 < v ∧ s.findWave v = some x ∧ x.uid = v ∧ x ∈ s.allWaves ∧
          x.launch = r.launch ∧ x.quad / 4 = r.core) → r ∈ t.resvs) ∧
    (∀ u w, s.findWave u = none → s.saved.find? (fun w => w.uid == u) = some w → cutOff s w = true → crewOf s w = none →
      (∀ o ∈ s.memOps, o.wave ≠ u) → Answers (.waveRetire u) s fun t => SameMemory s t ∧ t.saved = s.saved.filter (fun x => x.uid != u) ∧
        t.waves = s.waves.filter (fun x => x.uid != u)) ∧
    (∀ n l, s.launchOf n = some l → mayEnd s l = true →
      let code := l.ending.getD 0
      let freed := fun (t : State) => (∀ c, c ∈ t.cords ↔ c ∈ s.cords ∧ c.launch ≠ n) ∧ (∀ r, r ∈ t.resvs ↔ r ∈ s.resvs ∧ r.launch ≠ n) ∧
        (∀ p, p ∈ t.pools ↔ p ∈ s.pools ∧ p.launch ≠ n) ∧ t.launchOf n = none ∧
        (l.irq = true → MsiSent s t l.vec)
      (l.done = 0 → Answers (.launchEnd n) s fun t => freed t ∧ t.mem = s.mem) ∧
      (∀ pa key, l.done ≠ 0 → ctxPlace s l.ctx l.done 16 true = some (.dev pa key) → Answers (.launchEnd n) s fun t =>
        freed t ∧ WroteBytes s t key pa
          (leBytes (1 + 2 * code) 4 ++ leBytes l.stkskip.toNat 4 ++ leBytes l.sgpass.toNat 4 ++ leBytes l.sgfail.toNat 4)) ∧
      (l.done ≠ 0 → ctxPlace s l.ctx l.done 16 true = none → Answers (.launchEnd n) s fun t =>
        freed t ∧ t.mem = s.mem ∧ Report.completion n code l.done ∈ t.reports))

/-- R347, R359, R386, R387: the wave that R347 chooses is marked with its group, and a surrogate tile in the group is ended; waves that
have come to belong to a group since are marked with it. A group that stands at its stopping points is saved: a wave leaves its quadrant
with every register and tile as it was, and a reservation that its launch leaves goes with it. A saved wave resumes with all that
it had, in the quadrant and slot given, and its reservation with it. -/
def Sys2Proof.Claims.WavesSavedAndResumed : Prop :=
  ∀ (s : State) (u : Nat), 0 < u →
    let marked := fun (t : State) (g : List Nat) (group : Nat) =>
      (∀ n x, s.findWave n = some x → x.uid = n →
        t.findWave n = some (if n ∈ g ∧ x.token = none then { x with group := group } else x)) ∧
      (∀ k x, s.tileOf k = some x →
        ((∃ n ∈ g, ∃ y, s.findWave n = some y ∧ y.token = some k) → x.phase = 0 → t.tileOf k = some { x with phase := 3 }) ∧
        ((∀ n ∈ g, ∀ y, s.findWave n = some y → y.token ≠ some k) → t.tileOf k = some x)) ∧
      t.mem = s.mem ∧ t.sectorKey = s.sectorKey ∧ t.resvs = s.resvs ∧ t.saved = s.saved
    (∀ w v, s.findWave u = some w → w.uid = u → w.group = 0 → victim s = some v → v.uid = u →
      Answers (.preemptSave u) s fun t => marked t (groupOf s [u]) s.nextOp) ∧
    (∀ w, s.findWave u = some w → w.uid = u → w.group ≠ 0 → groupGrows s w = true →
      Answers (.preemptSave u) s fun t => marked t (groupOf s ((chosen s w.group).map fun x => x.uid)) w.group) ∧
    (∀ w, s.findWave u = some w → w.uid = u → groupReady s w = true → chosen s w.group = [w] →
      (w.status = .parked ∨ ∃ pc, stopPoint s w = some (pc, false)) → Answers (.preemptSave u) s fun t =>
        t.mem = s.mem ∧ t.sectorKey = s.sectorKey ∧ t.findWave u = none ∧ (∀ v, 0 < v → v ≠ u → t.findWave v = s.findWave v) ∧
        (∃ x, t.saved.getLast? = some x ∧ t.saved.length = s.saved.length + 1 ∧ x.quad % 4096 = w.quad % 4096 ∧
          x = { w with quad := x.quad, mlstep :=
            match s.matOps.find? fun m => m.wave == u && decide (0 < m.step) with
            | some m => BitVec.ofNat 32 (2 ^ 31 + m.tile * 2 ^ 17 + m.step)
            | none => w.mlstep } ∧
          (coresLeft s w.launch [u] = [] → x.quad = w.quad ∧ t.saved = s.saved ++ [x] ∧ t.resvs = s.resvs)) ∧
        ∀ r ∈ s.resvs, r.launch = w.launch → r.core ∈ coresLeft s w.launch [u] → ∃ r2 ∈ t.resvs, 1024 ≤ r2.core ∧
          r2 = { r with core := r2.core }) ∧
    (∀ quad wslot lead q i n, s.saved.find? (fun w => w.uid == u) = some lead → s.findWave u = none →
      mayResume s (waiters s) lead quad wslot (fun k => Config.choose (s.freeN + k)) = some [(lead, (q, i, n))] →
      (quad < 4 * numCores s.part → q = quad ∧ (wslot ∈ (quadUse s quad).free → i = wslot)) ∧
      Answers (.waveResume u quad wslot) s fun t =>
        t.mem = s.mem ∧ t.sectorKey = s.sectorKey ∧ t.w = s.w ∧ (∀ x ∈ t.saved, x.uid ≠ u) ∧
        t.l1 = s.l1.filter (fun l => l.core != q / 4) ∧
        t.findWave u = some { lead with quad := q, wslot := i, group := 0, placed := s.nextOp } ∧
        ∀ r, ownResv s lead = some r → ∃ r2, t.resvOf lead.launch (q / 4) = some r2 ∧ r2 = { r with core := q / 4, base := r2.base })

/-- How waves retire, launches end, and waves are pre-empted and resumed.
It rests on choices of the model: logs 22, 23 and 49. -/
def Obligations.WavesEndAndAreSaved : Prop :=
  Sys2Proof.Claims.WavesRetireAndLaunchesEnd ∧ Sys2Proof.Claims.WavesSavedAndResumed

/-! ### The boundaries of the device (R390 to R412) -/

/-- R396 to R398: a record whose CODE is unknown gets RESULT 1; one with a reserved byte that is not zero, RESULT 2; a command on a context
that is not live, RESULT 6. None has another effect. The record's last 8 bytes hold RESULT and VALUE, and HEAD moves on. -/
def Sys2Proof.Claims.CommandsRefused : Prop :=
  ∀ (s : State) (port : Nat) (r : Ring) (bs : List Byte), CmdTurn s port r bs →
    let code := recAt bs 0 2
    let sel := recAt bs 9 1
    let link := recAt bs 0xA 1
    (code = 0 ∨ 0x0E < code → CmdDoes (.unknownCommandCode port) s port r 1 0 s) ∧
    (
      let dirty := fun (i : Instr) (c : Nat) (ops : List (Nat × Nat)) => code = c → ¬ CmdClean bs ops → CmdDoes i s port r 2 0 s
      dirty (.createContext port) 0x01 [(8, 1)] ∧ dirty (.destroyContext port) 0x02 [(8, 1)] ∧
        dirty (.setContextRoots port) 0x03 [(8, 1), (0x10, 8), (0x18, 8), (0x20, 4)] ∧
        dirty (.writeRegionBounds port) 0x04 [(8, 1), (9, 1), (0x10, 16)] ∧
        dirty (.addPoolFrames port) 0x05 [(8, 1), (0xA, 2), (0xC, 4), (0x10, 8)] ∧
        dirty (.grantTbWindow port) 0x06 [(8, 1), (0xC, 4)] ∧ dirty (.installKey port) 0x08 [(8, 2), (0x10, 8)] ∧
        dirty (.writeImportSlot port) 0x09 [(8, 1), (0xA, 2), (0x10, 16)] ∧
        dirty (.writeImportEntry port) 0x0A [(0xA, 2), (0x10, 32)] ∧ dirty (.configureSpan port) 0x0B [(8, 6)] ∧
        dirty (.terminateLaunch port) 0x0C [(8, 1), (0xA, 2)] ∧
        (resumeHeld s bs = false → dirty (.resumeWave port) 0x0D [(8, 1), (0xA, 2), (0xC, 1), (0xD, 1)])) ∧
    (code = 0x07 → ¬ CmdClean bs [(8, 1), (9, 1), (0xA, 1), (0xC, 4)] →
      (sel = 1 → CmdDoes (.setAge port) s port r 2 0 s) ∧ (sel = 2 → CmdDoes (.setGangwait port) s port r 2 0 s) ∧
      (sel ≠ 1 → sel ≠ 2 → CmdDoes (.setPriorityCap port) s port r 2 0 s)) ∧
    (code = 0x0E → ¬ CmdClean bs [(8, 2), (0xA, 1)] →
      (link = 0xFF → CmdDoes (.setPackageNumber port) s port r 2 0 s) ∧ (link ≠ 0xFF → CmdDoes (.setRoute port) s port r 2 0 s)) ∧
    (s.ctxOf (recAt bs 8 1) = none →
      let dead := fun (i : Instr) (c : Nat) (ops : List (Nat × Nat)) => code = c → CmdClean bs ops → CmdDoes i s port r 6 0 s
      dead (.destroyContext port) 0x02 [(8, 1)] ∧
        dead (.setContextRoots port) 0x03 [(8, 1), (0x10, 8), (0x18, 8), (0x20, 4)] ∧
        dead (.writeRegionBounds port) 0x04 [(8, 1), (9, 1), (0x10, 16)] ∧
        dead (.addPoolFrames port) 0x05 [(8, 1), (0xA, 2), (0xC, 4), (0x10, 8)] ∧
        dead (.grantTbWindow port) 0x06 [(8, 1), (0xC, 4)] ∧
        (sel = 0 → recAt bs 0xC 4 ≤ 7 → dead (.setPriorityCap port) 0x07 [(8, 1), (9, 1), (0xA, 1), (0xC, 4)]) ∧
        dead (.writeImportSlot port) 0x09 [(8, 1), (0xA, 2), (0x10, 16)] ∧
        dead (.terminateLaunch port) 0x0C [(8, 1), (0xA, 2)] ∧
        (resumeHeld s bs = false → dead (.resumeWave port) 0x0D [(8, 1), (0xA, 2), (0xC, 1), (0xD, 1)]))

/-- R375, R379, R397 to R399, R319: the commands on contexts, each with its operands out of range (RESULT 3), its condition not met (4), no
room (5), or done. A new context has no region, handle, frame or window; a change of bounds sweeps the context's translations, and no
other command removes one (R378); added frames read zero.
It rests on choices of the model: logs 24 and 47. -/
def Obligations.ContextCommands : Prop :=
  ∀ (s : State) (port : Nat) (r : Ring) (bs : List Byte), CmdTurn s port r bs →
    let code := recAt bs 0 2
    let n := recAt bs 8 1
    let swept := fun (u : State) => { u with tlb := s.tlb.filter (fun x => x.ctx != n), lanes := s.lanes.filter fun x => x.ctx != n }
    let live := ∃ l ∈ s.launches, l.ctx = n
    let readable := fun (pa n : Nat) => pa + n ≤ memLimit s.part ∧
      ∀ x, pa / 64 ≤ x → x ≤ (pa + n - 1) / 64 → stackReady s (64 * x) = true ∧ x ∉ s.poison
    let set := fun (f : Ctx → Ctx) => { s with ctxs := s.ctxs.map fun x => if x.num = n then f x else x }
    (code = 0x01 → CmdClean bs [(8, 1)] →
      (7 < n → CmdDoes (.createContext port) s port r 3 0 s) ∧
      (n ≤ 7 → (∀ k, k < 64 → (s.ctxOf k).isSome = true) → CmdDoes (.createContext port) s port r 5 0 s) ∧
      (n ≤ 7 → (∃ k, k < 64 ∧ s.ctxOf k = none) → ∃ k, k < 64 ∧ s.ctxOf k = none ∧ CmdDoes (.createContext port) s port r 0 k { s with
        freeN := s.freeN + 1
        ctxs := s.ctxs ++ [{ num := k, span := n, ptroot := 0, hentry := 0, ctxcfg := 0, bounds := [], handles := [], pool := [],
                             tbBase := 0, tbCount := 0, prioCap := 7, imports := [] }] })) ∧
    (∀ c, s.ctxOf n = some c →
      (code = 0x02 → CmdClean bs [(8, 1)] →
        (live → CmdDoes (.destroyContext port) s port r 4 0 s) ∧
        (¬ live → ∃ keys, (∀ k ∈ keys, k ∈ s.keys) ∧ (∀ k ∈ s.keys, k ∉ keys → k ≠ 0) ∧
          CmdDoes (.destroyContext port) s port r 0 0 { s with
            ctxs := s.ctxs.filter (fun x => x.num != n), cords := s.cords.filter (fun x => x.ctx != n), keys := keys })) ∧
      (code = 0x03 → CmdClean bs [(8, 1), (0x10, 8), (0x18, 8), (0x20, 4)] →
        let root := recAt bs 0x10 8
        let cfg := recAt bs 0x20 4
        (cfg / 2 % 2 ^ 7 ≠ 0 → CmdDoes (.setContextRoots port) s port r 2 0 s) ∧
        (cfg / 2 % 2 ^ 7 = 0 → root % 8192 ≠ 0 → CmdDoes (.setContextRoots port) s port r 3 0 s) ∧
        (cfg / 2 % 2 ^ 7 = 0 → root % 8192 = 0 → (∃ w ∈ s.allWaves, w.ctx = n) → CmdDoes (.setContextRoots port) s port r 4 0 s) ∧
        (cfg / 2 % 2 ^ 7 = 0 → root % 8192 = 0 → (∀ w ∈ s.allWaves, w.ctx ≠ n) →
          CmdDoes (.setContextRoots port) s port r 0 0 (set fun x => { x with
            ptroot := BitVec.ofNat 64 root, hentry := BitVec.ofNat 64 (recAt bs 0x18 8), ctxcfg := BitVec.ofNat 32 cfg }))) ∧
      (code = 0x04 → CmdClean bs [(8, 1), (9, 1), (0x10, 16)] →
        let e := recAt bs 0x10 16
        let region := recAt bs 9 1
        let reserved := e / 2 ^ 97 % 2 ^ 28 ≠ 0 ∨ e / 2 ^ 33 % 2 ^ 31 ≠ 0
        (reserved → CmdDoes (.writeRegionBounds port) s port r 2 0 s) ∧
        (¬ reserved → region = 0xFF → CmdDoes (.writeRegionBounds port) s port r 3 0 s) ∧
        (¬ reserved → region ≠ 0xFF → CmdDoes (.writeRegionBounds port) s port r 0 0 (swept (set fun x =>
          { x with bounds := tset x.bounds region (BitVec.ofNat 128 e) })))) ∧
      (code = 0x05 → CmdClean bs [(8, 1), (0xA, 2), (0xC, 4), (0x10, 8)] →
        let key := recAt bs 0xA 2
        let count := recAt bs 0xC 4
        let list := recAt bs 0x10 8
        let frames := (List.range count).map fun i => leNat (devBytes s 0 (list + 8 * i) 8)
        let bad := ∃ pa ∈ frames, pa % 65536 ≠ 0 ∨ memLimit s.part < pa + 65536
        (4095 < key ∨ count = 0 ∨ 65536 < count → CmdDoes (.addPoolFrames port) s port r 3 0 s) ∧
        (key ≤ 4095 → 0 < count → count ≤ 65536 →
          (¬ readable list (8 * count) → CmdDoes (.addPoolFrames port) s port r 7 0 s) ∧
          (readable list (8 * count) → bad → CmdDoes (.addPoolFrames port) s port r 3 0 s) ∧
          (readable list (8 * count) → ¬ bad → 65536 < c.pool.length + count → CmdDoes (.addPoolFrames port) s port r 4 0 s) ∧
          (readable list (8 * count) → ¬ bad → c.pool.length + count ≤ 65536 → ∃ u,
            CmdDoes (.addPoolFrames port) s port r 0 (c.pool.length + count) u ∧
            u = { s with ctxs := u.ctxs, mem := u.mem, sectorKey := u.sectorKey, poison := u.poison, l1 := u.l1 } ∧
            u.ctxOf n = some { c with pool := frames.reverse.map (fun pa => BitVec.ofNat 64 (key * 2 ^ 52 + pa)) ++ c.pool } ∧
            ∀ a, let inside := ∃ pa ∈ frames, pa ≤ a ∧ a < pa + 65536
              (inside → tget u.mem a = 0 ∧ tget u.sectorKey (a / 64) = BitVec.ofNat 13 (key + 1)) ∧
              (¬ inside → tget u.mem a = tget s.mem a)))) ∧
      (code = 0x06 → CmdClean bs [(8, 1), (0xC, 4)] →
        let count := recAt bs 0xC 4
        (count = 0 ∨ 65536 < count → CmdDoes (.grantTbWindow port) s port r 3 0 s) ∧
        (0 < count → count ≤ 65536 → c.tbCount ≠ 0 → live → CmdDoes (.grantTbWindow port) s port r 4 0 s) ∧
        (0 < count → count ≤ 65536 → c.tbCount = 0 ∨ ¬ live → tbRoom s n count = none → CmdDoes (.grantTbWindow port) s port r 5 0 s) ∧
        (∀ b, 0 < count → count ≤ 65536 → c.tbCount = 0 ∨ ¬ live → tbRoom s n count = some b → b + count ≤ 65536 ∧
          (∀ x ∈ s.ctxs, x.num ≠ n → x.tbCount ≠ 0 → b + count ≤ x.tbBase ∨ x.tbBase + x.tbCount ≤ b) ∧ ∃ tb,
          CmdDoes (.grantTbWindow port) s port r 0 0 { set (fun x => { x with tbBase := b, tbCount := count }) with tb := tb } ∧
          ∀ i, tget tb i = if b ≤ i ∧ i < b + count then 0 else tget s.tb i)) ∧
      (code = 0x07 → recAt bs 9 1 = 0 → CmdClean bs [(8, 1), (9, 1), (0xA, 1), (0xC, 4)] →
        let v := recAt bs 0xC 4
        (7 < v → CmdDoes (.setPriorityCap port) s port r 3 0 s) ∧
        (v ≤ 7 → CmdDoes (.setPriorityCap port) s port r 0 0 (set fun x => { x with prioCap := v }))) ∧
      (code = 0x09 → CmdClean bs [(8, 1), (0xA, 2), (0x10, 16)] →
        let e := recAt bs 0x10 16
        let reserved := e / 2 ^ 124 % 2 ^ 3 ≠ 0 ∨ e / 2 ^ 64 % 2 ^ 36 ≠ 0
        (reserved → CmdDoes (.writeImportSlot port) s port r 2 0 s) ∧
        (¬ reserved → 4095 < recAt bs 0xA 2 → CmdDoes (.writeImportSlot port) s port r 3 0 s) ∧
        (¬ reserved → recAt bs 0xA 2 ≤ 4095 → CmdDoes (.writeImportSlot port) s port r 0 0 (set fun x =>
          { x with imports := tset x.imports (recAt bs 0xA 2) (BitVec.ofNat 128 e) }))) ∧
      (code = 0x0C → CmdClean bs [(8, 1), (0xA, 2)] →
        let id := recAt bs 0xA 2
        ((∃ l, s.launchOf id = some l ∧ l.ctx = n) → CmdDoes (.terminateLaunch port) s port r 0 0 (s.ended id 2)) ∧
        ((∀ l, s.launchOf id = some l → l.ctx ≠ n) → CmdDoes (.terminateLaunch port) s port r 3 0 s)) ∧
      (code = 0x0D → CmdClean bs [(8, 1), (0xA, 2), (0xC, 1), (0xD, 1)] →
        let q := recAt bs 0xA 2
        let act := recAt bs 0xD 1
        let suspended := s.allWaves.find? fun w => w.ctx == n && w.quad == q && w.wslot == recAt bs 0xC 1 && w.status == .suspended
        let busy := ∃ w, suspended = some w ∧ (w.trap.isSome = true ∨ ∃ o ∈ s.sysOps, o.wave = w.uid)
        (busy → exec (.resumeWave port) s = .next s) ∧
        (¬ busy → 4 * numCores s.part ≤ q ∨ 15 < recAt bs 0xC 1 ∨ 3 < act ∨ suspended = none →
          CmdDoes (.resumeWave port) s port r 3 0 s) ∧
        (∀ w, ¬ busy → q < 4 * numCores s.part → recAt bs 0xC 1 ≤ 15 → act ≤ 3 → suspended = some w →
          ∃ u, CmdDoes (.resumeWave port) s port r 0 0 u ∧ u = moveLast (rftAct { checkOut s w.uid with src := none } act) w.uid)))

/-- R346, R349, R397 to R399, R402 to R407: the other commands: AGE and GANGWAIT, a key, an import-table entry, a span, a route, and the
package's number. -/
def Sys2Proof.Claims.DeviceCommands : Prop :=
  ∀ (s : State) (port : Nat) (r : Ring) (bs : List Byte), CmdTurn s port r bs →
    let code := recAt bs 0 2
    let sel := recAt bs 9 1
    let v := recAt bs 0xC 4
    let level := recAt bs 0xA 1
    (code = 0x07 → CmdClean bs [(8, 1), (9, 1), (0xA, 1), (0xC, 4)] →
      (2 < sel → CmdDoes (.setPriorityCap port) s port r 3 0 s) ∧
      (sel = 1 → 7 < level ∨ 65535 < v → CmdDoes (.setAge port) s port r 3 0 s) ∧
      (sel = 2 → 7 < level ∨ 65535 < v → CmdDoes (.setGangwait port) s port r 3 0 s) ∧
      (sel = 1 → level ≤ 7 → v ≤ 65535 → ∃ age, CmdDoes (.setAge port) s port r 0 0 { s with age := age } ∧
        ∀ p, tget age p = if p = level then BitVec.ofNat 16 v else tget s.age p) ∧
      (sel = 2 → level ≤ 7 → v ≤ 65535 → ∃ gw, CmdDoes (.setGangwait port) s port r 0 0 { s with gangwait := gw } ∧
        ∀ p, tget gw p = if p = level then BitVec.ofNat 16 v else tget s.gangwait p)) ∧
    (code = 0x08 → CmdClean bs [(8, 2), (0x10, 8)] →
      let k := recAt bs 8 2
      let good := 1 ≤ k ∧ k ≤ 4095
      (¬ good → CmdDoes (.installKey port) s port r 3 0 s) ∧
      (good → keyNamed s k = true → CmdDoes (.installKey port) s port r 4 0 s) ∧
      let pair := recAt bs 0x10 8
      let readable := pair + 72 ≤ memLimit s.part ∧
        ∀ x, pair / 64 ≤ x → x ≤ (pair + 71) / 64 → stackReady s (64 * x) = true ∧ x ∉ s.poison
      (good → keyNamed s k = false → ¬ readable → CmdDoes (.installKey port) s port r 7 0 s) ∧
      (good → keyNamed s k = false → readable →
        CmdDoes (.installKey port) s port r 8 0 { s with freeN := s.freeN + 1 } ∨ ∃ keys tags stale,
          CmdDoes (.installKey port) s port r 0 0 { s with freeN := s.freeN + 1, keys := keys, sectorKey := tags, stale := stale } ∧
          (∀ x, x ∈ keys ↔ x = k ∨ x ∈ s.keys) ∧
          ∀ sec, let old := tget s.sectorKey sec
            (old.toNat ≠ k + 1 → tget tags sec = old) ∧
            (old.toNat = k + 1 → l2Holds s (64 * sec) = true → tget tags sec = old ∧ sec ∈ stale) ∧
            (old.toNat = k + 1 → l2Holds s (64 * sec) = false → 4096 < (tget tags sec).toNat))) ∧
    (code = 0x0A → CmdClean bs [(0xA, 2), (0x10, 32)] →
      let e := recAt bs 0x10 32
      let reserved := e / 2 ^ 204 % 2 ^ 50 ≠ 0 ∨ e / 2 ^ 186 % 2 ^ 6 ≠ 0 ∨ e / 2 ^ 161 % 2 ^ 11 ≠ 0 ∨ e % 2 ^ 39 ≠ 0
      let len := e / 2 ^ 39 % 2 ^ 25
      let range := recAt bs 0xA 2 ≤ 4095 ∧ e / 2 ^ 172 % 2 ^ 8 ≠ 0xFF ∧ (e / 2 ^ 255 % 2 = 1 → 1 ≤ len ∧ len ≤ 2 ^ 22)
      (reserved → CmdDoes (.writeImportEntry port) s port r 2 0 s) ∧
      (¬ reserved → ¬ range → CmdDoes (.writeImportEntry port) s port r 3 0 s) ∧
      (¬ reserved → range → CmdDoes (.writeImportEntry port) s port r 0 0
        { s with importTable := tset s.importTable (recAt bs 0xA 2) (BitVec.ofNat 256 e) })) ∧
    (code = 0x0B → CmdClean bs [(8, 6)] →
      let n := recAt bs 8 1
      let p : Span :=
        { shape := recAt bs 9 1, col0 := recAt bs 0xA 1, row0 := recAt bs 0xB 1, ncol := recAt bs 0xC 1, nrow := recAt bs 0xD 1,
          closedToBind := false }
      let good := n ≤ 7 ∧ p.shape ≤ 3 ∧ 1 ≤ p.ncol ∧ 1 ≤ p.nrow ∧ p.col0 + p.ncol ≤ (if s.part = 0 then 8 else 6) ∧ p.row0 + p.nrow ≤ 6
      let resident := ∃ old, s.spans[n]? = some old ∧ ∃ w ∈ s.allWaves, old.holds s.part (w.quad / 16) = true
      (¬ good → CmdDoes (.configureSpan port) s port r 3 0 s) ∧
      (good → resident → CmdDoes (.configureSpan port) s port r 4 0 s) ∧
      (good → ¬ resident → CmdDoes (.configureSpan port) s port r 0 0 { s with spans := setAt s.spans n p })) ∧
    (code = 0x0E → CmdClean bs [(8, 2), (0xA, 1)] →
      let k := recAt bs 8 2
      (level = 0xFF → k ≤ 4095 → CmdDoes (.setPackageNumber port) s port r 0 0 { s with pkg := k }) ∧
      (level = 0xFF → 4095 < k → CmdDoes (.setPackageNumber port) s port r 3 0 s) ∧
      (level ≠ 0xFF → 4095 < k ∨ 11 < level → CmdDoes (.setRoute port) s port r 3 0 s) ∧
      (k ≤ 4095 → level ≤ 11 → CmdDoes (.setRoute port) s port r 0 0
        { s with routes := tset s.routes k (BitVec.ofNat 16 (level + 1)) }))

/-- The refusals of commands, and the commands that act on the device.
It rests on choices of the model: log 47. -/
def Obligations.CommandsOfTheDevice : Prop :=
  Sys2Proof.Claims.CommandsRefused ∧ Sys2Proof.Claims.DeviceCommands

/-- R393, R394, R400, R408 to R410, R412: the registers of the control window, power, and readiness. QCFG clears HEAD and TAIL when it
enables a queue; a semaphore goes to a port when it is free and comes back from its owner only; WATTS is clamped to 600 to 2,000; the
recovery buffer is appended, and checked, only in recovery mode; a write that is not naturally aligned, or not of 4 or 8 bytes, is
discarded. The units that
report ready are those of the part: HOST, four dies, eight stacks or six, twelve links or eight. A module that is off keeps no
state. -/
def Sys2Proof.Claims.WindowWritesAndPower : Prop :=
  ∀ (s : State) (port : Nat),
    (∀ q v x, s.queues[q]? = some x → v < 2 ^ 32 → Answers (.qcfgWrite q v) s fun t => t = { s with queues := t.queues } ∧
      (∀ p, p ≠ q → t.queues[p]? = s.queues[p]?) ∧ ∃ y, t.queues[q]? = some y ∧ y.base = x.base ∧
        (x.cfg.getLsbD 31 = true → 2 ^ 31 ≤ v → y = x) ∧
        (x.cfg.getLsbD 31 = true → v < 2 ^ 31 → y = { x with cfg := x.cfg &&& 0x7FFFFFFF }) ∧
        (x.cfg.getLsbD 31 = false → y.cfg = BitVec.ofNat 32 v &&& 0xC00003FF) ∧
        (x.cfg.getLsbD 31 = false → 2 ^ 31 ≤ v → y.head = 0 ∧ y.tail = 0) ∧
        (x.cfg.getLsbD 31 = false → v < 2 ^ 31 → y.head = x.head ∧ y.tail = x.tail)) ∧
    (∀ n v, port < 2 → Answers (.semaphoreWrite port n v) s fun t => t = { s with sems := t.sems, turns := (5, 0, port) :: s.turns } ∧
      (∀ k, k ≠ n → tget t.sems k = tget s.sems k) ∧ tget t.sems n =
        if v % 4 = port + 1 ∧ tget s.sems n = 0 then BitVec.ofNat 2 (port + 1)
        else if v % 4 = 0 ∧ (tget s.sems n).toNat = port + 1 then 0 else tget s.sems n) ∧
    (∀ v, v < 2 ^ 32 → exec (.plimWattsWrite port v) s =
      .next (if v / 2 ^ 30 = 0 then { s with watts := max 600 (min 2000 (v % 2 ^ 11)) } else s)) ∧
    (∀ v, v < 2 ^ 32 →
      let on := s.powered = true ∧ s.ready.getLsbD 29 = true
      let whole := s.image ++ tgetRun s.recBuf 0 s.rlen
      (on → v / 2 ^ 30 = 1 → exec (.recoveryAppend port v) s = .next { s with image := whole }) ∧
      (¬ on ∨ v / 2 ^ 30 ≠ 1 → exec (.recoveryAppend port v) s = .next s) ∧
      (on → v / 2 ^ 30 = 2 → imageOk whole = false → exec (.recoveryCheck port v) s = .next { s with image := [] }) ∧
      (on → v / 2 ^ 30 = 2 → imageOk whole = true → Answers (.recoveryCheck port v) s fun t => t.ready = 0x80000000 ∧ t.clk = 0 ∧ t.ctxs = [] ∧
        t.keys = [0] ∧ t.sems = [] ∧ t.waves = [] ∧ t.launches = [] ∧ t.spans[0]? = some
          { shape := 0, col0 := 0, row0 := 0, ncol := if s.part = 0 then 8 else 6, nrow := 6, closedToBind := false }) ∧
      (¬ on ∨ v / 2 ^ 30 ≠ 2 → exec (.recoveryCheck port v) s = .next s)) ∧
    (∀ off size v, s.powered = true → v < 2 ^ 32 →
      (¬ (size = 4 ∧ off % 4 = 0) → ¬ (size = 8 ∧ off % 8 = 0) → exec (.controlWindowWrite port off size v) s = .next s) ∧
      (size = 4 → off = 0x18 → exec (.controlWindowWrite port off size v) s =
        .next (if v ≤ 65536 then { s with rlen := v } else s)) ∧
      (size = 4 → off % 4 = 0 → 0x10000 ≤ off → off < 0x20000 → Answers (.controlWindowWrite port off size v) s fun t =>
        t = { s with recBuf := t.recBuf } ∧ ∀ a, tget t.recBuf a = if off ≤ a + 0x10000 ∧ a + 0x10000 < off + 4
          then BitVec.ofNat 8 (v / 2 ^ (8 * (a + 0x10000 - off))) else tget s.recBuf a) ∧
      (∀ q x, size = 4 → off = 0x1000 + 32 * q + 8 → q < 64 → s.queues[q]? = some x →
        exec (.controlWindowWrite port off size v) s = exec (.qcfgWrite q v) s) ∧
      (∀ n, size = 4 → n < 16 → off = 0x100 + 4 * n →
        exec (.controlWindowWrite port off size v) s = exec (.semaphoreWrite port n v) s) ∧
      (∀ x, size = 4 → off = 0x2010 → s.rings[0]? = some x → Answers (.controlWindowWrite port off size v) s fun t =>
        t = { s with rings := t.rings } ∧ t.rings[0]? = some { x with tail := BitVec.ofNat 32 v } ∧ t.rings[1]? = s.rings[1]?) ∧
      (size = 4 → off ∈ [0, 4, 8, 0xC, 0x14, 0x1C] → exec (.controlWindowWrite port off size v) s = .next s)) ∧
    (∀ b, unitBit s.part b = true ↔
      b = 30 ∨ (24 ≤ b ∧ b < 28) ∨ (16 ≤ b ∧ b < if s.part = 0 then 24 else 22) ∨ (b < 12 ∧ (s.part = 0 ∨ b % 3 ≠ 2))) ∧
    (∀ b, s.powered = true → b < 31 →
      (unitBit s.part b = true → exec (.functionReady b) s = .next { s with ready := s.ready ||| BitVec.ofNat 32 (2 ^ b) }) ∧
      (unitBit s.part b = false → exec (.functionReady b) s = .next s)) ∧
    (s.powered = true → s.ready.getLsbD 31 = false → s.ready.getLsbD 29 = false → Answers (.functionReady 31) s fun t =>
      t = { s with ready := t.ready, freeN := s.freeN + 1 } ∧
        (t.ready = s.ready ||| 0x80000000 ∨ t.ready = s.ready ||| 0x20000000)) ∧
    Answers .modulePowerOff s (fun t => t.powered = false ∧ t.mem = [] ∧ t.ctxs = [] ∧ t.keys = [0] ∧ t.waves = [] ∧ t.ready = 0 ∧
      t.recBuf = [] ∧ t.inputs = s.inputs ∧ t.part = s.part) ∧
    (s.powered = true → exec .powerOn s = .next s) ∧
    (s.powered = false → Answers .powerOn s fun t => t.powered = true ∧ t.part = s.part ∧ t.mem = [] ∧ t.ctxs = [] ∧ t.keys = [0] ∧
      t.ready = 0 ∧ t.watts = 2000 ∧ t.spans[0]? = some
        { shape := 0, col0 := 0, row0 := 0, ncol := if s.part = 0 then 8 else 6, nrow := 6, closedToBind := false })

/-- R391 to R393, R396, R400: what the registers answer to the ports outside. A read that is not naturally aligned or not of 4 or 8 bytes
gives all ones, a reserved offset 0, a doorbell QHEAD; an AtomicOp of the host on one of the BARs answers the old value and writes the
sum, the operand, or the operand when the old value is the one compared, and else nothing; a vector masked in the MSI-X table stays pending until its mask goes. -/
def Sys2Proof.Claims.RegistersAnswer : Prop :=
  ∀ (s : State) (rest : List BarAccess),
    let took : State := { s with bars := rest }
    (∀ p bar off size, s.bars = .read p bar off size :: rest →
      execBarAccess s = .next { took with reports := s.reports ++ [.answer p (barRead took bar off size)] }) ∧
    (∀ bar form off size cmp v, s.bars = .atomic bar form off size cmp v :: rest →
      let old := barRead took bar off size
      let answers := fun (t : State) => execBarAccess s = .next { t with reports := t.reports ++ [.answer 0 old] }
      let wrote := fun (new : Nat) => ∃ t, answers t ∧
        (bar = 0 → exec (.controlWindowWrite 0 off size new) took = .next t) ∧
        (bar = 2 → size = 4 → off % 4096 = 0 → exec (.queueDoorbell (off / 4096) new) took = .next t) ∧
        (bar = 4 → size = 4 → off % 4 = 0 → execBarAccess { s with bars := .write4 off new :: rest } = .next t)
      (form = 0 → wrote ((old + v) % 2 ^ (8 * size))) ∧ (form = 1 → wrote v) ∧ (2 ≤ form → old = cmp → wrote v) ∧
        (2 ≤ form → old ≠ cmp → answers took)) ∧
    (∀ n v, n < 2048 → s.bars = .write4 (16 * n + 12) v :: rest → ∃ t, execBarAccess s = .next t ∧
      t = { took with msix := t.msix, pba := t.pba, reports := t.reports } ∧ (∀ k, k ≠ n → tget t.msix k = tget s.msix k ∧ tget t.pba k = tget s.pba k) ∧
      (tget t.msix n).getLsbD 96 = decide (v % 2 = 1) ∧
      (v % 2 = 1 ∨ tget s.pba n = 0 → tget t.pba n = tget s.pba n ∧ t.reports = s.reports) ∧
      (v % 2 = 0 → tget s.pba n = 1 → tget t.pba n = 0 ∧ t.reports = s.reports ++ [.msi n])) ∧
    (∀ off size, (¬ (size = 4 ∧ off % 4 = 0) → ¬ (size = 8 ∧ off % 8 = 0) → windowRead s off size = 2 ^ (8 * size) - 1)) ∧
    (windowRead s 0 4 = s.ready.toNat ∧ windowRead s 8 8 = (capsValue s.part s.stepping).toNat ∧ windowRead s 0x10 4 = s.watts ∧
      windowRead s 0x14 4 = s.pwr.toNat ∧ windowRead s 0x18 4 = s.rlen ∧
      (∀ off, off % 4 = 0 → 0x1C ≤ off → off < 0x100 → windowRead s off 4 = 0)) ∧
    (∀ n, n < 16 → windowRead s (0x100 + 4 * n) 4 = (tget s.sems n).toNat) ∧
    (∀ q x, q < 64 → s.queues[q]? = some x → windowRead s (0x1000 + 32 * q) 8 = x.base.toNat ∧
      windowRead s (0x1000 + 32 * q + 8) 4 = x.cfg.toNat ∧ windowRead s (0x1000 + 32 * q + 12) 4 = x.head % 2 ^ 32 ∧
      ∀ k, k < 4096 → doorbellRead s (4096 * q + k) = x.head % 2 ^ 32) ∧
    (∀ n x, n < 2 → s.rings[n]? = some x → windowRead s (0x2000 + 32 * n) 8 = x.base.toNat ∧
      windowRead s (0x2000 + 32 * n + 8) 4 = x.size.toNat ∧ windowRead s (0x2000 + 32 * n + 12) 4 = x.head.toNat ∧
      windowRead s (0x2000 + 32 * n + 16) 4 = x.tail.toNat)

/-- The registers of the control window, power, readiness, and what the registers answer.
It rests on choices of the model: logs 4, 25, 51, 56, 57 and 62. -/
def Obligations.WindowAndPower : Prop :=
  Sys2Proof.Claims.WindowWritesAndPower ∧ Sys2Proof.Claims.RegistersAnswer

/-- R390, R401, R403, R404, R406, R412: links, peers, and errors. A flit that fails is sent again eight times; a payload that still fails
ends the launches of its context where no tile is unresolved; a header that still fails ends the launches of the spans on its die, retrains
their dies' links, and closes those spans to bind records; a link that the part does not have brings nothing. A peer's request is refused without a valid entry of its own, its key
and its length, and a permitted read is served without a change to memory. Each error of the table ends or marks what it names, counts,
and reports.
It rests on choices of the model: logs 26, 48 and 62. -/
def Obligations.LinksAndErrors : Prop :=
  ∀ (s : State),
    (∀ link f, let n := (tget s.linkReplay link).toNat
      let die := if link < 12 then link / 3 else link - 12
      let own := fun (d : Nat) (i : Nat) => ∃ p, s.spans[i]? = some p ∧ spanOnDie s p d = true
      (link < 12 → s.part ≠ 0 → link % 3 = 2 → exec (.flitReceive link f) s = .next s) ∧
      (12 ≤ link ∨ s.part = 0 ∨ link % 3 ≠ 2 →
        (f.headerOk = true → f.payloadOk = true → exec (.flitReceive link f) s =
          .next { s with linkReplay := tset s.linkReplay link 0 }) ∧
        (f.headerOk = false ∨ f.payloadOk = false → n < 8 → exec (.flitReceive link f) s =
          .next { s with linkReplay := tset s.linkReplay link (BitVec.ofNat 8 (n + 1)) }) ∧
        (f.headerOk = true → f.payloadOk = false → 8 ≤ n → s.tiles = [] → (s.launches.map fun l => l.id).Nodup →
          exec (.flitReceive link f) s = .next { s with
            linkReplay := tset s.linkReplay link 0
            launches := s.launches.map fun l => if l.ctx = f.ctx then { l with ending := some (l.ending.getD 4) } else l }) ∧
        (f.headerOk = false → 8 ≤ n → Answers (.flitReceive link f) s fun t => SameMemory s t ∧ tget t.linkReplay link = 0 ∧
          (∀ b, b < 32 → (t.ready.getLsbD b = true ↔ s.ready.getLsbD b = true ∧ ¬ (b < 12 ∧ ∃ i, own die i ∧ own (b / 3) i))) ∧
          (∀ (i : Nat) p, s.spans[i]? = some p → t.spans[i]? = some (if spanOnDie s p die then { p with closedToBind := true } else p)) ∧
          ((s.launches.map fun l => l.id).Nodup → ∀ k l, s.launchOf k = some l →
            let hit := ∃ c, s.ctxOf l.ctx = some c ∧ own die c.span
            (hit → t.launchOf k = some { l with ending := some (l.ending.getD 4) }) ∧ (¬ hit → t.launchOf k = some l))))) ∧
    (∀ q : PeerReq,
      let e := (tget s.importTable q.entry).toNat
      let passes := e / 2 ^ 255 % 2 = 1 ∧ e / 2 ^ 192 % 2 ^ 12 = q.src ∧ e / 2 ^ 64 % 2 ^ 64 = q.gkey ∧
        q.off + q.size ≤ e / 2 ^ 39 % 2 ^ 25 * 65536
      (¬ passes → exec (.importIngress q) s = .next { s with reports := s.reports ++ [.peer q.src 1 []] }) ∧
      (passes → q.form ≠ 0 → e / 2 ^ 254 % 2 = 0 →
        exec (.importIngress q) s = .next { s with reports := s.reports ++ [.peer q.src 2 []] }) ∧
      (∀ locs, passes → q.form = 0 →
        let base : DWord := BitVec.ofNat 64 (e / 2 ^ 172 % 2 ^ 8 * 2 ^ 56 + e / 2 ^ 128 % 2 ^ 33 * 2 ^ 16 + q.off)
        (List.range q.size).mapM (fun i => ctxPlace s (e / 2 ^ 180 % 2 ^ 6) (base + BitVec.ofNat 64 i) 1 false) = some locs →
        (∀ l ∈ locs, poisonedAt s l 1 = false) → ∃ turns, exec (.importIngress q) s = .next { s with
          turns := turns ++ s.turns,
          freeN := s.freeN + 1, reports := s.reports ++ [.peer q.src 0 (locs.flatMap fun l => placeBytes s l 1)] } ∧
          (∀ x ∈ turns, x.1 = 0 ∧ x.2.2 = portRank) ∧ ∀ pa key, .dev pa key ∈ locs → (0, lineOf pa, portRank) ∈ turns)) ∧
    (∀ op o, s.memOps.find? (fun x => x.id == op) = some o → o.token = none →
      let waits := fun (a : Acc) => a.loc.outside && !a.complete o.kind
      let cut := fun (a : Acc) => waits a && !reached s o.ctx a.loc
      let lost := fun (a : Acc) => if o.accs.any cut then cut a else waits a
      (o.kind = .pref ∨ o.kind.isLine = true → exec (.fabricTimeout op) s = .next s) ∧
      (o.kind ≠ .pref → o.kind.isLine = false → (∃ a ∈ o.accs, lost a = true) → Answers (.fabricTimeout op) s fun t => SameMemory s t ∧ t.launches = (s.ended o.launch 4).launches ∧
        ∃ o2, t.memOps.find? (fun x => x.id == op) = some o2 ∧ o2.accs.length = o.accs.length ∧ ∀ (i : Nat) a, o.accs[i]? = some a →
          o2.accs[i]? = some (if lost a then { a with done := true, acked := true, got := List.replicate a.size 0 } else a))) ∧
    (∀ kind, exec (.correctedError kind) s = .next { s with correctedErrors := s.correctedErrors + 1 }) ∧
    (∀ pa, pa < memLimit s.part → Answers (.uncorrectableSectorError pa) s fun t =>
      t = { s with poison := t.poison, reports := s.reports ++ [.sector pa] } ∧ ∀ x, x ∈ t.poison ↔ x = pa / 64 ∨ x ∈ s.poison) ∧
    (∀ u w, s.findWave u = some w →
      (w.token = none → exec (.registerArrayError u) s =
        .next { s.ended w.launch 4 with reports := s.reports ++ [.array w.launch] }) ∧
      (∀ k x, w.token = some k → s.tileOf k = some x → Answers (.registerArrayError u) s fun t => t.launches = s.launches ∧
        t.tileOf k = some { x with erred := true } ∧ t.reports = s.reports ++ [.array w.launch])) ∧
    (∀ core off r, (s.resvs.filter fun r => r.core == core && decide (r.base ≤ off) && decide (off < r.base + r.size)) = [r] →
      s.tiles = [] → exec (.scratchpadError core off) s =
        .next { s.ended r.launch 4 with reports := s.reports ++ [.array r.launch] }) ∧
    (∀ core, Answers (.cacheArrayError core) s fun t => SameMemory s t ∧
      t = { s with l1 := t.l1, icache := t.icache, correctedErrors := s.correctedErrors + 1, freeN := s.freeN + 1 } ∧
      (∀ x ∈ t.l1, x ∈ s.l1) ∧ (∀ x ∈ s.l1, x.core ≠ core → x ∈ t.l1) ∧ (∀ x ∈ t.icache, x ∈ s.icache) ∧
      ∀ x ∈ s.icache, x.core ≠ core → x ∈ t.icache) ∧
    (∀ i, i = .slotTableError ∨ i = .thermalShutdown → exec i s = .next { s with
      stopped := true, reports := s.reports ++ [.stop 0, .stop 1] }) ∧
    Answers .powerLimitExceeded s (fun t =>
      t = { s with freeN := s.freeN + 1, withheld := t.withheld, withheldV := t.withheldV } ∧
      0 < t.withheld ∧ s.withheld ≤ t.withheld ∧
      (s.withheld = 0 → t.withheldV = s.withheldV) ∧ (0 < s.withheld → 0 < t.withheldV)) ∧
    exec .thermalThrottle s = .next { s with throttled := true }

/-! ### Encoding, decoding and the step (R25 to R29, R43 to R66, R243, R361, R388, R393 to R412) -/

/-- R43 to R63: the words of the encoding tables, with every operand at every value it can have: the decoder reads from the encoder's
word of a well-formed instruction that same instruction, with C clear or set. -/
def Obligations.DecodeAfterEncode : Prop :=
  ∀ (i : Instr) (w : Word), i.wf = true → encode i = some w → decodeWord w = .ok i ∧ decodeWord (withChain w) = .ok i

/-- R43 to R66: no word stands for an instruction that another word stands for, but for C: a word that decodes, decodes to a
well-formed instruction, whose encoding is that word with C clear. -/
def Obligations.EncodeAfterDecode : Prop :=
  ∀ (w : Word) (i : Instr), decodeWord w = .ok i → i.wf = true ∧ encode i = some (BitVec.ofNat 32 (w.toNat % 2 ^ 31))

/-- Words that the spec writes out, by family, decode to the instructions that they stand for. -/
def Obligations.WordsOfTheSpec : Prop :=
  (∀ w i, (w, i) ∈ [
    (0x07850004, Instr.lea { sh := 2, d := 10, a := 0, b := 2, x := false }), (0x4E024925, .moviWave { imm := 0x4925, d := 4 }),
    (0x4E822492, .movhiWave { imm := 0x2492, d := 4 }), (0x7408_0000, .srd { s := 8, srn := 0 }),
    (0x74700200, .swr { s := 48, srn := 0x20 }), (0x74B6C00E, .ptew { sd := 54, sa := 48, force := false, ret := true, lvl := 3, fs := false }),
    (0x74F20000, .poolpop { sd := 50, fs := false }), (0x7500C004, .lpinv { sa := 48, all := false, scope := 2, fs := false }),
    (0x75802804, .iinv { sa := 10, all := false, scope := 2, fs := false }), (0x6C022002, .spawn { sd := 2, sa := 8, n := 1, fs := false }),
    (0x6CC45000, .tbset { sd := 4, sa := 20, n := 0, fs := false }), (0x6E421801, .launch { sd := 2, sa := 6, fs := true })] →
    decodeWord w = .ok i) ∧
  decodeWord 0x4F400000 = .error .unassigned ∧ decodeWord 0x74080001 = .error .reservedOther

/-- R27 to R29, R84, R91, R368: one action of the machine, after what follows of itself. When no input may arrive and no event can happen
and one wave may issue, it becomes the issuing wave; the word at its PC, which ends its group and passes the checks, is executed by `exec`
on operands read as the wave stood; then the group ends, the next wave of its order has its turn, and time passes; but a group one of whose
page walks a home slice cannot serve in this clk any more waits for the next (R243). A group of two executes
both words in PC order, on the same operands. A single event that can happen, or an input, happens in its place; where a parked wave
stokes again in this clk, that, or what else enters cords, comes first; where nothing can happen some clk pass.
It rests on choices of the model: logs 5, 39 and 54. -/
def Obligations.StepRunsTheWord : Prop :=
  ∀ (s : State), s.powered = true →
    let s0 := settle s
    let finish := fun (w : Wave) (t : State) =>
      let u := endGroup (endAgain w { t with src := none, grpMore := 0, grpFlags := 0, wordBits := 0 }) false
      (.next (passTime (if lateRead u then s0 else rotate u u.w)) : Host.Outcome State Fault Refusal)
    (restokeDue s0 = false →
      (∀ u b i, inputMay s0 = false → events s0 = [] → issuable s0 = [u] → s0.powered = true →
        let s1 := checkOut s0 u
        let w := s1.w
        let ready := fun (k : Nat) (b : Word) => { s1 with src := some w, grpFlags := 0, wordBits := b, grpMore := k }
        w.replay = false → cachedWord s1 w w.pc = some b → decodeWord b = .ok i →
        (chainBit b = false → checkGroup s1 w (w.pc.toNat % 12 / 4) [b] = none → unmetClaim s1 [b] = none →
          ∀ t, exec i (ready 0 b) = .next t → step s = finish w t) ∧
        (∀ c j, againOf w = none → chainBit b = true → w.pc.toNat % 12 < 8 → cachedWord s1 w (w.pc + 4) = some c → decodeWord c = .ok j →
          chainBit c = false → checkGroup s1 w (w.pc.toNat % 12 / 4) [b, c] = none → unmetClaim s1 [b, c] = none →
          ∀ t r, exec i (ready 1 b) = .next t → exec j { t with wordBits := c, grpMore := 0 } = .next r → step s = finish w r)) ∧
      (∀ a t, inputMay s0 = false → issuable s0 = [] → events s0 = [a] → a s0 = .next t → step s = .next (passTime t)) ∧
      (∀ i rest t, s0.inputs = i :: rest → inputMay s0 = true → issuable s0 = [] → events s0 = [] → isInput i = true →
        s0.powered = true → exec i { s0 with inputs := rest } = .next t → step s = .next (passTime t)) ∧
      (inputMay s0 = false → issuable s0 = [] → events s0 = [] → step s = .next (elapse (Config.clkSlack s0.freeN + 1) (noteWaits s0)))) ∧
    (restokeDue s0 = true → ∀ a t, restokeEvents s0 ++ entryEvents s0 ++ exactEvents s0 = [a] → a s0 = .next t →
      step s = .next (passTime t))

/-- R409: a module that is off does nothing until an input comes. R364, R388: time that passes counts in WDCNT of every wave that runs or
is blocked, which saturates, and in SBSTALL of a stalled one, and counts withheld issue down (R412); it changes no register, memory
byte, or other wave's place. PWR is free, but where withheld issue ends it is not above the limit. No time passes while a parked wave is to
stoke again (R91). -/
def Sys2Proof.Claims.TimePasses : Prop :=
  ∀ (s : State),
    (s.powered = false → s.inputs = [] → step s = .fault .poweredOff) ∧
    let t := passTime s
    SameMemory s t ∧ s.clk ≤ t.clk ∧ (restokeDue s = true → t.clk = s.clk) ∧ t.withheld = s.withheld - (t.clk - s.clk) ∧
      t.withheldV = s.withheldV - (t.clk - s.clk) ∧ (t.clk = s.clk → t.pwr = s.pwr) ∧
      (s.clk < t.clk → 0 < s.withheld → t.withheld = 0 → t.pwr.toNat ≤ if s.throttled then 600 else s.watts) ∧ ∀ u w, s.findWave u = some w → ∃ w2, t.findWave u = some w2 ∧
      w2 = { w with wdcnt := w2.wdcnt, sbstall := w2.sbstall } ∧
      (w.status = .running ∨ w.status = .blocked → w2.wdcnt.toNat = min (w.wdcnt.toNat + (t.clk - s.clk)) (2 ^ 64 - 1)) ∧
      (w.status ≠ .running → w.status ≠ .blocked → w2.wdcnt = w.wdcnt) ∧
      (stalled s w = true → w2.sbstall = w.sbstall + BitVec.ofNat 32 (t.clk - s.clk)) ∧ (stalled s w = false → w2.sbstall = w.sbstall)

/-- The supervisor-only words of R361 and the words that R362 keeps out of supervisor mode. -/
def Sys2Proof.Machine.supervisorOnly : Instr → Bool
  | .hset _ | .ptew _ | .poolpop _ | .lpinv _ | .tlbinv _ | .rft => true
  | .srd f | .swr f => (decide (0x20 ≤ f.srn.toNat) && decide (f.srn.toNat ≤ 0x31)) || f.srn == 0x33 || decide (0x200 ≤ f.srn.toNat)
  | _ => false

/-- R30, R34, R36, R37, R65, R66, R361, R362: the checks before a word executes: where a header and a transfer may stand, the chain bit of a
last word, the privilege trap, and the destination of a vector word: beyond NREGS, reserved, one that cannot be written, or an odd pair. A word
that a check rejects has no effect but its trap.
It rests on choices of the model: log 43. -/
def Obligations.ChecksBeforeExecution : Prop :=
  ∀ (part : Nat) (w : Wave) (pos : Nat) (last : Bool) (bits : Word) (i : Instr), decodeWord bits = .ok i →
    let check := checkWord part w pos last bits
    let header := ∃ f, i = .clause f
    let transfer := (∃ f, i = .bra f) ∨ (∃ f, i = .call f) ∨ i = .ret ∨ i = .exit ∨ (∃ f, i = .trap f) ∨ (∃ f, i = .bkpt f) ∨ i = .rft
    let placed := ¬ header ∧ ¬ (last = true ∧ chainBit bits = true) ∧ ¬ (transfer ∧ last = false)
    let notInSupervisor := (∃ f, i = .call f) ∨ i = .ret ∨ i = .exit ∨ i = .drain ∨ (∃ f, i = .give f) ∨ (∃ f, i = .claim f) ∨
      (∃ f, i = .claimTry f)
    (header → (check = none ↔ pos = 0 ∧ chainBit bits = false ∧ last = true) ∧ (check ≠ none → check = some (1, 0x0F))) ∧
    (¬ header → last = true → chainBit bits = true → check = some (1, 0x0C)) ∧
    (¬ (last = true ∧ chainBit bits = true) → transfer → last = false → check = some (1, 0x0E)) ∧
    (placed → part = 0 → w.supervisor = false → supervisorOnly i = true → check = some (3, 1)) ∧
    (placed → part = 0 → w.supervisor = true → notInSupervisor ∨ (opOf bits / 64 = 6 ∧ ¬ ∃ f, i = .hset f) → check = some (3, 2)) ∧
    (∀ f : RBin, placed → part = 0 → f.x = false → f.a.toNat < 8 → f.b.toNat < 8 → 8 ≤ w.nregs →
      (i = .iadd f → 0x68 ≤ f.d.toNat → check = some (1, if f.d.toNat / 2 = 0x37 then 0x07 else 0x09)) ∧
      (i = .iadd f → w.nregs ≤ f.d.toNat → f.d.toNat < 0x60 → check = some (1, 0x08)) ∧
      (i = .iadd f → f.d.toNat < w.nregs ∨ (0x60 ≤ f.d.toNat ∧ f.d.toNat < 0x68) → w.nregs ≤ 0x60 → check = none) ∧
      (i = .iaddI64 f → f.d.toNat + 1 < w.nregs → w.nregs ≤ 0x60 → f.d.toNat % 2 = 1 → check = some (1, 0x0A)))

/-- R361, R369, R373, R374: of all words, events and commands, only RFT and the resumption after escalation take a wave out of supervisor
mode; and whatever brings a wave from user mode into supervisor mode, HANDLER_ENTRY or a word's own trap, puts it at the entry of its
context's handler, which is a clause header. -/
def Obligations.ModeChangesOnlyByTheRules : Prop :=
  ∀ (i : Instr) (s t : State) (u : Nat) (w w2 : Wave), exec i s = .next t → 0 < u → ((s.w :: s.waves).map fun x => x.uid).Nodup →
    s.findWave u = some w → t.findWave u = some w2 →
    (w.supervisor = true → i ≠ .rft → (∀ port, i ≠ .resumeWave port) → w2.supervisor = true) ∧
    (w.supervisor = false → w2.supervisor = true → ∃ c, s.ctxOf w.ctx = some c ∧ w2.pc = c.hentry ∧ w2.exec = w2.fmask ∧
      w2.lr0 = [] ∧ w2.lr1 = [] ∧ ∃ b, codeWord s (coreOf w.quad) w.ctx c.hentry = some b ∧ isHeader b = true)

/-- Every instruction and every event answers a next state, in every state: it has its effect, takes its trap, or waits; so a module that is
on goes on, from every state. -/
def Sys2Proof.Claims.NothingStopsTheMachine : Prop :=
  (∀ (i : Instr) (s : State), ∃ t, exec i s = .next t) ∧ ∀ s : State, s.powered = true → s.goesOn

/-- Every instruction answers a next state, and how time passes.
It rests on choices of the model: log 5. -/
def Obligations.TimeAndProgress : Prop :=
  Sys2Proof.Claims.NothingStopsTheMachine ∧ Sys2Proof.Claims.TimePasses

/-- An unlisted byte reads as zero (a choice of the model, log 2): so memories in canonical form that read alike are equal. -/
def Obligations.MemoriesThatReadAlikeAreEqual : Prop :=
  ∀ a b : Table 8, Memory.wf a = true → Memory.wf b = true → (∀ pa, tget a pa = tget b pa) → a = b

/-- Every step keeps device memory in its canonical form, from every state that has it: no instruction, event or input breaks it. -/
def Obligations.EveryStepKeepsMemoryCanonical : Prop :=
  ∀ s t : State, Memory.wf s.mem = true → step s = .next t → Memory.wf t.mem = true

/-- R393, R394, R400, R405, R408, R409, R412: the machine right after reset: no context, wave, launch or key but index 0; READY 0; every
queue disabled with M = 1 (QCFG's initial value), every ring register and semaphore 0, WATTS 2,000; span 0 the whole grid of the
IXL-A192 as a mesh; memory with no byte listed, in its canonical form. The part, the empty memory, and the zeros of BASE, HEAD and
TAIL, of PWR, RLEN, the package number and the ring registers are choices of the model (logs 1, 2 and 4). -/
def Obligations.TheStateAfterReset : Prop :=
  let s := State.reset
  s.powered = true ∧ s.stopped = false ∧ s.part = 0 ∧ s.ctxs = [] ∧ s.allWaves = [] ∧ s.saved = [] ∧ s.launches = [] ∧ s.cords = [] ∧
  s.keys = [0] ∧ s.ready = 0 ∧ s.watts = 2000 ∧ s.withheld = 0 ∧ s.withheldV = 0 ∧ s.reports = [] ∧ s.pwr = 0 ∧ s.rlen = 0 ∧ s.pkg = 0 ∧ s.mem = [] ∧ Memory.wf s.mem = true ∧
  s.queues.length = 64 ∧ (∀ q ∈ s.queues, q = { base := 0, cfg := 1, head := 0, tail := 0 }) ∧
  s.rings.length = 2 ∧ (∀ r ∈ s.rings, r = { base := 0, size := 0, head := 0, tail := 0 }) ∧ (∀ k, tget s.sems k = 0) ∧
  s.spans.length = 8 ∧ s.spans[0]? = some { shape := 0, col0 := 0, row0 := 0, ncol := 8, nrow := 6, closedToBind := false }
end

