-- ==== Sys2Proof/Laws/Table.lean ====
section
/-!
SUPPORT. Sparse tables: what a key reads after a write, and that every operation keeps the canonical form.
-/
namespace Sys2Proof.Machine

variable {n : Nat}

/-! ### Reading after writing -/

@[simp] theorem tget_nil (k : Nat) : tget ([] : Table n) k = 0 := rfl

theorem tget_terase (t : Table n) (k j : Nat) : tget (terase t k) j = if j = k then 0 else tget t j := by
  induction t with
  | nil => simp [terase]
  | cons e t ih =>
    obtain ⟨a, v⟩ := e
    by_cases h : k = a
    · subst h
      simp only [terase, if_pos, ih, tget]
      by_cases hj : j = k <;> simp [hj]
    · by_cases hj : j = a
      · subst hj; simp [terase, tget, h, Ne.symm h]
      · simp [terase, tget, h, hj, ih]

theorem tget_tinsert (t : Table n) (k j : Nat) (v : BitVec n) (h : ∀ e ∈ t, e.1 ≠ k) :
    tget (tinsert t k v) j = if j = k then v else tget t j := by
  induction t with
  | nil => by_cases hj : j = k <;> simp [tinsert, tget, hj]
  | cons e t ih =>
    obtain ⟨a, x⟩ := e
    have ha : a ≠ k := h (a, x) (by simp)
    by_cases hk : k < a
    · by_cases hj : j = k <;> simp [tinsert, tget, hk, hj]
    · simp only [tinsert, hk, if_false, tget, ih fun e he => h e (List.mem_cons_of_mem _ he)]
      by_cases hj : j = k
      · simp [hj, Ne.symm ha]
      · simp [hj]

theorem mem_terase (t : Table n) (k : Nat) : ∀ e ∈ terase t k, e.1 ≠ k ∧ e ∈ t := by
  induction t with
  | nil => simp [terase]
  | cons e t ih =>
    obtain ⟨a, v⟩ := e
    intro x hx
    by_cases h : k = a
    · rw [terase, if_pos h] at hx
      exact ⟨(ih x hx).1, List.mem_cons_of_mem _ (ih x hx).2⟩
    · rw [terase, if_neg h] at hx
      rcases List.mem_cons.1 hx with rfl | hx
      · exact ⟨fun hk => h hk.symm, by simp⟩
      · exact ⟨(ih x hx).1, List.mem_cons_of_mem _ (ih x hx).2⟩

/-- A write is read back, and leaves every other key. -/
theorem tget_tset (t : Table n) (k j : Nat) (v : BitVec n) :
    tget (tset t k v) j = if j = k then v else tget t j := by
  unfold tset
  split
  · next h => rw [tget_terase, h]
  · rw [tget_tinsert _ _ _ _ fun e he => (mem_terase t k e he).1, tget_terase]
    split <;> simp_all

@[simp] theorem tget_tset_self (t : Table n) (k : Nat) (v : BitVec n) : tget (tset t k v) k = v := by simp [tget_tset]

theorem tget_tset_ne (t : Table n) {k j : Nat} (v : BitVec n) (h : j ≠ k) : tget (tset t k v) j = tget t j := by
  simp [tget_tset, h]

/-- A run of values is read back place by place, and leaves every key outside the run. -/
theorem tget_tsetRun (vs : List (BitVec n)) : ∀ (t : Table n) (k j : Nat),
    tget (tsetRun t k vs) j = if k ≤ j ∧ j < k + vs.length then vs.getD (j - k) 0 else tget t j := by
  induction vs with
  | nil => intro t k j; simp only [tsetRun, List.length_nil]; rw [if_neg (by omega)]
  | cons v vs ih =>
    intro t k j
    simp only [tsetRun, ih, tget_tset, List.length_cons]
    by_cases h : j = k
    · subst h; simp [show ¬(j + 1 ≤ j) by omega]
    · by_cases h2 : k + 1 ≤ j ∧ j < k + 1 + vs.length
      · obtain ⟨d, rfl⟩ : ∃ d, j = k + 1 + d := ⟨j - (k + 1), by omega⟩
        rw [if_pos h2, if_pos (by omega), show k + 1 + d - k = d + 1 by omega, show k + 1 + d - (k + 1) = d by omega]
        simp
      · rw [if_neg h2, if_neg h, if_neg (by omega)]

theorem tgetRun_length (t : Table n) (m : Nat) : ∀ k, (tgetRun t k m).length = m := by
  induction m with
  | zero => intro k; rfl
  | succ m ih => intro k; simp [tgetRun, ih]

/-- A run reads the keys one by one. -/
theorem tgetRun_getD (t : Table n) (m : Nat) : ∀ k i, i < m → (tgetRun t k m).getD i 0 = tget t (k + i) := by
  induction m with
  | zero => intro k i h; omega
  | succ m ih =>
    intro k i h
    cases i with
    | zero => simp [tgetRun]
    | succ i =>
      simp only [tgetRun, List.getD_cons_succ]
      rw [ih (k + 1) i (by omega)]
      congr 1; omega

/-! ### The canonical form -/

theorem tabove_mono {b c : Nat} {t : Table n} (h : tabove c t = true) (hb : b ≤ c) : tabove b t = true := by
  induction t with
  | nil => rfl
  | cons e t ih =>
    obtain ⟨a, v⟩ := e
    simp only [tabove, Bool.and_eq_true, decide_eq_true_eq] at h ⊢
    exact ⟨by omega, ih h.2⟩

theorem tabove_terase {b : Nat} {t : Table n} (k : Nat) (h : tabove b t = true) : tabove b (terase t k) = true := by
  induction t with
  | nil => rfl
  | cons e t ih =>
    obtain ⟨a, v⟩ := e
    simp only [tabove, Bool.and_eq_true, decide_eq_true_eq] at h
    unfold terase; split
    · exact ih h.2
    · simp only [tabove, Bool.and_eq_true, decide_eq_true_eq]; exact ⟨h.1, ih h.2⟩

theorem twf_terase {t : Table n} (k : Nat) (h : twf t = true) : twf (terase t k) = true := by
  induction t with
  | nil => rfl
  | cons e t ih =>
    obtain ⟨a, v⟩ := e
    simp only [twf, Bool.and_eq_true, decide_eq_true_eq] at h
    unfold terase; split
    · exact ih h.2
    · simp only [twf, Bool.and_eq_true, decide_eq_true_eq]; exact ⟨⟨h.1.1, tabove_terase k h.1.2⟩, ih h.2⟩

theorem tabove_tinsert {b k : Nat} {t : Table n} (v : BitVec n) (h : tabove b t = true) (hb : b ≤ k) :
    tabove b (tinsert t k v) = true := by
  induction t with
  | nil => simp [tinsert, tabove, hb]
  | cons e t ih =>
    obtain ⟨a, x⟩ := e
    simp only [tabove, Bool.and_eq_true, decide_eq_true_eq] at h
    unfold tinsert; split
    · simp [tabove, hb, h.1, h.2]
    · simp [tabove, h.1, ih h.2]

theorem twf_tinsert {k : Nat} {t : Table n} {v : BitVec n} (h : twf t = true) (hv : v ≠ 0) (hk : ∀ e ∈ t, e.1 ≠ k) :
    twf (tinsert t k v) = true := by
  induction t with
  | nil => simpa [tinsert, twf, tabove] using hv
  | cons e t ih =>
    obtain ⟨a, x⟩ := e
    have hk' : a ≠ k := hk (a, x) (by simp)
    have hw := h
    simp only [twf, Bool.and_eq_true, decide_eq_true_eq] at h
    unfold tinsert; split
    · next hlt =>
      simp only [twf, tabove, Bool.and_eq_true, decide_eq_true_eq]
      exact ⟨⟨hv, by omega, tabove_mono h.1.2 (by omega)⟩, ⟨h.1.1, h.1.2⟩, h.2⟩
    · next hlt =>
      simp only [twf, Bool.and_eq_true, decide_eq_true_eq]
      exact ⟨⟨h.1.1, tabove_tinsert v h.1.2 (by omega)⟩, ih h.2 fun e he => hk e (List.mem_cons_of_mem _ he)⟩

/-- A write keeps the canonical form. -/
theorem twf_tset {t : Table n} (k : Nat) (v : BitVec n) (h : twf t = true) : twf (tset t k v) = true := by
  unfold tset; split
  · exact twf_terase k h
  · next hv => exact twf_tinsert (twf_terase k h) hv fun e he => (mem_terase t k e he).1

/-- A run of writes keeps the canonical form. -/
theorem twf_tsetRun (vs : List (BitVec n)) : ∀ {t : Table n} (k : Nat), twf t = true → twf (tsetRun t k vs) = true := by
  induction vs with
  | nil => intro t k h; exact h
  | cons v vs ih => intro t k h; exact ih (k + 1) (twf_tset k v h)

theorem tabove_tdrop {b : Nat} {t : Table n} (p : Nat → Bool) (h : tabove b t = true) : tabove b (tdrop p t) = true := by
  induction t with
  | nil => rfl
  | cons e t ih =>
    obtain ⟨a, v⟩ := e
    simp only [tabove, Bool.and_eq_true, decide_eq_true_eq] at h
    unfold tdrop; split
    · exact ih h.2
    · simp only [tabove, Bool.and_eq_true, decide_eq_true_eq]; exact ⟨h.1, ih h.2⟩

/-- Dropping entries keeps the canonical form. -/
theorem twf_tdrop {t : Table n} (p : Nat → Bool) (h : twf t = true) : twf (tdrop p t) = true := by
  induction t with
  | nil => rfl
  | cons e t ih =>
    obtain ⟨a, v⟩ := e
    simp only [twf, Bool.and_eq_true, decide_eq_true_eq] at h
    unfold tdrop; split
    · exact ih h.2
    · simp only [twf, Bool.and_eq_true, decide_eq_true_eq]; exact ⟨⟨h.1.1, tabove_tdrop p h.1.2⟩, ih h.2⟩

/-- What a key reads after entries were dropped. -/
theorem tget_tdrop (t : Table n) (p : Nat → Bool) (j : Nat) : tget (tdrop p t) j = if p j then 0 else tget t j := by
  induction t with
  | nil => simp [tdrop]
  | cons e t ih =>
    obtain ⟨a, v⟩ := e
    by_cases ha : p a
    · rw [tdrop, if_pos ha, ih]
      by_cases hj : j = a
      · subst hj; simp [ha]
      · simp [tget, hj]
    · rw [tdrop, if_neg ha]
      by_cases hj : j = a
      · subst hj; simp [tget, ha]
      · simp [tget, hj, ih]

end Sys2Proof.Machine
end

