-- ==== Sys2Proof/Laws/Canon.lean ====
section
/-!
SUPPORT. Every memory operation keeps the canonical form: of device and host memory, and of the scratchpads. What each
operation leaves in memory, byte by byte.
-/
namespace Sys2Proof.Machine

/-- Every scratchpad is in its canonical form. -/
def ScratchWf (s : State) : Prop := ∀ r ∈ s.resvs, Memory.wf r.mem = true

/-- Memory right after reset is in its canonical form. -/
theorem reset_wf : Memory.wf State.reset.mem = true := by decide

/-- No scratchpad is listed right after reset. -/
theorem reset_scratchWf : ScratchWf State.reset := by
  have h : State.reset.resvs = [] := rfl
  intro r hr; rw [h] at hr; cases hr

/-- A run of bytes written keeps the form. -/
theorem Memory.wf_run {m : Table 8} (pa : Nat) (bs : List Byte) (h : Memory.wf m = true) : Memory.wf (tsetRun m pa bs) = true :=
  twf_tsetRun bs pa h

/-! ### What leaves the bytes alone -/

/-- Device and host memory and the scratchpads hold what they held. -/
def KeepsBytes (s t : State) : Prop := t.mem = s.mem ∧ t.resvs = s.resvs

theorem KeepsBytes.refl (s : State) : KeepsBytes s s := ⟨rfl, rfl⟩

theorem KeepsBytes.trans {s t u : State} (h : KeepsBytes s t) (h2 : KeepsBytes t u) : KeepsBytes s u :=
  ⟨h2.1.trans h.1, h2.2.trans h.2⟩

/-- Many changes in turn. -/
theorem KeepsBytes.foldl {α : Type} {f : State → α → State} (hf : ∀ s a, KeepsBytes s (f s a)) (l : List α) :
    ∀ s, KeepsBytes s (l.foldl f s) := by
  induction l with
  | nil => exact .refl
  | cons a l ih => exact fun s => (hf s a).trans (ih _)

/-- Bytes left alone stay in their form. -/
theorem KeepsBytes.wf {s t : State} (h : KeepsBytes s t) (hs : Memory.wf s.mem = true) : Memory.wf t.mem = true := by rw [h.1]; exact hs

theorem KeepsBytes.scratchWf {s t : State} (h : KeepsBytes s t) (hs : ScratchWf s) : ScratchWf t := by
  unfold ScratchWf; rw [h.2]; exact hs

theorem l2Evict_keeps {s t : State} {vs : List L2Line} (h : l2Evict s vs = some t) : KeepsBytes s t := by
  unfold l2Evict at h
  dsimp only at h
  split at h
  · cases h; exact .refl _
  · split at h
    · cases h; exact ⟨rfl, rfl⟩
    · cases h

theorem l2Place_keeps {s t : State} {l : L2Line} (h : l2Place s l = some t) : KeepsBytes s t := by
  unfold l2Place at h
  dsimp only at h
  split at h
  · cases h
  · next k vs _ =>
    cases he : l2Evict s vs with
    | none => rw [he] at h; cases h
    | some u => rw [he] at h; cases h; exact ⟨(l2Evict_keeps he).1, (l2Evict_keeps he).2⟩

theorem l2Expand_keeps (s : State) (l : L2Line) : KeepsBytes s (l2Expand s l) := by
  unfold l2Expand
  split
  · exact .refl _
  · dsimp only
    split
    · split
      · next he => exact ⟨(l2Evict_keeps he).1, (l2Evict_keeps he).2⟩
      · exact ⟨rfl, rfl⟩
    · exact ⟨rfl, rfl⟩

theorem l2Touch_keeps (s : State) (pa prio : Nat) (write full : Bool) : KeepsBytes s (l2Touch s pa prio write full) := by
  unfold l2Touch
  split
  · dsimp only
    split <;> exact ⟨(l2Expand_keeps _ _).1, (l2Expand_keeps _ _).2⟩
  · split
    · cases hp : l2PlaceSector s pa prio with
      | none => exact ⟨rfl, rfl⟩
      | some u => exact l2Place_keeps hp
    · exact ⟨rfl, rfl⟩

theorem l2Soft_keeps (s : State) (pa prio : Nat) (write full : Bool) : KeepsBytes s (l2Soft s pa prio write full) := by
  unfold l2Soft; dsimp only; split
  · exact l2Touch_keeps _ _ _ _ _
  · exact ⟨rfl, rfl⟩

theorem l2Settle_keeps (s : State) : KeepsBytes s (l2Settle s) := by
  unfold l2Settle
  exact (KeepsBytes.foldl l2Expand_keeps _ s).trans
    (KeepsBytes.trans (t := { (s.l2.filter fun l => l.grow).foldl l2Expand s with misses := [] }) ⟨rfl, rfl⟩
      (KeepsBytes.foldl (fun s (m : Miss) => l2Soft_keeps s m.pa m.prio m.write m.full) _ _))

/-- Reads at the home slices leave memory and the scratchpads alone. -/
theorem softReads_keeps (s : State) (rank : Nat) (pas : List Nat) : KeepsBytes s (softReads s rank pas) := by
  unfold softReads
  refine KeepsBytes.foldl (fun s pa => ?_) _ _
  split
  · exact .refl _
  · split
    · exact ⟨(l2Soft_keeps _ _ _ _ _).1, (l2Soft_keeps _ _ _ _ _).2⟩
    · exact ⟨rfl, rfl⟩

theorem bankLine_keeps (s : State) (token pa prio : Nat) : KeepsBytes s (bankLine s token pa prio) := by
  unfold bankLine
  split
  · dsimp only
    split
    · exact ⟨(l2Expand_keeps _ _).1, (l2Expand_keeps _ _).2⟩
    · exact l2Expand_keeps _ _
  · generalize hp : l2Place s _ = u
    cases u with
    | none => exact ⟨rfl, rfl⟩
    | some u => exact l2Place_keeps hp

/-- Banking bytes in a surrogate tile leaves memory and the scratchpads alone (R247). -/
theorem bankWrite_keeps (s : State) (token pa key prio : Nat) (bs : List Byte) : KeepsBytes s (bankWrite s token pa key prio bs) := by
  unfold bankWrite
  split
  · exact .refl _
  · dsimp only
    repeat' split
    all_goals first
      | exact ⟨rfl, rfl⟩
      | exact KeepsBytes.trans (t := s.modTile token _) ⟨rfl, rfl⟩ (KeepsBytes.foldl (fun s x => bankLine_keeps s token (64 * x) prio) _ _)

theorem settleKeys_keeps (s : State) : KeepsBytes s (settleKeys s) := ⟨rfl, rfl⟩

/-! ### What writes bytes -/

@[simp] theorem l1Update_mem (s : State) (core pa key : Nat) (bs : List Byte) : (l1Update s core pa key bs).mem = s.mem := rfl
@[simp] theorem modAcc_mem (s : State) (op i : Nat) (f : Acc → Acc) : (modAcc s op i f).mem = s.mem := rfl
@[simp] theorem modTile_mem (s : State) (k : Nat) (f : STile → STile) : (s.modTile k f).mem = s.mem := rfl
@[simp] theorem modResv_mem (s : State) (l c : Nat) (f : Resv → Resv) : (s.modResv l c f).mem = s.mem := rfl
@[simp] theorem modCtx_mem (s : State) (n : Nat) (f : Ctx → Ctx) : (s.modCtx n f).mem = s.mem := rfl

theorem rekey_wf (key : Nat) {s : State} (x : Nat) (h : Memory.wf s.mem = true) : Memory.wf (rekey key s x).mem = true := by
  unfold rekey; dsimp only; split
  · exact h
  · exact Memory.wf_run _ _ h

theorem rekeys_wf (key : Nat) (l : List Nat) : ∀ {s : State}, Memory.wf s.mem = true → Memory.wf (l.foldl (rekey key) s).mem = true := by
  induction l with
  | nil => exact fun h => h
  | cons x l ih => exact fun h => ih (rekey_wf key x h)

theorem rekeys_resvs (key : Nat) (l : List Nat) : ∀ s : State, (l.foldl (rekey key) s).resvs = s.resvs := by
  induction l with
  | nil => exact fun _ => rfl
  | cons x l ih => exact fun s => (ih _).trans rfl

/-- What a device write leaves in memory: the bytes written, and every other byte as its sector's new key finds it. -/
theorem devWrite_get (s : State) (key pa : Nat) (bs : List Byte) (j : Nat) :
    tget (devWrite s key pa bs).mem j = if pa ≤ j ∧ j < pa + bs.length then bs.getD (j - pa) 0
      else tget ((sectorsOf pa bs.length).foldl (rekey key) s).mem j :=
  tget_tsetRun bs _ pa j

/-- A byte outside a sector that changes its key is left alone. -/
theorem rekey_get {key : Nat} {s : State} {x j : Nat} (h : j < 64 * x ∨ 64 * x + 64 ≤ j) : tget (rekey key s x).mem j = tget s.mem j := by
  unfold rekey; dsimp only; split
  · rfl
  · have hl : (devBytes s key (64 * x) 64).length = 64 := rfl
    rw [tget_tsetRun, hl, if_neg (by omega)]

theorem devWrite_wf {s : State} (key pa : Nat) (bs : List Byte) (h : Memory.wf s.mem = true) :
    Memory.wf (devWrite s key pa bs).mem = true := Memory.wf_run pa bs (rekeys_wf key _ h)

theorem devWrite_resvs (s : State) (key pa : Nat) (bs : List Byte) : (devWrite s key pa bs).resvs = s.resvs :=
  rekeys_resvs key _ s

/-- A request served by a port leaves memory and the scratchpads alone. -/
theorem portTurn_keeps (s : State) (pa n : Nat) : KeepsBytes s (portTurn s pa n) := by
  unfold portTurn
  exact KeepsBytes.foldl (f := fun s line => takeTurn s 0 line portRank) (fun _ _ => ⟨rfl, rfl⟩) _ s

theorem keystoneWrite_wf {s : State} (loc : Loc) (bs : List Byte) (h : Memory.wf s.mem = true) :
    Memory.wf (keystoneWrite s loc bs).mem = true := by
  cases loc with
  | dev pa key => exact ((l2Soft_keeps _ _ _ _ _).trans (portTurn_keeps _ _ _)).wf (devWrite_wf key pa bs h)
  | host pa => exact Memory.wf_run pa bs h
  | _ => exact h

theorem pteWrite_wf {s : State} (pa : Nat) (e : DWord) (h : Memory.wf s.mem = true) : Memory.wf (pteWrite s pa e).mem = true := by
  unfold pteWrite; split
  · exact h
  · exact (l2Soft_keeps _ _ _ _ _).wf (Memory.wf_run pa (leBytes e.toNat 8) h)

theorem addFrame_wf {s : State} (key ctx pa : Nat) (h : Memory.wf s.mem = true) : Memory.wf (addFrame key ctx s pa).mem = true := by
  simpa [addFrame, Memory.wf] using twf_tdrop (fun a => decide (pa ≤ a) && decide (a < pa + 65536)) h

theorem writeAt_wf {s : State} (launch core die op acc : Nat) (token : Option Nat) (prio : Nat) (full : Bool) (va : DWord) (loc : Loc)
    (bs : List Byte) (h : Memory.wf s.mem = true) :
    Memory.wf (writeAt s launch core die op acc token prio full va loc bs).mem = true := by
  unfold writeAt; split
  · exact h
  · split
    · exact (bankWrite_keeps _ _ _ _ _ _).wf h
    · next pa key _ =>
      have hw := (l2Touch_keeps (l1Update (devWrite s key pa bs) core pa key (l1Overlay s core pa key (some (op, acc)) bs)) pa prio true full).wf
        (devWrite_wf key pa bs h)
      dsimp only; split <;> exact hw
  · exact h

theorem applyStore_wf {s : State} (op : MemOp) (i : Nat) (full : Bool) (a : Acc) (h : Memory.wf s.mem = true) :
    Memory.wf (applyStore s op i full a).mem = true :=
  writeAt_wf op.launch op.core (dieOf s.part op.core) op.id i op.token (hintPrio op.hint) full a.va a.loc a.data h

/-- Placing an instruction where the machine fetches keeps the form. -/
theorem withFetchWord_wf {s : State} (nbits w : Nat) (h : Memory.wf s.mem = true) :
    Memory.wf (s.withFetchWord nbits w).mem = true :=
  Memory.wf_run _ _ (Memory.wf_run _ _ (Memory.wf_run _ _ h))

/-- A scratchpad changed by an operation that keeps the form. -/
theorem modResv_scratchWf {s : State} (l c : Nat) {f : Resv → Resv} (hf : ∀ r, Memory.wf r.mem = true → Memory.wf (f r).mem = true)
    (h : ScratchWf s) : ScratchWf (s.modResv l c f) := by
  intro r hr
  obtain ⟨x, hx, rfl⟩ := List.mem_map.1 hr
  split
  · exact hf x (h x hx)
  · exact h x hx

theorem writeAt_scratchWf {s : State} (launch core die op acc : Nat) (token : Option Nat) (prio : Nat) (full : Bool) (va : DWord)
    (loc : Loc) (bs : List Byte) (h : ScratchWf s) : ScratchWf (writeAt s launch core die op acc token prio full va loc bs) := by
  unfold writeAt; split
  · exact modResv_scratchWf _ _ (fun r hr => Memory.wf_run _ bs hr) h
  · split
    · exact (bankWrite_keeps _ _ _ _ _ _).scratchWf h
    · next pa key _ =>
      have hd : ScratchWf (l1Update (devWrite s key pa bs) core pa key (l1Overlay s core pa key (some (op, acc)) bs)) := by
        unfold ScratchWf
        rw [show (l1Update (devWrite s key pa bs) core pa key (l1Overlay s core pa key (some (op, acc)) bs)).resvs = s.resvs from
          devWrite_resvs s key pa bs]
        exact h
      have hw := (l2Touch_keeps (l1Update (devWrite s key pa bs) core pa key (l1Overlay s core pa key (some (op, acc)) bs)) pa prio true full).scratchWf hd
      dsimp only; split <;> exact hw
  · exact h

/-- What released reservations have left is in its canonical form. -/
def SpentWf (s : State) : Prop := ∀ r ∈ s.spent, Memory.wf r.mem = true

/-- A reservation made where others lay before keeps the form of what they have left. -/
theorem takeSpent_wf {s : State} (core b n : Nat) (h : SpentWf s) : SpentWf (takeSpent s core b n) := by
  intro r hr
  obtain ⟨x, hx, rfl⟩ := List.mem_map.1 hr
  split
  · exact twf_tdrop _ (h x hx)
  · exact h x hx

/-- Releasing reservations keeps the form of the others, and of what is left. -/
theorem spend_wf {s : State} (gone : Resv → Bool) (h : ScratchWf s) (h2 : SpentWf s) : ScratchWf (spend gone s) ∧ SpentWf (spend gone s) := by
  refine ⟨fun r hr => h r (List.mem_filter.1 hr).1, fun r hr => ?_⟩
  obtain hr | hr := List.mem_append.1 hr
  · obtain ⟨x, hx, rfl⟩ := List.mem_map.1 hr
    exact h x (List.mem_filter.1 hx).1
  · exact h2 r hr

theorem posWrite_scratchWf {s : State} (core a v : Nat) (h : ScratchWf s) : ScratchWf (posWrite s core a v) := by
  unfold posWrite; split
  · exact modResv_scratchWf _ _ (fun r hr => Memory.wf_run _ _ hr) h
  · exact h

end Sys2Proof.Machine
end

