-- ==== Sys2Proof/Laws/State.lean ====
section
/-!
SUPPORT. What each named update of the state leaves: one lemma for each field, so that no proof unfolds a record update.
-/
namespace Sys2Proof.Machine

/-! ### `State.done`: the word is done -/

@[simp] theorem State.done_w (s : State) : s.done.w = { s.w with pc := s.w.pc + 4 } := rfl
@[simp] theorem State.done_part (s : State) : s.done.part = s.part := rfl
@[simp] theorem State.done_stepping (s : State) : s.done.stepping = s.stepping := rfl
@[simp] theorem State.done_powered (s : State) : s.done.powered = s.powered := rfl
@[simp] theorem State.done_stopped (s : State) : s.done.stopped = s.stopped := rfl
@[simp] theorem State.done_clk (s : State) : s.done.clk = s.clk := rfl
@[simp] theorem State.done_freeN (s : State) : s.done.freeN = s.freeN := rfl
@[simp] theorem State.done_nextUid (s : State) : s.done.nextUid = s.nextUid := rfl
@[simp] theorem State.done_nextOp (s : State) : s.done.nextOp = s.nextOp := rfl
@[simp] theorem State.done_waves (s : State) : s.done.waves = s.waves := rfl
@[simp] theorem State.done_saved (s : State) : s.done.saved = s.saved := rfl
@[simp] theorem State.done_src (s : State) : s.done.src = s.src := rfl
@[simp] theorem State.done_grpMore (s : State) : s.done.grpMore = s.grpMore := rfl
@[simp] theorem State.done_grpFlags (s : State) : s.done.grpFlags = s.grpFlags := rfl
@[simp] theorem State.done_wordBits (s : State) : s.done.wordBits = s.wordBits := rfl
@[simp] theorem State.done_order (s : State) : s.done.order = s.order := rfl
@[simp] theorem State.done_pipes (s : State) : s.done.pipes = s.pipes := rfl
@[simp] theorem State.done_inputs (s : State) : s.done.inputs = s.inputs := rfl
@[simp] theorem State.done_bars (s : State) : s.done.bars = s.bars := rfl
@[simp] theorem State.done_mem (s : State) : s.done.mem = s.mem := rfl
@[simp] theorem State.done_sectorKey (s : State) : s.done.sectorKey = s.sectorKey := rfl
@[simp] theorem State.done_poison (s : State) : s.done.poison = s.poison := rfl
@[simp] theorem State.done_keys (s : State) : s.done.keys = s.keys := rfl
@[simp] theorem State.done_memOps (s : State) : s.done.memOps = s.memOps := rfl
@[simp] theorem State.done_held (s : State) : s.done.held = s.held := rfl
@[simp] theorem State.done_fences (s : State) : s.done.fences = s.fences := rfl
@[simp] theorem State.done_resvs (s : State) : s.done.resvs = s.resvs := rfl
@[simp] theorem State.done_spent (s : State) : s.done.spent = s.spent := rfl
@[simp] theorem State.done_l1 (s : State) : s.done.l1 = s.l1 := rfl
@[simp] theorem State.done_l2 (s : State) : s.done.l2 = s.l2 := rfl
@[simp] theorem State.done_fills (s : State) : s.done.fills = s.fills := rfl
@[simp] theorem State.done_misses (s : State) : s.done.misses = s.misses := rfl
@[simp] theorem State.done_wbacks (s : State) : s.done.wbacks = s.wbacks := rfl
@[simp] theorem State.done_tlb (s : State) : s.done.tlb = s.tlb := rfl
@[simp] theorem State.done_lanes (s : State) : s.done.lanes = s.lanes := rfl
@[simp] theorem State.done_icache (s : State) : s.done.icache = s.icache := rfl
@[simp] theorem State.done_engOps (s : State) : s.done.engOps = s.engOps := rfl
@[simp] theorem State.done_objOps (s : State) : s.done.objOps = s.objOps := rfl
@[simp] theorem State.done_objWaits (s : State) : s.done.objWaits = s.objWaits := rfl
@[simp] theorem State.done_asks (s : State) : s.done.asks = s.asks := rfl
@[simp] theorem State.done_sessions (s : State) : s.done.sessions = s.sessions := rfl
@[simp] theorem State.done_mcLines (s : State) : s.done.mcLines = s.mcLines := rfl
@[simp] theorem State.done_matOps (s : State) : s.done.matOps = s.matOps := rfl
@[simp] theorem State.done_latches (s : State) : s.done.latches = s.latches := rfl
@[simp] theorem State.done_pins (s : State) : s.done.pins = s.pins := rfl
@[simp] theorem State.done_moves (s : State) : s.done.moves = s.moves := rfl
@[simp] theorem State.done_cords (s : State) : s.done.cords = s.cords := rfl
@[simp] theorem State.done_pen (s : State) : s.done.pen = s.pen := rfl
@[simp] theorem State.done_released (s : State) : s.done.released = s.released := rfl
@[simp] theorem State.done_spawns (s : State) : s.done.spawns = s.spawns := rfl
@[simp] theorem State.done_tb (s : State) : s.done.tb = s.tb := rfl
@[simp] theorem State.done_tbOps (s : State) : s.done.tbOps = s.tbOps := rfl
@[simp] theorem State.done_crews (s : State) : s.done.crews = s.crews := rfl
@[simp] theorem State.done_crewOps (s : State) : s.done.crewOps = s.crewOps := rfl
@[simp] theorem State.done_pools (s : State) : s.done.pools = s.pools := rfl
@[simp] theorem State.done_launches (s : State) : s.done.launches = s.launches := rfl
@[simp] theorem State.done_tiles (s : State) : s.done.tiles = s.tiles := rfl
@[simp] theorem State.done_queues (s : State) : s.done.queues = s.queues := rfl
@[simp] theorem State.done_intake (s : State) : s.done.intake = s.intake := rfl
@[simp] theorem State.done_slotTable (s : State) : s.done.slotTable = s.slotTable := rfl
@[simp] theorem State.done_closedSets (s : State) : s.done.closedSets = s.closedSets := rfl
@[simp] theorem State.done_ctxs (s : State) : s.done.ctxs = s.ctxs := rfl
@[simp] theorem State.done_sysOps (s : State) : s.done.sysOps = s.sysOps := rfl
@[simp] theorem State.done_hsets (s : State) : s.done.hsets = s.hsets := rfl
@[simp] theorem State.done_raised (s : State) : s.done.raised = s.raised := rfl
@[simp] theorem State.done_age (s : State) : s.done.age = s.age := rfl
@[simp] theorem State.done_gangwait (s : State) : s.done.gangwait = s.gangwait := rfl
@[simp] theorem State.done_spans (s : State) : s.done.spans = s.spans := rfl
@[simp] theorem State.done_pkg (s : State) : s.done.pkg = s.pkg := rfl
@[simp] theorem State.done_importTable (s : State) : s.done.importTable = s.importTable := rfl
@[simp] theorem State.done_routes (s : State) : s.done.routes = s.routes := rfl
@[simp] theorem State.done_sems (s : State) : s.done.sems = s.sems := rfl
@[simp] theorem State.done_ready (s : State) : s.done.ready = s.ready := rfl
@[simp] theorem State.done_watts (s : State) : s.done.watts = s.watts := rfl
@[simp] theorem State.done_pwr (s : State) : s.done.pwr = s.pwr := rfl
@[simp] theorem State.done_rlen (s : State) : s.done.rlen = s.rlen := rfl
@[simp] theorem State.done_recBuf (s : State) : s.done.recBuf = s.recBuf := rfl
@[simp] theorem State.done_image (s : State) : s.done.image = s.image := rfl
@[simp] theorem State.done_rings (s : State) : s.done.rings = s.rings := rfl
@[simp] theorem State.done_nextRing (s : State) : s.done.nextRing = s.nextRing := rfl
@[simp] theorem State.done_msix (s : State) : s.done.msix = s.msix := rfl
@[simp] theorem State.done_pba (s : State) : s.done.pba = s.pba := rfl
@[simp] theorem State.done_reports (s : State) : s.done.reports = s.reports := rfl
@[simp] theorem State.done_correctedErrors (s : State) : s.done.correctedErrors = s.correctedErrors := rfl
@[simp] theorem State.done_throttled (s : State) : s.done.throttled = s.throttled := rfl
@[simp] theorem State.done_withheld (s : State) : s.done.withheld = s.withheld := rfl
@[simp] theorem State.done_withheldV (s : State) : s.done.withheldV = s.withheldV := rfl
@[simp] theorem State.done_stale (s : State) : s.done.stale = s.stale := rfl
@[simp] theorem State.done_turns (s : State) : s.done.turns = s.turns := rfl
@[simp] theorem State.done_linkReplay (s : State) : s.done.linkReplay = s.linkReplay := rfl
@[simp] theorem State.done_served (s : State) : s.done.served = s.served := rfl
/-! ### `State.modW`: the issuing wave changed -/

@[simp] theorem State.modW_w (s : State) (f : Wave → Wave) : (s.modW f).w = f s.w := rfl
@[simp] theorem State.modW_part (s : State) (f : Wave → Wave) : (s.modW f).part = s.part := rfl
@[simp] theorem State.modW_stepping (s : State) (f : Wave → Wave) : (s.modW f).stepping = s.stepping := rfl
@[simp] theorem State.modW_powered (s : State) (f : Wave → Wave) : (s.modW f).powered = s.powered := rfl
@[simp] theorem State.modW_stopped (s : State) (f : Wave → Wave) : (s.modW f).stopped = s.stopped := rfl
@[simp] theorem State.modW_clk (s : State) (f : Wave → Wave) : (s.modW f).clk = s.clk := rfl
@[simp] theorem State.modW_freeN (s : State) (f : Wave → Wave) : (s.modW f).freeN = s.freeN := rfl
@[simp] theorem State.modW_nextUid (s : State) (f : Wave → Wave) : (s.modW f).nextUid = s.nextUid := rfl
@[simp] theorem State.modW_nextOp (s : State) (f : Wave → Wave) : (s.modW f).nextOp = s.nextOp := rfl
@[simp] theorem State.modW_waves (s : State) (f : Wave → Wave) : (s.modW f).waves = s.waves := rfl
@[simp] theorem State.modW_saved (s : State) (f : Wave → Wave) : (s.modW f).saved = s.saved := rfl
@[simp] theorem State.modW_src (s : State) (f : Wave → Wave) : (s.modW f).src = s.src := rfl
@[simp] theorem State.modW_grpMore (s : State) (f : Wave → Wave) : (s.modW f).grpMore = s.grpMore := rfl
@[simp] theorem State.modW_grpFlags (s : State) (f : Wave → Wave) : (s.modW f).grpFlags = s.grpFlags := rfl
@[simp] theorem State.modW_wordBits (s : State) (f : Wave → Wave) : (s.modW f).wordBits = s.wordBits := rfl
@[simp] theorem State.modW_order (s : State) (f : Wave → Wave) : (s.modW f).order = s.order := rfl
@[simp] theorem State.modW_pipes (s : State) (f : Wave → Wave) : (s.modW f).pipes = s.pipes := rfl
@[simp] theorem State.modW_inputs (s : State) (f : Wave → Wave) : (s.modW f).inputs = s.inputs := rfl
@[simp] theorem State.modW_bars (s : State) (f : Wave → Wave) : (s.modW f).bars = s.bars := rfl
@[simp] theorem State.modW_mem (s : State) (f : Wave → Wave) : (s.modW f).mem = s.mem := rfl
@[simp] theorem State.modW_sectorKey (s : State) (f : Wave → Wave) : (s.modW f).sectorKey = s.sectorKey := rfl
@[simp] theorem State.modW_poison (s : State) (f : Wave → Wave) : (s.modW f).poison = s.poison := rfl
@[simp] theorem State.modW_keys (s : State) (f : Wave → Wave) : (s.modW f).keys = s.keys := rfl
@[simp] theorem State.modW_memOps (s : State) (f : Wave → Wave) : (s.modW f).memOps = s.memOps := rfl
@[simp] theorem State.modW_held (s : State) (f : Wave → Wave) : (s.modW f).held = s.held := rfl
@[simp] theorem State.modW_fences (s : State) (f : Wave → Wave) : (s.modW f).fences = s.fences := rfl
@[simp] theorem State.modW_resvs (s : State) (f : Wave → Wave) : (s.modW f).resvs = s.resvs := rfl
@[simp] theorem State.modW_spent (s : State) (f : Wave → Wave) : (s.modW f).spent = s.spent := rfl
@[simp] theorem State.modW_l1 (s : State) (f : Wave → Wave) : (s.modW f).l1 = s.l1 := rfl
@[simp] theorem State.modW_l2 (s : State) (f : Wave → Wave) : (s.modW f).l2 = s.l2 := rfl
@[simp] theorem State.modW_fills (s : State) (f : Wave → Wave) : (s.modW f).fills = s.fills := rfl
@[simp] theorem State.modW_misses (s : State) (f : Wave → Wave) : (s.modW f).misses = s.misses := rfl
@[simp] theorem State.modW_wbacks (s : State) (f : Wave → Wave) : (s.modW f).wbacks = s.wbacks := rfl
@[simp] theorem State.modW_tlb (s : State) (f : Wave → Wave) : (s.modW f).tlb = s.tlb := rfl
@[simp] theorem State.modW_lanes (s : State) (f : Wave → Wave) : (s.modW f).lanes = s.lanes := rfl
@[simp] theorem State.modW_icache (s : State) (f : Wave → Wave) : (s.modW f).icache = s.icache := rfl
@[simp] theorem State.modW_engOps (s : State) (f : Wave → Wave) : (s.modW f).engOps = s.engOps := rfl
@[simp] theorem State.modW_objOps (s : State) (f : Wave → Wave) : (s.modW f).objOps = s.objOps := rfl
@[simp] theorem State.modW_objWaits (s : State) (f : Wave → Wave) : (s.modW f).objWaits = s.objWaits := rfl
@[simp] theorem State.modW_asks (s : State) (f : Wave → Wave) : (s.modW f).asks = s.asks := rfl
@[simp] theorem State.modW_sessions (s : State) (f : Wave → Wave) : (s.modW f).sessions = s.sessions := rfl
@[simp] theorem State.modW_mcLines (s : State) (f : Wave → Wave) : (s.modW f).mcLines = s.mcLines := rfl
@[simp] theorem State.modW_matOps (s : State) (f : Wave → Wave) : (s.modW f).matOps = s.matOps := rfl
@[simp] theorem State.modW_latches (s : State) (f : Wave → Wave) : (s.modW f).latches = s.latches := rfl
@[simp] theorem State.modW_pins (s : State) (f : Wave → Wave) : (s.modW f).pins = s.pins := rfl
@[simp] theorem State.modW_moves (s : State) (f : Wave → Wave) : (s.modW f).moves = s.moves := rfl
@[simp] theorem State.modW_cords (s : State) (f : Wave → Wave) : (s.modW f).cords = s.cords := rfl
@[simp] theorem State.modW_pen (s : State) (f : Wave → Wave) : (s.modW f).pen = s.pen := rfl
@[simp] theorem State.modW_released (s : State) (f : Wave → Wave) : (s.modW f).released = s.released := rfl
@[simp] theorem State.modW_spawns (s : State) (f : Wave → Wave) : (s.modW f).spawns = s.spawns := rfl
@[simp] theorem State.modW_tb (s : State) (f : Wave → Wave) : (s.modW f).tb = s.tb := rfl
@[simp] theorem State.modW_tbOps (s : State) (f : Wave → Wave) : (s.modW f).tbOps = s.tbOps := rfl
@[simp] theorem State.modW_crews (s : State) (f : Wave → Wave) : (s.modW f).crews = s.crews := rfl
@[simp] theorem State.modW_crewOps (s : State) (f : Wave → Wave) : (s.modW f).crewOps = s.crewOps := rfl
@[simp] theorem State.modW_pools (s : State) (f : Wave → Wave) : (s.modW f).pools = s.pools := rfl
@[simp] theorem State.modW_launches (s : State) (f : Wave → Wave) : (s.modW f).launches = s.launches := rfl
@[simp] theorem State.modW_tiles (s : State) (f : Wave → Wave) : (s.modW f).tiles = s.tiles := rfl
@[simp] theorem State.modW_queues (s : State) (f : Wave → Wave) : (s.modW f).queues = s.queues := rfl
@[simp] theorem State.modW_intake (s : State) (f : Wave → Wave) : (s.modW f).intake = s.intake := rfl
@[simp] theorem State.modW_slotTable (s : State) (f : Wave → Wave) : (s.modW f).slotTable = s.slotTable := rfl
@[simp] theorem State.modW_closedSets (s : State) (f : Wave → Wave) : (s.modW f).closedSets = s.closedSets := rfl
@[simp] theorem State.modW_ctxs (s : State) (f : Wave → Wave) : (s.modW f).ctxs = s.ctxs := rfl
@[simp] theorem State.modW_sysOps (s : State) (f : Wave → Wave) : (s.modW f).sysOps = s.sysOps := rfl
@[simp] theorem State.modW_hsets (s : State) (f : Wave → Wave) : (s.modW f).hsets = s.hsets := rfl
@[simp] theorem State.modW_raised (s : State) (f : Wave → Wave) : (s.modW f).raised = s.raised := rfl
@[simp] theorem State.modW_age (s : State) (f : Wave → Wave) : (s.modW f).age = s.age := rfl
@[simp] theorem State.modW_gangwait (s : State) (f : Wave → Wave) : (s.modW f).gangwait = s.gangwait := rfl
@[simp] theorem State.modW_spans (s : State) (f : Wave → Wave) : (s.modW f).spans = s.spans := rfl
@[simp] theorem State.modW_pkg (s : State) (f : Wave → Wave) : (s.modW f).pkg = s.pkg := rfl
@[simp] theorem State.modW_importTable (s : State) (f : Wave → Wave) : (s.modW f).importTable = s.importTable := rfl
@[simp] theorem State.modW_routes (s : State) (f : Wave → Wave) : (s.modW f).routes = s.routes := rfl
@[simp] theorem State.modW_sems (s : State) (f : Wave → Wave) : (s.modW f).sems = s.sems := rfl
@[simp] theorem State.modW_ready (s : State) (f : Wave → Wave) : (s.modW f).ready = s.ready := rfl
@[simp] theorem State.modW_watts (s : State) (f : Wave → Wave) : (s.modW f).watts = s.watts := rfl
@[simp] theorem State.modW_pwr (s : State) (f : Wave → Wave) : (s.modW f).pwr = s.pwr := rfl
@[simp] theorem State.modW_rlen (s : State) (f : Wave → Wave) : (s.modW f).rlen = s.rlen := rfl
@[simp] theorem State.modW_recBuf (s : State) (f : Wave → Wave) : (s.modW f).recBuf = s.recBuf := rfl
@[simp] theorem State.modW_image (s : State) (f : Wave → Wave) : (s.modW f).image = s.image := rfl
@[simp] theorem State.modW_rings (s : State) (f : Wave → Wave) : (s.modW f).rings = s.rings := rfl
@[simp] theorem State.modW_nextRing (s : State) (f : Wave → Wave) : (s.modW f).nextRing = s.nextRing := rfl
@[simp] theorem State.modW_msix (s : State) (f : Wave → Wave) : (s.modW f).msix = s.msix := rfl
@[simp] theorem State.modW_pba (s : State) (f : Wave → Wave) : (s.modW f).pba = s.pba := rfl
@[simp] theorem State.modW_reports (s : State) (f : Wave → Wave) : (s.modW f).reports = s.reports := rfl
@[simp] theorem State.modW_correctedErrors (s : State) (f : Wave → Wave) : (s.modW f).correctedErrors = s.correctedErrors := rfl
@[simp] theorem State.modW_throttled (s : State) (f : Wave → Wave) : (s.modW f).throttled = s.throttled := rfl
@[simp] theorem State.modW_withheld (s : State) (f : Wave → Wave) : (s.modW f).withheld = s.withheld := rfl
@[simp] theorem State.modW_withheldV (s : State) (f : Wave → Wave) : (s.modW f).withheldV = s.withheldV := rfl
@[simp] theorem State.modW_stale (s : State) (f : Wave → Wave) : (s.modW f).stale = s.stale := rfl
@[simp] theorem State.modW_turns (s : State) (f : Wave → Wave) : (s.modW f).turns = s.turns := rfl
@[simp] theorem State.modW_linkReplay (s : State) (f : Wave → Wave) : (s.modW f).linkReplay = s.linkReplay := rfl
@[simp] theorem State.modW_served (s : State) (f : Wave → Wave) : (s.modW f).served = s.served := rfl
/-! ### `State.modLaunch` -/

@[simp] theorem State.modLaunch_part (s : State) (n : Nat) (f : Launch → Launch) : (s.modLaunch n f).part = s.part := rfl
@[simp] theorem State.modLaunch_stepping (s : State) (n : Nat) (f : Launch → Launch) : (s.modLaunch n f).stepping = s.stepping := rfl
@[simp] theorem State.modLaunch_powered (s : State) (n : Nat) (f : Launch → Launch) : (s.modLaunch n f).powered = s.powered := rfl
@[simp] theorem State.modLaunch_stopped (s : State) (n : Nat) (f : Launch → Launch) : (s.modLaunch n f).stopped = s.stopped := rfl
@[simp] theorem State.modLaunch_clk (s : State) (n : Nat) (f : Launch → Launch) : (s.modLaunch n f).clk = s.clk := rfl
@[simp] theorem State.modLaunch_freeN (s : State) (n : Nat) (f : Launch → Launch) : (s.modLaunch n f).freeN = s.freeN := rfl
@[simp] theorem State.modLaunch_nextUid (s : State) (n : Nat) (f : Launch → Launch) : (s.modLaunch n f).nextUid = s.nextUid := rfl
@[simp] theorem State.modLaunch_nextOp (s : State) (n : Nat) (f : Launch → Launch) : (s.modLaunch n f).nextOp = s.nextOp := rfl
@[simp] theorem State.modLaunch_w (s : State) (n : Nat) (f : Launch → Launch) : (s.modLaunch n f).w = s.w := rfl
@[simp] theorem State.modLaunch_waves (s : State) (n : Nat) (f : Launch → Launch) : (s.modLaunch n f).waves = s.waves := rfl
@[simp] theorem State.modLaunch_saved (s : State) (n : Nat) (f : Launch → Launch) : (s.modLaunch n f).saved = s.saved := rfl
@[simp] theorem State.modLaunch_src (s : State) (n : Nat) (f : Launch → Launch) : (s.modLaunch n f).src = s.src := rfl
@[simp] theorem State.modLaunch_grpMore (s : State) (n : Nat) (f : Launch → Launch) : (s.modLaunch n f).grpMore = s.grpMore := rfl
@[simp] theorem State.modLaunch_grpFlags (s : State) (n : Nat) (f : Launch → Launch) : (s.modLaunch n f).grpFlags = s.grpFlags := rfl
@[simp] theorem State.modLaunch_wordBits (s : State) (n : Nat) (f : Launch → Launch) : (s.modLaunch n f).wordBits = s.wordBits := rfl
@[simp] theorem State.modLaunch_order (s : State) (n : Nat) (f : Launch → Launch) : (s.modLaunch n f).order = s.order := rfl
@[simp] theorem State.modLaunch_pipes (s : State) (n : Nat) (f : Launch → Launch) : (s.modLaunch n f).pipes = s.pipes := rfl
@[simp] theorem State.modLaunch_inputs (s : State) (n : Nat) (f : Launch → Launch) : (s.modLaunch n f).inputs = s.inputs := rfl
@[simp] theorem State.modLaunch_bars (s : State) (n : Nat) (f : Launch → Launch) : (s.modLaunch n f).bars = s.bars := rfl
@[simp] theorem State.modLaunch_mem (s : State) (n : Nat) (f : Launch → Launch) : (s.modLaunch n f).mem = s.mem := rfl
@[simp] theorem State.modLaunch_sectorKey (s : State) (n : Nat) (f : Launch → Launch) : (s.modLaunch n f).sectorKey = s.sectorKey := rfl
@[simp] theorem State.modLaunch_poison (s : State) (n : Nat) (f : Launch → Launch) : (s.modLaunch n f).poison = s.poison := rfl
@[simp] theorem State.modLaunch_keys (s : State) (n : Nat) (f : Launch → Launch) : (s.modLaunch n f).keys = s.keys := rfl
@[simp] theorem State.modLaunch_memOps (s : State) (n : Nat) (f : Launch → Launch) : (s.modLaunch n f).memOps = s.memOps := rfl
@[simp] theorem State.modLaunch_held (s : State) (n : Nat) (f : Launch → Launch) : (s.modLaunch n f).held = s.held := rfl
@[simp] theorem State.modLaunch_fences (s : State) (n : Nat) (f : Launch → Launch) : (s.modLaunch n f).fences = s.fences := rfl
@[simp] theorem State.modLaunch_resvs (s : State) (n : Nat) (f : Launch → Launch) : (s.modLaunch n f).resvs = s.resvs := rfl
@[simp] theorem State.modLaunch_spent (s : State) (n : Nat) (f : Launch → Launch) : (s.modLaunch n f).spent = s.spent := rfl
@[simp] theorem State.modLaunch_l1 (s : State) (n : Nat) (f : Launch → Launch) : (s.modLaunch n f).l1 = s.l1 := rfl
@[simp] theorem State.modLaunch_l2 (s : State) (n : Nat) (f : Launch → Launch) : (s.modLaunch n f).l2 = s.l2 := rfl
@[simp] theorem State.modLaunch_fills (s : State) (n : Nat) (f : Launch → Launch) : (s.modLaunch n f).fills = s.fills := rfl
@[simp] theorem State.modLaunch_misses (s : State) (n : Nat) (f : Launch → Launch) : (s.modLaunch n f).misses = s.misses := rfl
@[simp] theorem State.modLaunch_wbacks (s : State) (n : Nat) (f : Launch → Launch) : (s.modLaunch n f).wbacks = s.wbacks := rfl
@[simp] theorem State.modLaunch_tlb (s : State) (n : Nat) (f : Launch → Launch) : (s.modLaunch n f).tlb = s.tlb := rfl
@[simp] theorem State.modLaunch_lanes (s : State) (n : Nat) (f : Launch → Launch) : (s.modLaunch n f).lanes = s.lanes := rfl
@[simp] theorem State.modLaunch_icache (s : State) (n : Nat) (f : Launch → Launch) : (s.modLaunch n f).icache = s.icache := rfl
@[simp] theorem State.modLaunch_engOps (s : State) (n : Nat) (f : Launch → Launch) : (s.modLaunch n f).engOps = s.engOps := rfl
@[simp] theorem State.modLaunch_objOps (s : State) (n : Nat) (f : Launch → Launch) : (s.modLaunch n f).objOps = s.objOps := rfl
@[simp] theorem State.modLaunch_objWaits (s : State) (n : Nat) (f : Launch → Launch) : (s.modLaunch n f).objWaits = s.objWaits := rfl
@[simp] theorem State.modLaunch_asks (s : State) (n : Nat) (f : Launch → Launch) : (s.modLaunch n f).asks = s.asks := rfl
@[simp] theorem State.modLaunch_sessions (s : State) (n : Nat) (f : Launch → Launch) : (s.modLaunch n f).sessions = s.sessions := rfl
@[simp] theorem State.modLaunch_mcLines (s : State) (n : Nat) (f : Launch → Launch) : (s.modLaunch n f).mcLines = s.mcLines := rfl
@[simp] theorem State.modLaunch_matOps (s : State) (n : Nat) (f : Launch → Launch) : (s.modLaunch n f).matOps = s.matOps := rfl
@[simp] theorem State.modLaunch_latches (s : State) (n : Nat) (f : Launch → Launch) : (s.modLaunch n f).latches = s.latches := rfl
@[simp] theorem State.modLaunch_pins (s : State) (n : Nat) (f : Launch → Launch) : (s.modLaunch n f).pins = s.pins := rfl
@[simp] theorem State.modLaunch_moves (s : State) (n : Nat) (f : Launch → Launch) : (s.modLaunch n f).moves = s.moves := rfl
@[simp] theorem State.modLaunch_cords (s : State) (n : Nat) (f : Launch → Launch) : (s.modLaunch n f).cords = s.cords := rfl
@[simp] theorem State.modLaunch_pen (s : State) (n : Nat) (f : Launch → Launch) : (s.modLaunch n f).pen = s.pen := rfl
@[simp] theorem State.modLaunch_released (s : State) (n : Nat) (f : Launch → Launch) : (s.modLaunch n f).released = s.released := rfl
@[simp] theorem State.modLaunch_spawns (s : State) (n : Nat) (f : Launch → Launch) : (s.modLaunch n f).spawns = s.spawns := rfl
@[simp] theorem State.modLaunch_tb (s : State) (n : Nat) (f : Launch → Launch) : (s.modLaunch n f).tb = s.tb := rfl
@[simp] theorem State.modLaunch_tbOps (s : State) (n : Nat) (f : Launch → Launch) : (s.modLaunch n f).tbOps = s.tbOps := rfl
@[simp] theorem State.modLaunch_crews (s : State) (n : Nat) (f : Launch → Launch) : (s.modLaunch n f).crews = s.crews := rfl
@[simp] theorem State.modLaunch_crewOps (s : State) (n : Nat) (f : Launch → Launch) : (s.modLaunch n f).crewOps = s.crewOps := rfl
@[simp] theorem State.modLaunch_pools (s : State) (n : Nat) (f : Launch → Launch) : (s.modLaunch n f).pools = s.pools := rfl
@[simp] theorem State.modLaunch_tiles (s : State) (n : Nat) (f : Launch → Launch) : (s.modLaunch n f).tiles = s.tiles := rfl
@[simp] theorem State.modLaunch_queues (s : State) (n : Nat) (f : Launch → Launch) : (s.modLaunch n f).queues = s.queues := rfl
@[simp] theorem State.modLaunch_intake (s : State) (n : Nat) (f : Launch → Launch) : (s.modLaunch n f).intake = s.intake := rfl
@[simp] theorem State.modLaunch_slotTable (s : State) (n : Nat) (f : Launch → Launch) : (s.modLaunch n f).slotTable = s.slotTable := rfl
@[simp] theorem State.modLaunch_closedSets (s : State) (n : Nat) (f : Launch → Launch) : (s.modLaunch n f).closedSets = s.closedSets := rfl
@[simp] theorem State.modLaunch_ctxs (s : State) (n : Nat) (f : Launch → Launch) : (s.modLaunch n f).ctxs = s.ctxs := rfl
@[simp] theorem State.modLaunch_sysOps (s : State) (n : Nat) (f : Launch → Launch) : (s.modLaunch n f).sysOps = s.sysOps := rfl
@[simp] theorem State.modLaunch_hsets (s : State) (n : Nat) (f : Launch → Launch) : (s.modLaunch n f).hsets = s.hsets := rfl
@[simp] theorem State.modLaunch_raised (s : State) (n : Nat) (f : Launch → Launch) : (s.modLaunch n f).raised = s.raised := rfl
@[simp] theorem State.modLaunch_age (s : State) (n : Nat) (f : Launch → Launch) : (s.modLaunch n f).age = s.age := rfl
@[simp] theorem State.modLaunch_gangwait (s : State) (n : Nat) (f : Launch → Launch) : (s.modLaunch n f).gangwait = s.gangwait := rfl
@[simp] theorem State.modLaunch_spans (s : State) (n : Nat) (f : Launch → Launch) : (s.modLaunch n f).spans = s.spans := rfl
@[simp] theorem State.modLaunch_pkg (s : State) (n : Nat) (f : Launch → Launch) : (s.modLaunch n f).pkg = s.pkg := rfl
@[simp] theorem State.modLaunch_importTable (s : State) (n : Nat) (f : Launch → Launch) : (s.modLaunch n f).importTable = s.importTable := rfl
@[simp] theorem State.modLaunch_routes (s : State) (n : Nat) (f : Launch → Launch) : (s.modLaunch n f).routes = s.routes := rfl
@[simp] theorem State.modLaunch_sems (s : State) (n : Nat) (f : Launch → Launch) : (s.modLaunch n f).sems = s.sems := rfl
@[simp] theorem State.modLaunch_ready (s : State) (n : Nat) (f : Launch → Launch) : (s.modLaunch n f).ready = s.ready := rfl
@[simp] theorem State.modLaunch_watts (s : State) (n : Nat) (f : Launch → Launch) : (s.modLaunch n f).watts = s.watts := rfl
@[simp] theorem State.modLaunch_pwr (s : State) (n : Nat) (f : Launch → Launch) : (s.modLaunch n f).pwr = s.pwr := rfl
@[simp] theorem State.modLaunch_rlen (s : State) (n : Nat) (f : Launch → Launch) : (s.modLaunch n f).rlen = s.rlen := rfl
@[simp] theorem State.modLaunch_recBuf (s : State) (n : Nat) (f : Launch → Launch) : (s.modLaunch n f).recBuf = s.recBuf := rfl
@[simp] theorem State.modLaunch_image (s : State) (n : Nat) (f : Launch → Launch) : (s.modLaunch n f).image = s.image := rfl
@[simp] theorem State.modLaunch_rings (s : State) (n : Nat) (f : Launch → Launch) : (s.modLaunch n f).rings = s.rings := rfl
@[simp] theorem State.modLaunch_nextRing (s : State) (n : Nat) (f : Launch → Launch) : (s.modLaunch n f).nextRing = s.nextRing := rfl
@[simp] theorem State.modLaunch_msix (s : State) (n : Nat) (f : Launch → Launch) : (s.modLaunch n f).msix = s.msix := rfl
@[simp] theorem State.modLaunch_pba (s : State) (n : Nat) (f : Launch → Launch) : (s.modLaunch n f).pba = s.pba := rfl
@[simp] theorem State.modLaunch_reports (s : State) (n : Nat) (f : Launch → Launch) : (s.modLaunch n f).reports = s.reports := rfl
@[simp] theorem State.modLaunch_correctedErrors (s : State) (n : Nat) (f : Launch → Launch) : (s.modLaunch n f).correctedErrors = s.correctedErrors := rfl
@[simp] theorem State.modLaunch_throttled (s : State) (n : Nat) (f : Launch → Launch) : (s.modLaunch n f).throttled = s.throttled := rfl
@[simp] theorem State.modLaunch_withheld (s : State) (n : Nat) (f : Launch → Launch) : (s.modLaunch n f).withheld = s.withheld := rfl
@[simp] theorem State.modLaunch_withheldV (s : State) (n : Nat) (f : Launch → Launch) : (s.modLaunch n f).withheldV = s.withheldV := rfl
@[simp] theorem State.modLaunch_stale (s : State) (n : Nat) (f : Launch → Launch) : (s.modLaunch n f).stale = s.stale := rfl
@[simp] theorem State.modLaunch_turns (s : State) (n : Nat) (f : Launch → Launch) : (s.modLaunch n f).turns = s.turns := rfl
@[simp] theorem State.modLaunch_linkReplay (s : State) (n : Nat) (f : Launch → Launch) : (s.modLaunch n f).linkReplay = s.linkReplay := rfl
@[simp] theorem State.modLaunch_served (s : State) (n : Nat) (f : Launch → Launch) : (s.modLaunch n f).served = s.served := rfl
/-! ### `State.modCtx` -/

@[simp] theorem State.modCtx_part (s : State) (n : Nat) (f : Ctx → Ctx) : (s.modCtx n f).part = s.part := rfl
@[simp] theorem State.modCtx_stepping (s : State) (n : Nat) (f : Ctx → Ctx) : (s.modCtx n f).stepping = s.stepping := rfl
@[simp] theorem State.modCtx_powered (s : State) (n : Nat) (f : Ctx → Ctx) : (s.modCtx n f).powered = s.powered := rfl
@[simp] theorem State.modCtx_stopped (s : State) (n : Nat) (f : Ctx → Ctx) : (s.modCtx n f).stopped = s.stopped := rfl
@[simp] theorem State.modCtx_clk (s : State) (n : Nat) (f : Ctx → Ctx) : (s.modCtx n f).clk = s.clk := rfl
@[simp] theorem State.modCtx_freeN (s : State) (n : Nat) (f : Ctx → Ctx) : (s.modCtx n f).freeN = s.freeN := rfl
@[simp] theorem State.modCtx_nextUid (s : State) (n : Nat) (f : Ctx → Ctx) : (s.modCtx n f).nextUid = s.nextUid := rfl
@[simp] theorem State.modCtx_nextOp (s : State) (n : Nat) (f : Ctx → Ctx) : (s.modCtx n f).nextOp = s.nextOp := rfl
@[simp] theorem State.modCtx_w (s : State) (n : Nat) (f : Ctx → Ctx) : (s.modCtx n f).w = s.w := rfl
@[simp] theorem State.modCtx_waves (s : State) (n : Nat) (f : Ctx → Ctx) : (s.modCtx n f).waves = s.waves := rfl
@[simp] theorem State.modCtx_saved (s : State) (n : Nat) (f : Ctx → Ctx) : (s.modCtx n f).saved = s.saved := rfl
@[simp] theorem State.modCtx_src (s : State) (n : Nat) (f : Ctx → Ctx) : (s.modCtx n f).src = s.src := rfl
@[simp] theorem State.modCtx_grpMore (s : State) (n : Nat) (f : Ctx → Ctx) : (s.modCtx n f).grpMore = s.grpMore := rfl
@[simp] theorem State.modCtx_grpFlags (s : State) (n : Nat) (f : Ctx → Ctx) : (s.modCtx n f).grpFlags = s.grpFlags := rfl
@[simp] theorem State.modCtx_wordBits (s : State) (n : Nat) (f : Ctx → Ctx) : (s.modCtx n f).wordBits = s.wordBits := rfl
@[simp] theorem State.modCtx_order (s : State) (n : Nat) (f : Ctx → Ctx) : (s.modCtx n f).order = s.order := rfl
@[simp] theorem State.modCtx_pipes (s : State) (n : Nat) (f : Ctx → Ctx) : (s.modCtx n f).pipes = s.pipes := rfl
@[simp] theorem State.modCtx_inputs (s : State) (n : Nat) (f : Ctx → Ctx) : (s.modCtx n f).inputs = s.inputs := rfl
@[simp] theorem State.modCtx_bars (s : State) (n : Nat) (f : Ctx → Ctx) : (s.modCtx n f).bars = s.bars := rfl
@[simp] theorem State.modCtx_mem (s : State) (n : Nat) (f : Ctx → Ctx) : (s.modCtx n f).mem = s.mem := rfl
@[simp] theorem State.modCtx_sectorKey (s : State) (n : Nat) (f : Ctx → Ctx) : (s.modCtx n f).sectorKey = s.sectorKey := rfl
@[simp] theorem State.modCtx_poison (s : State) (n : Nat) (f : Ctx → Ctx) : (s.modCtx n f).poison = s.poison := rfl
@[simp] theorem State.modCtx_keys (s : State) (n : Nat) (f : Ctx → Ctx) : (s.modCtx n f).keys = s.keys := rfl
@[simp] theorem State.modCtx_memOps (s : State) (n : Nat) (f : Ctx → Ctx) : (s.modCtx n f).memOps = s.memOps := rfl
@[simp] theorem State.modCtx_held (s : State) (n : Nat) (f : Ctx → Ctx) : (s.modCtx n f).held = s.held := rfl
@[simp] theorem State.modCtx_fences (s : State) (n : Nat) (f : Ctx → Ctx) : (s.modCtx n f).fences = s.fences := rfl
@[simp] theorem State.modCtx_resvs (s : State) (n : Nat) (f : Ctx → Ctx) : (s.modCtx n f).resvs = s.resvs := rfl
@[simp] theorem State.modCtx_spent (s : State) (n : Nat) (f : Ctx → Ctx) : (s.modCtx n f).spent = s.spent := rfl
@[simp] theorem State.modCtx_l1 (s : State) (n : Nat) (f : Ctx → Ctx) : (s.modCtx n f).l1 = s.l1 := rfl
@[simp] theorem State.modCtx_l2 (s : State) (n : Nat) (f : Ctx → Ctx) : (s.modCtx n f).l2 = s.l2 := rfl
@[simp] theorem State.modCtx_fills (s : State) (n : Nat) (f : Ctx → Ctx) : (s.modCtx n f).fills = s.fills := rfl
@[simp] theorem State.modCtx_misses (s : State) (n : Nat) (f : Ctx → Ctx) : (s.modCtx n f).misses = s.misses := rfl
@[simp] theorem State.modCtx_wbacks (s : State) (n : Nat) (f : Ctx → Ctx) : (s.modCtx n f).wbacks = s.wbacks := rfl
@[simp] theorem State.modCtx_tlb (s : State) (n : Nat) (f : Ctx → Ctx) : (s.modCtx n f).tlb = s.tlb := rfl
@[simp] theorem State.modCtx_lanes (s : State) (n : Nat) (f : Ctx → Ctx) : (s.modCtx n f).lanes = s.lanes := rfl
@[simp] theorem State.modCtx_icache (s : State) (n : Nat) (f : Ctx → Ctx) : (s.modCtx n f).icache = s.icache := rfl
@[simp] theorem State.modCtx_engOps (s : State) (n : Nat) (f : Ctx → Ctx) : (s.modCtx n f).engOps = s.engOps := rfl
@[simp] theorem State.modCtx_objOps (s : State) (n : Nat) (f : Ctx → Ctx) : (s.modCtx n f).objOps = s.objOps := rfl
@[simp] theorem State.modCtx_objWaits (s : State) (n : Nat) (f : Ctx → Ctx) : (s.modCtx n f).objWaits = s.objWaits := rfl
@[simp] theorem State.modCtx_asks (s : State) (n : Nat) (f : Ctx → Ctx) : (s.modCtx n f).asks = s.asks := rfl
@[simp] theorem State.modCtx_sessions (s : State) (n : Nat) (f : Ctx → Ctx) : (s.modCtx n f).sessions = s.sessions := rfl
@[simp] theorem State.modCtx_mcLines (s : State) (n : Nat) (f : Ctx → Ctx) : (s.modCtx n f).mcLines = s.mcLines := rfl
@[simp] theorem State.modCtx_matOps (s : State) (n : Nat) (f : Ctx → Ctx) : (s.modCtx n f).matOps = s.matOps := rfl
@[simp] theorem State.modCtx_latches (s : State) (n : Nat) (f : Ctx → Ctx) : (s.modCtx n f).latches = s.latches := rfl
@[simp] theorem State.modCtx_pins (s : State) (n : Nat) (f : Ctx → Ctx) : (s.modCtx n f).pins = s.pins := rfl
@[simp] theorem State.modCtx_moves (s : State) (n : Nat) (f : Ctx → Ctx) : (s.modCtx n f).moves = s.moves := rfl
@[simp] theorem State.modCtx_cords (s : State) (n : Nat) (f : Ctx → Ctx) : (s.modCtx n f).cords = s.cords := rfl
@[simp] theorem State.modCtx_pen (s : State) (n : Nat) (f : Ctx → Ctx) : (s.modCtx n f).pen = s.pen := rfl
@[simp] theorem State.modCtx_released (s : State) (n : Nat) (f : Ctx → Ctx) : (s.modCtx n f).released = s.released := rfl
@[simp] theorem State.modCtx_spawns (s : State) (n : Nat) (f : Ctx → Ctx) : (s.modCtx n f).spawns = s.spawns := rfl
@[simp] theorem State.modCtx_tb (s : State) (n : Nat) (f : Ctx → Ctx) : (s.modCtx n f).tb = s.tb := rfl
@[simp] theorem State.modCtx_tbOps (s : State) (n : Nat) (f : Ctx → Ctx) : (s.modCtx n f).tbOps = s.tbOps := rfl
@[simp] theorem State.modCtx_crews (s : State) (n : Nat) (f : Ctx → Ctx) : (s.modCtx n f).crews = s.crews := rfl
@[simp] theorem State.modCtx_crewOps (s : State) (n : Nat) (f : Ctx → Ctx) : (s.modCtx n f).crewOps = s.crewOps := rfl
@[simp] theorem State.modCtx_pools (s : State) (n : Nat) (f : Ctx → Ctx) : (s.modCtx n f).pools = s.pools := rfl
@[simp] theorem State.modCtx_launches (s : State) (n : Nat) (f : Ctx → Ctx) : (s.modCtx n f).launches = s.launches := rfl
@[simp] theorem State.modCtx_tiles (s : State) (n : Nat) (f : Ctx → Ctx) : (s.modCtx n f).tiles = s.tiles := rfl
@[simp] theorem State.modCtx_queues (s : State) (n : Nat) (f : Ctx → Ctx) : (s.modCtx n f).queues = s.queues := rfl
@[simp] theorem State.modCtx_intake (s : State) (n : Nat) (f : Ctx → Ctx) : (s.modCtx n f).intake = s.intake := rfl
@[simp] theorem State.modCtx_slotTable (s : State) (n : Nat) (f : Ctx → Ctx) : (s.modCtx n f).slotTable = s.slotTable := rfl
@[simp] theorem State.modCtx_closedSets (s : State) (n : Nat) (f : Ctx → Ctx) : (s.modCtx n f).closedSets = s.closedSets := rfl
@[simp] theorem State.modCtx_sysOps (s : State) (n : Nat) (f : Ctx → Ctx) : (s.modCtx n f).sysOps = s.sysOps := rfl
@[simp] theorem State.modCtx_hsets (s : State) (n : Nat) (f : Ctx → Ctx) : (s.modCtx n f).hsets = s.hsets := rfl
@[simp] theorem State.modCtx_raised (s : State) (n : Nat) (f : Ctx → Ctx) : (s.modCtx n f).raised = s.raised := rfl
@[simp] theorem State.modCtx_age (s : State) (n : Nat) (f : Ctx → Ctx) : (s.modCtx n f).age = s.age := rfl
@[simp] theorem State.modCtx_gangwait (s : State) (n : Nat) (f : Ctx → Ctx) : (s.modCtx n f).gangwait = s.gangwait := rfl
@[simp] theorem State.modCtx_spans (s : State) (n : Nat) (f : Ctx → Ctx) : (s.modCtx n f).spans = s.spans := rfl
@[simp] theorem State.modCtx_pkg (s : State) (n : Nat) (f : Ctx → Ctx) : (s.modCtx n f).pkg = s.pkg := rfl
@[simp] theorem State.modCtx_importTable (s : State) (n : Nat) (f : Ctx → Ctx) : (s.modCtx n f).importTable = s.importTable := rfl
@[simp] theorem State.modCtx_routes (s : State) (n : Nat) (f : Ctx → Ctx) : (s.modCtx n f).routes = s.routes := rfl
@[simp] theorem State.modCtx_sems (s : State) (n : Nat) (f : Ctx → Ctx) : (s.modCtx n f).sems = s.sems := rfl
@[simp] theorem State.modCtx_ready (s : State) (n : Nat) (f : Ctx → Ctx) : (s.modCtx n f).ready = s.ready := rfl
@[simp] theorem State.modCtx_watts (s : State) (n : Nat) (f : Ctx → Ctx) : (s.modCtx n f).watts = s.watts := rfl
@[simp] theorem State.modCtx_pwr (s : State) (n : Nat) (f : Ctx → Ctx) : (s.modCtx n f).pwr = s.pwr := rfl
@[simp] theorem State.modCtx_rlen (s : State) (n : Nat) (f : Ctx → Ctx) : (s.modCtx n f).rlen = s.rlen := rfl
@[simp] theorem State.modCtx_recBuf (s : State) (n : Nat) (f : Ctx → Ctx) : (s.modCtx n f).recBuf = s.recBuf := rfl
@[simp] theorem State.modCtx_image (s : State) (n : Nat) (f : Ctx → Ctx) : (s.modCtx n f).image = s.image := rfl
@[simp] theorem State.modCtx_rings (s : State) (n : Nat) (f : Ctx → Ctx) : (s.modCtx n f).rings = s.rings := rfl
@[simp] theorem State.modCtx_nextRing (s : State) (n : Nat) (f : Ctx → Ctx) : (s.modCtx n f).nextRing = s.nextRing := rfl
@[simp] theorem State.modCtx_msix (s : State) (n : Nat) (f : Ctx → Ctx) : (s.modCtx n f).msix = s.msix := rfl
@[simp] theorem State.modCtx_pba (s : State) (n : Nat) (f : Ctx → Ctx) : (s.modCtx n f).pba = s.pba := rfl
@[simp] theorem State.modCtx_reports (s : State) (n : Nat) (f : Ctx → Ctx) : (s.modCtx n f).reports = s.reports := rfl
@[simp] theorem State.modCtx_correctedErrors (s : State) (n : Nat) (f : Ctx → Ctx) : (s.modCtx n f).correctedErrors = s.correctedErrors := rfl
@[simp] theorem State.modCtx_throttled (s : State) (n : Nat) (f : Ctx → Ctx) : (s.modCtx n f).throttled = s.throttled := rfl
@[simp] theorem State.modCtx_withheld (s : State) (n : Nat) (f : Ctx → Ctx) : (s.modCtx n f).withheld = s.withheld := rfl
@[simp] theorem State.modCtx_withheldV (s : State) (n : Nat) (f : Ctx → Ctx) : (s.modCtx n f).withheldV = s.withheldV := rfl
@[simp] theorem State.modCtx_stale (s : State) (n : Nat) (f : Ctx → Ctx) : (s.modCtx n f).stale = s.stale := rfl
@[simp] theorem State.modCtx_turns (s : State) (n : Nat) (f : Ctx → Ctx) : (s.modCtx n f).turns = s.turns := rfl
@[simp] theorem State.modCtx_linkReplay (s : State) (n : Nat) (f : Ctx → Ctx) : (s.modCtx n f).linkReplay = s.linkReplay := rfl
@[simp] theorem State.modCtx_served (s : State) (n : Nat) (f : Ctx → Ctx) : (s.modCtx n f).served = s.served := rfl
/-! ### `State.raiseFlags` -/

@[simp] theorem State.raiseFlags_w (s : State) (n : Nat) :
    (s.raiseFlags n).w = { s.w with fpsr := s.w.fpsr ||| BitVec.ofNat 32 n } := rfl
@[simp] theorem State.raiseFlags_grpFlags (s : State) (n : Nat) :
    (s.raiseFlags n).grpFlags = s.grpFlags ||| BitVec.ofNat 32 n := rfl
@[simp] theorem State.raiseFlags_part (s : State) (n : Nat) : (s.raiseFlags n).part = s.part := rfl
@[simp] theorem State.raiseFlags_stepping (s : State) (n : Nat) : (s.raiseFlags n).stepping = s.stepping := rfl
@[simp] theorem State.raiseFlags_powered (s : State) (n : Nat) : (s.raiseFlags n).powered = s.powered := rfl
@[simp] theorem State.raiseFlags_stopped (s : State) (n : Nat) : (s.raiseFlags n).stopped = s.stopped := rfl
@[simp] theorem State.raiseFlags_clk (s : State) (n : Nat) : (s.raiseFlags n).clk = s.clk := rfl
@[simp] theorem State.raiseFlags_freeN (s : State) (n : Nat) : (s.raiseFlags n).freeN = s.freeN := rfl
@[simp] theorem State.raiseFlags_nextUid (s : State) (n : Nat) : (s.raiseFlags n).nextUid = s.nextUid := rfl
@[simp] theorem State.raiseFlags_nextOp (s : State) (n : Nat) : (s.raiseFlags n).nextOp = s.nextOp := rfl
@[simp] theorem State.raiseFlags_waves (s : State) (n : Nat) : (s.raiseFlags n).waves = s.waves := rfl
@[simp] theorem State.raiseFlags_saved (s : State) (n : Nat) : (s.raiseFlags n).saved = s.saved := rfl
@[simp] theorem State.raiseFlags_src (s : State) (n : Nat) : (s.raiseFlags n).src = s.src := rfl
@[simp] theorem State.raiseFlags_grpMore (s : State) (n : Nat) : (s.raiseFlags n).grpMore = s.grpMore := rfl
@[simp] theorem State.raiseFlags_wordBits (s : State) (n : Nat) : (s.raiseFlags n).wordBits = s.wordBits := rfl
@[simp] theorem State.raiseFlags_order (s : State) (n : Nat) : (s.raiseFlags n).order = s.order := rfl
@[simp] theorem State.raiseFlags_pipes (s : State) (n : Nat) : (s.raiseFlags n).pipes = s.pipes := rfl
@[simp] theorem State.raiseFlags_inputs (s : State) (n : Nat) : (s.raiseFlags n).inputs = s.inputs := rfl
@[simp] theorem State.raiseFlags_bars (s : State) (n : Nat) : (s.raiseFlags n).bars = s.bars := rfl
@[simp] theorem State.raiseFlags_mem (s : State) (n : Nat) : (s.raiseFlags n).mem = s.mem := rfl
@[simp] theorem State.raiseFlags_sectorKey (s : State) (n : Nat) : (s.raiseFlags n).sectorKey = s.sectorKey := rfl
@[simp] theorem State.raiseFlags_poison (s : State) (n : Nat) : (s.raiseFlags n).poison = s.poison := rfl
@[simp] theorem State.raiseFlags_keys (s : State) (n : Nat) : (s.raiseFlags n).keys = s.keys := rfl
@[simp] theorem State.raiseFlags_memOps (s : State) (n : Nat) : (s.raiseFlags n).memOps = s.memOps := rfl
@[simp] theorem State.raiseFlags_held (s : State) (n : Nat) : (s.raiseFlags n).held = s.held := rfl
@[simp] theorem State.raiseFlags_fences (s : State) (n : Nat) : (s.raiseFlags n).fences = s.fences := rfl
@[simp] theorem State.raiseFlags_resvs (s : State) (n : Nat) : (s.raiseFlags n).resvs = s.resvs := rfl
@[simp] theorem State.raiseFlags_spent (s : State) (n : Nat) : (s.raiseFlags n).spent = s.spent := rfl
@[simp] theorem State.raiseFlags_l1 (s : State) (n : Nat) : (s.raiseFlags n).l1 = s.l1 := rfl
@[simp] theorem State.raiseFlags_l2 (s : State) (n : Nat) : (s.raiseFlags n).l2 = s.l2 := rfl
@[simp] theorem State.raiseFlags_fills (s : State) (n : Nat) : (s.raiseFlags n).fills = s.fills := rfl
@[simp] theorem State.raiseFlags_misses (s : State) (n : Nat) : (s.raiseFlags n).misses = s.misses := rfl
@[simp] theorem State.raiseFlags_wbacks (s : State) (n : Nat) : (s.raiseFlags n).wbacks = s.wbacks := rfl
@[simp] theorem State.raiseFlags_tlb (s : State) (n : Nat) : (s.raiseFlags n).tlb = s.tlb := rfl
@[simp] theorem State.raiseFlags_lanes (s : State) (n : Nat) : (s.raiseFlags n).lanes = s.lanes := rfl
@[simp] theorem State.raiseFlags_icache (s : State) (n : Nat) : (s.raiseFlags n).icache = s.icache := rfl
@[simp] theorem State.raiseFlags_engOps (s : State) (n : Nat) : (s.raiseFlags n).engOps = s.engOps := rfl
@[simp] theorem State.raiseFlags_objOps (s : State) (n : Nat) : (s.raiseFlags n).objOps = s.objOps := rfl
@[simp] theorem State.raiseFlags_objWaits (s : State) (n : Nat) : (s.raiseFlags n).objWaits = s.objWaits := rfl
@[simp] theorem State.raiseFlags_asks (s : State) (n : Nat) : (s.raiseFlags n).asks = s.asks := rfl
@[simp] theorem State.raiseFlags_sessions (s : State) (n : Nat) : (s.raiseFlags n).sessions = s.sessions := rfl
@[simp] theorem State.raiseFlags_mcLines (s : State) (n : Nat) : (s.raiseFlags n).mcLines = s.mcLines := rfl
@[simp] theorem State.raiseFlags_matOps (s : State) (n : Nat) : (s.raiseFlags n).matOps = s.matOps := rfl
@[simp] theorem State.raiseFlags_latches (s : State) (n : Nat) : (s.raiseFlags n).latches = s.latches := rfl
@[simp] theorem State.raiseFlags_pins (s : State) (n : Nat) : (s.raiseFlags n).pins = s.pins := rfl
@[simp] theorem State.raiseFlags_moves (s : State) (n : Nat) : (s.raiseFlags n).moves = s.moves := rfl
@[simp] theorem State.raiseFlags_cords (s : State) (n : Nat) : (s.raiseFlags n).cords = s.cords := rfl
@[simp] theorem State.raiseFlags_pen (s : State) (n : Nat) : (s.raiseFlags n).pen = s.pen := rfl
@[simp] theorem State.raiseFlags_released (s : State) (n : Nat) : (s.raiseFlags n).released = s.released := rfl
@[simp] theorem State.raiseFlags_spawns (s : State) (n : Nat) : (s.raiseFlags n).spawns = s.spawns := rfl
@[simp] theorem State.raiseFlags_tb (s : State) (n : Nat) : (s.raiseFlags n).tb = s.tb := rfl
@[simp] theorem State.raiseFlags_tbOps (s : State) (n : Nat) : (s.raiseFlags n).tbOps = s.tbOps := rfl
@[simp] theorem State.raiseFlags_crews (s : State) (n : Nat) : (s.raiseFlags n).crews = s.crews := rfl
@[simp] theorem State.raiseFlags_crewOps (s : State) (n : Nat) : (s.raiseFlags n).crewOps = s.crewOps := rfl
@[simp] theorem State.raiseFlags_pools (s : State) (n : Nat) : (s.raiseFlags n).pools = s.pools := rfl
@[simp] theorem State.raiseFlags_launches (s : State) (n : Nat) : (s.raiseFlags n).launches = s.launches := rfl
@[simp] theorem State.raiseFlags_tiles (s : State) (n : Nat) : (s.raiseFlags n).tiles = s.tiles := rfl
@[simp] theorem State.raiseFlags_queues (s : State) (n : Nat) : (s.raiseFlags n).queues = s.queues := rfl
@[simp] theorem State.raiseFlags_intake (s : State) (n : Nat) : (s.raiseFlags n).intake = s.intake := rfl
@[simp] theorem State.raiseFlags_slotTable (s : State) (n : Nat) : (s.raiseFlags n).slotTable = s.slotTable := rfl
@[simp] theorem State.raiseFlags_closedSets (s : State) (n : Nat) : (s.raiseFlags n).closedSets = s.closedSets := rfl
@[simp] theorem State.raiseFlags_ctxs (s : State) (n : Nat) : (s.raiseFlags n).ctxs = s.ctxs := rfl
@[simp] theorem State.raiseFlags_sysOps (s : State) (n : Nat) : (s.raiseFlags n).sysOps = s.sysOps := rfl
@[simp] theorem State.raiseFlags_hsets (s : State) (n : Nat) : (s.raiseFlags n).hsets = s.hsets := rfl
@[simp] theorem State.raiseFlags_raised (s : State) (n : Nat) : (s.raiseFlags n).raised = s.raised := rfl
@[simp] theorem State.raiseFlags_age (s : State) (n : Nat) : (s.raiseFlags n).age = s.age := rfl
@[simp] theorem State.raiseFlags_gangwait (s : State) (n : Nat) : (s.raiseFlags n).gangwait = s.gangwait := rfl
@[simp] theorem State.raiseFlags_spans (s : State) (n : Nat) : (s.raiseFlags n).spans = s.spans := rfl
@[simp] theorem State.raiseFlags_pkg (s : State) (n : Nat) : (s.raiseFlags n).pkg = s.pkg := rfl
@[simp] theorem State.raiseFlags_importTable (s : State) (n : Nat) : (s.raiseFlags n).importTable = s.importTable := rfl
@[simp] theorem State.raiseFlags_routes (s : State) (n : Nat) : (s.raiseFlags n).routes = s.routes := rfl
@[simp] theorem State.raiseFlags_sems (s : State) (n : Nat) : (s.raiseFlags n).sems = s.sems := rfl
@[simp] theorem State.raiseFlags_ready (s : State) (n : Nat) : (s.raiseFlags n).ready = s.ready := rfl
@[simp] theorem State.raiseFlags_watts (s : State) (n : Nat) : (s.raiseFlags n).watts = s.watts := rfl
@[simp] theorem State.raiseFlags_pwr (s : State) (n : Nat) : (s.raiseFlags n).pwr = s.pwr := rfl
@[simp] theorem State.raiseFlags_rlen (s : State) (n : Nat) : (s.raiseFlags n).rlen = s.rlen := rfl
@[simp] theorem State.raiseFlags_recBuf (s : State) (n : Nat) : (s.raiseFlags n).recBuf = s.recBuf := rfl
@[simp] theorem State.raiseFlags_image (s : State) (n : Nat) : (s.raiseFlags n).image = s.image := rfl
@[simp] theorem State.raiseFlags_rings (s : State) (n : Nat) : (s.raiseFlags n).rings = s.rings := rfl
@[simp] theorem State.raiseFlags_nextRing (s : State) (n : Nat) : (s.raiseFlags n).nextRing = s.nextRing := rfl
@[simp] theorem State.raiseFlags_msix (s : State) (n : Nat) : (s.raiseFlags n).msix = s.msix := rfl
@[simp] theorem State.raiseFlags_pba (s : State) (n : Nat) : (s.raiseFlags n).pba = s.pba := rfl
@[simp] theorem State.raiseFlags_reports (s : State) (n : Nat) : (s.raiseFlags n).reports = s.reports := rfl
@[simp] theorem State.raiseFlags_correctedErrors (s : State) (n : Nat) : (s.raiseFlags n).correctedErrors = s.correctedErrors := rfl
@[simp] theorem State.raiseFlags_throttled (s : State) (n : Nat) : (s.raiseFlags n).throttled = s.throttled := rfl
@[simp] theorem State.raiseFlags_withheld (s : State) (n : Nat) : (s.raiseFlags n).withheld = s.withheld := rfl
@[simp] theorem State.raiseFlags_withheldV (s : State) (n : Nat) : (s.raiseFlags n).withheldV = s.withheldV := rfl
@[simp] theorem State.raiseFlags_stale (s : State) (n : Nat) : (s.raiseFlags n).stale = s.stale := rfl
@[simp] theorem State.raiseFlags_turns (s : State) (n : Nat) : (s.raiseFlags n).turns = s.turns := rfl
@[simp] theorem State.raiseFlags_linkReplay (s : State) (n : Nat) : (s.raiseFlags n).linkReplay = s.linkReplay := rfl
@[simp] theorem State.raiseFlags_served (s : State) (n : Nat) : (s.raiseFlags n).served = s.served := rfl
/-! ### `occupy`: a pipe held -/

@[simp] theorem occupy_part (s : State) (p : Pipe) (n : Nat) : (occupy s p n).part = s.part := by unfold occupy; split <;> rfl
@[simp] theorem occupy_stepping (s : State) (p : Pipe) (n : Nat) : (occupy s p n).stepping = s.stepping := by unfold occupy; split <;> rfl
@[simp] theorem occupy_powered (s : State) (p : Pipe) (n : Nat) : (occupy s p n).powered = s.powered := by unfold occupy; split <;> rfl
@[simp] theorem occupy_stopped (s : State) (p : Pipe) (n : Nat) : (occupy s p n).stopped = s.stopped := by unfold occupy; split <;> rfl
@[simp] theorem occupy_clk (s : State) (p : Pipe) (n : Nat) : (occupy s p n).clk = s.clk := by unfold occupy; split <;> rfl
@[simp] theorem occupy_freeN (s : State) (p : Pipe) (n : Nat) : (occupy s p n).freeN = s.freeN := by unfold occupy; split <;> rfl
@[simp] theorem occupy_nextUid (s : State) (p : Pipe) (n : Nat) : (occupy s p n).nextUid = s.nextUid := by unfold occupy; split <;> rfl
@[simp] theorem occupy_nextOp (s : State) (p : Pipe) (n : Nat) : (occupy s p n).nextOp = s.nextOp := by unfold occupy; split <;> rfl
@[simp] theorem occupy_w (s : State) (p : Pipe) (n : Nat) : (occupy s p n).w = s.w := by unfold occupy; split <;> rfl
@[simp] theorem occupy_waves (s : State) (p : Pipe) (n : Nat) : (occupy s p n).waves = s.waves := by unfold occupy; split <;> rfl
@[simp] theorem occupy_saved (s : State) (p : Pipe) (n : Nat) : (occupy s p n).saved = s.saved := by unfold occupy; split <;> rfl
@[simp] theorem occupy_src (s : State) (p : Pipe) (n : Nat) : (occupy s p n).src = s.src := by unfold occupy; split <;> rfl
@[simp] theorem occupy_grpMore (s : State) (p : Pipe) (n : Nat) : (occupy s p n).grpMore = s.grpMore := by unfold occupy; split <;> rfl
@[simp] theorem occupy_grpFlags (s : State) (p : Pipe) (n : Nat) : (occupy s p n).grpFlags = s.grpFlags := by unfold occupy; split <;> rfl
@[simp] theorem occupy_wordBits (s : State) (p : Pipe) (n : Nat) : (occupy s p n).wordBits = s.wordBits := by unfold occupy; split <;> rfl
@[simp] theorem occupy_order (s : State) (p : Pipe) (n : Nat) : (occupy s p n).order = s.order := by unfold occupy; split <;> rfl
@[simp] theorem occupy_inputs (s : State) (p : Pipe) (n : Nat) : (occupy s p n).inputs = s.inputs := by unfold occupy; split <;> rfl
@[simp] theorem occupy_bars (s : State) (p : Pipe) (n : Nat) : (occupy s p n).bars = s.bars := by unfold occupy; split <;> rfl
@[simp] theorem occupy_mem (s : State) (p : Pipe) (n : Nat) : (occupy s p n).mem = s.mem := by unfold occupy; split <;> rfl
@[simp] theorem occupy_sectorKey (s : State) (p : Pipe) (n : Nat) : (occupy s p n).sectorKey = s.sectorKey := by unfold occupy; split <;> rfl
@[simp] theorem occupy_poison (s : State) (p : Pipe) (n : Nat) : (occupy s p n).poison = s.poison := by unfold occupy; split <;> rfl
@[simp] theorem occupy_keys (s : State) (p : Pipe) (n : Nat) : (occupy s p n).keys = s.keys := by unfold occupy; split <;> rfl
@[simp] theorem occupy_memOps (s : State) (p : Pipe) (n : Nat) : (occupy s p n).memOps = s.memOps := by unfold occupy; split <;> rfl
@[simp] theorem occupy_held (s : State) (p : Pipe) (n : Nat) : (occupy s p n).held = s.held := by unfold occupy; split <;> rfl
@[simp] theorem occupy_fences (s : State) (p : Pipe) (n : Nat) : (occupy s p n).fences = s.fences := by unfold occupy; split <;> rfl
@[simp] theorem occupy_resvs (s : State) (p : Pipe) (n : Nat) : (occupy s p n).resvs = s.resvs := by unfold occupy; split <;> rfl
@[simp] theorem occupy_spent (s : State) (p : Pipe) (n : Nat) : (occupy s p n).spent = s.spent := by unfold occupy; split <;> rfl
@[simp] theorem occupy_l1 (s : State) (p : Pipe) (n : Nat) : (occupy s p n).l1 = s.l1 := by unfold occupy; split <;> rfl
@[simp] theorem occupy_l2 (s : State) (p : Pipe) (n : Nat) : (occupy s p n).l2 = s.l2 := by unfold occupy; split <;> rfl
@[simp] theorem occupy_fills (s : State) (p : Pipe) (n : Nat) : (occupy s p n).fills = s.fills := by unfold occupy; split <;> rfl
@[simp] theorem occupy_misses (s : State) (p : Pipe) (n : Nat) : (occupy s p n).misses = s.misses := by unfold occupy; split <;> rfl
@[simp] theorem occupy_wbacks (s : State) (p : Pipe) (n : Nat) : (occupy s p n).wbacks = s.wbacks := by unfold occupy; split <;> rfl
@[simp] theorem occupy_tlb (s : State) (p : Pipe) (n : Nat) : (occupy s p n).tlb = s.tlb := by unfold occupy; split <;> rfl
@[simp] theorem occupy_lanes (s : State) (p : Pipe) (n : Nat) : (occupy s p n).lanes = s.lanes := by unfold occupy; split <;> rfl
@[simp] theorem occupy_icache (s : State) (p : Pipe) (n : Nat) : (occupy s p n).icache = s.icache := by unfold occupy; split <;> rfl
@[simp] theorem occupy_engOps (s : State) (p : Pipe) (n : Nat) : (occupy s p n).engOps = s.engOps := by unfold occupy; split <;> rfl
@[simp] theorem occupy_objOps (s : State) (p : Pipe) (n : Nat) : (occupy s p n).objOps = s.objOps := by unfold occupy; split <;> rfl
@[simp] theorem occupy_objWaits (s : State) (p : Pipe) (n : Nat) : (occupy s p n).objWaits = s.objWaits := by unfold occupy; split <;> rfl
@[simp] theorem occupy_asks (s : State) (p : Pipe) (n : Nat) : (occupy s p n).asks = s.asks := by unfold occupy; split <;> rfl
@[simp] theorem occupy_sessions (s : State) (p : Pipe) (n : Nat) : (occupy s p n).sessions = s.sessions := by unfold occupy; split <;> rfl
@[simp] theorem occupy_mcLines (s : State) (p : Pipe) (n : Nat) : (occupy s p n).mcLines = s.mcLines := by unfold occupy; split <;> rfl
@[simp] theorem occupy_matOps (s : State) (p : Pipe) (n : Nat) : (occupy s p n).matOps = s.matOps := by unfold occupy; split <;> rfl
@[simp] theorem occupy_latches (s : State) (p : Pipe) (n : Nat) : (occupy s p n).latches = s.latches := by unfold occupy; split <;> rfl
@[simp] theorem occupy_pins (s : State) (p : Pipe) (n : Nat) : (occupy s p n).pins = s.pins := by unfold occupy; split <;> rfl
@[simp] theorem occupy_moves (s : State) (p : Pipe) (n : Nat) : (occupy s p n).moves = s.moves := by unfold occupy; split <;> rfl
@[simp] theorem occupy_cords (s : State) (p : Pipe) (n : Nat) : (occupy s p n).cords = s.cords := by unfold occupy; split <;> rfl
@[simp] theorem occupy_pen (s : State) (p : Pipe) (n : Nat) : (occupy s p n).pen = s.pen := by unfold occupy; split <;> rfl
@[simp] theorem occupy_released (s : State) (p : Pipe) (n : Nat) : (occupy s p n).released = s.released := by unfold occupy; split <;> rfl
@[simp] theorem occupy_spawns (s : State) (p : Pipe) (n : Nat) : (occupy s p n).spawns = s.spawns := by unfold occupy; split <;> rfl
@[simp] theorem occupy_tb (s : State) (p : Pipe) (n : Nat) : (occupy s p n).tb = s.tb := by unfold occupy; split <;> rfl
@[simp] theorem occupy_tbOps (s : State) (p : Pipe) (n : Nat) : (occupy s p n).tbOps = s.tbOps := by unfold occupy; split <;> rfl
@[simp] theorem occupy_crews (s : State) (p : Pipe) (n : Nat) : (occupy s p n).crews = s.crews := by unfold occupy; split <;> rfl
@[simp] theorem occupy_crewOps (s : State) (p : Pipe) (n : Nat) : (occupy s p n).crewOps = s.crewOps := by unfold occupy; split <;> rfl
@[simp] theorem occupy_pools (s : State) (p : Pipe) (n : Nat) : (occupy s p n).pools = s.pools := by unfold occupy; split <;> rfl
@[simp] theorem occupy_launches (s : State) (p : Pipe) (n : Nat) : (occupy s p n).launches = s.launches := by unfold occupy; split <;> rfl
@[simp] theorem occupy_tiles (s : State) (p : Pipe) (n : Nat) : (occupy s p n).tiles = s.tiles := by unfold occupy; split <;> rfl
@[simp] theorem occupy_queues (s : State) (p : Pipe) (n : Nat) : (occupy s p n).queues = s.queues := by unfold occupy; split <;> rfl
@[simp] theorem occupy_intake (s : State) (p : Pipe) (n : Nat) : (occupy s p n).intake = s.intake := by unfold occupy; split <;> rfl
@[simp] theorem occupy_slotTable (s : State) (p : Pipe) (n : Nat) : (occupy s p n).slotTable = s.slotTable := by unfold occupy; split <;> rfl
@[simp] theorem occupy_closedSets (s : State) (p : Pipe) (n : Nat) : (occupy s p n).closedSets = s.closedSets := by unfold occupy; split <;> rfl
@[simp] theorem occupy_ctxs (s : State) (p : Pipe) (n : Nat) : (occupy s p n).ctxs = s.ctxs := by unfold occupy; split <;> rfl
@[simp] theorem occupy_sysOps (s : State) (p : Pipe) (n : Nat) : (occupy s p n).sysOps = s.sysOps := by unfold occupy; split <;> rfl
@[simp] theorem occupy_hsets (s : State) (p : Pipe) (n : Nat) : (occupy s p n).hsets = s.hsets := by unfold occupy; split <;> rfl
@[simp] theorem occupy_raised (s : State) (p : Pipe) (n : Nat) : (occupy s p n).raised = s.raised := by unfold occupy; split <;> rfl
@[simp] theorem occupy_age (s : State) (p : Pipe) (n : Nat) : (occupy s p n).age = s.age := by unfold occupy; split <;> rfl
@[simp] theorem occupy_gangwait (s : State) (p : Pipe) (n : Nat) : (occupy s p n).gangwait = s.gangwait := by unfold occupy; split <;> rfl
@[simp] theorem occupy_spans (s : State) (p : Pipe) (n : Nat) : (occupy s p n).spans = s.spans := by unfold occupy; split <;> rfl
@[simp] theorem occupy_pkg (s : State) (p : Pipe) (n : Nat) : (occupy s p n).pkg = s.pkg := by unfold occupy; split <;> rfl
@[simp] theorem occupy_importTable (s : State) (p : Pipe) (n : Nat) : (occupy s p n).importTable = s.importTable := by unfold occupy; split <;> rfl
@[simp] theorem occupy_routes (s : State) (p : Pipe) (n : Nat) : (occupy s p n).routes = s.routes := by unfold occupy; split <;> rfl
@[simp] theorem occupy_sems (s : State) (p : Pipe) (n : Nat) : (occupy s p n).sems = s.sems := by unfold occupy; split <;> rfl
@[simp] theorem occupy_ready (s : State) (p : Pipe) (n : Nat) : (occupy s p n).ready = s.ready := by unfold occupy; split <;> rfl
@[simp] theorem occupy_watts (s : State) (p : Pipe) (n : Nat) : (occupy s p n).watts = s.watts := by unfold occupy; split <;> rfl
@[simp] theorem occupy_pwr (s : State) (p : Pipe) (n : Nat) : (occupy s p n).pwr = s.pwr := by unfold occupy; split <;> rfl
@[simp] theorem occupy_rlen (s : State) (p : Pipe) (n : Nat) : (occupy s p n).rlen = s.rlen := by unfold occupy; split <;> rfl
@[simp] theorem occupy_recBuf (s : State) (p : Pipe) (n : Nat) : (occupy s p n).recBuf = s.recBuf := by unfold occupy; split <;> rfl
@[simp] theorem occupy_image (s : State) (p : Pipe) (n : Nat) : (occupy s p n).image = s.image := by unfold occupy; split <;> rfl
@[simp] theorem occupy_rings (s : State) (p : Pipe) (n : Nat) : (occupy s p n).rings = s.rings := by unfold occupy; split <;> rfl
@[simp] theorem occupy_nextRing (s : State) (p : Pipe) (n : Nat) : (occupy s p n).nextRing = s.nextRing := by unfold occupy; split <;> rfl
@[simp] theorem occupy_msix (s : State) (p : Pipe) (n : Nat) : (occupy s p n).msix = s.msix := by unfold occupy; split <;> rfl
@[simp] theorem occupy_pba (s : State) (p : Pipe) (n : Nat) : (occupy s p n).pba = s.pba := by unfold occupy; split <;> rfl
@[simp] theorem occupy_reports (s : State) (p : Pipe) (n : Nat) : (occupy s p n).reports = s.reports := by unfold occupy; split <;> rfl
@[simp] theorem occupy_correctedErrors (s : State) (p : Pipe) (n : Nat) : (occupy s p n).correctedErrors = s.correctedErrors := by unfold occupy; split <;> rfl
@[simp] theorem occupy_throttled (s : State) (p : Pipe) (n : Nat) : (occupy s p n).throttled = s.throttled := by unfold occupy; split <;> rfl
@[simp] theorem occupy_withheld (s : State) (p : Pipe) (n : Nat) : (occupy s p n).withheld = s.withheld := by unfold occupy; split <;> rfl
@[simp] theorem occupy_withheldV (s : State) (p : Pipe) (n : Nat) : (occupy s p n).withheldV = s.withheldV := by unfold occupy; split <;> rfl
@[simp] theorem occupy_stale (s : State) (p : Pipe) (n : Nat) : (occupy s p n).stale = s.stale := by unfold occupy; split <;> rfl
@[simp] theorem occupy_turns (s : State) (p : Pipe) (n : Nat) : (occupy s p n).turns = s.turns := by unfold occupy; split <;> rfl
@[simp] theorem occupy_linkReplay (s : State) (p : Pipe) (n : Nat) : (occupy s p n).linkReplay = s.linkReplay := by unfold occupy; split <;> rfl
@[simp] theorem occupy_served (s : State) (p : Pipe) (n : Nat) : (occupy s p n).served = s.served := by unfold occupy; split <;> rfl
/-! ### Updates of a wave -/

@[simp] theorem addMarks_uid (w : Wave) (ms : List Mark) : (addMarks w ms).uid = w.uid := rfl
@[simp] theorem addMarks_status (w : Wave) (ms : List Mark) : (addMarks w ms).status = w.status := rfl
@[simp] theorem addMarks_quad (w : Wave) (ms : List Mark) : (addMarks w ms).quad = w.quad := rfl
@[simp] theorem addMarks_wslot (w : Wave) (ms : List Mark) : (addMarks w ms).wslot = w.wslot := rfl
@[simp] theorem addMarks_ctx (w : Wave) (ms : List Mark) : (addMarks w ms).ctx = w.ctx := rfl
@[simp] theorem addMarks_launch (w : Wave) (ms : List Mark) : (addMarks w ms).launch = w.launch := rfl
@[simp] theorem addMarks_cord (w : Wave) (ms : List Mark) : (addMarks w ms).cord = w.cord := rfl
@[simp] theorem addMarks_waveNo (w : Wave) (ms : List Mark) : (addMarks w ms).waveNo = w.waveNo := rfl
@[simp] theorem addMarks_role (w : Wave) (ms : List Mark) : (addMarks w ms).role = w.role := rfl
@[simp] theorem addMarks_width (w : Wave) (ms : List Mark) : (addMarks w ms).width = w.width := rfl
@[simp] theorem addMarks_nregs (w : Wave) (ms : List Mark) : (addMarks w ms).nregs = w.nregs := rfl
@[simp] theorem addMarks_acc (w : Wave) (ms : List Mark) : (addMarks w ms).acc = w.acc := rfl
@[simp] theorem addMarks_nlay (w : Wave) (ms : List Mark) : (addMarks w ms).nlay = w.nlay := rfl
@[simp] theorem addMarks_args (w : Wave) (ms : List Mark) : (addMarks w ms).args = w.args := rfl
@[simp] theorem addMarks_prio (w : Wave) (ms : List Mark) : (addMarks w ms).prio = w.prio := rfl
@[simp] theorem addMarks_polls (w : Wave) (ms : List Mark) : (addMarks w ms).polls = w.polls := rfl
@[simp] theorem addMarks_supervisor (w : Wave) (ms : List Mark) : (addMarks w ms).supervisor = w.supervisor := rfl
@[simp] theorem addMarks_draining (w : Wave) (ms : List Mark) : (addMarks w ms).draining = w.draining := rfl
@[simp] theorem addMarks_pc (w : Wave) (ms : List Mark) : (addMarks w ms).pc = w.pc := rfl
@[simp] theorem addMarks_rstack (w : Wave) (ms : List Mark) : (addMarks w ms).rstack = w.rstack := rfl
@[simp] theorem addMarks_seta (w : Wave) (ms : List Mark) : (addMarks w ms).seta = w.seta := rfl
@[simp] theorem addMarks_setb (w : Wave) (ms : List Mark) : (addMarks w ms).setb = w.setb := rfl
@[simp] theorem addMarks_exec (w : Wave) (ms : List Mark) : (addMarks w ms).exec = w.exec := rfl
@[simp] theorem addMarks_live (w : Wave) (ms : List Mark) : (addMarks w ms).live = w.live := rfl
@[simp] theorem addMarks_fresh (w : Wave) (ms : List Mark) : (addMarks w ms).fresh = w.fresh := rfl
@[simp] theorem addMarks_v (w : Wave) (ms : List Mark) : (addMarks w ms).v = w.v := rfl
@[simp] theorem addMarks_o (w : Wave) (ms : List Mark) : (addMarks w ms).o = w.o := rfl
@[simp] theorem addMarks_lr0 (w : Wave) (ms : List Mark) : (addMarks w ms).lr0 = w.lr0 := rfl
@[simp] theorem addMarks_lr1 (w : Wave) (ms : List Mark) : (addMarks w ms).lr1 = w.lr1 := rfl
@[simp] theorem addMarks_item (w : Wave) (ms : List Mark) : (addMarks w ms).item = w.item := rfl
@[simp] theorem addMarks_s (w : Wave) (ms : List Mark) : (addMarks w ms).s = w.s := rfl
@[simp] theorem addMarks_q (w : Wave) (ms : List Mark) : (addMarks w ms).q = w.q := rfl
@[simp] theorem addMarks_flags (w : Wave) (ms : List Mark) : (addMarks w ms).flags = w.flags := rfl
@[simp] theorem addMarks_fpcr (w : Wave) (ms : List Mark) : (addMarks w ms).fpcr = w.fpcr := rfl
@[simp] theorem addMarks_fpsr (w : Wave) (ms : List Mark) : (addMarks w ms).fpsr = w.fpsr := rfl
@[simp] theorem addMarks_lays (w : Wave) (ms : List Mark) : (addMarks w ms).lays = w.lays := rfl
@[simp] theorem addMarks_tiles (w : Wave) (ms : List Mark) : (addMarks w ms).tiles = w.tiles := rfl
@[simp] theorem addMarks_tstat (w : Wave) (ms : List Mark) : (addMarks w ms).tstat = w.tstat := rfl
@[simp] theorem addMarks_hctl (w : Wave) (ms : List Mark) : (addMarks w ms).hctl = w.hctl := rfl
@[simp] theorem addMarks_fpc (w : Wave) (ms : List Mark) : (addMarks w ms).fpc = w.fpc := rfl
@[simp] theorem addMarks_uexec (w : Wave) (ms : List Mark) : (addMarks w ms).uexec = w.uexec := rfl
@[simp] theorem addMarks_fmask (w : Wave) (ms : List Mark) : (addMarks w ms).fmask = w.fmask := rfl
@[simp] theorem addMarks_frame (w : Wave) (ms : List Mark) : (addMarks w ms).frame = w.frame := rfl
@[simp] theorem addMarks_trap (w : Wave) (ms : List Mark) : (addMarks w ms).trap = w.trap := rfl
@[simp] theorem addMarks_sbstall (w : Wave) (ms : List Mark) : (addMarks w ms).sbstall = w.sbstall := rfl
@[simp] theorem addMarks_wdcnt (w : Wave) (ms : List Mark) : (addMarks w ms).wdcnt = w.wdcnt := rfl
@[simp] theorem addMarks_wdArmed (w : Wave) (ms : List Mark) : (addMarks w ms).wdArmed = w.wdArmed := rfl
@[simp] theorem addMarks_trcost (w : Wave) (ms : List Mark) : (addMarks w ms).trcost = w.trcost := rfl
@[simp] theorem addMarks_bcd (w : Wave) (ms : List Mark) : (addMarks w ms).bcd = w.bcd := rfl
@[simp] theorem addMarks_mlstep (w : Wave) (ms : List Mark) : (addMarks w ms).mlstep = w.mlstep := rfl
@[simp] theorem addMarks_efcause (w : Wave) (ms : List Mark) : (addMarks w ms).efcause = w.efcause := rfl
@[simp] theorem addMarks_efva (w : Wave) (ms : List Mark) : (addMarks w ms).efva = w.efva := rfl
@[simp] theorem addMarks_blocked (w : Wave) (ms : List Mark) : (addMarks w ms).blocked = w.blocked := rfl
@[simp] theorem addMarks_blockArg (w : Wave) (ms : List Mark) : (addMarks w ms).blockArg = w.blockArg := rfl
@[simp] theorem addMarks_crew (w : Wave) (ms : List Mark) : (addMarks w ms).crew = w.crew := rfl
@[simp] theorem addMarks_token (w : Wave) (ms : List Mark) : (addMarks w ms).token = w.token := rfl
@[simp] theorem addMarks_verdict (w : Wave) (ms : List Mark) : (addMarks w ms).verdict = w.verdict := rfl
@[simp] theorem addMarks_replay (w : Wave) (ms : List Mark) : (addMarks w ms).replay = w.replay := rfl
@[simp] theorem addMarks_isNew (w : Wave) (ms : List Mark) : (addMarks w ms).isNew = w.isNew := rfl
@[simp] theorem addMarks_placed (w : Wave) (ms : List Mark) : (addMarks w ms).placed = w.placed := rfl
@[simp] theorem addMarks_group (w : Wave) (ms : List Mark) : (addMarks w ms).group = w.group := rfl
@[simp] theorem addMarks_engFlags (w : Wave) (ms : List Mark) : (addMarks w ms).engFlags = w.engFlags := rfl
@[simp] theorem addMarks_scSys (w : Wave) (ms : List Mark) : (addMarks w ms).scSys = w.scSys := rfl
@[simp] theorem addMarks_again (w : Wave) (ms : List Mark) : (addMarks w ms).again = w.again := rfl

@[simp] theorem clearMarks_uid (w : Wave) (n : Nat) : (clearMarks w n).uid = w.uid := rfl
@[simp] theorem clearMarks_status (w : Wave) (n : Nat) : (clearMarks w n).status = w.status := rfl
@[simp] theorem clearMarks_quad (w : Wave) (n : Nat) : (clearMarks w n).quad = w.quad := rfl
@[simp] theorem clearMarks_wslot (w : Wave) (n : Nat) : (clearMarks w n).wslot = w.wslot := rfl
@[simp] theorem clearMarks_ctx (w : Wave) (n : Nat) : (clearMarks w n).ctx = w.ctx := rfl
@[simp] theorem clearMarks_launch (w : Wave) (n : Nat) : (clearMarks w n).launch = w.launch := rfl
@[simp] theorem clearMarks_cord (w : Wave) (n : Nat) : (clearMarks w n).cord = w.cord := rfl
@[simp] theorem clearMarks_waveNo (w : Wave) (n : Nat) : (clearMarks w n).waveNo = w.waveNo := rfl
@[simp] theorem clearMarks_role (w : Wave) (n : Nat) : (clearMarks w n).role = w.role := rfl
@[simp] theorem clearMarks_width (w : Wave) (n : Nat) : (clearMarks w n).width = w.width := rfl
@[simp] theorem clearMarks_nregs (w : Wave) (n : Nat) : (clearMarks w n).nregs = w.nregs := rfl
@[simp] theorem clearMarks_acc (w : Wave) (n : Nat) : (clearMarks w n).acc = w.acc := rfl
@[simp] theorem clearMarks_nlay (w : Wave) (n : Nat) : (clearMarks w n).nlay = w.nlay := rfl
@[simp] theorem clearMarks_args (w : Wave) (n : Nat) : (clearMarks w n).args = w.args := rfl
@[simp] theorem clearMarks_prio (w : Wave) (n : Nat) : (clearMarks w n).prio = w.prio := rfl
@[simp] theorem clearMarks_polls (w : Wave) (n : Nat) : (clearMarks w n).polls = w.polls := rfl
@[simp] theorem clearMarks_supervisor (w : Wave) (n : Nat) : (clearMarks w n).supervisor = w.supervisor := rfl
@[simp] theorem clearMarks_draining (w : Wave) (n : Nat) : (clearMarks w n).draining = w.draining := rfl
@[simp] theorem clearMarks_pc (w : Wave) (n : Nat) : (clearMarks w n).pc = w.pc := rfl
@[simp] theorem clearMarks_rstack (w : Wave) (n : Nat) : (clearMarks w n).rstack = w.rstack := rfl
@[simp] theorem clearMarks_seta (w : Wave) (n : Nat) : (clearMarks w n).seta = w.seta := rfl
@[simp] theorem clearMarks_setb (w : Wave) (n : Nat) : (clearMarks w n).setb = w.setb := rfl
@[simp] theorem clearMarks_exec (w : Wave) (n : Nat) : (clearMarks w n).exec = w.exec := rfl
@[simp] theorem clearMarks_live (w : Wave) (n : Nat) : (clearMarks w n).live = w.live := rfl
@[simp] theorem clearMarks_fresh (w : Wave) (n : Nat) : (clearMarks w n).fresh = w.fresh := rfl
@[simp] theorem clearMarks_v (w : Wave) (n : Nat) : (clearMarks w n).v = w.v := rfl
@[simp] theorem clearMarks_o (w : Wave) (n : Nat) : (clearMarks w n).o = w.o := rfl
@[simp] theorem clearMarks_lr0 (w : Wave) (n : Nat) : (clearMarks w n).lr0 = w.lr0 := rfl
@[simp] theorem clearMarks_lr1 (w : Wave) (n : Nat) : (clearMarks w n).lr1 = w.lr1 := rfl
@[simp] theorem clearMarks_item (w : Wave) (n : Nat) : (clearMarks w n).item = w.item := rfl
@[simp] theorem clearMarks_s (w : Wave) (n : Nat) : (clearMarks w n).s = w.s := rfl
@[simp] theorem clearMarks_q (w : Wave) (n : Nat) : (clearMarks w n).q = w.q := rfl
@[simp] theorem clearMarks_flags (w : Wave) (n : Nat) : (clearMarks w n).flags = w.flags := rfl
@[simp] theorem clearMarks_fpcr (w : Wave) (n : Nat) : (clearMarks w n).fpcr = w.fpcr := rfl
@[simp] theorem clearMarks_fpsr (w : Wave) (n : Nat) : (clearMarks w n).fpsr = w.fpsr := rfl
@[simp] theorem clearMarks_lays (w : Wave) (n : Nat) : (clearMarks w n).lays = w.lays := rfl
@[simp] theorem clearMarks_tiles (w : Wave) (n : Nat) : (clearMarks w n).tiles = w.tiles := rfl
@[simp] theorem clearMarks_tstat (w : Wave) (n : Nat) : (clearMarks w n).tstat = w.tstat := rfl
@[simp] theorem clearMarks_hctl (w : Wave) (n : Nat) : (clearMarks w n).hctl = w.hctl := rfl
@[simp] theorem clearMarks_fpc (w : Wave) (n : Nat) : (clearMarks w n).fpc = w.fpc := rfl
@[simp] theorem clearMarks_uexec (w : Wave) (n : Nat) : (clearMarks w n).uexec = w.uexec := rfl
@[simp] theorem clearMarks_fmask (w : Wave) (n : Nat) : (clearMarks w n).fmask = w.fmask := rfl
@[simp] theorem clearMarks_frame (w : Wave) (n : Nat) : (clearMarks w n).frame = w.frame := rfl
@[simp] theorem clearMarks_trap (w : Wave) (n : Nat) : (clearMarks w n).trap = w.trap := rfl
@[simp] theorem clearMarks_sbstall (w : Wave) (n : Nat) : (clearMarks w n).sbstall = w.sbstall := rfl
@[simp] theorem clearMarks_wdcnt (w : Wave) (n : Nat) : (clearMarks w n).wdcnt = w.wdcnt := rfl
@[simp] theorem clearMarks_wdArmed (w : Wave) (n : Nat) : (clearMarks w n).wdArmed = w.wdArmed := rfl
@[simp] theorem clearMarks_trcost (w : Wave) (n : Nat) : (clearMarks w n).trcost = w.trcost := rfl
@[simp] theorem clearMarks_bcd (w : Wave) (n : Nat) : (clearMarks w n).bcd = w.bcd := rfl
@[simp] theorem clearMarks_mlstep (w : Wave) (n : Nat) : (clearMarks w n).mlstep = w.mlstep := rfl
@[simp] theorem clearMarks_efcause (w : Wave) (n : Nat) : (clearMarks w n).efcause = w.efcause := rfl
@[simp] theorem clearMarks_efva (w : Wave) (n : Nat) : (clearMarks w n).efva = w.efva := rfl
@[simp] theorem clearMarks_blocked (w : Wave) (n : Nat) : (clearMarks w n).blocked = w.blocked := rfl
@[simp] theorem clearMarks_blockArg (w : Wave) (n : Nat) : (clearMarks w n).blockArg = w.blockArg := rfl
@[simp] theorem clearMarks_crew (w : Wave) (n : Nat) : (clearMarks w n).crew = w.crew := rfl
@[simp] theorem clearMarks_token (w : Wave) (n : Nat) : (clearMarks w n).token = w.token := rfl
@[simp] theorem clearMarks_verdict (w : Wave) (n : Nat) : (clearMarks w n).verdict = w.verdict := rfl
@[simp] theorem clearMarks_replay (w : Wave) (n : Nat) : (clearMarks w n).replay = w.replay := rfl
@[simp] theorem clearMarks_isNew (w : Wave) (n : Nat) : (clearMarks w n).isNew = w.isNew := rfl
@[simp] theorem clearMarks_placed (w : Wave) (n : Nat) : (clearMarks w n).placed = w.placed := rfl
@[simp] theorem clearMarks_group (w : Wave) (n : Nat) : (clearMarks w n).group = w.group := rfl
@[simp] theorem clearMarks_engFlags (w : Wave) (n : Nat) : (clearMarks w n).engFlags = w.engFlags := rfl
@[simp] theorem clearMarks_scSys (w : Wave) (n : Nat) : (clearMarks w n).scSys = w.scSys := rfl
@[simp] theorem clearMarks_again (w : Wave) (n : Nat) : (clearMarks w n).again = w.again := rfl

@[simp] theorem lrPush_uid (w : Wave) (i : Nat) (v : Word) : (lrPush w i v).uid = w.uid := rfl
@[simp] theorem lrPush_status (w : Wave) (i : Nat) (v : Word) : (lrPush w i v).status = w.status := rfl
@[simp] theorem lrPush_quad (w : Wave) (i : Nat) (v : Word) : (lrPush w i v).quad = w.quad := rfl
@[simp] theorem lrPush_wslot (w : Wave) (i : Nat) (v : Word) : (lrPush w i v).wslot = w.wslot := rfl
@[simp] theorem lrPush_ctx (w : Wave) (i : Nat) (v : Word) : (lrPush w i v).ctx = w.ctx := rfl
@[simp] theorem lrPush_launch (w : Wave) (i : Nat) (v : Word) : (lrPush w i v).launch = w.launch := rfl
@[simp] theorem lrPush_cord (w : Wave) (i : Nat) (v : Word) : (lrPush w i v).cord = w.cord := rfl
@[simp] theorem lrPush_waveNo (w : Wave) (i : Nat) (v : Word) : (lrPush w i v).waveNo = w.waveNo := rfl
@[simp] theorem lrPush_role (w : Wave) (i : Nat) (v : Word) : (lrPush w i v).role = w.role := rfl
@[simp] theorem lrPush_width (w : Wave) (i : Nat) (v : Word) : (lrPush w i v).width = w.width := rfl
@[simp] theorem lrPush_nregs (w : Wave) (i : Nat) (v : Word) : (lrPush w i v).nregs = w.nregs := rfl
@[simp] theorem lrPush_acc (w : Wave) (i : Nat) (v : Word) : (lrPush w i v).acc = w.acc := rfl
@[simp] theorem lrPush_nlay (w : Wave) (i : Nat) (v : Word) : (lrPush w i v).nlay = w.nlay := rfl
@[simp] theorem lrPush_args (w : Wave) (i : Nat) (v : Word) : (lrPush w i v).args = w.args := rfl
@[simp] theorem lrPush_prio (w : Wave) (i : Nat) (v : Word) : (lrPush w i v).prio = w.prio := rfl
@[simp] theorem lrPush_polls (w : Wave) (i : Nat) (v : Word) : (lrPush w i v).polls = w.polls := rfl
@[simp] theorem lrPush_supervisor (w : Wave) (i : Nat) (v : Word) : (lrPush w i v).supervisor = w.supervisor := rfl
@[simp] theorem lrPush_draining (w : Wave) (i : Nat) (v : Word) : (lrPush w i v).draining = w.draining := rfl
@[simp] theorem lrPush_pc (w : Wave) (i : Nat) (v : Word) : (lrPush w i v).pc = w.pc := rfl
@[simp] theorem lrPush_rstack (w : Wave) (i : Nat) (v : Word) : (lrPush w i v).rstack = w.rstack := rfl
@[simp] theorem lrPush_seta (w : Wave) (i : Nat) (v : Word) : (lrPush w i v).seta = w.seta := rfl
@[simp] theorem lrPush_setb (w : Wave) (i : Nat) (v : Word) : (lrPush w i v).setb = w.setb := rfl
@[simp] theorem lrPush_exec (w : Wave) (i : Nat) (v : Word) : (lrPush w i v).exec = w.exec := rfl
@[simp] theorem lrPush_live (w : Wave) (i : Nat) (v : Word) : (lrPush w i v).live = w.live := rfl
@[simp] theorem lrPush_fresh (w : Wave) (i : Nat) (v : Word) : (lrPush w i v).fresh = w.fresh := rfl
@[simp] theorem lrPush_v (w : Wave) (i : Nat) (v : Word) : (lrPush w i v).v = w.v := rfl
@[simp] theorem lrPush_o (w : Wave) (i : Nat) (v : Word) : (lrPush w i v).o = w.o := rfl
@[simp] theorem lrPush_item (w : Wave) (i : Nat) (v : Word) : (lrPush w i v).item = w.item := rfl
@[simp] theorem lrPush_s (w : Wave) (i : Nat) (v : Word) : (lrPush w i v).s = w.s := rfl
@[simp] theorem lrPush_q (w : Wave) (i : Nat) (v : Word) : (lrPush w i v).q = w.q := rfl
@[simp] theorem lrPush_flags (w : Wave) (i : Nat) (v : Word) : (lrPush w i v).flags = w.flags := rfl
@[simp] theorem lrPush_fpcr (w : Wave) (i : Nat) (v : Word) : (lrPush w i v).fpcr = w.fpcr := rfl
@[simp] theorem lrPush_fpsr (w : Wave) (i : Nat) (v : Word) : (lrPush w i v).fpsr = w.fpsr := rfl
@[simp] theorem lrPush_lays (w : Wave) (i : Nat) (v : Word) : (lrPush w i v).lays = w.lays := rfl
@[simp] theorem lrPush_tiles (w : Wave) (i : Nat) (v : Word) : (lrPush w i v).tiles = w.tiles := rfl
@[simp] theorem lrPush_tstat (w : Wave) (i : Nat) (v : Word) : (lrPush w i v).tstat = w.tstat := rfl
@[simp] theorem lrPush_hctl (w : Wave) (i : Nat) (v : Word) : (lrPush w i v).hctl = w.hctl := rfl
@[simp] theorem lrPush_fpc (w : Wave) (i : Nat) (v : Word) : (lrPush w i v).fpc = w.fpc := rfl
@[simp] theorem lrPush_uexec (w : Wave) (i : Nat) (v : Word) : (lrPush w i v).uexec = w.uexec := rfl
@[simp] theorem lrPush_fmask (w : Wave) (i : Nat) (v : Word) : (lrPush w i v).fmask = w.fmask := rfl
@[simp] theorem lrPush_frame (w : Wave) (i : Nat) (v : Word) : (lrPush w i v).frame = w.frame := rfl
@[simp] theorem lrPush_trap (w : Wave) (i : Nat) (v : Word) : (lrPush w i v).trap = w.trap := rfl
@[simp] theorem lrPush_sbstall (w : Wave) (i : Nat) (v : Word) : (lrPush w i v).sbstall = w.sbstall := rfl
@[simp] theorem lrPush_wdcnt (w : Wave) (i : Nat) (v : Word) : (lrPush w i v).wdcnt = w.wdcnt := rfl
@[simp] theorem lrPush_wdArmed (w : Wave) (i : Nat) (v : Word) : (lrPush w i v).wdArmed = w.wdArmed := rfl
@[simp] theorem lrPush_trcost (w : Wave) (i : Nat) (v : Word) : (lrPush w i v).trcost = w.trcost := rfl
@[simp] theorem lrPush_bcd (w : Wave) (i : Nat) (v : Word) : (lrPush w i v).bcd = w.bcd := rfl
@[simp] theorem lrPush_mlstep (w : Wave) (i : Nat) (v : Word) : (lrPush w i v).mlstep = w.mlstep := rfl
@[simp] theorem lrPush_efcause (w : Wave) (i : Nat) (v : Word) : (lrPush w i v).efcause = w.efcause := rfl
@[simp] theorem lrPush_efva (w : Wave) (i : Nat) (v : Word) : (lrPush w i v).efva = w.efva := rfl
@[simp] theorem lrPush_marks (w : Wave) (i : Nat) (v : Word) : (lrPush w i v).marks = w.marks := rfl
@[simp] theorem lrPush_blocked (w : Wave) (i : Nat) (v : Word) : (lrPush w i v).blocked = w.blocked := rfl
@[simp] theorem lrPush_blockArg (w : Wave) (i : Nat) (v : Word) : (lrPush w i v).blockArg = w.blockArg := rfl
@[simp] theorem lrPush_crew (w : Wave) (i : Nat) (v : Word) : (lrPush w i v).crew = w.crew := rfl
@[simp] theorem lrPush_token (w : Wave) (i : Nat) (v : Word) : (lrPush w i v).token = w.token := rfl
@[simp] theorem lrPush_verdict (w : Wave) (i : Nat) (v : Word) : (lrPush w i v).verdict = w.verdict := rfl
@[simp] theorem lrPush_replay (w : Wave) (i : Nat) (v : Word) : (lrPush w i v).replay = w.replay := rfl
@[simp] theorem lrPush_isNew (w : Wave) (i : Nat) (v : Word) : (lrPush w i v).isNew = w.isNew := rfl
@[simp] theorem lrPush_placed (w : Wave) (i : Nat) (v : Word) : (lrPush w i v).placed = w.placed := rfl
@[simp] theorem lrPush_group (w : Wave) (i : Nat) (v : Word) : (lrPush w i v).group = w.group := rfl
@[simp] theorem lrPush_engFlags (w : Wave) (i : Nat) (v : Word) : (lrPush w i v).engFlags = w.engFlags := rfl
@[simp] theorem lrPush_scSys (w : Wave) (i : Nat) (v : Word) : (lrPush w i v).scSys = w.scSys := rfl
@[simp] theorem lrPush_again (w : Wave) (i : Nat) (v : Word) : (lrPush w i v).again = w.again := rfl

@[simp] theorem lrPair_uid (w : Wave) (i : Nat) (a b : Word) : (lrPair w i a b).uid = w.uid := rfl
@[simp] theorem lrPair_status (w : Wave) (i : Nat) (a b : Word) : (lrPair w i a b).status = w.status := rfl
@[simp] theorem lrPair_quad (w : Wave) (i : Nat) (a b : Word) : (lrPair w i a b).quad = w.quad := rfl
@[simp] theorem lrPair_wslot (w : Wave) (i : Nat) (a b : Word) : (lrPair w i a b).wslot = w.wslot := rfl
@[simp] theorem lrPair_ctx (w : Wave) (i : Nat) (a b : Word) : (lrPair w i a b).ctx = w.ctx := rfl
@[simp] theorem lrPair_launch (w : Wave) (i : Nat) (a b : Word) : (lrPair w i a b).launch = w.launch := rfl
@[simp] theorem lrPair_cord (w : Wave) (i : Nat) (a b : Word) : (lrPair w i a b).cord = w.cord := rfl
@[simp] theorem lrPair_waveNo (w : Wave) (i : Nat) (a b : Word) : (lrPair w i a b).waveNo = w.waveNo := rfl
@[simp] theorem lrPair_role (w : Wave) (i : Nat) (a b : Word) : (lrPair w i a b).role = w.role := rfl
@[simp] theorem lrPair_width (w : Wave) (i : Nat) (a b : Word) : (lrPair w i a b).width = w.width := rfl
@[simp] theorem lrPair_nregs (w : Wave) (i : Nat) (a b : Word) : (lrPair w i a b).nregs = w.nregs := rfl
@[simp] theorem lrPair_acc (w : Wave) (i : Nat) (a b : Word) : (lrPair w i a b).acc = w.acc := rfl
@[simp] theorem lrPair_nlay (w : Wave) (i : Nat) (a b : Word) : (lrPair w i a b).nlay = w.nlay := rfl
@[simp] theorem lrPair_args (w : Wave) (i : Nat) (a b : Word) : (lrPair w i a b).args = w.args := rfl
@[simp] theorem lrPair_prio (w : Wave) (i : Nat) (a b : Word) : (lrPair w i a b).prio = w.prio := rfl
@[simp] theorem lrPair_polls (w : Wave) (i : Nat) (a b : Word) : (lrPair w i a b).polls = w.polls := rfl
@[simp] theorem lrPair_supervisor (w : Wave) (i : Nat) (a b : Word) : (lrPair w i a b).supervisor = w.supervisor := rfl
@[simp] theorem lrPair_draining (w : Wave) (i : Nat) (a b : Word) : (lrPair w i a b).draining = w.draining := rfl
@[simp] theorem lrPair_pc (w : Wave) (i : Nat) (a b : Word) : (lrPair w i a b).pc = w.pc := rfl
@[simp] theorem lrPair_rstack (w : Wave) (i : Nat) (a b : Word) : (lrPair w i a b).rstack = w.rstack := rfl
@[simp] theorem lrPair_seta (w : Wave) (i : Nat) (a b : Word) : (lrPair w i a b).seta = w.seta := rfl
@[simp] theorem lrPair_setb (w : Wave) (i : Nat) (a b : Word) : (lrPair w i a b).setb = w.setb := rfl
@[simp] theorem lrPair_exec (w : Wave) (i : Nat) (a b : Word) : (lrPair w i a b).exec = w.exec := rfl
@[simp] theorem lrPair_live (w : Wave) (i : Nat) (a b : Word) : (lrPair w i a b).live = w.live := rfl
@[simp] theorem lrPair_fresh (w : Wave) (i : Nat) (a b : Word) : (lrPair w i a b).fresh = w.fresh := rfl
@[simp] theorem lrPair_v (w : Wave) (i : Nat) (a b : Word) : (lrPair w i a b).v = w.v := rfl
@[simp] theorem lrPair_o (w : Wave) (i : Nat) (a b : Word) : (lrPair w i a b).o = w.o := rfl
@[simp] theorem lrPair_item (w : Wave) (i : Nat) (a b : Word) : (lrPair w i a b).item = w.item := rfl
@[simp] theorem lrPair_s (w : Wave) (i : Nat) (a b : Word) : (lrPair w i a b).s = w.s := rfl
@[simp] theorem lrPair_q (w : Wave) (i : Nat) (a b : Word) : (lrPair w i a b).q = w.q := rfl
@[simp] theorem lrPair_flags (w : Wave) (i : Nat) (a b : Word) : (lrPair w i a b).flags = w.flags := rfl
@[simp] theorem lrPair_fpcr (w : Wave) (i : Nat) (a b : Word) : (lrPair w i a b).fpcr = w.fpcr := rfl
@[simp] theorem lrPair_fpsr (w : Wave) (i : Nat) (a b : Word) : (lrPair w i a b).fpsr = w.fpsr := rfl
@[simp] theorem lrPair_lays (w : Wave) (i : Nat) (a b : Word) : (lrPair w i a b).lays = w.lays := rfl
@[simp] theorem lrPair_tiles (w : Wave) (i : Nat) (a b : Word) : (lrPair w i a b).tiles = w.tiles := rfl
@[simp] theorem lrPair_tstat (w : Wave) (i : Nat) (a b : Word) : (lrPair w i a b).tstat = w.tstat := rfl
@[simp] theorem lrPair_hctl (w : Wave) (i : Nat) (a b : Word) : (lrPair w i a b).hctl = w.hctl := rfl
@[simp] theorem lrPair_fpc (w : Wave) (i : Nat) (a b : Word) : (lrPair w i a b).fpc = w.fpc := rfl
@[simp] theorem lrPair_uexec (w : Wave) (i : Nat) (a b : Word) : (lrPair w i a b).uexec = w.uexec := rfl
@[simp] theorem lrPair_fmask (w : Wave) (i : Nat) (a b : Word) : (lrPair w i a b).fmask = w.fmask := rfl
@[simp] theorem lrPair_frame (w : Wave) (i : Nat) (a b : Word) : (lrPair w i a b).frame = w.frame := rfl
@[simp] theorem lrPair_trap (w : Wave) (i : Nat) (a b : Word) : (lrPair w i a b).trap = w.trap := rfl
@[simp] theorem lrPair_sbstall (w : Wave) (i : Nat) (a b : Word) : (lrPair w i a b).sbstall = w.sbstall := rfl
@[simp] theorem lrPair_wdcnt (w : Wave) (i : Nat) (a b : Word) : (lrPair w i a b).wdcnt = w.wdcnt := rfl
@[simp] theorem lrPair_wdArmed (w : Wave) (i : Nat) (a b : Word) : (lrPair w i a b).wdArmed = w.wdArmed := rfl
@[simp] theorem lrPair_trcost (w : Wave) (i : Nat) (a b : Word) : (lrPair w i a b).trcost = w.trcost := rfl
@[simp] theorem lrPair_bcd (w : Wave) (i : Nat) (a b : Word) : (lrPair w i a b).bcd = w.bcd := rfl
@[simp] theorem lrPair_mlstep (w : Wave) (i : Nat) (a b : Word) : (lrPair w i a b).mlstep = w.mlstep := rfl
@[simp] theorem lrPair_efcause (w : Wave) (i : Nat) (a b : Word) : (lrPair w i a b).efcause = w.efcause := rfl
@[simp] theorem lrPair_efva (w : Wave) (i : Nat) (a b : Word) : (lrPair w i a b).efva = w.efva := rfl
@[simp] theorem lrPair_marks (w : Wave) (i : Nat) (a b : Word) : (lrPair w i a b).marks = w.marks := rfl
@[simp] theorem lrPair_blocked (w : Wave) (i : Nat) (a b : Word) : (lrPair w i a b).blocked = w.blocked := rfl
@[simp] theorem lrPair_blockArg (w : Wave) (i : Nat) (a b : Word) : (lrPair w i a b).blockArg = w.blockArg := rfl
@[simp] theorem lrPair_crew (w : Wave) (i : Nat) (a b : Word) : (lrPair w i a b).crew = w.crew := rfl
@[simp] theorem lrPair_token (w : Wave) (i : Nat) (a b : Word) : (lrPair w i a b).token = w.token := rfl
@[simp] theorem lrPair_verdict (w : Wave) (i : Nat) (a b : Word) : (lrPair w i a b).verdict = w.verdict := rfl
@[simp] theorem lrPair_replay (w : Wave) (i : Nat) (a b : Word) : (lrPair w i a b).replay = w.replay := rfl
@[simp] theorem lrPair_isNew (w : Wave) (i : Nat) (a b : Word) : (lrPair w i a b).isNew = w.isNew := rfl
@[simp] theorem lrPair_placed (w : Wave) (i : Nat) (a b : Word) : (lrPair w i a b).placed = w.placed := rfl
@[simp] theorem lrPair_group (w : Wave) (i : Nat) (a b : Word) : (lrPair w i a b).group = w.group := rfl
@[simp] theorem lrPair_engFlags (w : Wave) (i : Nat) (a b : Word) : (lrPair w i a b).engFlags = w.engFlags := rfl
@[simp] theorem lrPair_scSys (w : Wave) (i : Nat) (a b : Word) : (lrPair w i a b).scSys = w.scSys := rfl
@[simp] theorem lrPair_again (w : Wave) (i : Nat) (a b : Word) : (lrPair w i a b).again = w.again := rfl

@[simp] theorem sSet_uid (w : Wave) (n : Nat) (v : Word) : (sSet w n v).uid = w.uid := rfl
@[simp] theorem sSet_status (w : Wave) (n : Nat) (v : Word) : (sSet w n v).status = w.status := rfl
@[simp] theorem sSet_quad (w : Wave) (n : Nat) (v : Word) : (sSet w n v).quad = w.quad := rfl
@[simp] theorem sSet_wslot (w : Wave) (n : Nat) (v : Word) : (sSet w n v).wslot = w.wslot := rfl
@[simp] theorem sSet_ctx (w : Wave) (n : Nat) (v : Word) : (sSet w n v).ctx = w.ctx := rfl
@[simp] theorem sSet_launch (w : Wave) (n : Nat) (v : Word) : (sSet w n v).launch = w.launch := rfl
@[simp] theorem sSet_cord (w : Wave) (n : Nat) (v : Word) : (sSet w n v).cord = w.cord := rfl
@[simp] theorem sSet_waveNo (w : Wave) (n : Nat) (v : Word) : (sSet w n v).waveNo = w.waveNo := rfl
@[simp] theorem sSet_role (w : Wave) (n : Nat) (v : Word) : (sSet w n v).role = w.role := rfl
@[simp] theorem sSet_width (w : Wave) (n : Nat) (v : Word) : (sSet w n v).width = w.width := rfl
@[simp] theorem sSet_nregs (w : Wave) (n : Nat) (v : Word) : (sSet w n v).nregs = w.nregs := rfl
@[simp] theorem sSet_acc (w : Wave) (n : Nat) (v : Word) : (sSet w n v).acc = w.acc := rfl
@[simp] theorem sSet_nlay (w : Wave) (n : Nat) (v : Word) : (sSet w n v).nlay = w.nlay := rfl
@[simp] theorem sSet_args (w : Wave) (n : Nat) (v : Word) : (sSet w n v).args = w.args := rfl
@[simp] theorem sSet_prio (w : Wave) (n : Nat) (v : Word) : (sSet w n v).prio = w.prio := rfl
@[simp] theorem sSet_polls (w : Wave) (n : Nat) (v : Word) : (sSet w n v).polls = w.polls := rfl
@[simp] theorem sSet_supervisor (w : Wave) (n : Nat) (v : Word) : (sSet w n v).supervisor = w.supervisor := rfl
@[simp] theorem sSet_draining (w : Wave) (n : Nat) (v : Word) : (sSet w n v).draining = w.draining := rfl
@[simp] theorem sSet_pc (w : Wave) (n : Nat) (v : Word) : (sSet w n v).pc = w.pc := rfl
@[simp] theorem sSet_rstack (w : Wave) (n : Nat) (v : Word) : (sSet w n v).rstack = w.rstack := rfl
@[simp] theorem sSet_seta (w : Wave) (n : Nat) (v : Word) : (sSet w n v).seta = w.seta := rfl
@[simp] theorem sSet_setb (w : Wave) (n : Nat) (v : Word) : (sSet w n v).setb = w.setb := rfl
@[simp] theorem sSet_exec (w : Wave) (n : Nat) (v : Word) : (sSet w n v).exec = w.exec := rfl
@[simp] theorem sSet_live (w : Wave) (n : Nat) (v : Word) : (sSet w n v).live = w.live := rfl
@[simp] theorem sSet_fresh (w : Wave) (n : Nat) (v : Word) : (sSet w n v).fresh = w.fresh := rfl
@[simp] theorem sSet_v (w : Wave) (n : Nat) (v : Word) : (sSet w n v).v = w.v := rfl
@[simp] theorem sSet_o (w : Wave) (n : Nat) (v : Word) : (sSet w n v).o = w.o := rfl
@[simp] theorem sSet_lr0 (w : Wave) (n : Nat) (v : Word) : (sSet w n v).lr0 = w.lr0 := rfl
@[simp] theorem sSet_lr1 (w : Wave) (n : Nat) (v : Word) : (sSet w n v).lr1 = w.lr1 := rfl
@[simp] theorem sSet_item (w : Wave) (n : Nat) (v : Word) : (sSet w n v).item = w.item := rfl
@[simp] theorem sSet_q (w : Wave) (n : Nat) (v : Word) : (sSet w n v).q = w.q := rfl
@[simp] theorem sSet_flags (w : Wave) (n : Nat) (v : Word) : (sSet w n v).flags = w.flags := rfl
@[simp] theorem sSet_fpcr (w : Wave) (n : Nat) (v : Word) : (sSet w n v).fpcr = w.fpcr := rfl
@[simp] theorem sSet_fpsr (w : Wave) (n : Nat) (v : Word) : (sSet w n v).fpsr = w.fpsr := rfl
@[simp] theorem sSet_lays (w : Wave) (n : Nat) (v : Word) : (sSet w n v).lays = w.lays := rfl
@[simp] theorem sSet_tiles (w : Wave) (n : Nat) (v : Word) : (sSet w n v).tiles = w.tiles := rfl
@[simp] theorem sSet_tstat (w : Wave) (n : Nat) (v : Word) : (sSet w n v).tstat = w.tstat := rfl
@[simp] theorem sSet_hctl (w : Wave) (n : Nat) (v : Word) : (sSet w n v).hctl = w.hctl := rfl
@[simp] theorem sSet_fpc (w : Wave) (n : Nat) (v : Word) : (sSet w n v).fpc = w.fpc := rfl
@[simp] theorem sSet_uexec (w : Wave) (n : Nat) (v : Word) : (sSet w n v).uexec = w.uexec := rfl
@[simp] theorem sSet_fmask (w : Wave) (n : Nat) (v : Word) : (sSet w n v).fmask = w.fmask := rfl
@[simp] theorem sSet_frame (w : Wave) (n : Nat) (v : Word) : (sSet w n v).frame = w.frame := rfl
@[simp] theorem sSet_trap (w : Wave) (n : Nat) (v : Word) : (sSet w n v).trap = w.trap := rfl
@[simp] theorem sSet_sbstall (w : Wave) (n : Nat) (v : Word) : (sSet w n v).sbstall = w.sbstall := rfl
@[simp] theorem sSet_wdcnt (w : Wave) (n : Nat) (v : Word) : (sSet w n v).wdcnt = w.wdcnt := rfl
@[simp] theorem sSet_wdArmed (w : Wave) (n : Nat) (v : Word) : (sSet w n v).wdArmed = w.wdArmed := rfl
@[simp] theorem sSet_trcost (w : Wave) (n : Nat) (v : Word) : (sSet w n v).trcost = w.trcost := rfl
@[simp] theorem sSet_bcd (w : Wave) (n : Nat) (v : Word) : (sSet w n v).bcd = w.bcd := rfl
@[simp] theorem sSet_mlstep (w : Wave) (n : Nat) (v : Word) : (sSet w n v).mlstep = w.mlstep := rfl
@[simp] theorem sSet_efcause (w : Wave) (n : Nat) (v : Word) : (sSet w n v).efcause = w.efcause := rfl
@[simp] theorem sSet_efva (w : Wave) (n : Nat) (v : Word) : (sSet w n v).efva = w.efva := rfl
@[simp] theorem sSet_marks (w : Wave) (n : Nat) (v : Word) : (sSet w n v).marks = w.marks := rfl
@[simp] theorem sSet_blocked (w : Wave) (n : Nat) (v : Word) : (sSet w n v).blocked = w.blocked := rfl
@[simp] theorem sSet_blockArg (w : Wave) (n : Nat) (v : Word) : (sSet w n v).blockArg = w.blockArg := rfl
@[simp] theorem sSet_crew (w : Wave) (n : Nat) (v : Word) : (sSet w n v).crew = w.crew := rfl
@[simp] theorem sSet_token (w : Wave) (n : Nat) (v : Word) : (sSet w n v).token = w.token := rfl
@[simp] theorem sSet_verdict (w : Wave) (n : Nat) (v : Word) : (sSet w n v).verdict = w.verdict := rfl
@[simp] theorem sSet_replay (w : Wave) (n : Nat) (v : Word) : (sSet w n v).replay = w.replay := rfl
@[simp] theorem sSet_isNew (w : Wave) (n : Nat) (v : Word) : (sSet w n v).isNew = w.isNew := rfl
@[simp] theorem sSet_placed (w : Wave) (n : Nat) (v : Word) : (sSet w n v).placed = w.placed := rfl
@[simp] theorem sSet_group (w : Wave) (n : Nat) (v : Word) : (sSet w n v).group = w.group := rfl
@[simp] theorem sSet_engFlags (w : Wave) (n : Nat) (v : Word) : (sSet w n v).engFlags = w.engFlags := rfl
@[simp] theorem sSet_scSys (w : Wave) (n : Nat) (v : Word) : (sSet w n v).scSys = w.scSys := rfl
@[simp] theorem sSet_again (w : Wave) (n : Nat) (v : Word) : (sSet w n v).again = w.again := rfl

@[simp] theorem qWrite_uid (w : Wave) (n : Nat) (b : Bool) : (qWrite w n b).uid = w.uid := rfl
@[simp] theorem qWrite_status (w : Wave) (n : Nat) (b : Bool) : (qWrite w n b).status = w.status := rfl
@[simp] theorem qWrite_quad (w : Wave) (n : Nat) (b : Bool) : (qWrite w n b).quad = w.quad := rfl
@[simp] theorem qWrite_wslot (w : Wave) (n : Nat) (b : Bool) : (qWrite w n b).wslot = w.wslot := rfl
@[simp] theorem qWrite_ctx (w : Wave) (n : Nat) (b : Bool) : (qWrite w n b).ctx = w.ctx := rfl
@[simp] theorem qWrite_launch (w : Wave) (n : Nat) (b : Bool) : (qWrite w n b).launch = w.launch := rfl
@[simp] theorem qWrite_cord (w : Wave) (n : Nat) (b : Bool) : (qWrite w n b).cord = w.cord := rfl
@[simp] theorem qWrite_waveNo (w : Wave) (n : Nat) (b : Bool) : (qWrite w n b).waveNo = w.waveNo := rfl
@[simp] theorem qWrite_role (w : Wave) (n : Nat) (b : Bool) : (qWrite w n b).role = w.role := rfl
@[simp] theorem qWrite_width (w : Wave) (n : Nat) (b : Bool) : (qWrite w n b).width = w.width := rfl
@[simp] theorem qWrite_nregs (w : Wave) (n : Nat) (b : Bool) : (qWrite w n b).nregs = w.nregs := rfl
@[simp] theorem qWrite_acc (w : Wave) (n : Nat) (b : Bool) : (qWrite w n b).acc = w.acc := rfl
@[simp] theorem qWrite_nlay (w : Wave) (n : Nat) (b : Bool) : (qWrite w n b).nlay = w.nlay := rfl
@[simp] theorem qWrite_args (w : Wave) (n : Nat) (b : Bool) : (qWrite w n b).args = w.args := rfl
@[simp] theorem qWrite_prio (w : Wave) (n : Nat) (b : Bool) : (qWrite w n b).prio = w.prio := rfl
@[simp] theorem qWrite_polls (w : Wave) (n : Nat) (b : Bool) : (qWrite w n b).polls = w.polls := rfl
@[simp] theorem qWrite_supervisor (w : Wave) (n : Nat) (b : Bool) : (qWrite w n b).supervisor = w.supervisor := rfl
@[simp] theorem qWrite_draining (w : Wave) (n : Nat) (b : Bool) : (qWrite w n b).draining = w.draining := rfl
@[simp] theorem qWrite_pc (w : Wave) (n : Nat) (b : Bool) : (qWrite w n b).pc = w.pc := rfl
@[simp] theorem qWrite_rstack (w : Wave) (n : Nat) (b : Bool) : (qWrite w n b).rstack = w.rstack := rfl
@[simp] theorem qWrite_seta (w : Wave) (n : Nat) (b : Bool) : (qWrite w n b).seta = w.seta := rfl
@[simp] theorem qWrite_setb (w : Wave) (n : Nat) (b : Bool) : (qWrite w n b).setb = w.setb := rfl
@[simp] theorem qWrite_exec (w : Wave) (n : Nat) (b : Bool) : (qWrite w n b).exec = w.exec := rfl
@[simp] theorem qWrite_live (w : Wave) (n : Nat) (b : Bool) : (qWrite w n b).live = w.live := rfl
@[simp] theorem qWrite_fresh (w : Wave) (n : Nat) (b : Bool) : (qWrite w n b).fresh = w.fresh := rfl
@[simp] theorem qWrite_v (w : Wave) (n : Nat) (b : Bool) : (qWrite w n b).v = w.v := rfl
@[simp] theorem qWrite_o (w : Wave) (n : Nat) (b : Bool) : (qWrite w n b).o = w.o := rfl
@[simp] theorem qWrite_lr0 (w : Wave) (n : Nat) (b : Bool) : (qWrite w n b).lr0 = w.lr0 := rfl
@[simp] theorem qWrite_lr1 (w : Wave) (n : Nat) (b : Bool) : (qWrite w n b).lr1 = w.lr1 := rfl
@[simp] theorem qWrite_item (w : Wave) (n : Nat) (b : Bool) : (qWrite w n b).item = w.item := rfl
@[simp] theorem qWrite_s (w : Wave) (n : Nat) (b : Bool) : (qWrite w n b).s = w.s := rfl
@[simp] theorem qWrite_flags (w : Wave) (n : Nat) (b : Bool) : (qWrite w n b).flags = w.flags := rfl
@[simp] theorem qWrite_fpcr (w : Wave) (n : Nat) (b : Bool) : (qWrite w n b).fpcr = w.fpcr := rfl
@[simp] theorem qWrite_fpsr (w : Wave) (n : Nat) (b : Bool) : (qWrite w n b).fpsr = w.fpsr := rfl
@[simp] theorem qWrite_lays (w : Wave) (n : Nat) (b : Bool) : (qWrite w n b).lays = w.lays := rfl
@[simp] theorem qWrite_tiles (w : Wave) (n : Nat) (b : Bool) : (qWrite w n b).tiles = w.tiles := rfl
@[simp] theorem qWrite_tstat (w : Wave) (n : Nat) (b : Bool) : (qWrite w n b).tstat = w.tstat := rfl
@[simp] theorem qWrite_hctl (w : Wave) (n : Nat) (b : Bool) : (qWrite w n b).hctl = w.hctl := rfl
@[simp] theorem qWrite_fpc (w : Wave) (n : Nat) (b : Bool) : (qWrite w n b).fpc = w.fpc := rfl
@[simp] theorem qWrite_uexec (w : Wave) (n : Nat) (b : Bool) : (qWrite w n b).uexec = w.uexec := rfl
@[simp] theorem qWrite_fmask (w : Wave) (n : Nat) (b : Bool) : (qWrite w n b).fmask = w.fmask := rfl
@[simp] theorem qWrite_frame (w : Wave) (n : Nat) (b : Bool) : (qWrite w n b).frame = w.frame := rfl
@[simp] theorem qWrite_trap (w : Wave) (n : Nat) (b : Bool) : (qWrite w n b).trap = w.trap := rfl
@[simp] theorem qWrite_sbstall (w : Wave) (n : Nat) (b : Bool) : (qWrite w n b).sbstall = w.sbstall := rfl
@[simp] theorem qWrite_wdcnt (w : Wave) (n : Nat) (b : Bool) : (qWrite w n b).wdcnt = w.wdcnt := rfl
@[simp] theorem qWrite_wdArmed (w : Wave) (n : Nat) (b : Bool) : (qWrite w n b).wdArmed = w.wdArmed := rfl
@[simp] theorem qWrite_trcost (w : Wave) (n : Nat) (b : Bool) : (qWrite w n b).trcost = w.trcost := rfl
@[simp] theorem qWrite_bcd (w : Wave) (n : Nat) (b : Bool) : (qWrite w n b).bcd = w.bcd := rfl
@[simp] theorem qWrite_mlstep (w : Wave) (n : Nat) (b : Bool) : (qWrite w n b).mlstep = w.mlstep := rfl
@[simp] theorem qWrite_efcause (w : Wave) (n : Nat) (b : Bool) : (qWrite w n b).efcause = w.efcause := rfl
@[simp] theorem qWrite_efva (w : Wave) (n : Nat) (b : Bool) : (qWrite w n b).efva = w.efva := rfl
@[simp] theorem qWrite_marks (w : Wave) (n : Nat) (b : Bool) : (qWrite w n b).marks = w.marks := rfl
@[simp] theorem qWrite_blocked (w : Wave) (n : Nat) (b : Bool) : (qWrite w n b).blocked = w.blocked := rfl
@[simp] theorem qWrite_blockArg (w : Wave) (n : Nat) (b : Bool) : (qWrite w n b).blockArg = w.blockArg := rfl
@[simp] theorem qWrite_crew (w : Wave) (n : Nat) (b : Bool) : (qWrite w n b).crew = w.crew := rfl
@[simp] theorem qWrite_token (w : Wave) (n : Nat) (b : Bool) : (qWrite w n b).token = w.token := rfl
@[simp] theorem qWrite_verdict (w : Wave) (n : Nat) (b : Bool) : (qWrite w n b).verdict = w.verdict := rfl
@[simp] theorem qWrite_replay (w : Wave) (n : Nat) (b : Bool) : (qWrite w n b).replay = w.replay := rfl
@[simp] theorem qWrite_isNew (w : Wave) (n : Nat) (b : Bool) : (qWrite w n b).isNew = w.isNew := rfl
@[simp] theorem qWrite_placed (w : Wave) (n : Nat) (b : Bool) : (qWrite w n b).placed = w.placed := rfl
@[simp] theorem qWrite_group (w : Wave) (n : Nat) (b : Bool) : (qWrite w n b).group = w.group := rfl
@[simp] theorem qWrite_engFlags (w : Wave) (n : Nat) (b : Bool) : (qWrite w n b).engFlags = w.engFlags := rfl
@[simp] theorem qWrite_scSys (w : Wave) (n : Nat) (b : Bool) : (qWrite w n b).scSys = w.scSys := rfl
@[simp] theorem qWrite_again (w : Wave) (n : Nat) (b : Bool) : (qWrite w n b).again = w.again := rfl

@[simp] theorem fWrite_uid (w : Wave) (n v : Nat) : (fWrite w n v).uid = w.uid := rfl
@[simp] theorem fWrite_status (w : Wave) (n v : Nat) : (fWrite w n v).status = w.status := rfl
@[simp] theorem fWrite_quad (w : Wave) (n v : Nat) : (fWrite w n v).quad = w.quad := rfl
@[simp] theorem fWrite_wslot (w : Wave) (n v : Nat) : (fWrite w n v).wslot = w.wslot := rfl
@[simp] theorem fWrite_ctx (w : Wave) (n v : Nat) : (fWrite w n v).ctx = w.ctx := rfl
@[simp] theorem fWrite_launch (w : Wave) (n v : Nat) : (fWrite w n v).launch = w.launch := rfl
@[simp] theorem fWrite_cord (w : Wave) (n v : Nat) : (fWrite w n v).cord = w.cord := rfl
@[simp] theorem fWrite_waveNo (w : Wave) (n v : Nat) : (fWrite w n v).waveNo = w.waveNo := rfl
@[simp] theorem fWrite_role (w : Wave) (n v : Nat) : (fWrite w n v).role = w.role := rfl
@[simp] theorem fWrite_width (w : Wave) (n v : Nat) : (fWrite w n v).width = w.width := rfl
@[simp] theorem fWrite_nregs (w : Wave) (n v : Nat) : (fWrite w n v).nregs = w.nregs := rfl
@[simp] theorem fWrite_acc (w : Wave) (n v : Nat) : (fWrite w n v).acc = w.acc := rfl
@[simp] theorem fWrite_nlay (w : Wave) (n v : Nat) : (fWrite w n v).nlay = w.nlay := rfl
@[simp] theorem fWrite_args (w : Wave) (n v : Nat) : (fWrite w n v).args = w.args := rfl
@[simp] theorem fWrite_prio (w : Wave) (n v : Nat) : (fWrite w n v).prio = w.prio := rfl
@[simp] theorem fWrite_polls (w : Wave) (n v : Nat) : (fWrite w n v).polls = w.polls := rfl
@[simp] theorem fWrite_supervisor (w : Wave) (n v : Nat) : (fWrite w n v).supervisor = w.supervisor := rfl
@[simp] theorem fWrite_draining (w : Wave) (n v : Nat) : (fWrite w n v).draining = w.draining := rfl
@[simp] theorem fWrite_pc (w : Wave) (n v : Nat) : (fWrite w n v).pc = w.pc := rfl
@[simp] theorem fWrite_rstack (w : Wave) (n v : Nat) : (fWrite w n v).rstack = w.rstack := rfl
@[simp] theorem fWrite_seta (w : Wave) (n v : Nat) : (fWrite w n v).seta = w.seta := rfl
@[simp] theorem fWrite_setb (w : Wave) (n v : Nat) : (fWrite w n v).setb = w.setb := rfl
@[simp] theorem fWrite_exec (w : Wave) (n v : Nat) : (fWrite w n v).exec = w.exec := rfl
@[simp] theorem fWrite_live (w : Wave) (n v : Nat) : (fWrite w n v).live = w.live := rfl
@[simp] theorem fWrite_fresh (w : Wave) (n v : Nat) : (fWrite w n v).fresh = w.fresh := rfl
@[simp] theorem fWrite_v (w : Wave) (n v : Nat) : (fWrite w n v).v = w.v := rfl
@[simp] theorem fWrite_o (w : Wave) (n v : Nat) : (fWrite w n v).o = w.o := rfl
@[simp] theorem fWrite_lr0 (w : Wave) (n v : Nat) : (fWrite w n v).lr0 = w.lr0 := rfl
@[simp] theorem fWrite_lr1 (w : Wave) (n v : Nat) : (fWrite w n v).lr1 = w.lr1 := rfl
@[simp] theorem fWrite_item (w : Wave) (n v : Nat) : (fWrite w n v).item = w.item := rfl
@[simp] theorem fWrite_s (w : Wave) (n v : Nat) : (fWrite w n v).s = w.s := rfl
@[simp] theorem fWrite_q (w : Wave) (n v : Nat) : (fWrite w n v).q = w.q := rfl
@[simp] theorem fWrite_fpcr (w : Wave) (n v : Nat) : (fWrite w n v).fpcr = w.fpcr := rfl
@[simp] theorem fWrite_fpsr (w : Wave) (n v : Nat) : (fWrite w n v).fpsr = w.fpsr := rfl
@[simp] theorem fWrite_lays (w : Wave) (n v : Nat) : (fWrite w n v).lays = w.lays := rfl
@[simp] theorem fWrite_tiles (w : Wave) (n v : Nat) : (fWrite w n v).tiles = w.tiles := rfl
@[simp] theorem fWrite_tstat (w : Wave) (n v : Nat) : (fWrite w n v).tstat = w.tstat := rfl
@[simp] theorem fWrite_hctl (w : Wave) (n v : Nat) : (fWrite w n v).hctl = w.hctl := rfl
@[simp] theorem fWrite_fpc (w : Wave) (n v : Nat) : (fWrite w n v).fpc = w.fpc := rfl
@[simp] theorem fWrite_uexec (w : Wave) (n v : Nat) : (fWrite w n v).uexec = w.uexec := rfl
@[simp] theorem fWrite_fmask (w : Wave) (n v : Nat) : (fWrite w n v).fmask = w.fmask := rfl
@[simp] theorem fWrite_frame (w : Wave) (n v : Nat) : (fWrite w n v).frame = w.frame := rfl
@[simp] theorem fWrite_trap (w : Wave) (n v : Nat) : (fWrite w n v).trap = w.trap := rfl
@[simp] theorem fWrite_sbstall (w : Wave) (n v : Nat) : (fWrite w n v).sbstall = w.sbstall := rfl
@[simp] theorem fWrite_wdcnt (w : Wave) (n v : Nat) : (fWrite w n v).wdcnt = w.wdcnt := rfl
@[simp] theorem fWrite_wdArmed (w : Wave) (n v : Nat) : (fWrite w n v).wdArmed = w.wdArmed := rfl
@[simp] theorem fWrite_trcost (w : Wave) (n v : Nat) : (fWrite w n v).trcost = w.trcost := rfl
@[simp] theorem fWrite_bcd (w : Wave) (n v : Nat) : (fWrite w n v).bcd = w.bcd := rfl
@[simp] theorem fWrite_mlstep (w : Wave) (n v : Nat) : (fWrite w n v).mlstep = w.mlstep := rfl
@[simp] theorem fWrite_efcause (w : Wave) (n v : Nat) : (fWrite w n v).efcause = w.efcause := rfl
@[simp] theorem fWrite_efva (w : Wave) (n v : Nat) : (fWrite w n v).efva = w.efva := rfl
@[simp] theorem fWrite_marks (w : Wave) (n v : Nat) : (fWrite w n v).marks = w.marks := rfl
@[simp] theorem fWrite_blocked (w : Wave) (n v : Nat) : (fWrite w n v).blocked = w.blocked := rfl
@[simp] theorem fWrite_blockArg (w : Wave) (n v : Nat) : (fWrite w n v).blockArg = w.blockArg := rfl
@[simp] theorem fWrite_crew (w : Wave) (n v : Nat) : (fWrite w n v).crew = w.crew := rfl
@[simp] theorem fWrite_token (w : Wave) (n v : Nat) : (fWrite w n v).token = w.token := rfl
@[simp] theorem fWrite_verdict (w : Wave) (n v : Nat) : (fWrite w n v).verdict = w.verdict := rfl
@[simp] theorem fWrite_replay (w : Wave) (n v : Nat) : (fWrite w n v).replay = w.replay := rfl
@[simp] theorem fWrite_isNew (w : Wave) (n v : Nat) : (fWrite w n v).isNew = w.isNew := rfl
@[simp] theorem fWrite_placed (w : Wave) (n v : Nat) : (fWrite w n v).placed = w.placed := rfl
@[simp] theorem fWrite_group (w : Wave) (n v : Nat) : (fWrite w n v).group = w.group := rfl
@[simp] theorem fWrite_engFlags (w : Wave) (n v : Nat) : (fWrite w n v).engFlags = w.engFlags := rfl
@[simp] theorem fWrite_scSys (w : Wave) (n v : Nat) : (fWrite w n v).scSys = w.scSys := rfl
@[simp] theorem fWrite_again (w : Wave) (n v : Nat) : (fWrite w n v).again = w.again := rfl

@[simp] theorem flagInc_uid (w : Wave) (f : Option Nat) : (flagInc w f).uid = w.uid := by cases f <;> rfl
@[simp] theorem flagInc_status (w : Wave) (f : Option Nat) : (flagInc w f).status = w.status := by cases f <;> rfl
@[simp] theorem flagInc_quad (w : Wave) (f : Option Nat) : (flagInc w f).quad = w.quad := by cases f <;> rfl
@[simp] theorem flagInc_wslot (w : Wave) (f : Option Nat) : (flagInc w f).wslot = w.wslot := by cases f <;> rfl
@[simp] theorem flagInc_ctx (w : Wave) (f : Option Nat) : (flagInc w f).ctx = w.ctx := by cases f <;> rfl
@[simp] theorem flagInc_launch (w : Wave) (f : Option Nat) : (flagInc w f).launch = w.launch := by cases f <;> rfl
@[simp] theorem flagInc_cord (w : Wave) (f : Option Nat) : (flagInc w f).cord = w.cord := by cases f <;> rfl
@[simp] theorem flagInc_waveNo (w : Wave) (f : Option Nat) : (flagInc w f).waveNo = w.waveNo := by cases f <;> rfl
@[simp] theorem flagInc_role (w : Wave) (f : Option Nat) : (flagInc w f).role = w.role := by cases f <;> rfl
@[simp] theorem flagInc_width (w : Wave) (f : Option Nat) : (flagInc w f).width = w.width := by cases f <;> rfl
@[simp] theorem flagInc_nregs (w : Wave) (f : Option Nat) : (flagInc w f).nregs = w.nregs := by cases f <;> rfl
@[simp] theorem flagInc_acc (w : Wave) (f : Option Nat) : (flagInc w f).acc = w.acc := by cases f <;> rfl
@[simp] theorem flagInc_nlay (w : Wave) (f : Option Nat) : (flagInc w f).nlay = w.nlay := by cases f <;> rfl
@[simp] theorem flagInc_args (w : Wave) (f : Option Nat) : (flagInc w f).args = w.args := by cases f <;> rfl
@[simp] theorem flagInc_prio (w : Wave) (f : Option Nat) : (flagInc w f).prio = w.prio := by cases f <;> rfl
@[simp] theorem flagInc_polls (w : Wave) (f : Option Nat) : (flagInc w f).polls = w.polls := by cases f <;> rfl
@[simp] theorem flagInc_supervisor (w : Wave) (f : Option Nat) : (flagInc w f).supervisor = w.supervisor := by cases f <;> rfl
@[simp] theorem flagInc_draining (w : Wave) (f : Option Nat) : (flagInc w f).draining = w.draining := by cases f <;> rfl
@[simp] theorem flagInc_pc (w : Wave) (f : Option Nat) : (flagInc w f).pc = w.pc := by cases f <;> rfl
@[simp] theorem flagInc_rstack (w : Wave) (f : Option Nat) : (flagInc w f).rstack = w.rstack := by cases f <;> rfl
@[simp] theorem flagInc_seta (w : Wave) (f : Option Nat) : (flagInc w f).seta = w.seta := by cases f <;> rfl
@[simp] theorem flagInc_setb (w : Wave) (f : Option Nat) : (flagInc w f).setb = w.setb := by cases f <;> rfl
@[simp] theorem flagInc_exec (w : Wave) (f : Option Nat) : (flagInc w f).exec = w.exec := by cases f <;> rfl
@[simp] theorem flagInc_live (w : Wave) (f : Option Nat) : (flagInc w f).live = w.live := by cases f <;> rfl
@[simp] theorem flagInc_fresh (w : Wave) (f : Option Nat) : (flagInc w f).fresh = w.fresh := by cases f <;> rfl
@[simp] theorem flagInc_v (w : Wave) (f : Option Nat) : (flagInc w f).v = w.v := by cases f <;> rfl
@[simp] theorem flagInc_o (w : Wave) (f : Option Nat) : (flagInc w f).o = w.o := by cases f <;> rfl
@[simp] theorem flagInc_lr0 (w : Wave) (f : Option Nat) : (flagInc w f).lr0 = w.lr0 := by cases f <;> rfl
@[simp] theorem flagInc_lr1 (w : Wave) (f : Option Nat) : (flagInc w f).lr1 = w.lr1 := by cases f <;> rfl
@[simp] theorem flagInc_item (w : Wave) (f : Option Nat) : (flagInc w f).item = w.item := by cases f <;> rfl
@[simp] theorem flagInc_s (w : Wave) (f : Option Nat) : (flagInc w f).s = w.s := by cases f <;> rfl
@[simp] theorem flagInc_q (w : Wave) (f : Option Nat) : (flagInc w f).q = w.q := by cases f <;> rfl
@[simp] theorem flagInc_fpcr (w : Wave) (f : Option Nat) : (flagInc w f).fpcr = w.fpcr := by cases f <;> rfl
@[simp] theorem flagInc_fpsr (w : Wave) (f : Option Nat) : (flagInc w f).fpsr = w.fpsr := by cases f <;> rfl
@[simp] theorem flagInc_lays (w : Wave) (f : Option Nat) : (flagInc w f).lays = w.lays := by cases f <;> rfl
@[simp] theorem flagInc_tiles (w : Wave) (f : Option Nat) : (flagInc w f).tiles = w.tiles := by cases f <;> rfl
@[simp] theorem flagInc_tstat (w : Wave) (f : Option Nat) : (flagInc w f).tstat = w.tstat := by cases f <;> rfl
@[simp] theorem flagInc_hctl (w : Wave) (f : Option Nat) : (flagInc w f).hctl = w.hctl := by cases f <;> rfl
@[simp] theorem flagInc_fpc (w : Wave) (f : Option Nat) : (flagInc w f).fpc = w.fpc := by cases f <;> rfl
@[simp] theorem flagInc_uexec (w : Wave) (f : Option Nat) : (flagInc w f).uexec = w.uexec := by cases f <;> rfl
@[simp] theorem flagInc_fmask (w : Wave) (f : Option Nat) : (flagInc w f).fmask = w.fmask := by cases f <;> rfl
@[simp] theorem flagInc_frame (w : Wave) (f : Option Nat) : (flagInc w f).frame = w.frame := by cases f <;> rfl
@[simp] theorem flagInc_trap (w : Wave) (f : Option Nat) : (flagInc w f).trap = w.trap := by cases f <;> rfl
@[simp] theorem flagInc_sbstall (w : Wave) (f : Option Nat) : (flagInc w f).sbstall = w.sbstall := by cases f <;> rfl
@[simp] theorem flagInc_wdcnt (w : Wave) (f : Option Nat) : (flagInc w f).wdcnt = w.wdcnt := by cases f <;> rfl
@[simp] theorem flagInc_wdArmed (w : Wave) (f : Option Nat) : (flagInc w f).wdArmed = w.wdArmed := by cases f <;> rfl
@[simp] theorem flagInc_trcost (w : Wave) (f : Option Nat) : (flagInc w f).trcost = w.trcost := by cases f <;> rfl
@[simp] theorem flagInc_bcd (w : Wave) (f : Option Nat) : (flagInc w f).bcd = w.bcd := by cases f <;> rfl
@[simp] theorem flagInc_mlstep (w : Wave) (f : Option Nat) : (flagInc w f).mlstep = w.mlstep := by cases f <;> rfl
@[simp] theorem flagInc_efcause (w : Wave) (f : Option Nat) : (flagInc w f).efcause = w.efcause := by cases f <;> rfl
@[simp] theorem flagInc_efva (w : Wave) (f : Option Nat) : (flagInc w f).efva = w.efva := by cases f <;> rfl
@[simp] theorem flagInc_marks (w : Wave) (f : Option Nat) : (flagInc w f).marks = w.marks := by cases f <;> rfl
@[simp] theorem flagInc_blocked (w : Wave) (f : Option Nat) : (flagInc w f).blocked = w.blocked := by cases f <;> rfl
@[simp] theorem flagInc_blockArg (w : Wave) (f : Option Nat) : (flagInc w f).blockArg = w.blockArg := by cases f <;> rfl
@[simp] theorem flagInc_crew (w : Wave) (f : Option Nat) : (flagInc w f).crew = w.crew := by cases f <;> rfl
@[simp] theorem flagInc_token (w : Wave) (f : Option Nat) : (flagInc w f).token = w.token := by cases f <;> rfl
@[simp] theorem flagInc_verdict (w : Wave) (f : Option Nat) : (flagInc w f).verdict = w.verdict := by cases f <;> rfl
@[simp] theorem flagInc_replay (w : Wave) (f : Option Nat) : (flagInc w f).replay = w.replay := by cases f <;> rfl
@[simp] theorem flagInc_isNew (w : Wave) (f : Option Nat) : (flagInc w f).isNew = w.isNew := by cases f <;> rfl
@[simp] theorem flagInc_placed (w : Wave) (f : Option Nat) : (flagInc w f).placed = w.placed := by cases f <;> rfl
@[simp] theorem flagInc_group (w : Wave) (f : Option Nat) : (flagInc w f).group = w.group := by cases f <;> rfl
@[simp] theorem flagInc_engFlags (w : Wave) (f : Option Nat) : (flagInc w f).engFlags = w.engFlags := by cases f <;> rfl
@[simp] theorem flagInc_scSys (w : Wave) (f : Option Nat) : (flagInc w f).scSys = w.scSys := by cases f <;> rfl
@[simp] theorem flagInc_again (w : Wave) (f : Option Nat) : (flagInc w f).again = w.again := by cases f <;> rfl

@[simp] theorem flagDec_uid (w : Wave) (f : Option Nat) : (flagDec w f).uid = w.uid := by cases f <;> rfl
@[simp] theorem flagDec_status (w : Wave) (f : Option Nat) : (flagDec w f).status = w.status := by cases f <;> rfl
@[simp] theorem flagDec_quad (w : Wave) (f : Option Nat) : (flagDec w f).quad = w.quad := by cases f <;> rfl
@[simp] theorem flagDec_wslot (w : Wave) (f : Option Nat) : (flagDec w f).wslot = w.wslot := by cases f <;> rfl
@[simp] theorem flagDec_ctx (w : Wave) (f : Option Nat) : (flagDec w f).ctx = w.ctx := by cases f <;> rfl
@[simp] theorem flagDec_launch (w : Wave) (f : Option Nat) : (flagDec w f).launch = w.launch := by cases f <;> rfl
@[simp] theorem flagDec_cord (w : Wave) (f : Option Nat) : (flagDec w f).cord = w.cord := by cases f <;> rfl
@[simp] theorem flagDec_waveNo (w : Wave) (f : Option Nat) : (flagDec w f).waveNo = w.waveNo := by cases f <;> rfl
@[simp] theorem flagDec_role (w : Wave) (f : Option Nat) : (flagDec w f).role = w.role := by cases f <;> rfl
@[simp] theorem flagDec_width (w : Wave) (f : Option Nat) : (flagDec w f).width = w.width := by cases f <;> rfl
@[simp] theorem flagDec_nregs (w : Wave) (f : Option Nat) : (flagDec w f).nregs = w.nregs := by cases f <;> rfl
@[simp] theorem flagDec_acc (w : Wave) (f : Option Nat) : (flagDec w f).acc = w.acc := by cases f <;> rfl
@[simp] theorem flagDec_nlay (w : Wave) (f : Option Nat) : (flagDec w f).nlay = w.nlay := by cases f <;> rfl
@[simp] theorem flagDec_args (w : Wave) (f : Option Nat) : (flagDec w f).args = w.args := by cases f <;> rfl
@[simp] theorem flagDec_prio (w : Wave) (f : Option Nat) : (flagDec w f).prio = w.prio := by cases f <;> rfl
@[simp] theorem flagDec_polls (w : Wave) (f : Option Nat) : (flagDec w f).polls = w.polls := by cases f <;> rfl
@[simp] theorem flagDec_supervisor (w : Wave) (f : Option Nat) : (flagDec w f).supervisor = w.supervisor := by cases f <;> rfl
@[simp] theorem flagDec_draining (w : Wave) (f : Option Nat) : (flagDec w f).draining = w.draining := by cases f <;> rfl
@[simp] theorem flagDec_pc (w : Wave) (f : Option Nat) : (flagDec w f).pc = w.pc := by cases f <;> rfl
@[simp] theorem flagDec_rstack (w : Wave) (f : Option Nat) : (flagDec w f).rstack = w.rstack := by cases f <;> rfl
@[simp] theorem flagDec_seta (w : Wave) (f : Option Nat) : (flagDec w f).seta = w.seta := by cases f <;> rfl
@[simp] theorem flagDec_setb (w : Wave) (f : Option Nat) : (flagDec w f).setb = w.setb := by cases f <;> rfl
@[simp] theorem flagDec_exec (w : Wave) (f : Option Nat) : (flagDec w f).exec = w.exec := by cases f <;> rfl
@[simp] theorem flagDec_live (w : Wave) (f : Option Nat) : (flagDec w f).live = w.live := by cases f <;> rfl
@[simp] theorem flagDec_fresh (w : Wave) (f : Option Nat) : (flagDec w f).fresh = w.fresh := by cases f <;> rfl
@[simp] theorem flagDec_v (w : Wave) (f : Option Nat) : (flagDec w f).v = w.v := by cases f <;> rfl
@[simp] theorem flagDec_o (w : Wave) (f : Option Nat) : (flagDec w f).o = w.o := by cases f <;> rfl
@[simp] theorem flagDec_lr0 (w : Wave) (f : Option Nat) : (flagDec w f).lr0 = w.lr0 := by cases f <;> rfl
@[simp] theorem flagDec_lr1 (w : Wave) (f : Option Nat) : (flagDec w f).lr1 = w.lr1 := by cases f <;> rfl
@[simp] theorem flagDec_item (w : Wave) (f : Option Nat) : (flagDec w f).item = w.item := by cases f <;> rfl
@[simp] theorem flagDec_s (w : Wave) (f : Option Nat) : (flagDec w f).s = w.s := by cases f <;> rfl
@[simp] theorem flagDec_q (w : Wave) (f : Option Nat) : (flagDec w f).q = w.q := by cases f <;> rfl
@[simp] theorem flagDec_fpcr (w : Wave) (f : Option Nat) : (flagDec w f).fpcr = w.fpcr := by cases f <;> rfl
@[simp] theorem flagDec_fpsr (w : Wave) (f : Option Nat) : (flagDec w f).fpsr = w.fpsr := by cases f <;> rfl
@[simp] theorem flagDec_lays (w : Wave) (f : Option Nat) : (flagDec w f).lays = w.lays := by cases f <;> rfl
@[simp] theorem flagDec_tiles (w : Wave) (f : Option Nat) : (flagDec w f).tiles = w.tiles := by cases f <;> rfl
@[simp] theorem flagDec_tstat (w : Wave) (f : Option Nat) : (flagDec w f).tstat = w.tstat := by cases f <;> rfl
@[simp] theorem flagDec_hctl (w : Wave) (f : Option Nat) : (flagDec w f).hctl = w.hctl := by cases f <;> rfl
@[simp] theorem flagDec_fpc (w : Wave) (f : Option Nat) : (flagDec w f).fpc = w.fpc := by cases f <;> rfl
@[simp] theorem flagDec_uexec (w : Wave) (f : Option Nat) : (flagDec w f).uexec = w.uexec := by cases f <;> rfl
@[simp] theorem flagDec_fmask (w : Wave) (f : Option Nat) : (flagDec w f).fmask = w.fmask := by cases f <;> rfl
@[simp] theorem flagDec_frame (w : Wave) (f : Option Nat) : (flagDec w f).frame = w.frame := by cases f <;> rfl
@[simp] theorem flagDec_trap (w : Wave) (f : Option Nat) : (flagDec w f).trap = w.trap := by cases f <;> rfl
@[simp] theorem flagDec_sbstall (w : Wave) (f : Option Nat) : (flagDec w f).sbstall = w.sbstall := by cases f <;> rfl
@[simp] theorem flagDec_wdcnt (w : Wave) (f : Option Nat) : (flagDec w f).wdcnt = w.wdcnt := by cases f <;> rfl
@[simp] theorem flagDec_wdArmed (w : Wave) (f : Option Nat) : (flagDec w f).wdArmed = w.wdArmed := by cases f <;> rfl
@[simp] theorem flagDec_trcost (w : Wave) (f : Option Nat) : (flagDec w f).trcost = w.trcost := by cases f <;> rfl
@[simp] theorem flagDec_bcd (w : Wave) (f : Option Nat) : (flagDec w f).bcd = w.bcd := by cases f <;> rfl
@[simp] theorem flagDec_mlstep (w : Wave) (f : Option Nat) : (flagDec w f).mlstep = w.mlstep := by cases f <;> rfl
@[simp] theorem flagDec_efcause (w : Wave) (f : Option Nat) : (flagDec w f).efcause = w.efcause := by cases f <;> rfl
@[simp] theorem flagDec_efva (w : Wave) (f : Option Nat) : (flagDec w f).efva = w.efva := by cases f <;> rfl
@[simp] theorem flagDec_marks (w : Wave) (f : Option Nat) : (flagDec w f).marks = w.marks := by cases f <;> rfl
@[simp] theorem flagDec_blocked (w : Wave) (f : Option Nat) : (flagDec w f).blocked = w.blocked := by cases f <;> rfl
@[simp] theorem flagDec_blockArg (w : Wave) (f : Option Nat) : (flagDec w f).blockArg = w.blockArg := by cases f <;> rfl
@[simp] theorem flagDec_crew (w : Wave) (f : Option Nat) : (flagDec w f).crew = w.crew := by cases f <;> rfl
@[simp] theorem flagDec_token (w : Wave) (f : Option Nat) : (flagDec w f).token = w.token := by cases f <;> rfl
@[simp] theorem flagDec_verdict (w : Wave) (f : Option Nat) : (flagDec w f).verdict = w.verdict := by cases f <;> rfl
@[simp] theorem flagDec_replay (w : Wave) (f : Option Nat) : (flagDec w f).replay = w.replay := by cases f <;> rfl
@[simp] theorem flagDec_isNew (w : Wave) (f : Option Nat) : (flagDec w f).isNew = w.isNew := by cases f <;> rfl
@[simp] theorem flagDec_placed (w : Wave) (f : Option Nat) : (flagDec w f).placed = w.placed := by cases f <;> rfl
@[simp] theorem flagDec_group (w : Wave) (f : Option Nat) : (flagDec w f).group = w.group := by cases f <;> rfl
@[simp] theorem flagDec_engFlags (w : Wave) (f : Option Nat) : (flagDec w f).engFlags = w.engFlags := by cases f <;> rfl
@[simp] theorem flagDec_scSys (w : Wave) (f : Option Nat) : (flagDec w f).scSys = w.scSys := by cases f <;> rfl
@[simp] theorem flagDec_again (w : Wave) (f : Option Nat) : (flagDec w f).again = w.again := by cases f <;> rfl

@[simp] theorem vWrite_uid (w : Wave) (r : BitVec 7) (i : Nat) (v : Word) : (vWrite w r i v).uid = w.uid := by
  unfold vWrite; split
  · rfl
  · split <;> rfl
@[simp] theorem vWrite_status (w : Wave) (r : BitVec 7) (i : Nat) (v : Word) : (vWrite w r i v).status = w.status := by
  unfold vWrite; split
  · rfl
  · split <;> rfl
@[simp] theorem vWrite_quad (w : Wave) (r : BitVec 7) (i : Nat) (v : Word) : (vWrite w r i v).quad = w.quad := by
  unfold vWrite; split
  · rfl
  · split <;> rfl
@[simp] theorem vWrite_wslot (w : Wave) (r : BitVec 7) (i : Nat) (v : Word) : (vWrite w r i v).wslot = w.wslot := by
  unfold vWrite; split
  · rfl
  · split <;> rfl
@[simp] theorem vWrite_ctx (w : Wave) (r : BitVec 7) (i : Nat) (v : Word) : (vWrite w r i v).ctx = w.ctx := by
  unfold vWrite; split
  · rfl
  · split <;> rfl
@[simp] theorem vWrite_launch (w : Wave) (r : BitVec 7) (i : Nat) (v : Word) : (vWrite w r i v).launch = w.launch := by
  unfold vWrite; split
  · rfl
  · split <;> rfl
@[simp] theorem vWrite_cord (w : Wave) (r : BitVec 7) (i : Nat) (v : Word) : (vWrite w r i v).cord = w.cord := by
  unfold vWrite; split
  · rfl
  · split <;> rfl
@[simp] theorem vWrite_waveNo (w : Wave) (r : BitVec 7) (i : Nat) (v : Word) : (vWrite w r i v).waveNo = w.waveNo := by
  unfold vWrite; split
  · rfl
  · split <;> rfl
@[simp] theorem vWrite_role (w : Wave) (r : BitVec 7) (i : Nat) (v : Word) : (vWrite w r i v).role = w.role := by
  unfold vWrite; split
  · rfl
  · split <;> rfl
@[simp] theorem vWrite_width (w : Wave) (r : BitVec 7) (i : Nat) (v : Word) : (vWrite w r i v).width = w.width := by
  unfold vWrite; split
  · rfl
  · split <;> rfl
@[simp] theorem vWrite_nregs (w : Wave) (r : BitVec 7) (i : Nat) (v : Word) : (vWrite w r i v).nregs = w.nregs := by
  unfold vWrite; split
  · rfl
  · split <;> rfl
@[simp] theorem vWrite_acc (w : Wave) (r : BitVec 7) (i : Nat) (v : Word) : (vWrite w r i v).acc = w.acc := by
  unfold vWrite; split
  · rfl
  · split <;> rfl
@[simp] theorem vWrite_nlay (w : Wave) (r : BitVec 7) (i : Nat) (v : Word) : (vWrite w r i v).nlay = w.nlay := by
  unfold vWrite; split
  · rfl
  · split <;> rfl
@[simp] theorem vWrite_args (w : Wave) (r : BitVec 7) (i : Nat) (v : Word) : (vWrite w r i v).args = w.args := by
  unfold vWrite; split
  · rfl
  · split <;> rfl
@[simp] theorem vWrite_prio (w : Wave) (r : BitVec 7) (i : Nat) (v : Word) : (vWrite w r i v).prio = w.prio := by
  unfold vWrite; split
  · rfl
  · split <;> rfl
@[simp] theorem vWrite_polls (w : Wave) (r : BitVec 7) (i : Nat) (v : Word) : (vWrite w r i v).polls = w.polls := by
  unfold vWrite; split
  · rfl
  · split <;> rfl
@[simp] theorem vWrite_supervisor (w : Wave) (r : BitVec 7) (i : Nat) (v : Word) : (vWrite w r i v).supervisor = w.supervisor := by
  unfold vWrite; split
  · rfl
  · split <;> rfl
@[simp] theorem vWrite_draining (w : Wave) (r : BitVec 7) (i : Nat) (v : Word) : (vWrite w r i v).draining = w.draining := by
  unfold vWrite; split
  · rfl
  · split <;> rfl
@[simp] theorem vWrite_pc (w : Wave) (r : BitVec 7) (i : Nat) (v : Word) : (vWrite w r i v).pc = w.pc := by
  unfold vWrite; split
  · rfl
  · split <;> rfl
@[simp] theorem vWrite_rstack (w : Wave) (r : BitVec 7) (i : Nat) (v : Word) : (vWrite w r i v).rstack = w.rstack := by
  unfold vWrite; split
  · rfl
  · split <;> rfl
@[simp] theorem vWrite_seta (w : Wave) (r : BitVec 7) (i : Nat) (v : Word) : (vWrite w r i v).seta = w.seta := by
  unfold vWrite; split
  · rfl
  · split <;> rfl
@[simp] theorem vWrite_setb (w : Wave) (r : BitVec 7) (i : Nat) (v : Word) : (vWrite w r i v).setb = w.setb := by
  unfold vWrite; split
  · rfl
  · split <;> rfl
@[simp] theorem vWrite_exec (w : Wave) (r : BitVec 7) (i : Nat) (v : Word) : (vWrite w r i v).exec = w.exec := by
  unfold vWrite; split
  · rfl
  · split <;> rfl
@[simp] theorem vWrite_live (w : Wave) (r : BitVec 7) (i : Nat) (v : Word) : (vWrite w r i v).live = w.live := by
  unfold vWrite; split
  · rfl
  · split <;> rfl
@[simp] theorem vWrite_fresh (w : Wave) (r : BitVec 7) (i : Nat) (v : Word) : (vWrite w r i v).fresh = w.fresh := by
  unfold vWrite; split
  · rfl
  · split <;> rfl
@[simp] theorem vWrite_lr0 (w : Wave) (r : BitVec 7) (i : Nat) (v : Word) : (vWrite w r i v).lr0 = w.lr0 := by
  unfold vWrite; split
  · rfl
  · split <;> rfl
@[simp] theorem vWrite_lr1 (w : Wave) (r : BitVec 7) (i : Nat) (v : Word) : (vWrite w r i v).lr1 = w.lr1 := by
  unfold vWrite; split
  · rfl
  · split <;> rfl
@[simp] theorem vWrite_item (w : Wave) (r : BitVec 7) (i : Nat) (v : Word) : (vWrite w r i v).item = w.item := by
  unfold vWrite; split
  · rfl
  · split <;> rfl
@[simp] theorem vWrite_s (w : Wave) (r : BitVec 7) (i : Nat) (v : Word) : (vWrite w r i v).s = w.s := by
  unfold vWrite; split
  · rfl
  · split <;> rfl
@[simp] theorem vWrite_q (w : Wave) (r : BitVec 7) (i : Nat) (v : Word) : (vWrite w r i v).q = w.q := by
  unfold vWrite; split
  · rfl
  · split <;> rfl
@[simp] theorem vWrite_flags (w : Wave) (r : BitVec 7) (i : Nat) (v : Word) : (vWrite w r i v).flags = w.flags := by
  unfold vWrite; split
  · rfl
  · split <;> rfl
@[simp] theorem vWrite_fpcr (w : Wave) (r : BitVec 7) (i : Nat) (v : Word) : (vWrite w r i v).fpcr = w.fpcr := by
  unfold vWrite; split
  · rfl
  · split <;> rfl
@[simp] theorem vWrite_fpsr (w : Wave) (r : BitVec 7) (i : Nat) (v : Word) : (vWrite w r i v).fpsr = w.fpsr := by
  unfold vWrite; split
  · rfl
  · split <;> rfl
@[simp] theorem vWrite_lays (w : Wave) (r : BitVec 7) (i : Nat) (v : Word) : (vWrite w r i v).lays = w.lays := by
  unfold vWrite; split
  · rfl
  · split <;> rfl
@[simp] theorem vWrite_tiles (w : Wave) (r : BitVec 7) (i : Nat) (v : Word) : (vWrite w r i v).tiles = w.tiles := by
  unfold vWrite; split
  · rfl
  · split <;> rfl
@[simp] theorem vWrite_tstat (w : Wave) (r : BitVec 7) (i : Nat) (v : Word) : (vWrite w r i v).tstat = w.tstat := by
  unfold vWrite; split
  · rfl
  · split <;> rfl
@[simp] theorem vWrite_hctl (w : Wave) (r : BitVec 7) (i : Nat) (v : Word) : (vWrite w r i v).hctl = w.hctl := by
  unfold vWrite; split
  · rfl
  · split <;> rfl
@[simp] theorem vWrite_fpc (w : Wave) (r : BitVec 7) (i : Nat) (v : Word) : (vWrite w r i v).fpc = w.fpc := by
  unfold vWrite; split
  · rfl
  · split <;> rfl
@[simp] theorem vWrite_uexec (w : Wave) (r : BitVec 7) (i : Nat) (v : Word) : (vWrite w r i v).uexec = w.uexec := by
  unfold vWrite; split
  · rfl
  · split <;> rfl
@[simp] theorem vWrite_fmask (w : Wave) (r : BitVec 7) (i : Nat) (v : Word) : (vWrite w r i v).fmask = w.fmask := by
  unfold vWrite; split
  · rfl
  · split <;> rfl
@[simp] theorem vWrite_frame (w : Wave) (r : BitVec 7) (i : Nat) (v : Word) : (vWrite w r i v).frame = w.frame := by
  unfold vWrite; split
  · rfl
  · split <;> rfl
@[simp] theorem vWrite_trap (w : Wave) (r : BitVec 7) (i : Nat) (v : Word) : (vWrite w r i v).trap = w.trap := by
  unfold vWrite; split
  · rfl
  · split <;> rfl
@[simp] theorem vWrite_sbstall (w : Wave) (r : BitVec 7) (i : Nat) (v : Word) : (vWrite w r i v).sbstall = w.sbstall := by
  unfold vWrite; split
  · rfl
  · split <;> rfl
@[simp] theorem vWrite_wdcnt (w : Wave) (r : BitVec 7) (i : Nat) (v : Word) : (vWrite w r i v).wdcnt = w.wdcnt := by
  unfold vWrite; split
  · rfl
  · split <;> rfl
@[simp] theorem vWrite_wdArmed (w : Wave) (r : BitVec 7) (i : Nat) (v : Word) : (vWrite w r i v).wdArmed = w.wdArmed := by
  unfold vWrite; split
  · rfl
  · split <;> rfl
@[simp] theorem vWrite_trcost (w : Wave) (r : BitVec 7) (i : Nat) (v : Word) : (vWrite w r i v).trcost = w.trcost := by
  unfold vWrite; split
  · rfl
  · split <;> rfl
@[simp] theorem vWrite_bcd (w : Wave) (r : BitVec 7) (i : Nat) (v : Word) : (vWrite w r i v).bcd = w.bcd := by
  unfold vWrite; split
  · rfl
  · split <;> rfl
@[simp] theorem vWrite_mlstep (w : Wave) (r : BitVec 7) (i : Nat) (v : Word) : (vWrite w r i v).mlstep = w.mlstep := by
  unfold vWrite; split
  · rfl
  · split <;> rfl
@[simp] theorem vWrite_efcause (w : Wave) (r : BitVec 7) (i : Nat) (v : Word) : (vWrite w r i v).efcause = w.efcause := by
  unfold vWrite; split
  · rfl
  · split <;> rfl
@[simp] theorem vWrite_efva (w : Wave) (r : BitVec 7) (i : Nat) (v : Word) : (vWrite w r i v).efva = w.efva := by
  unfold vWrite; split
  · rfl
  · split <;> rfl
@[simp] theorem vWrite_marks (w : Wave) (r : BitVec 7) (i : Nat) (v : Word) : (vWrite w r i v).marks = w.marks := by
  unfold vWrite; split
  · rfl
  · split <;> rfl
@[simp] theorem vWrite_blocked (w : Wave) (r : BitVec 7) (i : Nat) (v : Word) : (vWrite w r i v).blocked = w.blocked := by
  unfold vWrite; split
  · rfl
  · split <;> rfl
@[simp] theorem vWrite_blockArg (w : Wave) (r : BitVec 7) (i : Nat) (v : Word) : (vWrite w r i v).blockArg = w.blockArg := by
  unfold vWrite; split
  · rfl
  · split <;> rfl
@[simp] theorem vWrite_crew (w : Wave) (r : BitVec 7) (i : Nat) (v : Word) : (vWrite w r i v).crew = w.crew := by
  unfold vWrite; split
  · rfl
  · split <;> rfl
@[simp] theorem vWrite_token (w : Wave) (r : BitVec 7) (i : Nat) (v : Word) : (vWrite w r i v).token = w.token := by
  unfold vWrite; split
  · rfl
  · split <;> rfl
@[simp] theorem vWrite_verdict (w : Wave) (r : BitVec 7) (i : Nat) (v : Word) : (vWrite w r i v).verdict = w.verdict := by
  unfold vWrite; split
  · rfl
  · split <;> rfl
@[simp] theorem vWrite_replay (w : Wave) (r : BitVec 7) (i : Nat) (v : Word) : (vWrite w r i v).replay = w.replay := by
  unfold vWrite; split
  · rfl
  · split <;> rfl
@[simp] theorem vWrite_isNew (w : Wave) (r : BitVec 7) (i : Nat) (v : Word) : (vWrite w r i v).isNew = w.isNew := by
  unfold vWrite; split
  · rfl
  · split <;> rfl
@[simp] theorem vWrite_placed (w : Wave) (r : BitVec 7) (i : Nat) (v : Word) : (vWrite w r i v).placed = w.placed := by
  unfold vWrite; split
  · rfl
  · split <;> rfl
@[simp] theorem vWrite_group (w : Wave) (r : BitVec 7) (i : Nat) (v : Word) : (vWrite w r i v).group = w.group := by
  unfold vWrite; split
  · rfl
  · split <;> rfl
@[simp] theorem vWrite_engFlags (w : Wave) (r : BitVec 7) (i : Nat) (v : Word) : (vWrite w r i v).engFlags = w.engFlags := by
  unfold vWrite; split
  · rfl
  · split <;> rfl
@[simp] theorem vWrite_scSys (w : Wave) (r : BitVec 7) (i : Nat) (v : Word) : (vWrite w r i v).scSys = w.scSys := by
  unfold vWrite; split
  · rfl
  · split <;> rfl
@[simp] theorem vWrite_again (w : Wave) (r : BitVec 7) (i : Nat) (v : Word) : (vWrite w r i v).again = w.again := by
  unfold vWrite; split
  · rfl
  · split <;> rfl

@[simp] theorem sWrite_uid (w : Wave) (g : Word) (r : BitVec 7) (v : Word) : (sWrite g w r v).uid = w.uid := by
  unfold sWrite; split
  · rfl
  · split
    · split <;> rfl
    · split <;> rfl
@[simp] theorem sWrite_status (w : Wave) (g : Word) (r : BitVec 7) (v : Word) : (sWrite g w r v).status = w.status := by
  unfold sWrite; split
  · rfl
  · split
    · split <;> rfl
    · split <;> rfl
@[simp] theorem sWrite_quad (w : Wave) (g : Word) (r : BitVec 7) (v : Word) : (sWrite g w r v).quad = w.quad := by
  unfold sWrite; split
  · rfl
  · split
    · split <;> rfl
    · split <;> rfl
@[simp] theorem sWrite_wslot (w : Wave) (g : Word) (r : BitVec 7) (v : Word) : (sWrite g w r v).wslot = w.wslot := by
  unfold sWrite; split
  · rfl
  · split
    · split <;> rfl
    · split <;> rfl
@[simp] theorem sWrite_ctx (w : Wave) (g : Word) (r : BitVec 7) (v : Word) : (sWrite g w r v).ctx = w.ctx := by
  unfold sWrite; split
  · rfl
  · split
    · split <;> rfl
    · split <;> rfl
@[simp] theorem sWrite_launch (w : Wave) (g : Word) (r : BitVec 7) (v : Word) : (sWrite g w r v).launch = w.launch := by
  unfold sWrite; split
  · rfl
  · split
    · split <;> rfl
    · split <;> rfl
@[simp] theorem sWrite_cord (w : Wave) (g : Word) (r : BitVec 7) (v : Word) : (sWrite g w r v).cord = w.cord := by
  unfold sWrite; split
  · rfl
  · split
    · split <;> rfl
    · split <;> rfl
@[simp] theorem sWrite_waveNo (w : Wave) (g : Word) (r : BitVec 7) (v : Word) : (sWrite g w r v).waveNo = w.waveNo := by
  unfold sWrite; split
  · rfl
  · split
    · split <;> rfl
    · split <;> rfl
@[simp] theorem sWrite_role (w : Wave) (g : Word) (r : BitVec 7) (v : Word) : (sWrite g w r v).role = w.role := by
  unfold sWrite; split
  · rfl
  · split
    · split <;> rfl
    · split <;> rfl
@[simp] theorem sWrite_width (w : Wave) (g : Word) (r : BitVec 7) (v : Word) : (sWrite g w r v).width = w.width := by
  unfold sWrite; split
  · rfl
  · split
    · split <;> rfl
    · split <;> rfl
@[simp] theorem sWrite_nregs (w : Wave) (g : Word) (r : BitVec 7) (v : Word) : (sWrite g w r v).nregs = w.nregs := by
  unfold sWrite; split
  · rfl
  · split
    · split <;> rfl
    · split <;> rfl
@[simp] theorem sWrite_acc (w : Wave) (g : Word) (r : BitVec 7) (v : Word) : (sWrite g w r v).acc = w.acc := by
  unfold sWrite; split
  · rfl
  · split
    · split <;> rfl
    · split <;> rfl
@[simp] theorem sWrite_nlay (w : Wave) (g : Word) (r : BitVec 7) (v : Word) : (sWrite g w r v).nlay = w.nlay := by
  unfold sWrite; split
  · rfl
  · split
    · split <;> rfl
    · split <;> rfl
@[simp] theorem sWrite_args (w : Wave) (g : Word) (r : BitVec 7) (v : Word) : (sWrite g w r v).args = w.args := by
  unfold sWrite; split
  · rfl
  · split
    · split <;> rfl
    · split <;> rfl
@[simp] theorem sWrite_prio (w : Wave) (g : Word) (r : BitVec 7) (v : Word) : (sWrite g w r v).prio = w.prio := by
  unfold sWrite; split
  · rfl
  · split
    · split <;> rfl
    · split <;> rfl
@[simp] theorem sWrite_polls (w : Wave) (g : Word) (r : BitVec 7) (v : Word) : (sWrite g w r v).polls = w.polls := by
  unfold sWrite; split
  · rfl
  · split
    · split <;> rfl
    · split <;> rfl
@[simp] theorem sWrite_supervisor (w : Wave) (g : Word) (r : BitVec 7) (v : Word) : (sWrite g w r v).supervisor = w.supervisor := by
  unfold sWrite; split
  · rfl
  · split
    · split <;> rfl
    · split <;> rfl
@[simp] theorem sWrite_draining (w : Wave) (g : Word) (r : BitVec 7) (v : Word) : (sWrite g w r v).draining = w.draining := by
  unfold sWrite; split
  · rfl
  · split
    · split <;> rfl
    · split <;> rfl
@[simp] theorem sWrite_pc (w : Wave) (g : Word) (r : BitVec 7) (v : Word) : (sWrite g w r v).pc = w.pc := by
  unfold sWrite; split
  · rfl
  · split
    · split <;> rfl
    · split <;> rfl
@[simp] theorem sWrite_rstack (w : Wave) (g : Word) (r : BitVec 7) (v : Word) : (sWrite g w r v).rstack = w.rstack := by
  unfold sWrite; split
  · rfl
  · split
    · split <;> rfl
    · split <;> rfl
@[simp] theorem sWrite_seta (w : Wave) (g : Word) (r : BitVec 7) (v : Word) : (sWrite g w r v).seta = w.seta := by
  unfold sWrite; split
  · rfl
  · split
    · split <;> rfl
    · split <;> rfl
@[simp] theorem sWrite_setb (w : Wave) (g : Word) (r : BitVec 7) (v : Word) : (sWrite g w r v).setb = w.setb := by
  unfold sWrite; split
  · rfl
  · split
    · split <;> rfl
    · split <;> rfl
@[simp] theorem sWrite_live (w : Wave) (g : Word) (r : BitVec 7) (v : Word) : (sWrite g w r v).live = w.live := by
  unfold sWrite; split
  · rfl
  · split
    · split <;> rfl
    · split <;> rfl
@[simp] theorem sWrite_fresh (w : Wave) (g : Word) (r : BitVec 7) (v : Word) : (sWrite g w r v).fresh = w.fresh := by
  unfold sWrite; split
  · rfl
  · split
    · split <;> rfl
    · split <;> rfl
@[simp] theorem sWrite_v (w : Wave) (g : Word) (r : BitVec 7) (v : Word) : (sWrite g w r v).v = w.v := by
  unfold sWrite; split
  · rfl
  · split
    · split <;> rfl
    · split <;> rfl
@[simp] theorem sWrite_o (w : Wave) (g : Word) (r : BitVec 7) (v : Word) : (sWrite g w r v).o = w.o := by
  unfold sWrite; split
  · rfl
  · split
    · split <;> rfl
    · split <;> rfl
@[simp] theorem sWrite_lr0 (w : Wave) (g : Word) (r : BitVec 7) (v : Word) : (sWrite g w r v).lr0 = w.lr0 := by
  unfold sWrite; split
  · rfl
  · split
    · split <;> rfl
    · split <;> rfl
@[simp] theorem sWrite_lr1 (w : Wave) (g : Word) (r : BitVec 7) (v : Word) : (sWrite g w r v).lr1 = w.lr1 := by
  unfold sWrite; split
  · rfl
  · split
    · split <;> rfl
    · split <;> rfl
@[simp] theorem sWrite_item (w : Wave) (g : Word) (r : BitVec 7) (v : Word) : (sWrite g w r v).item = w.item := by
  unfold sWrite; split
  · rfl
  · split
    · split <;> rfl
    · split <;> rfl
@[simp] theorem sWrite_q (w : Wave) (g : Word) (r : BitVec 7) (v : Word) : (sWrite g w r v).q = w.q := by
  unfold sWrite; split
  · rfl
  · split
    · split <;> rfl
    · split <;> rfl
@[simp] theorem sWrite_flags (w : Wave) (g : Word) (r : BitVec 7) (v : Word) : (sWrite g w r v).flags = w.flags := by
  unfold sWrite; split
  · rfl
  · split
    · split <;> rfl
    · split <;> rfl
@[simp] theorem sWrite_lays (w : Wave) (g : Word) (r : BitVec 7) (v : Word) : (sWrite g w r v).lays = w.lays := by
  unfold sWrite; split
  · rfl
  · split
    · split <;> rfl
    · split <;> rfl
@[simp] theorem sWrite_tiles (w : Wave) (g : Word) (r : BitVec 7) (v : Word) : (sWrite g w r v).tiles = w.tiles := by
  unfold sWrite; split
  · rfl
  · split
    · split <;> rfl
    · split <;> rfl
@[simp] theorem sWrite_tstat (w : Wave) (g : Word) (r : BitVec 7) (v : Word) : (sWrite g w r v).tstat = w.tstat := by
  unfold sWrite; split
  · rfl
  · split
    · split <;> rfl
    · split <;> rfl
@[simp] theorem sWrite_hctl (w : Wave) (g : Word) (r : BitVec 7) (v : Word) : (sWrite g w r v).hctl = w.hctl := by
  unfold sWrite; split
  · rfl
  · split
    · split <;> rfl
    · split <;> rfl
@[simp] theorem sWrite_fpc (w : Wave) (g : Word) (r : BitVec 7) (v : Word) : (sWrite g w r v).fpc = w.fpc := by
  unfold sWrite; split
  · rfl
  · split
    · split <;> rfl
    · split <;> rfl
@[simp] theorem sWrite_uexec (w : Wave) (g : Word) (r : BitVec 7) (v : Word) : (sWrite g w r v).uexec = w.uexec := by
  unfold sWrite; split
  · rfl
  · split
    · split <;> rfl
    · split <;> rfl
@[simp] theorem sWrite_fmask (w : Wave) (g : Word) (r : BitVec 7) (v : Word) : (sWrite g w r v).fmask = w.fmask := by
  unfold sWrite; split
  · rfl
  · split
    · split <;> rfl
    · split <;> rfl
@[simp] theorem sWrite_frame (w : Wave) (g : Word) (r : BitVec 7) (v : Word) : (sWrite g w r v).frame = w.frame := by
  unfold sWrite; split
  · rfl
  · split
    · split <;> rfl
    · split <;> rfl
@[simp] theorem sWrite_trap (w : Wave) (g : Word) (r : BitVec 7) (v : Word) : (sWrite g w r v).trap = w.trap := by
  unfold sWrite; split
  · rfl
  · split
    · split <;> rfl
    · split <;> rfl
@[simp] theorem sWrite_sbstall (w : Wave) (g : Word) (r : BitVec 7) (v : Word) : (sWrite g w r v).sbstall = w.sbstall := by
  unfold sWrite; split
  · rfl
  · split
    · split <;> rfl
    · split <;> rfl
@[simp] theorem sWrite_wdcnt (w : Wave) (g : Word) (r : BitVec 7) (v : Word) : (sWrite g w r v).wdcnt = w.wdcnt := by
  unfold sWrite; split
  · rfl
  · split
    · split <;> rfl
    · split <;> rfl
@[simp] theorem sWrite_wdArmed (w : Wave) (g : Word) (r : BitVec 7) (v : Word) : (sWrite g w r v).wdArmed = w.wdArmed := by
  unfold sWrite; split
  · rfl
  · split
    · split <;> rfl
    · split <;> rfl
@[simp] theorem sWrite_trcost (w : Wave) (g : Word) (r : BitVec 7) (v : Word) : (sWrite g w r v).trcost = w.trcost := by
  unfold sWrite; split
  · rfl
  · split
    · split <;> rfl
    · split <;> rfl
@[simp] theorem sWrite_bcd (w : Wave) (g : Word) (r : BitVec 7) (v : Word) : (sWrite g w r v).bcd = w.bcd := by
  unfold sWrite; split
  · rfl
  · split
    · split <;> rfl
    · split <;> rfl
@[simp] theorem sWrite_mlstep (w : Wave) (g : Word) (r : BitVec 7) (v : Word) : (sWrite g w r v).mlstep = w.mlstep := by
  unfold sWrite; split
  · rfl
  · split
    · split <;> rfl
    · split <;> rfl
@[simp] theorem sWrite_efcause (w : Wave) (g : Word) (r : BitVec 7) (v : Word) : (sWrite g w r v).efcause = w.efcause := by
  unfold sWrite; split
  · rfl
  · split
    · split <;> rfl
    · split <;> rfl
@[simp] theorem sWrite_efva (w : Wave) (g : Word) (r : BitVec 7) (v : Word) : (sWrite g w r v).efva = w.efva := by
  unfold sWrite; split
  · rfl
  · split
    · split <;> rfl
    · split <;> rfl
@[simp] theorem sWrite_marks (w : Wave) (g : Word) (r : BitVec 7) (v : Word) : (sWrite g w r v).marks = w.marks := by
  unfold sWrite; split
  · rfl
  · split
    · split <;> rfl
    · split <;> rfl
@[simp] theorem sWrite_blocked (w : Wave) (g : Word) (r : BitVec 7) (v : Word) : (sWrite g w r v).blocked = w.blocked := by
  unfold sWrite; split
  · rfl
  · split
    · split <;> rfl
    · split <;> rfl
@[simp] theorem sWrite_blockArg (w : Wave) (g : Word) (r : BitVec 7) (v : Word) : (sWrite g w r v).blockArg = w.blockArg := by
  unfold sWrite; split
  · rfl
  · split
    · split <;> rfl
    · split <;> rfl
@[simp] theorem sWrite_crew (w : Wave) (g : Word) (r : BitVec 7) (v : Word) : (sWrite g w r v).crew = w.crew := by
  unfold sWrite; split
  · rfl
  · split
    · split <;> rfl
    · split <;> rfl
@[simp] theorem sWrite_token (w : Wave) (g : Word) (r : BitVec 7) (v : Word) : (sWrite g w r v).token = w.token := by
  unfold sWrite; split
  · rfl
  · split
    · split <;> rfl
    · split <;> rfl
@[simp] theorem sWrite_verdict (w : Wave) (g : Word) (r : BitVec 7) (v : Word) : (sWrite g w r v).verdict = w.verdict := by
  unfold sWrite; split
  · rfl
  · split
    · split <;> rfl
    · split <;> rfl
@[simp] theorem sWrite_replay (w : Wave) (g : Word) (r : BitVec 7) (v : Word) : (sWrite g w r v).replay = w.replay := by
  unfold sWrite; split
  · rfl
  · split
    · split <;> rfl
    · split <;> rfl
@[simp] theorem sWrite_isNew (w : Wave) (g : Word) (r : BitVec 7) (v : Word) : (sWrite g w r v).isNew = w.isNew := by
  unfold sWrite; split
  · rfl
  · split
    · split <;> rfl
    · split <;> rfl
@[simp] theorem sWrite_placed (w : Wave) (g : Word) (r : BitVec 7) (v : Word) : (sWrite g w r v).placed = w.placed := by
  unfold sWrite; split
  · rfl
  · split
    · split <;> rfl
    · split <;> rfl
@[simp] theorem sWrite_group (w : Wave) (g : Word) (r : BitVec 7) (v : Word) : (sWrite g w r v).group = w.group := by
  unfold sWrite; split
  · rfl
  · split
    · split <;> rfl
    · split <;> rfl
@[simp] theorem sWrite_engFlags (w : Wave) (g : Word) (r : BitVec 7) (v : Word) : (sWrite g w r v).engFlags = w.engFlags := by
  unfold sWrite; split
  · rfl
  · split
    · split <;> rfl
    · split <;> rfl
@[simp] theorem sWrite_scSys (w : Wave) (g : Word) (r : BitVec 7) (v : Word) : (sWrite g w r v).scSys = w.scSys := by
  unfold sWrite; split
  · rfl
  · split
    · split <;> rfl
    · split <;> rfl
@[simp] theorem sWrite_again (w : Wave) (g : Word) (r : BitVec 7) (v : Word) : (sWrite g w r v).again = w.again := by
  unfold sWrite; split
  · rfl
  · split
    · split <;> rfl
    · split <;> rfl

end Sys2Proof.Machine
end

