-- ==== Sys2Proof/Laws/Vec.lean ====
section
/-!
SUPPORT. What the shared vector operations do: the per-thread registers after `vecOut` and `vecOut64`, and what they leave.
-/
namespace Sys2Proof.Machine

/-- A write of a per-thread register changes that register of that slot and no other. -/
theorem vRead_vWrite (w : Wave) (d r : BitVec 7) (i j : Nat) (x : Word) (hd : d.toNat < 0x68) (hr : r.toNat < 0x6A)
    (hi : i < 128) (hj : j < 128) : vRead (vWrite w d i x) r j = if r = d ∧ j = i then x else vRead w r j := by
  have hrd : r = d ↔ r.toNat = d.toNat := ⟨fun h => by rw [h], BitVec.eq_of_toNat_eq⟩
  by_cases h1 : d.toNat < 0x60
  · have hw : vWrite w d i x = { w with v := tset w.v (d.toNat * 128 + i) x } := by unfold vWrite; rw [if_pos h1]
    rw [hw]
    by_cases h2 : r.toNat < 0x60
    · simp only [vRead, h2, if_true, tget_tset]
      by_cases h3 : r = d ∧ j = i
      · obtain ⟨rfl, rfl⟩ := h3; simp
      · rw [if_neg h3, if_neg]; intro hk; exact h3 ⟨hrd.2 (by omega), by omega⟩
    · rw [if_neg (by rintro ⟨rfl, -⟩; exact h2 h1)]
      simp [vRead, h2, oIdx]
  · have hw : vWrite w d i x = { w with o := tset w.o (oIdx w (d.toNat - 0x60) * 128 + i) x } := by
      unfold vWrite; rw [if_neg h1, if_pos hd]
    rw [hw]
    by_cases h2 : r.toNat < 0x60
    · rw [if_neg (by rintro ⟨rfl, -⟩; exact h1 h2)]; simp [vRead, h2]
    · by_cases h4 : r.toNat < 0x68
      · have ho : ∀ o', oIdx { w with o := o' } (r.toNat - 0x60) = oIdx w (r.toNat - 0x60) := fun _ => rfl
        simp only [vRead, h2, h4, if_false, if_true, tget_tset, ho]
        by_cases h3 : r = d ∧ j = i
        · obtain ⟨rfl, rfl⟩ := h3; simp
        · rw [if_neg h3, if_neg]
          intro hk
          refine h3 ⟨hrd.2 ?_, ?_⟩ <;> (unfold oIdx at hk; split at hk <;> split at hk <;> simp_all <;> omega)
      · rw [if_neg (by rintro ⟨rfl, -⟩; exact h4 hd)]
        simp [vRead, h2, h4]

/-- A run of writes changes its registers of its slot and no other. -/
theorem vRead_vWriteRun (vs : List Word) : ∀ (w : Wave) (d r : BitVec 7) (i j : Nat), d.toNat + vs.length ≤ 0x68 →
    r.toNat < 0x6A → i < 128 → j < 128 → vRead (vWriteRun w d i vs) r j =
      if d.toNat ≤ r.toNat ∧ r.toNat < d.toNat + vs.length ∧ j = i then vs.getD (r.toNat - d.toNat) 0 else vRead w r j := by
  induction vs with
  | nil => intro w d r i j _ _ _ _; rw [vWriteRun, if_neg (by simp only [List.length_nil]; omega)]
  | cons x vs ih =>
    intro w d r i j hd hr hi hj
    simp only [List.length_cons] at hd
    have hd1 : (d + 1).toNat = d.toNat + 1 := by rw [BitVec.toNat_add]; simp; omega
    rw [vWriteRun, ih _ _ _ _ _ (by omega) hr hi hj, vRead_vWrite _ _ _ _ _ _ (by omega) hr hi hj, hd1]
    simp only [List.length_cons]
    by_cases h : d.toNat + 1 ≤ r.toNat ∧ r.toNat < d.toNat + 1 + vs.length ∧ j = i
    · rw [if_pos h, if_pos (by omega), show r.toNat - d.toNat = (r.toNat - (d.toNat + 1)) + 1 by omega, List.getD_cons_succ]
    · rw [if_neg h]
      by_cases h2 : r = d ∧ j = i
      · obtain ⟨rfl, rfl⟩ := h2; simp
      · have hrd : r.toNat = d.toNat → r = d := BitVec.eq_of_toNat_eq
        rw [if_neg h2, if_neg]
        rintro ⟨h3, h4, h5⟩
        by_cases h6 : r.toNat = d.toNat
        · exact h2 ⟨hrd h6, h5⟩
        · exact h ⟨by omega, by omega, h5⟩

/-- What a run of writes leaves of the wave. -/
theorem vWriteRun_frame (vs : List Word) : ∀ (w : Wave) (d : BitVec 7) (i : Nat),
    vWriteRun w d i vs = { w with v := (vWriteRun w d i vs).v, o := (vWriteRun w d i vs).o } := by
  induction vs with
  | nil => intro w d i; rfl
  | cons x vs ih =>
    intro w d i
    have h : vWrite w d i x = { w with v := (vWrite w d i x).v, o := (vWrite w d i x).o } := by
      unfold vWrite; split
      · rfl
      · split <;> rfl
    rw [vWriteRun]
    have h2 := ih (vWrite w d i x) (d + 1) i
    generalize vWriteRun (vWrite w d i x) (d + 1) i vs = u at h2 ⊢
    rw [h2, h]

/-- One slot of a vector word: the last-result queue and the destination registers. -/
def slotStep (lr : Bool) (d : BitVec 7) (vals : Nat → List Word) (w : Wave) (i : Nat) : Wave :=
  vWriteRun (if lr then (match vals i with | [] => w | [x] => lrPush w i x | x :: y :: _ => lrPair w i x y) else w) d i (vals i)

theorem slotStep_frame (lr : Bool) (d : BitVec 7) (vals : Nat → List Word) (w : Wave) (i : Nat) :
    slotStep lr d vals w i =
      { w with v := (slotStep lr d vals w i).v, o := (slotStep lr d vals w i).o, lr0 := (slotStep lr d vals w i).lr0,
               lr1 := (slotStep lr d vals w i).lr1 } := by
  unfold slotStep
  generalize hw : (if lr then (match vals i with | [] => w | [x] => lrPush w i x | x :: y :: _ => lrPair w i x y) else w) = w1
  have h1 : w1 = { w with lr0 := w1.lr0, lr1 := w1.lr1 } := by
    subst hw; split
    · split <;> rfl
    · rfl
  have h2 := vWriteRun_frame (vals i) w1 d i
  generalize vWriteRun w1 d i (vals i) = u at h2 ⊢
  rw [h2, h1]

theorem slots_fold_frame (lr : Bool) (d : BitVec 7) (vals : Nat → List Word) (l : List Nat) : ∀ w : Wave,
    l.foldl (slotStep lr d vals) w =
      { w with v := (l.foldl (slotStep lr d vals) w).v, o := (l.foldl (slotStep lr d vals) w).o,
               lr0 := (l.foldl (slotStep lr d vals) w).lr0, lr1 := (l.foldl (slotStep lr d vals) w).lr1 } := by
  induction l with
  | nil => intro w; rfl
  | cons i l ih =>
    intro w
    rw [List.foldl_cons]
    have h := ih (slotStep lr d vals w i)
    have h2 := slotStep_frame lr d vals w i
    generalize l.foldl (slotStep lr d vals) (slotStep lr d vals w i) = u at h ⊢
    rw [h, h2]

theorem vRead_lr (w : Wave) (lr : Bool) (vs : List Word) (r : BitVec 7) (i j : Nat) (hr : r.toNat < 0x6A) :
    vRead (if lr then (match vs with | [] => w | [x] => lrPush w i x | x :: y :: _ => lrPair w i x y) else w) r j =
      if j = i then ((if lr then lrAfter w vs j r else none).getD (vRead w r j)) else vRead w r j := by
  cases lr with
  | false => simp
  | true =>
    have hcases : r.toNat < 0x60 ∨ (0x60 ≤ r.toNat ∧ r.toNat < 0x68) ∨ r = 0x68 ∨ r = 0x69 := by
      by_cases h1 : r.toNat < 0x60
      · exact .inl h1
      · by_cases h2 : r.toNat < 0x68
        · exact .inr (.inl ⟨by omega, h2⟩)
        · by_cases h3 : r.toNat = 0x68
          · exact .inr (.inr (.inl (BitVec.eq_of_toNat_eq h3)))
          · exact .inr (.inr (.inr (BitVec.eq_of_toNat_eq (show r.toNat = 0x69 by omega))))
    have hv : ∀ (a b : Table 32) (n : Nat), oIdx { w with lr0 := a, lr1 := b } n = oIdx w n := fun _ _ _ => rfl
    match vs with
    | [] => simp [lrAfter]
    | [x] =>
      simp only [if_true, lrAfter, lrPush]
      rcases hcases with h | ⟨h1, h2⟩ | rfl | rfl
      · have a1 : r ≠ 104#7 := by rintro rfl; simp at h
        have a2 : r ≠ 105#7 := by rintro rfl; simp at h
        simp [vRead, h, a1, a2]
      · have a1 : r ≠ 104#7 := by rintro rfl; simp at h2
        have a2 : r ≠ 105#7 := by rintro rfl; simp at h2
        simp [vRead, h2, show ¬r.toNat < 96 by omega, hv, a1, a2]
      · simp [vRead, tget_tset]
      · by_cases hj : j = i <;> simp [vRead, tget_tset, hj]
    | x :: y :: t =>
      simp only [if_true, lrAfter, lrPair]
      rcases hcases with h | ⟨h1, h2⟩ | rfl | rfl
      · have a1 : r ≠ 104#7 := by rintro rfl; simp at h
        have a2 : r ≠ 105#7 := by rintro rfl; simp at h
        simp [vRead, h, a1, a2]
      · have a1 : r ≠ 104#7 := by rintro rfl; simp at h2
        have a2 : r ≠ 105#7 := by rintro rfl; simp at h2
        simp [vRead, h2, show ¬r.toNat < 96 by omega, hv, a1, a2]
      · simp [vRead, tget_tset]
      · simp [vRead, tget_tset]

/-- One slot of a vector word changes its registers of that slot and no other. -/
theorem vRead_slotStep (lr : Bool) (d : BitVec 7) (vals : Nat → List Word) (w : Wave) (r : BitVec 7) (i j : Nat)
    (hd : d.toNat + (vals i).length ≤ 0x68) (hr : r.toNat < 0x6A) (hi : i < 128) (hj : j < 128) :
    vRead (slotStep lr d vals w i) r j =
      if j = i then
        (if d.toNat ≤ r.toNat ∧ r.toNat < d.toNat + (vals i).length then (vals i).getD (r.toNat - d.toNat) 0
         else ((if lr then lrAfter w (vals i) j r else none).getD (vRead w r j)))
      else vRead w r j := by
  rw [slotStep, vRead_vWriteRun _ _ _ _ _ _ hd hr hi hj, vRead_lr _ _ _ _ _ _ hr]
  by_cases h : j = i
  · simp [h]
  · simp [h]

theorem lrAfter_congr {w u : Wave} {vs : List Word} {j : Nat} {r : BitVec 7} (h : vRead w 0x68 j = vRead u 0x68 j) :
    lrAfter w vs j r = lrAfter u vs j r := by
  unfold lrAfter; split <;> simp only [h]

/-- The registers after every slot of a vector word. -/
theorem vRead_slots (lr : Bool) (d : BitVec 7) (vals : Nat → List Word) (r : BitVec 7) (j : Nat) (hr : r.toNat < 0x6A)
    (hj : j < 128) (l : List Nat) : ∀ w : Wave, l.Nodup → (∀ i ∈ l, i < 128 ∧ d.toNat + (vals i).length ≤ 0x68) →
    vRead (l.foldl (slotStep lr d vals) w) r j =
      if j ∈ l then
        (if d.toNat ≤ r.toNat ∧ r.toNat < d.toNat + (vals j).length then (vals j).getD (r.toNat - d.toNat) 0
         else ((if lr then lrAfter w (vals j) j r else none).getD (vRead w r j)))
      else vRead w r j := by
  induction l with
  | nil => intro w _ _; simp
  | cons i l ih =>
    intro w hn hl
    rw [List.nodup_cons] at hn
    obtain ⟨hi, hdi⟩ := hl i (by simp)
    rw [List.foldl_cons, ih _ hn.2 fun k hk => hl k (by simp [hk]), vRead_slotStep _ _ _ _ _ _ _ hdi hr hi hj]
    by_cases h : j = i
    · subst h; simp [hn.1]
    · rw [if_neg h]
      simp only [List.mem_cons, h, false_or]
      split
      · split
        · rfl
        · rw [lrAfter_congr (u := w)]
          rw [vRead_slotStep _ _ _ _ _ _ _ hdi (by decide) hi hj, if_neg h]
      · rfl

theorem mem_slotsIn {m : Mask} {width i : Nat} (h : i ∈ slotsIn m width) : i < width ∧ i < 128 ∧ m.getLsbD i = true := by
  simp only [slotsIn, List.mem_filter, List.mem_range] at h
  refine ⟨h.1, ?_, h.2⟩
  by_contra hc
  rw [BitVec.getLsbD_of_ge m i (by omega)] at h
  simp at h

theorem nodup_slotsIn (m : Mask) (width : Nat) : (slotsIn m width).Nodup := List.Nodup.filter _ List.nodup_range

/-- The other mode's copies of o4 to o7 are not written (R370). -/
theorem vWrite_bank (w : Wave) (d r : BitVec 7) (i j : Nat) (x : Word) (hd : d.toNat < 0x68) (h1 : 0x64 ≤ r.toNat)
    (h2 : r.toNat < 0x68) (hi : i < 128) (hj : j < 128) :
    vRead { vWrite w d i x with supervisor := !w.supervisor } r j = vRead { w with supervisor := !w.supervisor } r j := by
  unfold vWrite; split
  · simp [vRead, show ¬r.toNat < 96 by omega, h2, oIdx]
  · simp only [vRead, show ¬r.toNat < 0x60 by omega, h2, if_false, if_true, tget_tset, oIdx]
    rw [if_neg]; intro hk
    cases hs : w.supervisor <;> simp only [hs] at hk <;> (repeat' split at hk) <;> simp_all <;> omega

theorem vWriteRun_bank (vs : List Word) : ∀ (w : Wave) (d r : BitVec 7) (i j : Nat), d.toNat + vs.length ≤ 0x68 →
    0x64 ≤ r.toNat → r.toNat < 0x68 → i < 128 → j < 128 →
    vRead { vWriteRun w d i vs with supervisor := !w.supervisor } r j = vRead { w with supervisor := !w.supervisor } r j := by
  induction vs with
  | nil => intro w d r i j _ _ _ _ _; rfl
  | cons x vs ih =>
    intro w d r i j hd h1 h2 hi hj
    simp only [List.length_cons] at hd
    have hd1 : (d + 1).toNat = d.toNat + 1 := by rw [BitVec.toNat_add]; simp; omega
    have h := ih (vWrite w d i x) (d + 1) r i j (by omega) h1 h2 hi hj
    rw [vWrite_supervisor] at h
    rw [vWriteRun, h, vWrite_bank _ _ _ _ _ _ (by omega) h1 h2 hi hj]

theorem slots_bank (lr : Bool) (d : BitVec 7) (vals : Nat → List Word) (r : BitVec 7) (j : Nat) (h1 : 0x64 ≤ r.toNat)
    (h2 : r.toNat < 0x68) (hj : j < 128) (l : List Nat) : ∀ w : Wave,
    (∀ i ∈ l, i < 128 ∧ d.toNat + (vals i).length ≤ 0x68) →
    vRead { l.foldl (slotStep lr d vals) w with supervisor := !w.supervisor } r j =
      vRead { w with supervisor := !w.supervisor } r j := by
  induction l with
  | nil => intro w _; rfl
  | cons i l ih =>
    intro w hl
    obtain ⟨hi, hdi⟩ := hl i (by simp)
    have hs : (slotStep lr d vals w i).supervisor = w.supervisor := by rw [slotStep_frame]
    have h := ih (slotStep lr d vals w i) fun k hk => hl k (by simp [hk])
    rw [hs] at h
    rw [List.foldl_cons, h, slotStep]
    generalize hw : (if lr then (match vals i with | [] => w | [x] => lrPush w i x | x :: y :: _ => lrPair w i x y) else w) = w1
    have hs1 : w1.supervisor = w.supervisor := by
      subst hw; split
      · split <;> rfl
      · rfl
    have h3 := vWriteRun_bank (vals i) w1 d r i j hdi h1 h2 hi hj
    rw [hs1] at h3
    rw [h3]
    have : w1.o = w.o := by
      subst hw; split
      · split <;> rfl
      · rfl
    simp [vRead, show ¬r.toNat < 96 by omega, h2, oIdx, this]

/-- What a vector word does, whatever its results: `VecEffect`. -/
theorem vecEffect_of {s t : State} {p : Pipe} {d : BitVec 7} {n : Nat} {vals : Nat → List Word} (hn : ∀ i, (vals i).length = n)
    (hd : d.toNat + n ≤ 0x68)
    (ht : t = (occupy (s.modW fun w => addMarks (s.rd.slots.foldl (slotStep (decide (p = .valu)) d vals) w)
      (vecMarks w d n (decide (p = .valu)))) p (s.w.width / 32)).done) : VecEffect s t p d n vals := by
  have hl : ∀ i ∈ s.rd.slots, i < 128 ∧ d.toNat + (vals i).length ≤ 0x68 := fun i hi =>
    ⟨(mem_slotsIn hi).2.1, by rw [hn]; exact hd⟩
  have hf := slots_fold_frame (decide (p = .valu)) d vals s.rd.slots s.w
  have hr := fun r j (hr : r.toNat < 0x6A) hj =>
    vRead_slots (decide (p = .valu)) d vals r j hr hj s.rd.slots s.w (nodup_slotsIn _ _) hl
  have hb := fun r j h1 h2 hj => slots_bank (decide (p = .valu)) d vals r j h1 h2 hj s.rd.slots s.w hl
  simp only [State.modW] at ht
  generalize s.rd.slots.foldl (slotStep (decide (p = .valu)) d vals) s.w = u at ht hf hr hb
  have hw : t.w = { u with marks := s.w.marks ++ vecMarks s.w d n (decide (p = .valu)), pc := s.w.pc + 4 } := by
    rw [ht]; simp only [State.done_w, occupy_w, addMarks]; rw [hf]
  have hp : t.pipes = (occupy s p (s.w.width / 32)).pipes := by
    have hq : u.quad = s.w.quad := by rw [hf]
    rw [ht]; simp only [State.done_pipes, occupy, addMarks, hq]; split <;> rfl
  refine ⟨⟨fun r j h1 hj => ?_, fun r j h1 h2 hj => ?_⟩, ⟨?_, ?_⟩, ?_, hp⟩
  · rw [hw]; unfold vecNew; rw [← hr r j h1 hj]; rfl
  · rw [hw, ← hb r j h1 h2 hj]; rfl
  · have h : t = { s with w := t.w, pipes := t.pipes } := by
      rw [ht]; unfold occupy
      by_cases hc : s.w.width / 32 ≤ 1 <;> simp only [hc, if_true, if_false] <;> rfl
    have hw2 : t.w = { s.w with v := t.w.v, o := t.w.o, lr0 := t.w.lr0, lr1 := t.w.lr1, marks := t.w.marks,
                                fpsr := s.w.fpsr, pc := s.w.pc + 4 } := by
      simp only [hw]; rw [hf]
    rw [← hw2]; exact h
  · subst ht; refine ⟨fun _ => ?_, fun _ => ?_, ?_, ?_⟩ <;> simp
  · rw [hw]

/-- A vector word with one result (R36, R37). -/
theorem vecOut_effect (s : State) (p : Pipe) (d : BitVec 7) (g : Nat → Word) (hd : d.toNat + 1 ≤ 0x68) :
    VecEffect s (vecOut s p d g) p d 1 fun i => [g i] := by
  refine vecEffect_of (n := 1) (vals := fun i => [g i]) (fun _ => rfl) hd ?_
  unfold vecOut
  have : (fun (w : Wave) i => vWrite (if p = .valu then lrPush w i (g i) else w) d i (g i)) =
      slotStep (decide (p = .valu)) d fun i => [g i] := by
    funext w i; unfold slotStep; by_cases h : p = .valu <;> simp [h, vWriteRun]
  rw [this]; rfl

/-- A vector word with a pair result (R37, R40). -/
theorem vecOut64_effect (s : State) (p : Pipe) (d : BitVec 7) (g : Nat → DWord) (hd : d.toNat + 2 ≤ 0x68) :
    VecEffect s (vecOut64 s p d g) p d 2 fun i => [lo32 (g i), hi32 (g i)] := by
  refine vecEffect_of (n := 2) (vals := fun i => [lo32 (g i), hi32 (g i)]) (fun _ => rfl) hd ?_
  unfold vecOut64
  have : (fun (w : Wave) i => vWriteRun (if p = .valu then lrPair w i (lo32 (g i)) (hi32 (g i)) else w) d i
      [lo32 (g i), hi32 (g i)]) = slotStep (decide (p = .valu)) d fun i => [lo32 (g i), hi32 (g i)] := by
    funext w i; unfold slotStep; by_cases h : p = .valu <;> simp [h]
  rw [this]; rfl

end Sys2Proof.Machine
end

