-- ==== Sys2Proof/Laws/WaveWords.lean ====
section
/-!
SUPPORT. What the shared wave operations do: s registers, EXEC, FPCR, FPSR and predicates after `waveOut`, `waveOut64`,
`maskOut` and `predOut`.
-/
namespace Sys2Proof.Machine

/-! ### s registers -/

theorem sIdx_inj {w : Wave} {n m : Nat} (hn : n < 64) (hm : m < 64) (h : sIdx w n = sIdx w m) : n = m := by
  unfold sIdx at h; (repeat' split at h) <;> simp_all <;> omega

theorem sReg_sSet (w : Wave) (d n : Nat) (v : Word) (hd : d < 64) (hn : n < 64) :
    sReg (sSet w d v) n = if n = d then v else sReg w n := by
  show tget (tset w.s (sIdx w d) v) (sIdx w n) = if n = d then v else tget w.s (sIdx w n)
  rw [tget_tset]
  by_cases hk : n = d
  · simp [hk]
  · rw [if_neg hk, if_neg fun h => hk (sIdx_inj hn hd h)]

theorem sReg_bank_sSet (w : Wave) (d n : Nat) (v : Word) (hd : d < 64) (h1 : 48 ≤ n) (hn : n < 64) :
    sReg { sSet w d v with supervisor := !w.supervisor } n = sReg { w with supervisor := !w.supervisor } n := by
  simp only [sReg, sSet, tget_tset, sIdx]
  rw [if_neg]; intro h
  cases hs : w.supervisor <;> simp only [hs] at h <;> (repeat' split at h) <;> simp_all <;> omega

theorem sSetRun_frame (vs : List Word) : ∀ (w : Wave) (d : Nat), sSetRun w d vs = { w with s := (sSetRun w d vs).s } := by
  induction vs with
  | nil => intro w d; rfl
  | cons x vs ih =>
    intro w d
    have h := ih (sSet w d x) (d + 1)
    rw [sSetRun]
    generalize sSetRun (sSet w d x) (d + 1) vs = u at h ⊢
    rw [h]; rfl

/-- A run of s registers written: those and no other change. -/
theorem sReg_sSetRun (vs : List Word) : ∀ (w : Wave) (d n : Nat), d + vs.length ≤ 64 → n < 64 →
    sReg (sSetRun w d vs) n = if d ≤ n ∧ n < d + vs.length then vs.getD (n - d) 0 else sReg w n := by
  induction vs with
  | nil => intro w d n _ _; rw [sSetRun, if_neg (by simp only [List.length_nil]; omega)]
  | cons x vs ih =>
    intro w d n hd hn
    simp only [List.length_cons] at hd
    rw [sSetRun, ih _ _ _ (by omega) hn, sReg_sSet _ _ _ _ (by omega) hn]
    simp only [List.length_cons]
    by_cases h : d + 1 ≤ n ∧ n < d + 1 + vs.length
    · rw [if_pos h, if_pos (by omega), show n - d = n - (d + 1) + 1 by omega, List.getD_cons_succ]
    · rw [if_neg h]
      by_cases h2 : n = d
      · subst h2; simp
      · rw [if_neg h2, if_neg (by omega)]

theorem sReg_bank_sSetRun (vs : List Word) : ∀ (w : Wave) (d n : Nat), d + vs.length ≤ 64 → 48 ≤ n → n < 64 →
    sReg { sSetRun w d vs with supervisor := !w.supervisor } n = sReg { w with supervisor := !w.supervisor } n := by
  induction vs with
  | nil => intro w d n _ _ _; rfl
  | cons x vs ih =>
    intro w d n hd h1 hn
    simp only [List.length_cons] at hd
    have h := ih (sSet w d x) (d + 1) n (by omega) h1 hn
    rw [show (sSet w d x).supervisor = w.supervisor from rfl] at h
    rw [sSetRun, h, sReg_bank_sSet _ _ _ _ (by omega) h1 hn]

/-- `SRegs` of a state whose wave holds a run of s registers written. -/
theorem sRegs_of {s t : State} {d : Nat} {vs : List Word} (hd : vs = [] ∨ d + vs.length ≤ 64) (hs : t.w.s = (sSetRun s.w d vs).s)
    (hm : t.w.supervisor = s.w.supervisor) : SRegs s t d vs := by
  have e : ∀ w u : Wave, w.s = u.s → w.supervisor = u.supervisor → ∀ n, sReg w n = sReg u n := by
    intro w u h1 h2 n; simp only [sReg, sIdx, h1, h2]
  have hsup : (sSetRun s.w d vs).supervisor = s.w.supervisor := by rw [sSetRun_frame]
  refine ⟨fun n hn => ?_, fun n h1 hn => ?_⟩
  · have h := e _ _ hs (by rw [hm, hsup]) n
    rcases hd with rfl | hd
    · rw [if_neg (by simp only [List.length_nil]; omega), h]; rfl
    · rw [← sReg_sSetRun vs s.w d n hd hn, h]
  · have h := e { t.w with supervisor := !s.w.supervisor } { sSetRun s.w d vs with supervisor := !s.w.supervisor } hs rfl n
    rcases hd with rfl | hd
    · rw [h]; rfl
    · rw [← sReg_bank_sSetRun vs s.w d n hd h1 hn]
      exact h

/-! ### Mask words -/

theorem maskWord_bit (m : Mask) (k j : Nat) (hj : j < 32) : (maskWord m k).getLsbD j = m.getLsbD (32 * k + j) := by
  simp only [maskWord, BitVec.getLsbD_ofNat, hj, decide_true, Bool.true_and, Nat.testBit_div_two_pow, BitVec.testBit_toNat]
  rw [Nat.add_comm]

theorem maskWord_setMaskWord (m : Mask) (k j : Nat) (v : Word) (hk : k < 4) (hj : j < 4) :
    maskWord (setMaskWord m k v) j = if j = k then v else maskWord m j := by
  apply BitVec.eq_of_toNat_eq
  have hm := m.isLt
  have hv := v.isLt
  rcases (by omega : k = 0 ∨ k = 1 ∨ k = 2 ∨ k = 3) with rfl | rfl | rfl | rfl <;>
  rcases (by omega : j = 0 ∨ j = 1 ∨ j = 2 ∨ j = 3) with rfl | rfl | rfl | rfl <;>
  · simp [maskWord, setMaskWord]
    omega

/-- A mask is its words. -/
theorem mask_bit_of_words {a b : Mask} {i : Nat} (h : maskWord a (i / 32) = maskWord b (i / 32)) :
    a.getLsbD i = b.getLsbD i := by
  have ha := maskWord_bit a (i / 32) (i % 32) (by omega)
  have hb := maskWord_bit b (i / 32) (i % 32) (by omega)
  rw [show 32 * (i / 32) + i % 32 = i by omega] at ha hb
  rw [← ha, ← hb, h]

theorem maskOf_bit (n : Nat) (f : Nat → Bool) (i : Nat) (hn : n ≤ 128) :
    (maskOf n f).getLsbD i = (decide (i < n) && f i) := by
  have key : ∀ n, ((List.range n).foldl (fun a i => if f i then a + 2 ^ i else a) 0) < 2 ^ n ∧
      ∀ i, ((List.range n).foldl (fun a i => if f i then a + 2 ^ i else a) 0).testBit i = (decide (i < n) && f i) := by
    intro n
    induction n with
    | zero => simp
    | succ n ih =>
      obtain ⟨h1, h2⟩ := ih
      rw [List.range_succ, List.foldl_append]
      generalize (List.range n).foldl (fun a i => if f i then a + 2 ^ i else a) 0 = x at h1 h2
      simp only [List.foldl_cons, List.foldl_nil]
      have hp : 2 ^ (n + 1) = 2 ^ n + 2 ^ n := by rw [Nat.pow_succ]; omega
      by_cases hf : f n
      · rw [if_pos hf]
        refine ⟨by omega, fun i => ?_⟩
        rw [Nat.add_comm]
        by_cases hi : i = n
        · subst hi; rw [Nat.testBit_two_pow_add_eq, Nat.testBit_lt_two_pow h1]; simp [hf]
        · by_cases hlt : i < n
          · rw [Nat.testBit_two_pow_add_gt hlt, h2]; simp [hlt, show i < n + 1 by omega]
          · rw [Nat.testBit_lt_two_pow (Nat.lt_of_lt_of_le (show 2 ^ n + x < 2 ^ (n + 1) by omega)
              (Nat.pow_le_pow_right (by omega) (by omega)))]
            simp [show ¬i < n + 1 by omega]
      · rw [if_neg hf]
        refine ⟨by omega, fun i => ?_⟩
        rw [h2]
        by_cases hi : i = n
        · subst hi; simp [hf]
        · by_cases hlt : i < n
          · simp [hlt, show i < n + 1 by omega]
          · simp [hlt, show ¬i < n + 1 by omega]
  obtain ⟨h1, h2⟩ := key n
  rw [maskOf, BitVec.getLsbD_ofNat, h2]
  by_cases h : i < n
  · simp [h, show i < 128 by omega]
  · simp [h]

/-! ### Wave selectors -/

/-- A write of a wave selector (R38). -/
theorem sWrite_effect (g : Word) (w : Wave) (d : BitVec 7) (v : Word) :
    sWrite g w d v = { w with s := (sWrite g w d v).s, exec := (sWrite g w d v).exec, fpcr := (sWrite g w d v).fpcr,
                              fpsr := (sWrite g w d v).fpsr } ∧
    (sWrite g w d v).s = (sSetRun w d.toNat (if d.toNat < 0x40 then [v] else [])).s ∧
    (∀ k, k < 4 → maskWord (sWrite g w d v).exec k =
      if d.toNat = 0x40 + k ∧ 32 * k < w.width then v &&& maskWord w.live k else maskWord w.exec k) ∧
    (sWrite g w d v).fpcr = (if d.toNat = 0x56 then v &&& 3 else w.fpcr) ∧
    (sWrite g w d v).fpsr = (if d.toNat = 0x57 then (v &&& 0x3F) ||| g else w.fpsr) := by
  by_cases h1 : d.toNat < 0x40
  · have hw : sWrite g w d v = sSet w d.toNat v := by unfold sWrite; rw [if_pos h1]
    rw [hw]
    refine ⟨rfl, ?_, fun k hk => ?_, ?_, ?_⟩
    · rw [if_pos h1]; rfl
    · rw [if_neg (by omega)]; rfl
    · rw [if_neg (by omega)]; rfl
    · rw [if_neg (by omega)]; rfl
  · by_cases h2 : d.toNat < 0x44
    · by_cases h3 : 32 * (d.toNat - 0x40) < w.width
      · have hw : sWrite g w d v = { w with exec := setMaskWord w.exec (d.toNat - 0x40) (v &&& maskWord w.live (d.toNat - 0x40)) } := by
          unfold sWrite; rw [if_neg h1, if_pos h2, if_pos h3]
        rw [hw]
        refine ⟨rfl, ?_, fun k hk => ?_, ?_, ?_⟩
        · rw [if_neg h1]; rfl
        · rw [maskWord_setMaskWord _ _ _ _ (by omega) hk]
          by_cases hk2 : k = d.toNat - 0x40
          · rw [if_pos hk2, if_pos ⟨by omega, by rw [hk2]; exact h3⟩, hk2]
          · rw [if_neg hk2, if_neg (by omega)]
        · rw [if_neg (by omega)]
        · rw [if_neg (by omega)]
      · have hw : sWrite g w d v = w := by unfold sWrite; rw [if_neg h1, if_pos h2, if_neg h3]
        rw [hw]
        refine ⟨rfl, ?_, fun k hk => ?_, ?_, ?_⟩
        · rw [if_neg h1]; rfl
        · rw [if_neg]; rintro ⟨h4, h5⟩; exact h3 (by rw [show d.toNat - 0x40 = k by omega]; exact h5)
        · rw [if_neg (by omega)]
        · rw [if_neg (by omega)]
    · by_cases h4 : d.toNat = 0x56
      · have hw : sWrite g w d v = { w with fpcr := v &&& 3 } := by
          unfold sWrite; rw [if_neg h1, if_neg h2, h4]; rfl
        rw [hw]
        refine ⟨rfl, ?_, fun k hk => ?_, ?_, ?_⟩
        · rw [if_neg h1]; rfl
        · rw [if_neg (by omega)]
        · rw [if_pos h4]
        · rw [if_neg (by omega)]
      · by_cases h5 : d.toNat = 0x57
        · have hw : sWrite g w d v = { w with fpsr := (v &&& 0x3F) ||| g } := by
            unfold sWrite; rw [if_neg h1, if_neg h2, h5]; rfl
          rw [hw]
          refine ⟨rfl, ?_, fun k hk => ?_, ?_, ?_⟩
          · rw [if_neg h1]; rfl
          · rw [if_neg (by omega)]
          · rw [if_neg (by omega)]
          · rw [if_pos h5]
        · have hw : sWrite g w d v = w := by
            unfold sWrite; rw [if_neg h1, if_neg h2]; split
            · next h => exact absurd h h4
            · next h => exact absurd h h5
            · rfl
          rw [hw]
          refine ⟨rfl, ?_, fun k hk => ?_, ?_, ?_⟩
          · rw [if_neg h1]; rfl
          · rw [if_neg (by omega)]
          · rw [if_neg (by omega)]
          · rw [if_neg (by omega)]

theorem sWrite_low (g : Word) (w : Wave) (d : BitVec 7) (v : Word) (h : d.toNat < 0x40) : sWrite g w d v = sSet w d.toNat v := by
  unfold sWrite; rw [if_pos h]

/-- A wave word that writes one wave operand (R38, R100). -/
theorem waveOut_effect (s : State) (d : BitVec 7) (v : Word) : WaveEffect s (waveOut s d v) d v := by
  obtain ⟨h1, h2, h3, h4, h5⟩ := sWrite_effect s.grpFlags s.w d v
  unfold waveOut
  generalize sWrite s.grpFlags s.w d v = u at h1 h2 h3 h4 h5
  have hsup : u.supervisor = s.w.supervisor := by rw [h1]
  refine ⟨⟨?_, ?_⟩, ?_, sRegs_of ?_ h2 hsup, h3, h4, h5⟩
  · show State.done _ = _
    unfold State.done addMarks; rw [h1]
  · refine ⟨fun _ => rfl, fun _ => rfl, rfl, rfl⟩
  · show (addMarks u _).marks = _
    unfold addMarks; rw [h1]
  · by_cases h : d.toNat < 0x40
    · rw [if_pos h]; right; simp; omega
    · rw [if_neg h]; left; rfl

/-- A wave word that writes a pair (R40). -/
theorem waveOut64_effect (s : State) (d : BitVec 7) (v : DWord) (hd : d.toNat + 2 ≤ 0x40) :
    WaveFrame s (waveOut64 s d v) ∧ (waveOut64 s d v).w.marks = s.w.marks ++ sMarks s.w d.toNat 2 none ∧
      SRegs s (waveOut64 s d v) d.toNat [lo32 v, hi32 v] ∧ (waveOut64 s d v).w.exec = s.w.exec ∧
      (waveOut64 s d v).w.fpcr = s.w.fpcr ∧ (waveOut64 s d v).w.fpsr = s.w.fpsr := by
  have h1 := sSetRun_frame [lo32 v, hi32 v] s.w d.toNat
  obtain ⟨u, hu⟩ : ∃ u, u = sSetRun s.w d.toNat [lo32 v, hi32 v] := ⟨_, rfl⟩
  have h2 : u.s = (sSetRun s.w d.toNat [lo32 v, hi32 v]).s := by rw [hu]
  unfold waveOut64
  rw [← hu] at h1 ⊢
  rw [h1]
  exact ⟨⟨rfl, fun _ => rfl, fun _ => rfl, rfl, rfl⟩, rfl, sRegs_of (.inr (by simp; omega)) h2 rfl, rfl, rfl, rfl⟩

/-- A run of writes of wave selectors, in s registers. -/
theorem maskWrite_low (g : Word) (m : Mask) (d : BitVec 7) (n : Nat) : ∀ (w : Wave) (k : Nat), d.toNat + k + n ≤ 0x40 →
    (List.range' k n).foldl (fun w i => sWrite g w (d + BitVec.ofNat 7 i) (maskWord m i)) w =
      sSetRun w (d.toNat + k) ((List.range' k n).map (maskWord m)) := by
  induction n with
  | zero => intro w k _; rfl
  | succ n ih =>
    intro w k h
    have hd : (d + BitVec.ofNat 7 k).toNat = d.toNat + k := by
      rw [BitVec.toNat_add, BitVec.toNat_ofNat]; omega
    rw [List.range'_succ, List.foldl_cons, List.map_cons, sSetRun, sWrite_low _ _ _ _ (by omega), hd, ih _ _ (by omega)]
    rfl

/-- A mask written to EXEC, word by word. -/
theorem maskWrite_exec (g : Word) (m : Mask) (n : Nat) : ∀ (w : Wave) (k : Nat), k + n ≤ 4 → 32 * (k + n) ≤ w.width →
    ∃ e : Mask, (List.range' k n).foldl (fun w i => sWrite g w (0x40 + BitVec.ofNat 7 i) (maskWord m i)) w = { w with exec := e } ∧
      ∀ j, j < 4 → maskWord e j =
        if k ≤ j ∧ j < k + n then maskWord m j &&& maskWord w.live j else maskWord w.exec j := by
  induction n with
  | zero => intro w k _ _; exact ⟨w.exec, rfl, fun j _ => by rw [if_neg (by omega)]⟩
  | succ n ih =>
    intro w k h hw
    have hd : ((0x40 : BitVec 7) + BitVec.ofNat 7 k).toNat = 0x40 + k := by
      rw [BitVec.toNat_add, BitVec.toNat_ofNat]; simp; omega
    have hs : sWrite g w ((0x40 : BitVec 7) + BitVec.ofNat 7 k) (maskWord m k) =
        { w with exec := setMaskWord w.exec k (maskWord m k &&& maskWord w.live k) } := by
      unfold sWrite
      rw [hd, if_neg (by omega), if_pos (by omega), show 0x40 + k - 0x40 = k by omega, if_pos (by omega)]
    rw [List.range'_succ, List.foldl_cons, hs]
    obtain ⟨e, he, hb⟩ := ih { w with exec := setMaskWord w.exec k (maskWord m k &&& maskWord w.live k) } (k + 1)
      (by omega) (by show 32 * (k + 1 + n) ≤ w.width; omega)
    refine ⟨e, he, fun j hj => ?_⟩
    rw [hb j hj]
    by_cases hjk : j = k
    · subst hjk
      rw [if_neg (by omega), if_pos (by omega), maskWord_setMaskWord _ _ _ _ hj hj, if_pos rfl]
    · by_cases h2 : k + 1 ≤ j ∧ j < k + 1 + n
      · rw [if_pos h2, if_pos (by omega)]
      · rw [if_neg h2, if_neg (by omega), maskWord_setMaskWord _ _ _ _ (by omega) hj, if_neg hjk]

theorem list_range_eq (n : Nat) : List.range n = List.range' 0 n := List.range_eq_range'

/-- A vector word that writes a wave mask (R77). -/
theorem maskOut_effect (s : State) (p : Pipe) (d : BitVec 7) (f : Nat → Bool)
    (hw : s.w.width = 32 ∨ s.w.width = 64 ∨ s.w.width = 128) (hd : d = 0x40 ∨ d.toNat + s.w.width / 32 ≤ 0x40) :
    MaskEffect s (maskOut s p d f) p d f 0 := by
  obtain ⟨m, hm⟩ : ∃ m, m = maskOf s.w.width fun i => s.rd.exec.getLsbD i && f i := ⟨_, rfl⟩
  have hbit : ∀ i, m.getLsbD i = (decide (i < s.w.width) && s.rd.exec.getLsbD i && f i) := by
    intro i; rw [hm, maskOf_bit _ _ _ (by omega), Bool.and_assoc]
  obtain ⟨u, hu⟩ : ∃ u, u = maskWrite s.grpFlags s.w d m := ⟨_, rfl⟩
  have hframe : u = { s.w with s := u.s, exec := u.exec } ∧
      (if d = 0x40 then u.s = s.w.s ∧ ∀ i, u.exec.getLsbD i =
          if i < s.w.width then s.rd.exec.getLsbD i && f i && s.w.live.getLsbD i else s.w.exec.getLsbD i
       else u.exec = s.w.exec ∧ u.s = (sSetRun s.w d.toNat ((List.range (s.w.width / 32)).map (maskWord m))).s) := by
    unfold maskWrite at hu
    by_cases h : d = 0x40
    · subst h
      rw [if_pos rfl]
      obtain ⟨e, he, hb⟩ := maskWrite_exec s.grpFlags m (s.w.width / 32) s.w 0 (by omega) (by omega)
      rw [list_range_eq, he] at hu
      subst hu
      refine ⟨rfl, rfl, fun i => ?_⟩
      show e.getLsbD i = _
      by_cases hi : i < s.w.width
      · have hk := hb (i / 32) (by omega)
        rw [if_pos (by omega)] at hk
        rw [if_pos hi, show i = 32 * (i / 32) + i % 32 by omega, ← maskWord_bit _ _ _ (by omega), hk, BitVec.getLsbD_and,
          maskWord_bit _ _ _ (by omega), maskWord_bit _ _ _ (by omega), show 32 * (i / 32) + i % 32 = i by omega, hbit]
        simp [hi]
      · rw [if_neg hi]
        by_cases h4 : i / 32 < 4
        · have hk := hb (i / 32) h4
          rw [if_neg (by omega)] at hk
          exact mask_bit_of_words hk
        · rw [BitVec.getLsbD_of_ge _ _ (by omega), BitVec.getLsbD_of_ge _ _ (by omega)]
    · have hd' : d.toNat + s.w.width / 32 ≤ 0x40 := hd.resolve_left h
      rw [if_neg h]
      rw [list_range_eq, maskWrite_low _ _ _ _ _ _ (by omega)] at hu
      rw [list_range_eq, hu]
      exact ⟨by rw [sSetRun_frame], by rw [sSetRun_frame], rfl⟩
  obtain ⟨h1, h2⟩ := hframe
  unfold maskOut
  simp only [← hm, ← hu]
  clear hu
  have hp : ∀ (x : List Mark), (occupy { s with w := addMarks u x } p (s.w.width / 32)).done =
      { s with w := { s.w with s := u.s, exec := u.exec, marks := s.w.marks ++ x, pc := s.w.pc + 4 },
               pipes := (occupy s p (s.w.width / 32)).pipes } := by
    intro x
    have hq : (addMarks u x).quad = s.w.quad := by unfold addMarks; rw [h1]
    have hwv : { addMarks u x with pc := (addMarks u x).pc + 4 } =
        { s.w with s := u.s, exec := u.exec, marks := s.w.marks ++ x, pc := s.w.pc + 4 } := by
      unfold addMarks; rw [h1]
    unfold occupy; rw [hq]
    by_cases hc : s.w.width / 32 ≤ 1 <;> simp only [hc, if_true, if_false, State.done, hwv]
  simp only [hp]
  refine ⟨?_, ⟨fun _ => rfl, fun _ => rfl, rfl, rfl⟩, rfl, ?_⟩
  · simp
  · by_cases h : d = 0x40
    · rw [if_pos h] at h2 ⊢
      exact ⟨sRegs_of (.inl rfl) h2.1 rfl, h2.2⟩
    · rw [if_neg h] at h2 ⊢
      have hd' : d.toNat + s.w.width / 32 ≤ 0x40 := hd.resolve_left h
      exact ⟨h2.1, m, sRegs_of (.inr (by simpa using hd')) h2.2 rfl, hbit⟩

/-- A predicate written: it and no other changes. -/
theorem qWrite_bit (w : Wave) (n i : Nat) (b : Bool) :
    (qWrite w n b).q.getLsbD i = if i = qIdx w n ∧ i < 9 then b else w.q.getLsbD i := by
  have h : (qWrite w n b).q.getLsbD i =
      (decide (i < 9) && (if i = qIdx w n then b else w.q.getLsbD i)) := by
    have hk : (qWrite w n b).q = BitVec.setWidth 9 (maskOf 9 fun i => if i = qIdx w n then b else w.q.getLsbD i) := by
      simp only [qWrite, maskOf]; rw [BitVec.setWidth_ofNat_of_le (by omega)]
    rw [hk, BitVec.getLsbD_setWidth, maskOf_bit _ _ _ (by omega)]
    by_cases hi : i < 9 <;> simp [hi]
  rw [h]
  by_cases hi : i < 9
  · simp [hi]
  · simp [hi, BitVec.getLsbD_of_ge _ _ (show 9 ≤ i by omega)]

theorem qRead_qWrite (w : Wave) (n k : Nat) (b : Bool) (hn : n < 8) (hk : k < 8) :
    qRead (qWrite w n b) k = if k = n then b else qRead w k := by
  have h : qIdx (qWrite w n b) k = qIdx w k := rfl
  rw [qRead, h, qWrite_bit, qRead]
  by_cases hkn : k = n
  · subst hkn; rw [if_pos rfl, if_pos ⟨rfl, by unfold qIdx; split <;> omega⟩]
  · rw [if_neg hkn, if_neg]
    rintro ⟨h1, -⟩
    apply hkn
    unfold qIdx at h1; (repeat' split at h1) <;> simp_all

theorem qRead_bank_qWrite (w : Wave) (n : Nat) (b : Bool) (hn : n < 8) :
    qRead { qWrite w n b with supervisor := !w.supervisor } 7 = qRead { w with supervisor := !w.supervisor } 7 := by
  simp only [qRead]
  show (qWrite w n b).q.getLsbD _ = w.q.getLsbD _
  rw [qWrite_bit, if_neg]
  · rfl
  · rintro ⟨h1, -⟩
    simp only [qIdx] at h1
    cases hs : w.supervisor <;> simp only [hs] at h1 <;> (repeat' split at h1) <;> simp_all

/-- A word that writes a wave predicate. -/
theorem predOut_effect (s : State) (p : Pipe) (passes n : Nat) (b : Bool) (hn : n < 8) :
    let t := predOut s p passes n b
    t = { s with w := { s.w with q := t.w.q, marks := t.w.marks, pc := s.w.pc + 4 }, pipes := t.pipes } ∧ SameMemory s t ∧
      t.pipes = (occupy s p passes).pipes ∧
      t.w.marks = s.w.marks ++ [{ reg := .q (qIdx s.w n), pass := none, op := none }] ∧
      (∀ k, k < 8 → qRead t.w k = if k = n then b else qRead s.w k) ∧
      qRead { t.w with supervisor := !s.w.supervisor } 7 = qRead { s.w with supervisor := !s.w.supervisor } 7 := by
  have hp : predOut s p passes n b =
      { s with w := { s.w with q := (qWrite s.w n b).q,
                               marks := s.w.marks ++ [{ reg := .q (qIdx s.w n), pass := none, op := none }], pc := s.w.pc + 4 },
               pipes := (occupy s p passes).pipes } := by
    unfold predOut occupy
    by_cases hc : passes ≤ 1 <;> simp only [hc, if_true, if_false] <;> rfl
  intro t
  have ht : t = _ := hp
  rw [ht]
  exact ⟨rfl, ⟨fun _ => rfl, fun _ => rfl, rfl, rfl⟩, rfl, rfl, fun k hk => qRead_qWrite s.w n k b hn hk,
    qRead_bank_qWrite s.w n b hn⟩

end Sys2Proof.Machine
end

