-- ==== Sys2Proof/Laws/FpWords.lean ====
section
/-!
SUPPORT. What the shared floating-point operations do: `fpOut`, and compares that write a mask.
-/
namespace Sys2Proof.Machine

theorem vRead_congr {w u : Wave} (h1 : w.v = u.v) (h2 : w.o = u.o) (h3 : w.lr0 = u.lr0) (h4 : w.lr1 = u.lr1)
    (h5 : w.item = u.item) (h6 : w.supervisor = u.supervisor) (r : BitVec 7) (i : Nat) : vRead w r i = vRead u r i := by
  simp only [vRead, oIdx, h1, h2, h3, h4, h5, h6]

/-- The flags of a word, added to a vector word's effect. -/
theorem fpEffect_of {s u : State} {p : Pipe} {d : BitVec 7} {n : Nat} {vals : Nat → List Word} {fl : Nat}
    (h : VecEffect s u p d n vals) : FpEffect s ((markFpsr u).raiseFlags fl) p d n vals fl := by
  obtain ⟨⟨h1, h2⟩, ⟨h3, h4⟩, h5, h6⟩ := h
  have hw : u.w = { s.w with v := u.w.v, o := u.w.o, lr0 := u.w.lr0, lr1 := u.w.lr1, marks := u.w.marks, pc := s.w.pc + 4 } := by
    have := congrArg State.w h3; simpa using this
  refine ⟨⟨fun r j hr hj => ?_, fun r j ha hb hj => ?_⟩, ⟨?_, h4⟩, ?_, h6⟩
  · rw [← h1 r j hr hj]; exact vRead_congr rfl rfl rfl rfl rfl rfl r j
  · rw [← h2 r j ha hb hj]; exact vRead_congr rfl rfl rfl rfl rfl rfl r j
  · have hg : u.grpFlags = s.grpFlags := by rw [h3]
    have hf : u.w.fpsr = s.w.fpsr := by rw [hw]
    have e : (markFpsr u).raiseFlags fl = { u with
        w := { u.w with marks := ((markFpsr u).raiseFlags fl).w.marks, fpsr := s.w.fpsr ||| BitVec.ofNat 32 fl },
        grpFlags := s.grpFlags ||| BitVec.ofNat 32 fl } := by
      rw [← hg, ← hf]; rfl
    have e2 : ({ u with
        w := { u.w with marks := ((markFpsr u).raiseFlags fl).w.marks, fpsr := s.w.fpsr ||| BitVec.ofNat 32 fl },
        grpFlags := s.grpFlags ||| BitVec.ofNat 32 fl } : State) = { s with
        w := { s.w with v := u.w.v, o := u.w.o, lr0 := u.w.lr0, lr1 := u.w.lr1, marks := ((markFpsr u).raiseFlags fl).w.marks,
                        fpsr := s.w.fpsr ||| BitVec.ofNat 32 fl, pc := s.w.pc + 4 },
        pipes := u.pipes, grpFlags := s.grpFlags ||| BitVec.ofNat 32 fl } := by
      generalize ((markFpsr u).raiseFlags fl).w.marks = mk
      generalize hv : u.w.v = v
      generalize ho : u.w.o = o
      generalize hl0 : u.w.lr0 = l0
      generalize hl1 : u.w.lr1 = l1
      generalize hpp : u.pipes = pp
      rw [h3, hv, ho, hl0, hl1, hpp]
    exact e.trans e2
  · show u.w.marks ++ _ = _
    rw [h5]

theorem fpOut_effect (s : State) (p : Pipe) (wide : Bool) (d : BitVec 7) (r : Nat → Nat × Nat)
    (hd : d.toNat + (if wide then 2 else 1) ≤ 0x68) :
    FpEffect s (fpOut s p wide d r) p d (if wide then 2 else 1)
      (fun k => if wide then [lo32 (BitVec.ofNat 64 (r k).1), hi32 (BitVec.ofNat 64 (r k).1)] else [BitVec.ofNat 32 (r k).1])
      (slotFlags s r) := by
  unfold fpOut
  cases wide with
  | true => exact fpEffect_of (vecOut64_effect s p d _ hd)
  | false => exact fpEffect_of (vecOut_effect s p d _ hd)

end Sys2Proof.Machine
end

