-- ==== Sys2Proof/Laws/Mem.lean ====
section
/-!
SUPPORT. What the shared memory operations do: checking addresses changes only the translation caches, and a memory word that
no slot fails issues one operation.
-/
namespace Sys2Proof.Machine

/-- Only the translation caches, what walks touch of the L2, the counter of free values and the machine-check reports of failed walks may
differ. -/
def CacheOnly (s t : State) : Prop :=
  t = { s with tlb := t.tlb, lanes := t.lanes, freeN := t.freeN, reports := t.reports, l2 := t.l2, fills := t.fills, misses := t.misses,
               wbacks := t.wbacks, turns := t.turns }

theorem CacheOnly.refl (s : State) : CacheOnly s s := rfl

theorem CacheOnly.trans {s t u : State} (h1 : CacheOnly s t) (h2 : CacheOnly t u) : CacheOnly s u := by
  unfold CacheOnly at *
  rw [h2, h1]

/-- What a check leaves: only the caches differ, and a check that passes reports nothing. -/
def CacheRes {ε α : Type} (s : State) (x : State × Except ε α) : Prop :=
  CacheOnly s x.1 ∧ ∀ v, x.2 = .ok v → x.1.reports = s.reports

/-- A check that fails. -/
theorem CacheRes.error {ε α : Type} {s t : State} (e : ε) (h : CacheOnly s t) : CacheRes (α := α) s (t, .error e) :=
  ⟨h, fun _ hv => by cases hv⟩

/-- A check that leaves the state. -/
theorem CacheRes.same {ε α : Type} (s : State) (r : Except ε α) : CacheRes s (s, r) := ⟨.refl s, fun _ _ => rfl⟩

/-- One check after another that has passed. -/
theorem CacheRes.trans {ε α : Type} {s t : State} {x : State × Except ε α} (h1 : CacheOnly s t) (hr : t.reports = s.reports)
    (h2 : CacheRes t x) : CacheRes s x := ⟨h1.trans h2.1, fun v hv => (h2.2 v hv).trans hr⟩

/-- Many changes in turn. -/
theorem CacheOnly.foldl {α : Type} {f : State → α → State} (hf : ∀ s a, CacheOnly s (f s a)) (l : List α) :
    ∀ s, CacheOnly s (l.foldl f s) := by
  induction l with
  | nil => exact .refl
  | cons a l ih => exact fun s => (hf s a).trans (ih _)

/-- Only what the L2 holds may differ. -/
def L2Only (s t : State) : Prop := t = { s with l2 := t.l2, fills := t.fills, misses := t.misses, wbacks := t.wbacks, turns := t.turns }

theorem L2Only.trans {s t u : State} (h1 : L2Only s t) (h2 : L2Only t u) : L2Only s u := by
  unfold L2Only at *
  rw [h2, h1]

/-- A change of the L2 after another. -/
theorem L2Only.fills {s u : State} (h : L2Only s u) (f : List Fill) : L2Only s { u with fills := f } := by
  unfold L2Only at *
  rw [h]

theorem L2Only.turns {s u : State} (h : L2Only s u) (f : List (Nat × Nat × Nat)) : L2Only s { u with turns := f } := by
  unfold L2Only at *
  rw [h]

theorem L2Only.lines {s u : State} (h : L2Only s u) (f : List L2Line) : L2Only s { u with l2 := f } := by
  unfold L2Only at *
  rw [h]

theorem L2Only.cacheOnly {s t : State} (h : L2Only s t) : CacheOnly s t := by
  unfold L2Only CacheOnly at *
  rw [h]

theorem l2Evict_only {s t : State} {vs : List L2Line} (h : l2Evict s vs = some t) : L2Only s t := by
  unfold l2Evict at h
  dsimp only at h
  split at h
  · cases h; rfl
  · split at h
    · cases h; rfl
    · cases h

theorem l2Place_only {s t : State} {l : L2Line} (h : l2Place s l = some t) : L2Only s t := by
  unfold l2Place at h
  dsimp only at h
  split at h
  · cases h
  · next k vs _ =>
    cases he : l2Evict s vs with
    | none => rw [he] at h; cases h
    | some u => rw [he] at h; cases h; exact (l2Evict_only he).lines _

theorem l2Expand_only (s : State) (l : L2Line) : L2Only s (l2Expand s l) := by
  unfold l2Expand
  split
  · rfl
  · dsimp only
    split
    · split
      · next he => exact L2Only.trans (t := { s with l2 := _ }) rfl ((l2Evict_only he).lines _)
      · rfl
    · rfl

theorem l2Touch_only (s : State) (pa prio : Nat) (write full : Bool) : L2Only s (l2Touch s pa prio write full) := by
  unfold l2Touch
  split
  · dsimp only
    split
    · exact L2Only.trans (t := { s with l2 := _ }) rfl (l2Expand_only _ _)
    · exact L2Only.trans (t := { s with l2 := _ }) rfl ((l2Expand_only _ _).fills _)
  · split
    · cases hp : l2PlaceSector s pa prio with
      | none => rfl
      | some u => exact l2Place_only hp
    · rfl

/-- What a touch without a hint can do: it changes what the L2 holds, or waits (R208, R209). -/
theorem l2Soft_only (s : State) (pa prio : Nat) (write full : Bool) : L2Only s (l2Soft s pa prio write full) := by
  unfold l2Soft
  dsimp only
  split
  · exact l2Touch_only _ _ _ _ _
  · rfl

/-- Reads at the home slices change only the caches. -/
theorem softReads_cacheOnly (s : State) (rank : Nat) (pas : List Nat) : CacheOnly s (softReads s rank pas) := by
  unfold softReads
  refine CacheOnly.foldl (fun s pa => ?_) _ _
  split
  · exact .refl _
  · split
    · exact ((l2Soft_only _ _ _ _ _).turns _).cacheOnly
    · rfl

/-- Reads at the home slices report nothing. -/
theorem softReads_reports (s : State) (rank : Nat) (pas : List Nat) : (softReads s rank pas).reports = s.reports := by
  unfold softReads
  induction pas generalizing s with
  | nil => rfl
  | cons pa pas ih =>
    rw [List.foldl_cons, ih]
    split
    · rfl
    · split
      · show (l2Soft s pa 1 false false).reports = s.reports
        rw [l2Soft_only s pa 1 false false]
      · rfl

theorem walkEnd_cacheOnly (s : State) (quad lane ctx va : Nat) (r : WalkRes) : CacheOnly s (walkEnd s quad lane ctx va r) := by
  cases r <;> rfl

theorem translate_cacheRes (s : State) (quad lane : Nat) (c : Ctx) (va : Nat) :
    CacheRes s (translate s quad lane c va) := by
  unfold translate
  split
  · exact .same s _
  · split
    · exact ⟨rfl, fun _ _ => rfl⟩
    · dsimp only
      refine ⟨(softReads_cacheOnly _ _ _).trans (walkEnd_cacheOnly _ _ _ _ _ _), fun v hv => ?_⟩
      generalize walk s c va = r at hv ⊢
      cases r with
      | leaf e base size => exact softReads_reports _ _ _
      | fail code lv ft => cases hv

theorem translatePieces_cacheRes (quad lane : Nat) (c : Ctx) (ptr : DWord) (l : List (Nat × Nat)) : ∀ s : State,
    CacheRes s (translatePieces s quad lane c ptr l) := by
  induction l with
  | nil => intro s; exact .same s _
  | cons e l ih =>
    intro s
    obtain ⟨off, len⟩ := e
    unfold translatePieces
    dsimp only
    have h := translate_cacheRes s quad lane c (ptr.toNat % 2 ^ 49 + off)
    generalize translate s quad lane c (ptr.toNat % 2 ^ 49 + off) = tr at h ⊢
    obtain ⟨s1, r⟩ := tr
    obtain ⟨h1, h2⟩ := h
    dsimp only at h1 h2 ⊢
    split
    · exact .error _ h1
    · next e size hr =>
      split
      · exact .error _ h1
      · have h3 := ih s1
        generalize translatePieces s1 quad lane c ptr l = u at h3 ⊢
        obtain ⟨s2, r2⟩ := u
        refine ⟨h1.trans h3.1, fun v hv => ?_⟩
        cases r2 with
        | error e => cases hv
        | ok ps => exact (h3.2 ps rfl).trans (h2 _ rfl)

theorem peers_cacheRes (a : Ask) (s : State) (ps : List Piece) : CacheRes s (checkPtr.peers a s ps) := by
  unfold checkPtr.peers
  dsimp only
  split
  · split
    · exact ⟨rfl, fun _ _ => rfl⟩
    · split <;> exact ⟨rfl, fun _ _ => rfl⟩
  · exact .same s _

/-- Checking an address changes only the translation caches, and reports no error when it passes (R202, R378, R390). -/
theorem checkPtr_cacheRes (s : State) (w : Wave) (lane : Nat) (a : Ask) (ptr : DWord) :
    CacheRes s (checkPtr s w lane a ptr) := by
  unfold checkPtr
  dsimp only
  split
  · split
    · exact .same s _
    · split
      · exact .same s _
      · split
        · exact .same s _
        · split <;> exact .same s _
  · split
    · exact .same s _
    · split
      · exact .same s _
      · next c _ =>
        split
        · exact .same s _
        · have h := translatePieces_cacheRes w.quad lane c ptr (pieceLens ptr.toNat a.n) s
          generalize translatePieces s w.quad lane c ptr (pieceLens ptr.toNat a.n) = tr at h ⊢
          obtain ⟨s1, r⟩ := tr
          obtain ⟨h1, h2⟩ := h
          dsimp only at h1 h2 ⊢
          split
          · exact .error _ h1
          · next ps =>
            have hr := h2 ps rfl
            have same : ∀ r : Except AddrFail (List Piece), CacheRes s (s1, r) := fun _ => ⟨h1, fun _ _ => hr⟩
            split
            · exact same _
            · split
              · exact same _
              · split
                · exact same _
                · split
                  · exact same _
                  · exact .trans h1 hr (peers_cacheRes a s1 _)

/-- Forming and checking the slots' accesses changes only the translation caches; where no slot fails, nothing is reported. -/
theorem memSlots_cacheOnly (m : MemW) (ptr : Nat → DWord) (data : Nat → List Byte) (lane agent : Nat → Nat) (w : Wave)
    (l : List Nat) : ∀ s : State, CacheOnly s (memSlots m ptr data lane agent w l s).1 ∧
      ((memSlots m ptr data lane agent w l s).2.2 = [] → (memSlots m ptr data lane agent w l s).1.reports = s.reports) := by
  induction l with
  | nil => intro s; exact ⟨rfl, fun _ => rfl⟩
  | cons i l ih =>
    intro s
    unfold memSlots
    have h := checkPtr_cacheRes s w (lane i) m.ask (ptr i)
    generalize checkPtr s w (lane i) m.ask (ptr i) = cp at h ⊢
    obtain ⟨s1, r⟩ := cp
    obtain ⟨h1, hr⟩ := h
    have h2 := ih s1
    dsimp only at h1 hr h2 ⊢
    generalize memSlots m ptr data lane agent w l s1 = ms at h2 ⊢
    obtain ⟨s2, accs, fails⟩ := ms
    dsimp only at h2 ⊢
    split
    · exact ⟨h1.trans h2.1, fun h => by cases h⟩
    · exact ⟨h1.trans h2.1, fun h => (h2.2 h).trans (hr _ rfl)⟩

theorem l1Update_frame (s : State) (core pa key : Nat) (bs : List Byte) :
    l1Update s core pa key bs = { s with l1 := (l1Update s core pa key bs).l1 } := rfl

theorem fold_l1_frame {f : State → Acc → State} (hf : ∀ s a, f s a = { s with l1 := (f s a).l1 }) (accs : List Acc) :
    ∀ s : State, accs.foldl f s = { s with l1 := (accs.foldl f s).l1 } := by
  induction accs with
  | nil => intro s; rfl
  | cons a accs ih =>
    intro s
    rw [List.foldl_cons]
    have h1 := hf s a
    have h2 := ih (f s a)
    generalize f s a = u at h1 h2 ⊢
    generalize accs.foldl f u = v at h2 ⊢
    rw [h2, h1]

/-- What an operation queued leaves (R215). -/
theorem queueOp_done (s : State) (m : MemW) (accs : List Acc) (p : Nat) :
    let t := (occupy (queueOp s m accs) .vmem p).done
    t = { s with
      w := { s.w with flags := (flagInc s.w m.flag).flags, marks := s.w.marks ++ destMarks s.w m.dest s.nextOp, pc := s.w.pc + 4 },
      nextOp := s.nextOp + 1, l1 := t.l1, pipes := (occupy s .vmem p).pipes,
      memOps := s.memOps ++ [
        { id := s.nextOp, wave := s.w.uid, launch := s.w.launch, core := coreOf s.w.quad, quad := s.w.quad, ctx := s.w.ctx,
          kind := m.kind, size := m.ask.n, seq := s.nextOp, dest := m.dest, q := m.q, sc := m.sc, hint := m.hint, l1 := m.l1,
          flag := m.flag, entries := entriesOf m (s.w.width / 32), accs := accs, backoff := 0, token := s.w.token,
          sup := s.w.supervisor, fwd := !s.w.scSys, unsent := false }] } := by
  intro t
  have hw : addMarks (flagInc s.w m.flag) (destMarks s.w m.dest s.nextOp) =
      { s.w with flags := (flagInc s.w m.flag).flags, marks := s.w.marks ++ destMarks s.w m.dest s.nextOp } := by
    unfold addMarks flagInc; split <;> rfl
  have key : ∀ u : State, u.w.pc = s.w.pc → u.w.quad = s.w.quad → u.pipes = s.pipes →
      (occupy u .vmem p).done = { u with w := { u.w with pc := s.w.pc + 4 }, pipes := (occupy s .vmem p).pipes } := by
    intro u h1 h2 h3
    unfold occupy
    by_cases hc : p ≤ 1
    · simp only [hc, if_true, State.done, h1]; rw [← h3]
    · simp only [hc, if_false, State.done, h1, h2, h3]
  have ht : t = (occupy (queueOp s m accs) .vmem p).done := rfl
  unfold queueOp at ht
  simp only [hw] at ht
  split at ht
  · rw [fold_l1_frame (by intro s a; split <;> rfl)] at ht
    rw [key _ (by rfl) (by rfl) (by rfl)] at ht
    rw [ht]
  · rw [key _ (by rfl) (by rfl) (by rfl)] at ht
    rw [ht]

/-- A memory word whose slots all pass its checks (R202, R215). -/
theorem memWord_issue {s s1 : State} {m : MemW} {ptr : Nat → DWord} {data : Nat → List Byte} {dlen bump : Nat} {accs : List Acc}
    (hr : s.rd.replay = false)
    (hm : memSlots m ptr data (fun k => k % 32) id s.rd s.rd.slots { s with freeN := s.freeN + bump } = (s1, accs, [])) :
    MemIssue s (memWord { s with freeN := s.freeN + bump } m ptr data dlen) m accs (s.w.width / 32) := by
  have hc := memSlots_cacheOnly m ptr data (fun k => k % 32) id s.rd s.rd.slots { s with freeN := s.freeN + bump }
  rw [hm] at hc
  obtain ⟨hc, hrep⟩ := hc
  have ht : memWord { s with freeN := s.freeN + bump } m ptr data dlen = (occupy (queueOp s1 m accs) .vmem (s.w.width / 32)).done := by
    have hrd : State.rd { s with freeN := s.freeN + bump } = s.rd := rfl
    unfold memWord
    simp [hrd, hr, hm]
  rw [ht]
  obtain ⟨a, b, c, d, e, f, g, h, rfl⟩ : ∃ a b c d e f g h, s1 = { s with freeN := a, tlb := b, lanes := c, l2 := d, fills := e, misses := f, wbacks := g, turns := h } := by
    have hq : s1.reports = s.reports := hrep rfl
    unfold CacheOnly at hc
    dsimp only at hc
    rw [hq] at hc
    exact ⟨_, _, _, _, _, _, _, _, hc⟩
  unfold MemIssue
  have hq := queueOp_done { s with freeN := a, tlb := b, lanes := c, l2 := d, fills := e, misses := f, wbacks := g, turns := h } m accs (s.w.width / 32)
  simp only at hq
  generalize (occupy (queueOp { s with freeN := a, tlb := b, lanes := c, l2 := d, fills := e, misses := f, wbacks := g, turns := h } m accs) .vmem (s.w.width / 32)).done = t at hq ⊢
  have hp : (occupy { s with freeN := a, tlb := b, lanes := c, l2 := d, fills := e, misses := f, wbacks := g, turns := h } .vmem (s.w.width / 32)).pipes =
      (occupy s .vmem (s.w.width / 32)).pipes := by
    unfold occupy; split <;> rfl
  rw [hp] at hq
  generalize (occupy s .vmem (s.w.width / 32)).pipes = pp at hq ⊢
  clear hc
  generalize t.l1 = l at hq
  subst hq
  exact ⟨rfl, fun _ => rfl, fun _ => rfl, rfl, rfl⟩

end Sys2Proof.Machine
end

