-- ==== Sys2Proof/Laws/PerInstr.lean ====
section
/-!
SUPPORT. Facts about every instruction, one lemma for each constructor: what the encoder writes stays in its field.
-/
namespace Sys2Proof.Laws.Fields

/-- The word of an instruction is its OP value over its bits [21:0]: no operand runs into OP, and C, bit 31, is 0. -/
def Statement (i : Instr) : Prop := ∀ w, encode i = some w → ∃ op body, op < 512 ∧ body < 2 ^ 22 ∧ w = mkWord op body

theorem bitOf_le (b : Bool) : bitOf b ≤ 1 := by cases b <;> decide

theorem of_word {i : Instr} {op body : Nat} (h : encode i = some (mkWord op body)) (ho : op < 512) (hb : body < 2 ^ 22) :
    Statement i := by
  intro w hw
  rw [h] at hw
  cases hw
  exact ⟨op, body, ho, hb, rfl⟩

theorem of_none {i : Instr} (h : encode i = none) : Statement i := by
  intro w hw
  rw [h] at hw
  cases hw

/-- C is 0 in a word made from an OP value and its other bits. -/
theorem mkWord_bit31 {op body : Nat} (ho : op < 512) (hb : body < 2 ^ 22) : (mkWord op body).toNat < 2 ^ 31 := by
  simp only [mkWord, BitVec.toNat_ofNat]; omega

/-! ### The operand fields of each form -/

theorem putClauseF_lt (f : ClauseF) : putClauseF f < 2 ^ 22 := by
  have h0 := bitOf_le f.stk
  have h1 := bitOf_le f.yld
  unfold putClauseF; omega

theorem putRBin_lt (f : RBin) : putRBin f < 2 ^ 22 := by
  have h0 := bitOf_le f.x
  unfold putRBin; omega

theorem putRUn_lt (f : RUn) : putRUn f < 2 ^ 22 := by
  unfold putRUn; omega

theorem putLeaF_lt (f : LeaF) : putLeaF f < 2 ^ 22 := by
  have h0 := bitOf_le f.x
  unfold putLeaF; omega

theorem putCmpF_lt (f : CmpF) : putCmpF f < 2 ^ 22 := by
  have h0 := bitOf_le f.x
  unfold putCmpF; omega

theorem putMovF_lt (f : MovF) : putMovF f < 2 ^ 22 := by
  unfold putMovF; omega

theorem putImmF_lt (f : ImmF) : putImmF f < 2 ^ 22 := by
  unfold putImmF; omega

theorem putR3_lt (f : R3) : putR3 f < 2 ^ 22 := by
  unfold putR3; omega

theorem putLeaW_lt (f : LeaW) : putLeaW f < 2 ^ 22 := by
  unfold putLeaW; omega

theorem putCmpW_lt (f : CmpW) : putCmpW f < 2 ^ 22 := by
  unfold putCmpW; omega

theorem putFBin_lt (f : FBin) : putFBin f < 2 ^ 22 := by
  have h0 := bitOf_le f.x
  unfold putFBin; omega

theorem putFUn_lt (f : FUn) : putFUn f < 2 ^ 22 := by
  unfold putFUn; omega

theorem putFrndF_lt (f : FrndF) : putFrndF f < 2 ^ 22 := by
  unfold putFrndF; omega

theorem putCvtF_lt (f : CvtF) : putCvtF f < 2 ^ 22 := by
  have h0 := bitOf_le f.sat
  unfold putCvtF; omega

theorem putQntF_lt (f : QntF) : putQntF f < 2 ^ 22 := by
  unfold putQntF; omega

theorem putShflF_lt (f : ShflF) : putShflF f < 2 ^ 22 := by
  have h0 := bitOf_le f.x
  unfold putShflF; omega

theorem putVoteF_lt (f : VoteF) : putVoteF f < 2 ^ 22 := by
  unfold putVoteF; omega

theorem putMemZ_lt (f : MemZ) : putMemZ f < 2 ^ 22 := by
  have h0 := bitOf_le f.fs
  unfold putMemZ; omega

theorem putLelF_lt (f : LelF) : putLelF f < 2 ^ 22 := by
  have h0 := bitOf_le f.fs
  have h1 := bitOf_le f.x
  unfold putLelF; omega

theorem putMemF_lt (f : MemF) : putMemF f < 2 ^ 22 := by
  have h0 := bitOf_le f.fs
  unfold putMemF; omega

theorem putFenceF_lt (f : FenceF) : putFenceF f < 2 ^ 22 := by
  unfold putFenceF; omega

theorem putPrefF_lt (f : PrefF) : putPrefF f < 2 ^ 22 := by
  unfold putPrefF; omega

theorem putCacheF_lt (f : CacheF) : putCacheF f < 2 ^ 22 := by
  have h0 := bitOf_le f.fs
  unfold putCacheF; omega

theorem putLdefF_lt (f : LdefF) : putLdefF f < 2 ^ 22 := by
  unfold putLdefF; omega

theorem putLchainF_lt (f : LchainF) : putLchainF f < 2 ^ 22 := by
  unfold putLchainF; omega

theorem putLpartF_lt (f : LpartF) : putLpartF f < 2 ^ 22 := by
  unfold putLpartF; omega

theorem putLldF_lt (f : LldF) : putLldF f < 2 ^ 22 := by
  unfold putLldF; omega

theorem putLflatF_lt (f : LflatF) : putLflatF f < 2 ^ 22 := by
  unfold putLflatF; omega

theorem putLgetF_lt (f : LgetF) : putLgetF f < 2 ^ 22 := by
  unfold putLgetF; omega

theorem putHsetF_lt (f : HsetF) : putHsetF f < 2 ^ 22 := by
  unfold putHsetF; omega

theorem putTcopyF_lt (f : TcopyF) : putTcopyF f < 2 ^ 22 := by
  have h0 := bitOf_le f.sat
  have h1 := bitOf_le f.fp
  have h2 := bitOf_le f.fs
  unfold putTcopyF; omega

theorem putEngF_lt (f : EngF) : putEngF f < 2 ^ 22 := by
  have h0 := bitOf_le f.fs
  unfold putEngF; omega

theorem putObjF_lt (f : ObjF) : putObjF f < 2 ^ 22 := by
  have h0 := bitOf_le f.fs
  unfold putObjF; omega

theorem putCoinitF_lt (f : CoinitF) : putCoinitF f < 2 ^ 22 := by
  have h0 := bitOf_le f.u
  have h1 := bitOf_le f.fs
  unfold putCoinitF; omega

theorem putWaitF_lt (f : WaitF) : putWaitF f < 2 ^ 22 := by
  unfold putWaitF; omega

theorem putMloopF_lt (f : MloopF) : putMloopF f < 2 ^ 22 := by
  have h0 := bitOf_le f.rb
  have h1 := bitOf_le f.fs
  have h2 := bitOf_le f.x
  unfold putMloopF; omega

theorem putMzeroF_lt (f : MzeroF) : putMzeroF f < 2 ^ 22 := by
  unfold putMzeroF; omega

theorem putMldF_lt (f : MldF) : putMldF f < 2 ^ 22 := by
  have h0 := bitOf_le f.fs
  unfold putMldF; omega

theorem putMmovF_lt (f : MmovF) : putMmovF f < 2 ^ 22 := by
  have h0 := bitOf_le f.fs
  unfold putMmovF; omega

theorem putMstatF_lt (f : MstatF) : putMstatF f < 2 ^ 22 := by
  unfold putMstatF; omega

theorem putSpawnF_lt (f : SpawnF) : putSpawnF f < 2 ^ 22 := by
  have h0 := bitOf_le f.fs
  unfold putSpawnF; omega

theorem putSaF_lt (f : SaF) : putSaF f < 2 ^ 22 := by
  unfold putSaF; omega

theorem putTbF_lt (f : TbF) : putTbF f < 2 ^ 22 := by
  have h0 := bitOf_le f.fs
  unfold putTbF; omega

theorem putTbtF_lt (f : TbtF) : putTbtF f < 2 ^ 22 := by
  unfold putTbtF; omega

theorem putSdaF_lt (f : SdaF) : putSdaF f < 2 ^ 22 := by
  unfold putSdaF; omega

theorem putSdF_lt (f : SdF) : putSdF f < 2 ^ 22 := by
  unfold putSdF; omega

theorem putLaunchF_lt (f : LaunchF) : putLaunchF f < 2 ^ 22 := by
  have h0 := bitOf_le f.fs
  unfold putLaunchF; omega

theorem putBraF_lt (f : BraF) : putBraF f < 2 ^ 22 := by
  unfold putBraF; omega

theorem putCallF_lt (f : CallF) : putCallF f < 2 ^ 22 := by
  unfold putCallF; omega

theorem putGiveF_lt (f : GiveF) : putGiveF f < 2 ^ 22 := by
  unfold putGiveF; omega

theorem putClaimTryF_lt (f : ClaimTryF) : putClaimTryF f < 2 ^ 22 := by
  unfold putClaimTryF; omega

theorem putTrapF_lt (f : TrapF) : putTrapF f < 2 ^ 22 := by
  unfold putTrapF; omega

theorem putSrF_lt (f : SrF) : putSrF f < 2 ^ 22 := by
  unfold putSrF; omega

theorem putPtewF_lt (f : PtewF) : putPtewF f < 2 ^ 22 := by
  have h0 := bitOf_le f.force
  have h1 := bitOf_le f.ret
  have h2 := bitOf_le f.fs
  unfold putPtewF; omega

theorem putPopF_lt (f : PopF) : putPopF f < 2 ^ 22 := by
  have h0 := bitOf_le f.fs
  unfold putPopF; omega

theorem putInvF_lt (f : InvF) : putInvF f < 2 ^ 22 := by
  have h0 := bitOf_le f.all
  have h1 := bitOf_le f.fs
  unfold putInvF; omega

/-! ### The constructors -/

theorem clause : ∀ f, Statement (.clause f) := fun f => of_word rfl (by decide) (putClauseF_lt f)
theorem iadd : ∀ f, Statement (.iadd f) := fun f => of_word rfl (by decide) (putRBin_lt f)
theorem isub : ∀ f, Statement (.isub f) := fun f => of_word rfl (by decide) (putRBin_lt f)
theorem imulLo : ∀ f, Statement (.imulLo f) := fun f => of_word rfl (by decide) (putRBin_lt f)
theorem imulHiI32 : ∀ f, Statement (.imulHiI32 f) := fun f => of_word rfl (by decide) (putRBin_lt f)
theorem imulHiN32 : ∀ f, Statement (.imulHiN32 f) := fun f => of_word rfl (by decide) (putRBin_lt f)
theorem imulWideI32 : ∀ f, Statement (.imulWideI32 f) := fun f => of_word rfl (by decide) (putRBin_lt f)
theorem imulWideN32 : ∀ f, Statement (.imulWideN32 f) := fun f => of_word rfl (by decide) (putRBin_lt f)
theorem imad : ∀ f, Statement (.imad f) := fun f => of_word rfl (by decide) (putRBin_lt f)
theorem iminI32 : ∀ f, Statement (.iminI32 f) := fun f => of_word rfl (by decide) (putRBin_lt f)
theorem iminN32 : ∀ f, Statement (.iminN32 f) := fun f => of_word rfl (by decide) (putRBin_lt f)
theorem imaxI32 : ∀ f, Statement (.imaxI32 f) := fun f => of_word rfl (by decide) (putRBin_lt f)
theorem imaxN32 : ∀ f, Statement (.imaxN32 f) := fun f => of_word rfl (by decide) (putRBin_lt f)
theorem iabsI32 : ∀ f, Statement (.iabsI32 f) := fun f => of_word rfl (by decide) (putRUn_lt f)
theorem and : ∀ f, Statement (.and f) := fun f => of_word rfl (by decide) (putRBin_lt f)
theorem or : ∀ f, Statement (.or f) := fun f => of_word rfl (by decide) (putRBin_lt f)
theorem xor : ∀ f, Statement (.xor f) := fun f => of_word rfl (by decide) (putRBin_lt f)
theorem shl : ∀ f, Statement (.shl f) := fun f => of_word rfl (by decide) (putRBin_lt f)
theorem shr : ∀ f, Statement (.shr f) := fun f => of_word rfl (by decide) (putRBin_lt f)
theorem sar : ∀ f, Statement (.sar f) := fun f => of_word rfl (by decide) (putRBin_lt f)
theorem rot : ∀ f, Statement (.rot f) := fun f => of_word rfl (by decide) (putRBin_lt f)
theorem popc : ∀ f, Statement (.popc f) := fun f => of_word rfl (by decide) (putRUn_lt f)
theorem clz : ∀ f, Statement (.clz f) := fun f => of_word rfl (by decide) (putRUn_lt f)
theorem brev : ∀ f, Statement (.brev f) := fun f => of_word rfl (by decide) (putRUn_lt f)
theorem bfeI32 : ∀ f, Statement (.bfeI32 f) := fun f => of_word rfl (by decide) (putRBin_lt f)
theorem bfeN32 : ∀ f, Statement (.bfeN32 f) := fun f => of_word rfl (by decide) (putRBin_lt f)
theorem bfi : ∀ f, Statement (.bfi f) := fun f => of_word rfl (by decide) (putRBin_lt f)
theorem sel : ∀ f, Statement (.sel f) := fun f => of_word rfl (by decide) (putRBin_lt f)
theorem mov : ∀ f, Statement (.mov f) := fun f => of_word rfl (by decide) (putRUn_lt f)
theorem lea : ∀ f, Statement (.lea f) := fun f => of_word rfl (by omega) (putLeaF_lt f)
theorem icmp : ∀ f, Statement (.icmp f) := fun f => of_word rfl (by omega) (putCmpF_lt f)
theorem iaddI64 : ∀ f, Statement (.iaddI64 f) := fun f => of_word rfl (by decide) (putRBin_lt f)
theorem isubI64 : ∀ f, Statement (.isubI64 f) := fun f => of_word rfl (by decide) (putRBin_lt f)
theorem imulLoI64 : ∀ f, Statement (.imulLoI64 f) := fun f => of_word rfl (by decide) (putRBin_lt f)
theorem iminI64 : ∀ f, Statement (.iminI64 f) := fun f => of_word rfl (by decide) (putRBin_lt f)
theorem iminN64 : ∀ f, Statement (.iminN64 f) := fun f => of_word rfl (by decide) (putRBin_lt f)
theorem imaxI64 : ∀ f, Statement (.imaxI64 f) := fun f => of_word rfl (by decide) (putRBin_lt f)
theorem imaxN64 : ∀ f, Statement (.imaxN64 f) := fun f => of_word rfl (by decide) (putRBin_lt f)
theorem shlI64 : ∀ f, Statement (.shlI64 f) := fun f => of_word rfl (by decide) (putRBin_lt f)
theorem shrN64 : ∀ f, Statement (.shrN64 f) := fun f => of_word rfl (by decide) (putRBin_lt f)
theorem sarI64 : ∀ f, Statement (.sarI64 f) := fun f => of_word rfl (by decide) (putRBin_lt f)
theorem icmpI64 : ∀ f, Statement (.icmpI64 f) := fun f => of_word rfl (by omega) (putCmpF_lt f)
theorem movI64 : ∀ f, Statement (.movI64 f) := fun f => of_word rfl (by decide) (putRUn_lt f)
theorem iabsI64 : ∀ f, Statement (.iabsI64 f) := fun f => of_word rfl (by decide) (putRUn_lt f)
theorem movi : ∀ f, Statement (.movi f) := fun f => of_word rfl (by omega) (putMovF_lt f)
theorem movhi : ∀ f, Statement (.movhi f) := fun f => of_word rfl (by omega) (putMovF_lt f)
theorem iaddImm : ∀ f, Statement (.iaddImm f) := fun f => of_word rfl (by decide) (putImmF_lt f)
theorem iaddWave : ∀ f, Statement (.iaddWave f) := fun f => of_word rfl (by decide) (putR3_lt f)
theorem isubWave : ∀ f, Statement (.isubWave f) := fun f => of_word rfl (by decide) (putR3_lt f)
theorem imulLoWave : ∀ f, Statement (.imulLoWave f) := fun f => of_word rfl (by decide) (putR3_lt f)
theorem imulHiI32Wave : ∀ f, Statement (.imulHiI32Wave f) := fun f => of_word rfl (by decide) (putR3_lt f)
theorem imulHiN32Wave : ∀ f, Statement (.imulHiN32Wave f) := fun f => of_word rfl (by decide) (putR3_lt f)
theorem imulWideI32Wave : ∀ f, Statement (.imulWideI32Wave f) := fun f => of_word rfl (by decide) (putR3_lt f)
theorem imulWideN32Wave : ∀ f, Statement (.imulWideN32Wave f) := fun f => of_word rfl (by decide) (putR3_lt f)
theorem imadWave : ∀ f, Statement (.imadWave f) := fun f => of_word rfl (by decide) (putR3_lt f)
theorem iminI32Wave : ∀ f, Statement (.iminI32Wave f) := fun f => of_word rfl (by decide) (putR3_lt f)
theorem iminN32Wave : ∀ f, Statement (.iminN32Wave f) := fun f => of_word rfl (by decide) (putR3_lt f)
theorem imaxI32Wave : ∀ f, Statement (.imaxI32Wave f) := fun f => of_word rfl (by decide) (putR3_lt f)
theorem imaxN32Wave : ∀ f, Statement (.imaxN32Wave f) := fun f => of_word rfl (by decide) (putR3_lt f)
theorem iabsI32Wave : ∀ f, Statement (.iabsI32Wave f) := fun f => of_word rfl (by decide) (putRUn_lt f)
theorem andWave : ∀ f, Statement (.andWave f) := fun f => of_word rfl (by decide) (putR3_lt f)
theorem orWave : ∀ f, Statement (.orWave f) := fun f => of_word rfl (by decide) (putR3_lt f)
theorem xorWave : ∀ f, Statement (.xorWave f) := fun f => of_word rfl (by decide) (putR3_lt f)
theorem shlWave : ∀ f, Statement (.shlWave f) := fun f => of_word rfl (by decide) (putR3_lt f)
theorem shrWave : ∀ f, Statement (.shrWave f) := fun f => of_word rfl (by decide) (putR3_lt f)
theorem sarWave : ∀ f, Statement (.sarWave f) := fun f => of_word rfl (by decide) (putR3_lt f)
theorem rotWave : ∀ f, Statement (.rotWave f) := fun f => of_word rfl (by decide) (putR3_lt f)
theorem popcWave : ∀ f, Statement (.popcWave f) := fun f => of_word rfl (by decide) (putRUn_lt f)
theorem clzWave : ∀ f, Statement (.clzWave f) := fun f => of_word rfl (by decide) (putRUn_lt f)
theorem brevWave : ∀ f, Statement (.brevWave f) := fun f => of_word rfl (by decide) (putRUn_lt f)
theorem bfeI32Wave : ∀ f, Statement (.bfeI32Wave f) := fun f => of_word rfl (by decide) (putR3_lt f)
theorem bfeN32Wave : ∀ f, Statement (.bfeN32Wave f) := fun f => of_word rfl (by decide) (putR3_lt f)
theorem bfiWave : ∀ f, Statement (.bfiWave f) := fun f => of_word rfl (by decide) (putR3_lt f)
theorem selWave : ∀ f, Statement (.selWave f) := fun f => of_word rfl (by decide) (putR3_lt f)
theorem movWave : ∀ f, Statement (.movWave f) := fun f => of_word rfl (by decide) (putRUn_lt f)
theorem leaWave : ∀ f, Statement (.leaWave f) := fun f => of_word rfl (by omega) (putLeaW_lt f)
theorem icmpWave : ∀ f, Statement (.icmpWave f) := fun f => of_word rfl (by omega) (putCmpW_lt f)
theorem iaddI64Wave : ∀ f, Statement (.iaddI64Wave f) := fun f => of_word rfl (by decide) (putR3_lt f)
theorem isubI64Wave : ∀ f, Statement (.isubI64Wave f) := fun f => of_word rfl (by decide) (putR3_lt f)
theorem imulLoI64Wave : ∀ f, Statement (.imulLoI64Wave f) := fun f => of_word rfl (by decide) (putR3_lt f)
theorem iminI64Wave : ∀ f, Statement (.iminI64Wave f) := fun f => of_word rfl (by decide) (putR3_lt f)
theorem iminN64Wave : ∀ f, Statement (.iminN64Wave f) := fun f => of_word rfl (by decide) (putR3_lt f)
theorem imaxI64Wave : ∀ f, Statement (.imaxI64Wave f) := fun f => of_word rfl (by decide) (putR3_lt f)
theorem imaxN64Wave : ∀ f, Statement (.imaxN64Wave f) := fun f => of_word rfl (by decide) (putR3_lt f)
theorem shlI64Wave : ∀ f, Statement (.shlI64Wave f) := fun f => of_word rfl (by decide) (putR3_lt f)
theorem shrN64Wave : ∀ f, Statement (.shrN64Wave f) := fun f => of_word rfl (by decide) (putR3_lt f)
theorem sarI64Wave : ∀ f, Statement (.sarI64Wave f) := fun f => of_word rfl (by decide) (putR3_lt f)
theorem icmpI64Wave : ∀ f, Statement (.icmpI64Wave f) := fun f => of_word rfl (by omega) (putCmpW_lt f)
theorem movI64Wave : ∀ f, Statement (.movI64Wave f) := fun f => of_word rfl (by decide) (putRUn_lt f)
theorem iabsI64Wave : ∀ f, Statement (.iabsI64Wave f) := fun f => of_word rfl (by decide) (putRUn_lt f)
theorem moviWave : ∀ f, Statement (.moviWave f) := fun f => of_word rfl (by omega) (putMovF_lt f)
theorem movhiWave : ∀ f, Statement (.movhiWave f) := fun f => of_word rfl (by omega) (putMovF_lt f)
theorem iaddImmWave : ∀ f, Statement (.iaddImmWave f) := fun f => of_word rfl (by decide) (putImmF_lt f)
theorem fadd : ∀ f, Statement (.fadd f) := fun f => of_word rfl (by omega) (putFBin_lt f)
theorem fsub : ∀ f, Statement (.fsub f) := fun f => of_word rfl (by omega) (putFBin_lt f)
theorem fmul : ∀ f, Statement (.fmul f) := fun f => of_word rfl (by omega) (putFBin_lt f)
theorem ffma : ∀ f, Statement (.ffma f) := fun f => of_word rfl (by omega) (putFBin_lt f)
theorem fnma : ∀ f, Statement (.fnma f) := fun f => of_word rfl (by omega) (putFBin_lt f)
theorem fmin : ∀ f, Statement (.fmin f) := fun f => of_word rfl (by omega) (putFBin_lt f)
theorem fmax : ∀ f, Statement (.fmax f) := fun f => of_word rfl (by omega) (putFBin_lt f)
theorem fcmpEq : ∀ f, Statement (.fcmpEq f) := fun f => of_word rfl (by omega) (putFBin_lt f)
theorem fclass : ∀ f, Statement (.fclass f) := fun f => of_word rfl (by omega) (putFUn_lt f)
theorem frnd : ∀ f, Statement (.frnd f) := fun f => of_word rfl (by omega) (putFrndF_lt f)
theorem fdiv : ∀ f, Statement (.fdiv f) := fun f => of_word rfl (by omega) (putFBin_lt f)
theorem fsqrt : ∀ f, Statement (.fsqrt f) := fun f => of_word rfl (by omega) (putFUn_lt f)
theorem frcp : ∀ f, Statement (.frcp f) := fun f => of_word rfl (by omega) (putFUn_lt f)
theorem frsq : ∀ f, Statement (.frsq f) := fun f => of_word rfl (by omega) (putFUn_lt f)
theorem fcmpLt : ∀ f, Statement (.fcmpLt f) := fun f => of_word rfl (by omega) (putFBin_lt f)
theorem fcmpLe : ∀ f, Statement (.fcmpLe f) := fun f => of_word rfl (by omega) (putFBin_lt f)
theorem sin : ∀ f, Statement (.sin f) := fun f => of_word rfl (by omega) (putFUn_lt f)
theorem cos : ∀ f, Statement (.cos f) := fun f => of_word rfl (by omega) (putFUn_lt f)
theorem exp2 : ∀ f, Statement (.exp2 f) := fun f => of_word rfl (by omega) (putFUn_lt f)
theorem log2 : ∀ f, Statement (.log2 f) := fun f => of_word rfl (by omega) (putFUn_lt f)
theorem cvt : ∀ f, Statement (.cvt f) := fun f => of_word rfl (by omega) (putCvtF_lt f)
theorem qntHx4 : ∀ f, Statement (.qntHx4 f) := fun f => of_word rfl (by omega) (putQntF_lt f)
theorem qntE4m3 : ∀ f, Statement (.qntE4m3 f) := fun f => of_word rfl (by decide) (putR3_lt f)
theorem qntE5m2 : ∀ f, Statement (.qntE5m2 f) := fun f => of_word rfl (by decide) (putR3_lt f)
theorem dqHx4 : ∀ f, Statement (.dqHx4 f) := fun f => of_word rfl (by decide) (putRBin_lt f)
theorem dqE4m3 : ∀ f, Statement (.dqE4m3 f) := fun f => of_word rfl (by decide) (putRBin_lt f)
theorem dqE5m2 : ∀ f, Statement (.dqE5m2 f) := fun f => of_word rfl (by decide) (putRBin_lt f)
theorem spl3 : ∀ f, Statement (.spl3 f) := fun f => of_word rfl (by decide) (putRUn_lt f)
theorem packB16 : ∀ f, Statement (.packB16 f) := fun f => of_word rfl (by decide) (putRBin_lt f)
theorem packB8 : ∀ f, Statement (.packB8 f) := fun f => of_word rfl (by decide) (putRBin_lt f)
theorem unpack : ∀ f, Statement (.unpack f) := fun f => of_word rfl (by decide) (putR3_lt f)
theorem shfl : ∀ f, Statement (.shfl f) := fun f => of_word rfl (by omega) (putShflF_lt f)
theorem pswap : ∀ f, Statement (.pswap f) := fun f => of_word rfl (by decide) (putRUn_lt f)
theorem bcast : ∀ f, Statement (.bcast f) := fun f => of_word rfl (by decide) (putRBin_lt f)
theorem ballot : ∀ f, Statement (.ballot f) := fun f => of_word rfl (by decide) (putRUn_lt f)
theorem voteAny : ∀ f, Statement (.voteAny f) := fun f => of_word rfl (by decide) (putVoteF_lt f)
theorem voteAll : ∀ f, Statement (.voteAll f) := fun f => of_word rfl (by decide) (putVoteF_lt f)
theorem voteUni : ∀ f, Statement (.voteUni f) := fun f => of_word rfl (by decide) (putVoteF_lt f)
theorem ppop : ∀ f, Statement (.ppop f) := fun f => of_word rfl (by decide) (putRBin_lt f)
theorem isectList : ∀ f, Statement (.isectList f) := fun f => of_word rfl (by decide) (putRBin_lt f)
theorem isectBits : ∀ f, Statement (.isectBits f) := fun f => of_word rfl (by decide) (putRBin_lt f)
theorem wredAdd : ∀ f, Statement (.wredAdd f) := fun f => of_word rfl (by omega) (putFUn_lt f)
theorem wredMin : ∀ f, Statement (.wredMin f) := fun f => of_word rfl (by omega) (putFUn_lt f)
theorem wredMax : ∀ f, Statement (.wredMax f) := fun f => of_word rfl (by omega) (putFUn_lt f)
theorem wredAddI32 : ∀ f, Statement (.wredAddI32 f) := fun f => of_word rfl (by decide) (putRUn_lt f)
theorem wredAddI64 : ∀ f, Statement (.wredAddI64 f) := fun f => of_word rfl (by decide) (putRUn_lt f)
theorem wredAndB32 : ∀ f, Statement (.wredAndB32 f) := fun f => of_word rfl (by decide) (putRUn_lt f)
theorem wredOrB32 : ∀ f, Statement (.wredOrB32 f) := fun f => of_word rfl (by decide) (putRUn_lt f)
theorem wredMinI32 : ∀ f, Statement (.wredMinI32 f) := fun f => of_word rfl (by decide) (putRUn_lt f)
theorem wredMaxI32 : ∀ f, Statement (.wredMaxI32 f) := fun f => of_word rfl (by decide) (putRUn_lt f)
theorem wredMinN32 : ∀ f, Statement (.wredMinN32 f) := fun f => of_word rfl (by decide) (putRUn_lt f)
theorem wredMaxN32 : ∀ f, Statement (.wredMaxN32 f) := fun f => of_word rfl (by decide) (putRUn_lt f)
theorem ld : ∀ f, Statement (.ld f) := fun f => of_word rfl (by omega) (putMemZ_lt f)
theorem st : ∀ f, Statement (.st f) := fun f => of_word rfl (by omega) (putMemZ_lt f)
theorem lds : ∀ f, Statement (.lds f) := fun f => of_word rfl (by omega) (putMemZ_lt f)
theorem sts : ∀ f, Statement (.sts f) := fun f => of_word rfl (by omega) (putMemZ_lt f)
theorem ldl : ∀ f, Statement (.ldl f) := fun f => of_word rfl (by decide) (putLelF_lt f)
theorem stl : ∀ f, Statement (.stl f) := fun f => of_word rfl (by decide) (putLelF_lt f)
theorem ldw : ∀ f, Statement (.ldw f) := fun f => of_word rfl (by omega) (putMemZ_lt f)
theorem atomAddI32 : ∀ f, Statement (.atomAddI32 f) := fun f => of_word rfl (by decide) (putMemF_lt f)
theorem atomAddI64 : ∀ f, Statement (.atomAddI64 f) := fun f => of_word rfl (by decide) (putMemF_lt f)
theorem atomAddF32 : ∀ f, Statement (.atomAddF32 f) := fun f => of_word rfl (by decide) (putMemF_lt f)
theorem atomAddF64 : ∀ f, Statement (.atomAddF64 f) := fun f => of_word rfl (by decide) (putMemF_lt f)
theorem atomMinI32 : ∀ f, Statement (.atomMinI32 f) := fun f => of_word rfl (by decide) (putMemF_lt f)
theorem atomMaxI32 : ∀ f, Statement (.atomMaxI32 f) := fun f => of_word rfl (by decide) (putMemF_lt f)
theorem atomMinN32 : ∀ f, Statement (.atomMinN32 f) := fun f => of_word rfl (by decide) (putMemF_lt f)
theorem atomMaxN32 : ∀ f, Statement (.atomMaxN32 f) := fun f => of_word rfl (by decide) (putMemF_lt f)
theorem atomAndB32 : ∀ f, Statement (.atomAndB32 f) := fun f => of_word rfl (by decide) (putMemF_lt f)
theorem atomOrB32 : ∀ f, Statement (.atomOrB32 f) := fun f => of_word rfl (by decide) (putMemF_lt f)
theorem atomXorB32 : ∀ f, Statement (.atomXorB32 f) := fun f => of_word rfl (by decide) (putMemF_lt f)
theorem atomExchB32 : ∀ f, Statement (.atomExchB32 f) := fun f => of_word rfl (by decide) (putMemF_lt f)
theorem atomExchB64 : ∀ f, Statement (.atomExchB64 f) := fun f => of_word rfl (by decide) (putMemF_lt f)
theorem casB32 : ∀ f, Statement (.casB32 f) := fun f => of_word rfl (by decide) (putMemF_lt f)
theorem casB64 : ∀ f, Statement (.casB64 f) := fun f => of_word rfl (by decide) (putMemF_lt f)
theorem fence : ∀ f, Statement (.fence f) := fun f => of_word rfl (by decide) (putFenceF_lt f)
theorem poll : ∀ f, Statement (.poll f) := fun f => of_word rfl (by decide) (putMemF_lt f)
theorem pref : ∀ f, Statement (.pref f) := fun f => of_word rfl (by decide) (putPrefF_lt f)
theorem cwb : ∀ f, Statement (.cwb f) := fun f => of_word rfl (by decide) (putCacheF_lt f)
theorem cinv : ∀ f, Statement (.cinv f) := fun f => of_word rfl (by decide) (putCacheF_lt f)
theorem ldef : ∀ f, Statement (.ldef f) := fun f => of_word rfl (by decide) (putLdefF_lt f)
theorem lchain : ∀ f, Statement (.lchain f) := fun f => of_word rfl (by decide) (putLchainF_lt f)
theorem lpart : ∀ f, Statement (.lpart f) := fun f => of_word rfl (by decide) (putLpartF_lt f)
theorem ltrans : ∀ f, Statement (.ltrans f) := fun f => of_word rfl (by decide) (putLldF_lt f)
theorem lflat : ∀ f, Statement (.lflat f) := fun f => of_word rfl (by decide) (putLflatF_lt f)
theorem lswz : ∀ f, Statement (.lswz f) := fun f => of_word rfl (by decide) (putLldF_lt f)
theorem lget : ∀ f, Statement (.lget f) := fun f => of_word rfl (by decide) (putLgetF_lt f)
theorem lchk : ∀ f, Statement (.lchk f) := fun f => of_word rfl (by decide) (putLgetF_lt f)
theorem hset : ∀ f, Statement (.hset f) := fun f => of_word rfl (by decide) (putHsetF_lt f)
theorem tcopy : ∀ f, Statement (.tcopy f) := fun f => of_word rfl (by decide) (putTcopyF_lt f)
theorem gather : ∀ f, Statement (.gather f) := fun f => of_word rfl (by decide) (putEngF_lt f)
theorem scatter : ∀ f, Statement (.scatter f) := fun f => of_word rfl (by decide) (putEngF_lt f)
theorem mcread : ∀ f, Statement (.mcread f) := fun f => of_word rfl (by decide) (putEngF_lt f)
theorem rbinit : ∀ f, Statement (.rbinit f) := fun f => of_word rfl (by decide) (putObjF_lt f)
theorem rbpop : ∀ f, Statement (.rbpop f) := fun f => of_word rfl (by decide) (putObjF_lt f)
theorem rbfree : ∀ f, Statement (.rbfree f) := fun f => of_word rfl (by decide) (putObjF_lt f)
theorem coinit : ∀ f, Statement (.coinit f) := fun f => of_word rfl (by decide) (putCoinitF_lt f)
theorem coexpect : ∀ f, Statement (.coexpect f) := fun f => of_word rfl (by decide) (putObjF_lt f)
theorem coarrive : ∀ f, Statement (.coarrive f) := fun f => of_word rfl (by decide) (putObjF_lt f)
theorem codrop : ∀ f, Statement (.codrop f) := fun f => of_word rfl (by decide) (putObjF_lt f)
theorem cowait : ∀ f, Statement (.cowait f) := fun f => of_word rfl (by decide) (putWaitF_lt f)
theorem cotest : ∀ f, Statement (.cotest f) := fun f => of_word rfl (by decide) (putWaitF_lt f)
theorem trsend : ∀ f, Statement (.trsend f) := fun f => of_word rfl (by decide) (putEngF_lt f)
theorem mloopBf16 : ∀ f, Statement (.mloopBf16 f) := fun f => of_word rfl (by decide) (putMloopF_lt f)
theorem mloopF16 : ∀ f, Statement (.mloopF16 f) := fun f => of_word rfl (by decide) (putMloopF_lt f)
theorem mloopE4m3 : ∀ f, Statement (.mloopE4m3 f) := fun f => of_word rfl (by decide) (putMloopF_lt f)
theorem mloopE5m2 : ∀ f, Statement (.mloopE5m2 f) := fun f => of_word rfl (by decide) (putMloopF_lt f)
theorem mloopI8 : ∀ f, Statement (.mloopI8 f) := fun f => of_word rfl (by decide) (putMloopF_lt f)
theorem mloopHx4 : ∀ f, Statement (.mloopHx4 f) := fun f => of_word rfl (by decide) (putMloopF_lt f)
theorem mloopF64 : ∀ f, Statement (.mloopF64 f) := fun f => of_word rfl (by decide) (putMloopF_lt f)
theorem mzero : ∀ f, Statement (.mzero f) := fun f => of_word rfl (by decide) (putMzeroF_lt f)
theorem mlda : ∀ f, Statement (.mlda f) := fun f => of_word rfl (by decide) (putMldF_lt f)
theorem msta : ∀ f, Statement (.msta f) := fun f => of_word rfl (by decide) (putMldF_lt f)
theorem mrd : ∀ f, Statement (.mrd f) := fun f => of_word rfl (by decide) (putMmovF_lt f)
theorem mwr : ∀ f, Statement (.mwr f) := fun f => of_word rfl (by decide) (putMmovF_lt f)
theorem mstat : ∀ f, Statement (.mstat f) := fun f => of_word rfl (by decide) (putMstatF_lt f)
theorem spawn : ∀ f, Statement (.spawn f) := fun f => of_word rfl (by decide) (putSpawnF_lt f)
theorem spawnTry : ∀ f, Statement (.spawnTry f) := fun f => of_word rfl (by decide) (putSpawnF_lt f)
theorem close : ∀ f, Statement (.close f) := fun f => of_word rfl (by decide) (putSaF_lt f)
theorem tbset : ∀ f, Statement (.tbset f) := fun f => of_word rfl (by decide) (putTbF_lt f)
theorem tbclr : ∀ f, Statement (.tbclr f) := fun f => of_word rfl (by decide) (putTbF_lt f)
theorem tbtest : ∀ f, Statement (.tbtest f) := fun f => of_word rfl (by decide) (putTbtF_lt f)
theorem join : ∀ f, Statement (.join f) := fun f => of_word rfl (by decide) (putSdaF_lt f)
theorem leave : Statement .leave := of_word rfl (by decide) (by decide)
theorem bar : ∀ f, Statement (.bar f) := fun f => of_word rfl (by decide) (putSdF_lt f)
theorem launch : ∀ f, Statement (.launch f) := fun f => of_word rfl (by decide) (putLaunchF_lt f)
theorem verdict : ∀ f, Statement (.verdict f) := fun f => of_word rfl (by decide) (putSaF_lt f)
theorem bra : ∀ f, Statement (.bra f) := fun f => of_word rfl (by decide) (putBraF_lt f)
theorem call : ∀ f, Statement (.call f) := fun f => of_word rfl (by decide) (putCallF_lt f)
theorem ret : Statement .ret := of_word rfl (by decide) (by decide)
theorem exit : Statement .exit := of_word rfl (by decide) (by decide)
theorem drain : Statement .drain := of_word rfl (by decide) (by decide)
theorem yield : Statement .yield := of_word rfl (by decide) (by decide)
theorem give : ∀ f, Statement (.give f) := fun f => of_word rfl (by decide) (putGiveF_lt f)
theorem claim : ∀ f, Statement (.claim f) := fun f => of_word rfl (by decide) (putGiveF_lt f)
theorem claimTry : ∀ f, Statement (.claimTry f) := fun f => of_word rfl (by decide) (putClaimTryF_lt f)
theorem trap : ∀ f, Statement (.trap f) := fun f => of_word rfl (by decide) (putTrapF_lt f)
theorem bkpt : ∀ f, Statement (.bkpt f) := fun f => of_word rfl (by decide) (putTrapF_lt f)
theorem nop : Statement .nop := of_word rfl (by decide) (by decide)
theorem srd : ∀ f, Statement (.srd f) := fun f => of_word rfl (by decide) (putSrF_lt f)
theorem swr : ∀ f, Statement (.swr f) := fun f => of_word rfl (by decide) (putSrF_lt f)
theorem ptew : ∀ f, Statement (.ptew f) := fun f => of_word rfl (by decide) (putPtewF_lt f)
theorem poolpop : ∀ f, Statement (.poolpop f) := fun f => of_word rfl (by decide) (putPopF_lt f)
theorem lpinv : ∀ f, Statement (.lpinv f) := fun f => of_word rfl (by decide) (putInvF_lt f)
theorem tlbinv : ∀ f, Statement (.tlbinv f) := fun f => of_word rfl (by decide) (putInvF_lt f)
theorem iinv : ∀ f, Statement (.iinv f) := fun f => of_word rfl (by decide) (putInvF_lt f)
theorem rft : Statement .rft := of_word rfl (by decide) (by decide)
theorem parkedRestoke : ∀ a0, Statement (.parkedRestoke a0) := fun _ => of_none rfl
theorem vectorPass : ∀ a0 a1, Statement (.vectorPass a0 a1) := fun _ _ => of_none rfl
theorem resultWriteback : ∀ a0 a1, Statement (.resultWriteback a0 a1) := fun _ _ => of_none rfl
theorem hsetComplete : ∀ a0, Statement (.hsetComplete a0) := fun _ => of_none rfl
theorem engineOpStart : ∀ a0, Statement (.engineOpStart a0) := fun _ => of_none rfl
theorem engineOpArrive : ∀ a0, Statement (.engineOpArrive a0) := fun _ => of_none rfl
theorem objectApply : ∀ a0 a1 a2, Statement (.objectApply a0 a1 a2) := fun _ _ _ => of_none rfl
theorem cowaitResult : ∀ a0, Statement (.cowaitResult a0) := fun _ => of_none rfl
theorem rbpopResult : ∀ a0, Statement (.rbpopResult a0) := fun _ => of_none rfl
theorem mcreadRequestArrive : ∀ a0, Statement (.mcreadRequestArrive a0) := fun _ => of_none rfl
theorem mcreadSessionTimeout : ∀ a0, Statement (.mcreadSessionTimeout a0) := fun _ => of_none rfl
theorem mcreadLineSend : ∀ a0, Statement (.mcreadLineSend a0) := fun _ => of_none rfl
theorem mcreadLineWrite : ∀ a0, Statement (.mcreadLineWrite a0) := fun _ => of_none rfl
theorem tileFetchPin : ∀ a0, Statement (.tileFetchPin a0) := fun _ => of_none rfl
theorem matrixStepStart : ∀ a0, Statement (.matrixStepStart a0) := fun _ => of_none rfl
theorem matrixStepResult : ∀ a0, Statement (.matrixStepResult a0) := fun _ => of_none rfl
theorem tileMoveComplete : ∀ a0 a1, Statement (.tileMoveComplete a0 a1) := fun _ _ => of_none rfl
theorem tileLoadStoreComplete : ∀ a0, Statement (.tileLoadStoreComplete a0) := fun _ => of_none rfl
theorem spawnAccept : ∀ a0, Statement (.spawnAccept a0) := fun _ => of_none rfl
theorem cordCloseApply : ∀ a0, Statement (.cordCloseApply a0) := fun _ => of_none rfl
theorem tileBufferApply : ∀ a0, Statement (.tileBufferApply a0) := fun _ => of_none rfl
theorem taskEnterCord : Statement (.taskEnterCord) := of_none rfl
theorem crewOpApply : ∀ a0 a1, Statement (.crewOpApply a0 a1) := fun _ _ => of_none rfl
theorem barReturn : ∀ a0, Statement (.barReturn a0) := fun _ => of_none rfl
theorem claimGrant : ∀ a0, Statement (.claimGrant a0) := fun _ => of_none rfl
theorem ptewApply : ∀ a0, Statement (.ptewApply a0) := fun _ => of_none rfl
theorem poolpopComplete : ∀ a0, Statement (.poolpopComplete a0) := fun _ => of_none rfl
theorem translationSweepEnd : ∀ a0, Statement (.translationSweepEnd a0) := fun _ => of_none rfl
theorem iinvSweepEnd : ∀ a0, Statement (.iinvSweepEnd a0) := fun _ => of_none rfl
theorem handlerEntry : ∀ a0, Statement (.handlerEntry a0) := fun _ => of_none rfl
theorem pageWalk : ∀ a0 a1 a2 a3 a4, Statement (.pageWalk a0 a1 a2 a3 a4) := fun _ _ _ _ _ => of_none rfl
theorem icacheFill : ∀ a0 a1 a2, Statement (.icacheFill a0 a1 a2) := fun _ _ _ => of_none rfl
theorem memoryRequestApply : ∀ a0 a1, Statement (.memoryRequestApply a0 a1) := fun _ _ => of_none rfl
theorem memoryResponse : ∀ a0, Statement (.memoryResponse a0) := fun _ => of_none rfl
theorem storeAck : ∀ a0, Statement (.storeAck a0) := fun _ => of_none rfl
theorem pollReread : ∀ a0, Statement (.pollReread a0) := fun _ => of_none rfl
theorem l2Fill : ∀ a0, Statement (.l2Fill a0) := fun _ => of_none rfl
theorem writebackAck : ∀ a0, Statement (.writebackAck a0) := fun _ => of_none rfl
theorem hostWritePerformed : ∀ a0, Statement (.hostWritePerformed a0) := fun _ => of_none rfl
theorem waveRetire : ∀ a0, Statement (.waveRetire a0) := fun _ => of_none rfl
theorem tileCommit : ∀ a0, Statement (.tileCommit a0) := fun _ => of_none rfl
theorem tileDiscard : ∀ a0, Statement (.tileDiscard a0) := fun _ => of_none rfl
theorem exactItemsEnter : ∀ a0, Statement (.exactItemsEnter a0) := fun _ => of_none rfl
theorem tileReserve : ∀ a0, Statement (.tileReserve a0) := fun _ => of_none rfl
theorem queueDoorbell : ∀ a0 a1, Statement (.queueDoorbell a0 a1) := fun _ _ => of_none rfl
theorem launchRecordIntake : ∀ a0, Statement (.launchRecordIntake a0) := fun _ => of_none rfl
theorem bindRecordWrite : ∀ a0 a1 a2, Statement (.bindRecordWrite a0 a1 a2) := fun _ _ _ => of_none rfl
theorem waveCreate : ∀ a0, Statement (.waveCreate a0) := fun _ => of_none rfl
theorem queueAgeing : ∀ a0, Statement (.queueAgeing a0) := fun _ => of_none rfl
theorem gangCloseSet : ∀ a0 a1, Statement (.gangCloseSet a0 a1) := fun _ _ => of_none rfl
theorem preemptSave : ∀ a0, Statement (.preemptSave a0) := fun _ => of_none rfl
theorem waveResume : ∀ a0 a1 a2, Statement (.waveResume a0 a1 a2) := fun _ _ _ => of_none rfl
theorem launchEnd : ∀ a0, Statement (.launchEnd a0) := fun _ => of_none rfl
theorem watchdogLimit : ∀ a0, Statement (.watchdogLimit a0) := fun _ => of_none rfl
theorem createContext : ∀ a0, Statement (.createContext a0) := fun _ => of_none rfl
theorem destroyContext : ∀ a0, Statement (.destroyContext a0) := fun _ => of_none rfl
theorem setContextRoots : ∀ a0, Statement (.setContextRoots a0) := fun _ => of_none rfl
theorem writeRegionBounds : ∀ a0, Statement (.writeRegionBounds a0) := fun _ => of_none rfl
theorem addPoolFrames : ∀ a0, Statement (.addPoolFrames a0) := fun _ => of_none rfl
theorem grantTbWindow : ∀ a0, Statement (.grantTbWindow a0) := fun _ => of_none rfl
theorem setPriorityCap : ∀ a0, Statement (.setPriorityCap a0) := fun _ => of_none rfl
theorem setAge : ∀ a0, Statement (.setAge a0) := fun _ => of_none rfl
theorem setGangwait : ∀ a0, Statement (.setGangwait a0) := fun _ => of_none rfl
theorem installKey : ∀ a0, Statement (.installKey a0) := fun _ => of_none rfl
theorem writeImportSlot : ∀ a0, Statement (.writeImportSlot a0) := fun _ => of_none rfl
theorem writeImportEntry : ∀ a0, Statement (.writeImportEntry a0) := fun _ => of_none rfl
theorem configureSpan : ∀ a0, Statement (.configureSpan a0) := fun _ => of_none rfl
theorem terminateLaunch : ∀ a0, Statement (.terminateLaunch a0) := fun _ => of_none rfl
theorem resumeWave : ∀ a0, Statement (.resumeWave a0) := fun _ => of_none rfl
theorem setRoute : ∀ a0, Statement (.setRoute a0) := fun _ => of_none rfl
theorem setPackageNumber : ∀ a0, Statement (.setPackageNumber a0) := fun _ => of_none rfl
theorem qcfgWrite : ∀ a0 a1, Statement (.qcfgWrite a0 a1) := fun _ _ => of_none rfl
theorem semaphoreWrite : ∀ a0 a1 a2, Statement (.semaphoreWrite a0 a1 a2) := fun _ _ _ => of_none rfl
theorem plimWattsWrite : ∀ a0 a1, Statement (.plimWattsWrite a0 a1) := fun _ _ => of_none rfl
theorem recoveryAppend : ∀ a0 a1, Statement (.recoveryAppend a0 a1) := fun _ _ => of_none rfl
theorem recoveryCheck : ∀ a0 a1, Statement (.recoveryCheck a0 a1) := fun _ _ => of_none rfl
theorem controlWindowWrite : ∀ a0 a1 a2 a3, Statement (.controlWindowWrite a0 a1 a2 a3) := fun _ _ _ _ => of_none rfl
theorem powerOn : Statement (.powerOn) := of_none rfl
theorem functionReady : ∀ a0, Statement (.functionReady a0) := fun _ => of_none rfl
theorem flitReceive : ∀ a0 a1, Statement (.flitReceive a0 a1) := fun _ _ => of_none rfl
theorem importIngress : ∀ a0, Statement (.importIngress a0) := fun _ => of_none rfl
theorem fabricTimeout : ∀ a0, Statement (.fabricTimeout a0) := fun _ => of_none rfl
theorem correctedError : ∀ a0, Statement (.correctedError a0) := fun _ => of_none rfl
theorem uncorrectableSectorError : ∀ a0, Statement (.uncorrectableSectorError a0) := fun _ => of_none rfl
theorem registerArrayError : ∀ a0, Statement (.registerArrayError a0) := fun _ => of_none rfl
theorem scratchpadError : ∀ a0 a1, Statement (.scratchpadError a0 a1) := fun _ _ => of_none rfl
theorem cacheArrayError : ∀ a0, Statement (.cacheArrayError a0) := fun _ => of_none rfl
theorem slotTableError : Statement (.slotTableError) := of_none rfl
theorem powerLimitExceeded : Statement (.powerLimitExceeded) := of_none rfl
theorem thermalThrottle : Statement (.thermalThrottle) := of_none rfl
theorem thermalShutdown : Statement (.thermalShutdown) := of_none rfl
theorem modulePowerOff : Statement (.modulePowerOff) := of_none rfl
theorem unknownCommandCode : ∀ a0, Statement (.unknownCommandCode a0) := fun _ => of_none rfl

end Sys2Proof.Laws.Fields
end

