-- ==== Sys2Proof/Tests/Slice0.lean ====
section
/-!
SUPPORT. The author's tests: words written out field by field from the encoding tables of the spec, with what they decode to;
ill-formed terms and rejected words; a witness for the hypotheses of each statement; the spec's worked examples.
-/
namespace Sys2Proof.Tests
set_option maxRecDepth 100000
set_option Elab.async false
open Sys2Proof Sys2Proof.Machine

/-! ### Decoding: each value is the word's fields from bit 31 down, as the encoding tables give them -/

theorem test_words_ControlSystem : ∀ p ∈ ([
      (0x1FF#10 ++ 2053#12 ++ 9#4 ++ 6#4 ++ 1#1 ++ 0#1, .clause ⟨2053, 9, 6, true, false⟩),
      (0x1C0#10 ++ 2#4 ++ 5#3 ++ 32766#15, .bra ⟨2, 5, 32766⟩),
      (0x1C1#10 ++ 0#7 ++ 32766#15, .call ⟨32766⟩),
      (0x1C2#10 ++ 0#22, .ret),
      (0x1C3#10 ++ 0#22, .exit),
      (0x1C4#10 ++ 0#22, .drain),
      (0x1C5#10 ++ 0#22, .yield),
      (0x1C6#10 ++ 0#12 ++ 96#9 ++ 0#1, .give ⟨96⟩),
      (0x1C7#10 ++ 0#12 ++ 8#9 ++ 0#1, .claim ⟨8⟩),
      (0x1C8#10 ++ 33#6 ++ 0#6 ++ 40#9 ++ 0#1, .claimTry ⟨33, 40⟩),
      (0x1C9#10 ++ 0#7 ++ 16387#15, .trap ⟨16387⟩),
      (0x1CA#10 ++ 0#7 ++ 32767#15, .bkpt ⟨32767⟩),
      (0x1CB#10 ++ 0#22, .nop),
      (0x1D0#10 ++ 33#6 ++ 1023#12 ++ 0#4, .srd ⟨33, 1023⟩),
      (0x1D1#10 ++ 33#6 ++ 34#12 ++ 0#4, .swr ⟨33, 34⟩),
      (0x1D2#10 ++ 33#6 ++ 60#6 ++ 0#5 ++ 1#1 ++ 0#1 ++ 2#2 ++ 1#1, .ptew ⟨33, 60, true, false, 2, true⟩),
      (0x1D3#10 ++ 34#6 ++ 0#15 ++ 1#1, .poolpop ⟨34, true⟩),
      (0x1D4#10 ++ 0#6 ++ 44#6 ++ 0#6 ++ 1#1 ++ 2#2 ++ 0#1, .lpinv ⟨44, true, 2, false⟩),
      (0x1D5#10 ++ 0#6 ++ 44#6 ++ 0#6 ++ 0#1 ++ 1#2 ++ 1#1, .tlbinv ⟨44, false, 1, true⟩),
      (0x1D6#10 ++ 0#6 ++ 44#6 ++ 0#6 ++ 1#1 ++ 0#2 ++ 1#1, .iinv ⟨44, true, 0, true⟩),
      (0x1D7#10 ++ 0#22, .rft)] :
    List (Word × Instr)), decodeWord p.1 = .ok p.2 ∧ p.2.wf = true ∧ encode p.2 = some p.1 := by decide +kernel

theorem test_words_VectorInteger1 : ∀ p ∈ ([
      (0x000#10 ++ 85#7 ++ 42#7 ++ 19#7 ++ 1#1, .iadd ⟨85, 42, 19, true⟩),
      (0x001#10 ++ 85#7 ++ 42#7 ++ 19#7 ++ 1#1, .isub ⟨85, 42, 19, true⟩),
      (0x002#10 ++ 85#7 ++ 42#7 ++ 19#7 ++ 1#1, .imulLo ⟨85, 42, 19, true⟩),
      (0x003#10 ++ 85#7 ++ 42#7 ++ 19#7 ++ 1#1, .imulHiI32 ⟨85, 42, 19, true⟩),
      (0x004#10 ++ 85#7 ++ 42#7 ++ 19#7 ++ 1#1, .imulHiN32 ⟨85, 42, 19, true⟩),
      (0x005#10 ++ 85#7 ++ 42#7 ++ 19#7 ++ 1#1, .imulWideI32 ⟨85, 42, 19, true⟩),
      (0x006#10 ++ 85#7 ++ 42#7 ++ 19#7 ++ 1#1, .imulWideN32 ⟨85, 42, 19, true⟩),
      (0x007#10 ++ 85#7 ++ 42#7 ++ 19#7 ++ 1#1, .imad ⟨85, 42, 19, true⟩),
      (0x008#10 ++ 85#7 ++ 42#7 ++ 19#7 ++ 1#1, .iminI32 ⟨85, 42, 19, true⟩),
      (0x009#10 ++ 85#7 ++ 42#7 ++ 19#7 ++ 1#1, .iminN32 ⟨85, 42, 19, true⟩),
      (0x00A#10 ++ 85#7 ++ 42#7 ++ 19#7 ++ 1#1, .imaxI32 ⟨85, 42, 19, true⟩),
      (0x00B#10 ++ 85#7 ++ 42#7 ++ 19#7 ++ 1#1, .imaxN32 ⟨85, 42, 19, true⟩),
      (0x00C#10 ++ 85#7 ++ 42#7 ++ 0#8, .iabsI32 ⟨85, 42⟩),
      (0x00D#10 ++ 85#7 ++ 42#7 ++ 19#7 ++ 1#1, .and ⟨85, 42, 19, true⟩),
      (0x00E#10 ++ 85#7 ++ 42#7 ++ 19#7 ++ 1#1, .or ⟨85, 42, 19, true⟩),
      (0x00F#10 ++ 85#7 ++ 42#7 ++ 19#7 ++ 1#1, .xor ⟨85, 42, 19, true⟩),
      (0x010#10 ++ 85#7 ++ 42#7 ++ 19#7 ++ 1#1, .shl ⟨85, 42, 19, true⟩),
      (0x011#10 ++ 85#7 ++ 42#7 ++ 19#7 ++ 1#1, .shr ⟨85, 42, 19, true⟩),
      (0x012#10 ++ 85#7 ++ 42#7 ++ 19#7 ++ 1#1, .sar ⟨85, 42, 19, true⟩),
      (0x013#10 ++ 85#7 ++ 42#7 ++ 19#7 ++ 1#1, .rot ⟨85, 42, 19, true⟩),
      (0x014#10 ++ 85#7 ++ 42#7 ++ 0#8, .popc ⟨85, 42⟩),
      (0x015#10 ++ 85#7 ++ 42#7 ++ 0#8, .clz ⟨85, 42⟩),
      (0x016#10 ++ 85#7 ++ 42#7 ++ 0#8, .brev ⟨85, 42⟩),
      (0x017#10 ++ 85#7 ++ 42#7 ++ 19#7 ++ 1#1, .bfeI32 ⟨85, 42, 19, true⟩)] :
    List (Word × Instr)), decodeWord p.1 = .ok p.2 ∧ p.2.wf = true ∧ encode p.2 = some p.1 := by decide +kernel

theorem test_words_VectorInteger2 : ∀ p ∈ ([
      (0x018#10 ++ 85#7 ++ 42#7 ++ 19#7 ++ 1#1, .bfeN32 ⟨85, 42, 19, true⟩),
      (0x019#10 ++ 85#7 ++ 42#7 ++ 19#7 ++ 1#1, .bfi ⟨85, 42, 19, true⟩),
      (0x01A#10 ++ 85#7 ++ 42#7 ++ 19#7 ++ 1#1, .sel ⟨85, 42, 19, true⟩),
      (0x01B#10 ++ 85#7 ++ 42#7 ++ 0#8, .mov ⟨85, 42⟩),
      (0x01E#10 ++ 85#7 ++ 42#7 ++ 19#7 ++ 1#1, .lea ⟨2, 85, 42, 19, true⟩),
      (0x025#10 ++ 85#7 ++ 42#7 ++ 19#7 ++ 1#1, .icmp ⟨5, 85, 42, 19, true⟩),
      (0x026#10 ++ 85#7 ++ 42#7 ++ 19#7 ++ 1#1, .iaddI64 ⟨85, 42, 19, true⟩),
      (0x027#10 ++ 85#7 ++ 42#7 ++ 19#7 ++ 1#1, .isubI64 ⟨85, 42, 19, true⟩),
      (0x028#10 ++ 85#7 ++ 42#7 ++ 19#7 ++ 1#1, .imulLoI64 ⟨85, 42, 19, true⟩),
      (0x029#10 ++ 85#7 ++ 42#7 ++ 19#7 ++ 1#1, .iminI64 ⟨85, 42, 19, true⟩),
      (0x02A#10 ++ 85#7 ++ 42#7 ++ 19#7 ++ 1#1, .iminN64 ⟨85, 42, 19, true⟩),
      (0x02B#10 ++ 85#7 ++ 42#7 ++ 19#7 ++ 1#1, .imaxI64 ⟨85, 42, 19, true⟩),
      (0x02C#10 ++ 85#7 ++ 42#7 ++ 19#7 ++ 1#1, .imaxN64 ⟨85, 42, 19, true⟩),
      (0x02D#10 ++ 85#7 ++ 42#7 ++ 19#7 ++ 1#1, .shlI64 ⟨85, 42, 19, true⟩),
      (0x02E#10 ++ 85#7 ++ 42#7 ++ 19#7 ++ 1#1, .shrN64 ⟨85, 42, 19, true⟩),
      (0x02F#10 ++ 85#7 ++ 42#7 ++ 19#7 ++ 1#1, .sarI64 ⟨85, 42, 19, true⟩),
      (0x035#10 ++ 85#7 ++ 42#7 ++ 19#7 ++ 1#1, .icmpI64 ⟨5, 85, 42, 19, true⟩),
      (0x036#10 ++ 85#7 ++ 42#7 ++ 0#8, .movI64 ⟨85, 42⟩),
      (0x037#10 ++ 85#7 ++ 42#7 ++ 0#8, .iabsI64 ⟨85, 42⟩),
      (0x039#10 ++ 85#7 ++ 6844#15, .movi ⟨39612, 85⟩),
      (0x03B#10 ++ 85#7 ++ 6844#15, .movhi ⟨39612, 85⟩),
      (0x03C#10 ++ 85#7 ++ 16387#15, .iaddImm ⟨85, 16387⟩)] :
    List (Word × Instr)), decodeWord p.1 = .ok p.2 ∧ p.2.wf = true ∧ encode p.2 = some p.1 := by decide +kernel

theorem test_words_WaveInteger1 : ∀ p ∈ ([
      (0x100#10 ++ 85#7 ++ 42#7 ++ 19#7 ++ 0#1, .iaddWave ⟨85, 42, 19⟩),
      (0x101#10 ++ 85#7 ++ 42#7 ++ 19#7 ++ 0#1, .isubWave ⟨85, 42, 19⟩),
      (0x102#10 ++ 85#7 ++ 42#7 ++ 19#7 ++ 0#1, .imulLoWave ⟨85, 42, 19⟩),
      (0x103#10 ++ 85#7 ++ 42#7 ++ 19#7 ++ 0#1, .imulHiI32Wave ⟨85, 42, 19⟩),
      (0x104#10 ++ 85#7 ++ 42#7 ++ 19#7 ++ 0#1, .imulHiN32Wave ⟨85, 42, 19⟩),
      (0x105#10 ++ 85#7 ++ 42#7 ++ 19#7 ++ 0#1, .imulWideI32Wave ⟨85, 42, 19⟩),
      (0x106#10 ++ 85#7 ++ 42#7 ++ 19#7 ++ 0#1, .imulWideN32Wave ⟨85, 42, 19⟩),
      (0x107#10 ++ 85#7 ++ 42#7 ++ 19#7 ++ 0#1, .imadWave ⟨85, 42, 19⟩),
      (0x108#10 ++ 85#7 ++ 42#7 ++ 19#7 ++ 0#1, .iminI32Wave ⟨85, 42, 19⟩),
      (0x109#10 ++ 85#7 ++ 42#7 ++ 19#7 ++ 0#1, .iminN32Wave ⟨85, 42, 19⟩),
      (0x10A#10 ++ 85#7 ++ 42#7 ++ 19#7 ++ 0#1, .imaxI32Wave ⟨85, 42, 19⟩),
      (0x10B#10 ++ 85#7 ++ 42#7 ++ 19#7 ++ 0#1, .imaxN32Wave ⟨85, 42, 19⟩),
      (0x10C#10 ++ 85#7 ++ 42#7 ++ 0#8, .iabsI32Wave ⟨85, 42⟩),
      (0x10D#10 ++ 85#7 ++ 42#7 ++ 19#7 ++ 0#1, .andWave ⟨85, 42, 19⟩),
      (0x10E#10 ++ 85#7 ++ 42#7 ++ 19#7 ++ 0#1, .orWave ⟨85, 42, 19⟩),
      (0x10F#10 ++ 85#7 ++ 42#7 ++ 19#7 ++ 0#1, .xorWave ⟨85, 42, 19⟩),
      (0x110#10 ++ 85#7 ++ 42#7 ++ 19#7 ++ 0#1, .shlWave ⟨85, 42, 19⟩),
      (0x111#10 ++ 85#7 ++ 42#7 ++ 19#7 ++ 0#1, .shrWave ⟨85, 42, 19⟩),
      (0x112#10 ++ 85#7 ++ 42#7 ++ 19#7 ++ 0#1, .sarWave ⟨85, 42, 19⟩),
      (0x113#10 ++ 85#7 ++ 42#7 ++ 19#7 ++ 0#1, .rotWave ⟨85, 42, 19⟩),
      (0x114#10 ++ 85#7 ++ 42#7 ++ 0#8, .popcWave ⟨85, 42⟩),
      (0x115#10 ++ 85#7 ++ 42#7 ++ 0#8, .clzWave ⟨85, 42⟩),
      (0x116#10 ++ 85#7 ++ 42#7 ++ 0#8, .brevWave ⟨85, 42⟩),
      (0x117#10 ++ 85#7 ++ 42#7 ++ 19#7 ++ 0#1, .bfeI32Wave ⟨85, 42, 19⟩)] :
    List (Word × Instr)), decodeWord p.1 = .ok p.2 ∧ p.2.wf = true ∧ encode p.2 = some p.1 := by decide +kernel

theorem test_words_WaveInteger2 : ∀ p ∈ ([
      (0x118#10 ++ 85#7 ++ 42#7 ++ 19#7 ++ 0#1, .bfeN32Wave ⟨85, 42, 19⟩),
      (0x119#10 ++ 85#7 ++ 42#7 ++ 19#7 ++ 0#1, .bfiWave ⟨85, 42, 19⟩),
      (0x11A#10 ++ 85#7 ++ 42#7 ++ 19#7 ++ 0#1, .selWave ⟨85, 42, 19⟩),
      (0x11B#10 ++ 85#7 ++ 42#7 ++ 0#8, .movWave ⟨85, 42⟩),
      (0x11E#10 ++ 85#7 ++ 42#7 ++ 19#7 ++ 0#1, .leaWave ⟨2, 85, 42, 19⟩),
      (0x125#10 ++ 0#4 ++ 5#3 ++ 42#7 ++ 19#7 ++ 0#1, .icmpWave ⟨5, 5, 42, 19⟩),
      (0x126#10 ++ 85#7 ++ 42#7 ++ 19#7 ++ 0#1, .iaddI64Wave ⟨85, 42, 19⟩),
      (0x127#10 ++ 85#7 ++ 42#7 ++ 19#7 ++ 0#1, .isubI64Wave ⟨85, 42, 19⟩),
      (0x128#10 ++ 85#7 ++ 42#7 ++ 19#7 ++ 0#1, .imulLoI64Wave ⟨85, 42, 19⟩),
      (0x129#10 ++ 85#7 ++ 42#7 ++ 19#7 ++ 0#1, .iminI64Wave ⟨85, 42, 19⟩),
      (0x12A#10 ++ 85#7 ++ 42#7 ++ 19#7 ++ 0#1, .iminN64Wave ⟨85, 42, 19⟩),
      (0x12B#10 ++ 85#7 ++ 42#7 ++ 19#7 ++ 0#1, .imaxI64Wave ⟨85, 42, 19⟩),
      (0x12C#10 ++ 85#7 ++ 42#7 ++ 19#7 ++ 0#1, .imaxN64Wave ⟨85, 42, 19⟩),
      (0x12D#10 ++ 85#7 ++ 42#7 ++ 19#7 ++ 0#1, .shlI64Wave ⟨85, 42, 19⟩),
      (0x12E#10 ++ 85#7 ++ 42#7 ++ 19#7 ++ 0#1, .shrN64Wave ⟨85, 42, 19⟩),
      (0x12F#10 ++ 85#7 ++ 42#7 ++ 19#7 ++ 0#1, .sarI64Wave ⟨85, 42, 19⟩),
      (0x135#10 ++ 0#4 ++ 5#3 ++ 42#7 ++ 19#7 ++ 0#1, .icmpI64Wave ⟨5, 5, 42, 19⟩),
      (0x136#10 ++ 85#7 ++ 42#7 ++ 0#8, .movI64Wave ⟨85, 42⟩),
      (0x137#10 ++ 85#7 ++ 42#7 ++ 0#8, .iabsI64Wave ⟨85, 42⟩),
      (0x139#10 ++ 85#7 ++ 6844#15, .moviWave ⟨39612, 85⟩),
      (0x13B#10 ++ 85#7 ++ 6844#15, .movhiWave ⟨39612, 85⟩),
      (0x13C#10 ++ 85#7 ++ 16387#15, .iaddImmWave ⟨85, 16387⟩)] :
    List (Word × Instr)), decodeWord p.1 = .ok p.2 ∧ p.2.wf = true ∧ encode p.2 = some p.1 := by decide +kernel

theorem test_words_Float : ∀ p ∈ ([
      (0x043#10 ++ 85#7 ++ 42#7 ++ 19#7 ++ 1#1, .fadd ⟨3, 85, 42, 19, true⟩),
      (0x047#10 ++ 85#7 ++ 42#7 ++ 19#7 ++ 1#1, .fsub ⟨3, 85, 42, 19, true⟩),
      (0x04B#10 ++ 85#7 ++ 42#7 ++ 19#7 ++ 1#1, .fmul ⟨3, 85, 42, 19, true⟩),
      (0x04F#10 ++ 85#7 ++ 42#7 ++ 19#7 ++ 1#1, .ffma ⟨3, 85, 42, 19, true⟩),
      (0x053#10 ++ 85#7 ++ 42#7 ++ 19#7 ++ 1#1, .fnma ⟨3, 85, 42, 19, true⟩),
      (0x057#10 ++ 85#7 ++ 42#7 ++ 19#7 ++ 1#1, .fmin ⟨3, 85, 42, 19, true⟩),
      (0x05B#10 ++ 85#7 ++ 42#7 ++ 19#7 ++ 1#1, .fmax ⟨3, 85, 42, 19, true⟩),
      (0x05F#10 ++ 85#7 ++ 42#7 ++ 19#7 ++ 1#1, .fcmpEq ⟨3, 85, 42, 19, true⟩),
      (0x063#10 ++ 85#7 ++ 42#7 ++ 0#8, .fclass ⟨3, 85, 42⟩),
      (0x067#10 ++ 85#7 ++ 42#7 ++ 4#7 ++ 0#1, .frnd ⟨3, 85, 42, 4⟩),
      (0x06B#10 ++ 85#7 ++ 42#7 ++ 19#7 ++ 1#1, .fdiv ⟨3, 85, 42, 19, true⟩),
      (0x06F#10 ++ 85#7 ++ 42#7 ++ 0#8, .fsqrt ⟨3, 85, 42⟩),
      (0x073#10 ++ 85#7 ++ 42#7 ++ 0#8, .frcp ⟨3, 85, 42⟩),
      (0x077#10 ++ 85#7 ++ 42#7 ++ 0#8, .frsq ⟨3, 85, 42⟩),
      (0x07B#10 ++ 85#7 ++ 42#7 ++ 19#7 ++ 1#1, .fcmpLt ⟨3, 85, 42, 19, true⟩),
      (0x07F#10 ++ 85#7 ++ 42#7 ++ 19#7 ++ 1#1, .fcmpLe ⟨3, 85, 42, 19, true⟩)] :
    List (Word × Instr)), decodeWord p.1 = .ok p.2 ∧ p.2.wf = true ∧ encode p.2 = some p.1 := by decide +kernel

theorem test_words_Narrow : ∀ p ∈ ([
      (0x093#10 ++ 85#7 ++ 42#7 ++ 0#8, .sin ⟨3, 85, 42⟩),
      (0x097#10 ++ 85#7 ++ 42#7 ++ 0#8, .cos ⟨3, 85, 42⟩),
      (0x09B#10 ++ 85#7 ++ 42#7 ++ 0#8, .exp2 ⟨3, 85, 42⟩),
      (0x09F#10 ++ 85#7 ++ 42#7 ++ 0#8, .log2 ⟨3, 85, 42⟩),
      (0x084#10 ++ 85#7 ++ 42#7 ++ 0#3 ++ 1#4 ++ 1#1, .cvt ⟨4, 85, 42, 1, true⟩),
      (0x0A4#10 ++ 85#7 ++ 42#7 ++ 19#7 ++ 0#1, .qntHx4 ⟨4, 85, 42, 19⟩),
      (0x0A5#10 ++ 85#7 ++ 42#7 ++ 19#7 ++ 0#1, .qntE4m3 ⟨85, 42, 19⟩),
      (0x0A6#10 ++ 85#7 ++ 42#7 ++ 19#7 ++ 0#1, .qntE5m2 ⟨85, 42, 19⟩),
      (0x0A8#10 ++ 85#7 ++ 42#7 ++ 19#7 ++ 1#1, .dqHx4 ⟨85, 42, 19, true⟩),
      (0x0A9#10 ++ 85#7 ++ 42#7 ++ 19#7 ++ 1#1, .dqE4m3 ⟨85, 42, 19, true⟩),
      (0x0AA#10 ++ 85#7 ++ 42#7 ++ 19#7 ++ 1#1, .dqE5m2 ⟨85, 42, 19, true⟩),
      (0x0AC#10 ++ 85#7 ++ 42#7 ++ 0#8, .spl3 ⟨85, 42⟩),
      (0x0AD#10 ++ 85#7 ++ 42#7 ++ 19#7 ++ 1#1, .packB16 ⟨85, 42, 19, true⟩),
      (0x0AE#10 ++ 85#7 ++ 42#7 ++ 19#7 ++ 1#1, .packB8 ⟨85, 42, 19, true⟩),
      (0x0AF#10 ++ 85#7 ++ 42#7 ++ 19#7 ++ 0#1, .unpack ⟨85, 42, 19⟩)] :
    List (Word × Instr)), decodeWord p.1 = .ok p.2 ∧ p.2.wf = true ∧ encode p.2 = some p.1 := by decide +kernel

theorem test_words_CrossLane : ∀ p ∈ ([
      (0x0C3#10 ++ 85#7 ++ 42#7 ++ 19#7 ++ 1#1, .shfl ⟨3, 85, 42, 19, true⟩),
      (0x0C4#10 ++ 85#7 ++ 42#7 ++ 0#8, .pswap ⟨85, 42⟩),
      (0x0C5#10 ++ 85#7 ++ 42#7 ++ 19#7 ++ 1#1, .bcast ⟨85, 42, 19, true⟩),
      (0x0C6#10 ++ 85#7 ++ 42#7 ++ 0#8, .ballot ⟨85, 42⟩),
      (0x0C7#10 ++ 0#4 ++ 5#3 ++ 42#7 ++ 0#8, .voteAny ⟨5, 42⟩),
      (0x0C8#10 ++ 0#4 ++ 5#3 ++ 42#7 ++ 0#8, .voteAll ⟨5, 42⟩),
      (0x0C9#10 ++ 0#4 ++ 5#3 ++ 42#7 ++ 0#8, .voteUni ⟨5, 42⟩),
      (0x0CA#10 ++ 85#7 ++ 42#7 ++ 19#7 ++ 1#1, .ppop ⟨85, 42, 19, true⟩),
      (0x0CB#10 ++ 85#7 ++ 42#7 ++ 19#7 ++ 1#1, .isectList ⟨85, 42, 19, true⟩),
      (0x0CC#10 ++ 85#7 ++ 42#7 ++ 19#7 ++ 1#1, .isectBits ⟨85, 42, 19, true⟩),
      (0x0D3#10 ++ 85#7 ++ 42#7 ++ 0#8, .wredAdd ⟨3, 85, 42⟩),
      (0x0D7#10 ++ 85#7 ++ 42#7 ++ 0#8, .wredMin ⟨3, 85, 42⟩),
      (0x0DB#10 ++ 85#7 ++ 42#7 ++ 0#8, .wredMax ⟨3, 85, 42⟩),
      (0x0DC#10 ++ 85#7 ++ 42#7 ++ 0#8, .wredAddI32 ⟨85, 42⟩),
      (0x0DD#10 ++ 85#7 ++ 42#7 ++ 0#8, .wredAddI64 ⟨85, 42⟩),
      (0x0DE#10 ++ 85#7 ++ 42#7 ++ 0#8, .wredAndB32 ⟨85, 42⟩),
      (0x0DF#10 ++ 85#7 ++ 42#7 ++ 0#8, .wredOrB32 ⟨85, 42⟩),
      (0x0E0#10 ++ 85#7 ++ 42#7 ++ 0#8, .wredMinI32 ⟨85, 42⟩),
      (0x0E1#10 ++ 85#7 ++ 42#7 ++ 0#8, .wredMaxI32 ⟨85, 42⟩),
      (0x0E2#10 ++ 85#7 ++ 42#7 ++ 0#8, .wredMinN32 ⟨85, 42⟩),
      (0x0E3#10 ++ 85#7 ++ 42#7 ++ 0#8, .wredMaxN32 ⟨85, 42⟩)] :
    List (Word × Instr)), decodeWord p.1 = .ok p.2 ∧ p.2.wf = true ∧ encode p.2 = some p.1 := by decide +kernel

theorem test_words_Memory1 : ∀ p ∈ ([
      (0x146#10 ++ 85#7 ++ 42#7 ++ 2#2 ++ 1#2 ++ 2#3 ++ 1#1, .ld ⟨6, 85, 42, 2, 1, 2, true⟩),
      (0x14C#10 ++ 85#7 ++ 42#7 ++ 2#2 ++ 2#2 ++ 2#3 ++ 1#1, .st ⟨4, 85, 42, 2, 2, 2, true⟩),
      (0x156#10 ++ 85#7 ++ 42#7 ++ 2#2 ++ 1#2 ++ 2#3 ++ 1#1, .lds ⟨6, 85, 42, 2, 1, 2, true⟩),
      (0x15C#10 ++ 85#7 ++ 42#7 ++ 2#2 ++ 2#2 ++ 2#3 ++ 1#1, .sts ⟨4, 85, 42, 2, 2, 2, true⟩),
      (0x160#10 ++ 85#7 ++ 42#7 ++ 11#4 ++ 2#2 ++ 1#1 ++ 0#1, .ldl ⟨85, 42, 11, 2, true, false⟩),
      (0x161#10 ++ 85#7 ++ 42#7 ++ 11#4 ++ 2#2 ++ 1#1 ++ 0#1, .stl ⟨85, 42, 11, 2, true, false⟩),
      (0x165#10 ++ 85#7 ++ 42#7 ++ 2#2 ++ 1#2 ++ 4#3 ++ 1#1, .ldw ⟨5, 85, 42, 2, 1, 4, true⟩),
      (0x168#10 ++ 85#7 ++ 42#7 ++ 2#2 ++ 3#2 ++ 4#3 ++ 1#1, .atomAddI32 ⟨85, 42, 2, 3, 4, true⟩),
      (0x169#10 ++ 85#7 ++ 42#7 ++ 2#2 ++ 3#2 ++ 4#3 ++ 1#1, .atomAddI64 ⟨85, 42, 2, 3, 4, true⟩),
      (0x16A#10 ++ 85#7 ++ 42#7 ++ 2#2 ++ 3#2 ++ 4#3 ++ 1#1, .atomAddF32 ⟨85, 42, 2, 3, 4, true⟩),
      (0x16B#10 ++ 85#7 ++ 42#7 ++ 2#2 ++ 3#2 ++ 4#3 ++ 1#1, .atomAddF64 ⟨85, 42, 2, 3, 4, true⟩),
      (0x16C#10 ++ 85#7 ++ 42#7 ++ 2#2 ++ 3#2 ++ 4#3 ++ 1#1, .atomMinI32 ⟨85, 42, 2, 3, 4, true⟩),
      (0x16D#10 ++ 85#7 ++ 42#7 ++ 2#2 ++ 3#2 ++ 4#3 ++ 1#1, .atomMaxI32 ⟨85, 42, 2, 3, 4, true⟩),
      (0x16E#10 ++ 85#7 ++ 42#7 ++ 2#2 ++ 3#2 ++ 4#3 ++ 1#1, .atomMinN32 ⟨85, 42, 2, 3, 4, true⟩),
      (0x16F#10 ++ 85#7 ++ 42#7 ++ 2#2 ++ 3#2 ++ 4#3 ++ 1#1, .atomMaxN32 ⟨85, 42, 2, 3, 4, true⟩),
      (0x170#10 ++ 85#7 ++ 42#7 ++ 2#2 ++ 3#2 ++ 4#3 ++ 1#1, .atomAndB32 ⟨85, 42, 2, 3, 4, true⟩),
      (0x171#10 ++ 85#7 ++ 42#7 ++ 2#2 ++ 3#2 ++ 4#3 ++ 1#1, .atomOrB32 ⟨85, 42, 2, 3, 4, true⟩),
      (0x172#10 ++ 85#7 ++ 42#7 ++ 2#2 ++ 3#2 ++ 4#3 ++ 1#1, .atomXorB32 ⟨85, 42, 2, 3, 4, true⟩),
      (0x173#10 ++ 85#7 ++ 42#7 ++ 2#2 ++ 3#2 ++ 4#3 ++ 1#1, .atomExchB32 ⟨85, 42, 2, 3, 4, true⟩),
      (0x174#10 ++ 85#7 ++ 42#7 ++ 2#2 ++ 3#2 ++ 4#3 ++ 1#1, .atomExchB64 ⟨85, 42, 2, 3, 4, true⟩),
      (0x175#10 ++ 85#7 ++ 42#7 ++ 2#2 ++ 3#2 ++ 4#3 ++ 1#1, .casB32 ⟨85, 42, 2, 3, 4, true⟩),
      (0x176#10 ++ 85#7 ++ 42#7 ++ 2#2 ++ 3#2 ++ 4#3 ++ 1#1, .casB64 ⟨85, 42, 2, 3, 4, true⟩),
      (0x178#10 ++ 0#16 ++ 2#2 ++ 4#3 ++ 0#1, .fence ⟨2, 4⟩),
      (0x179#10 ++ 85#7 ++ 42#7 ++ 2#2 ++ 1#2 ++ 3#3 ++ 1#1, .poll ⟨85, 42, 2, 1, 3, true⟩)] :
    List (Word × Instr)), decodeWord p.1 = .ok p.2 ∧ p.2.wf = true ∧ encode p.2 = some p.1 := by decide +kernel

theorem test_words_Memory2 : ∀ p ∈ ([
      (0x17A#10 ++ 0#7 ++ 42#7 ++ 1#2 ++ 0#6, .pref ⟨42, 1⟩),
      (0x17B#10 ++ 0#7 ++ 42#7 ++ 0#4 ++ 3#3 ++ 1#1, .cwb ⟨42, 3, true⟩),
      (0x17C#10 ++ 0#7 ++ 42#7 ++ 0#4 ++ 3#3 ++ 1#1, .cinv ⟨42, 3, true⟩)] :
    List (Word × Instr)), decodeWord p.1 = .ok p.2 ∧ p.2.wf = true ∧ encode p.2 = some p.1 := by decide +kernel

theorem test_words_LayoutEngineMatrixTask1 : ∀ p ∈ ([
      (0x180#10 ++ 9#4 ++ 0#8 ++ 51#6 ++ 0#4, .ldef ⟨9, 51⟩),
      (0x181#10 ++ 9#4 ++ 6#4 ++ 3#4 ++ 0#10, .lchain ⟨9, 6, 3⟩),
      (0x182#10 ++ 9#4 ++ 6#4 ++ 0#4 ++ 33#6 ++ 13#4, .lpart ⟨9, 6, 33, 13⟩),
      (0x183#10 ++ 9#4 ++ 6#4 ++ 0#4 ++ 33#6 ++ 0#4, .ltrans ⟨9, 6, 33⟩),
      (0x184#10 ++ 9#4 ++ 6#4 ++ 0#10 ++ 4#4, .lflat ⟨9, 6, 4⟩),
      (0x185#10 ++ 9#4 ++ 6#4 ++ 0#4 ++ 33#6 ++ 0#4, .lswz ⟨9, 6, 33⟩),
      (0x186#10 ++ 0#4 ++ 6#4 ++ 0#4 ++ 33#6 ++ 13#4, .lget ⟨6, 33, 13⟩),
      (0x187#10 ++ 0#4 ++ 6#4 ++ 0#4 ++ 33#6 ++ 5#4, .lchk ⟨6, 33, 5⟩),
      (0x188#10 ++ 0#12 ++ 55#6 ++ 0#4, .hset ⟨55⟩),
      (0x190#10 ++ 9#4 ++ 6#4 ++ 62#6 ++ 2#2 ++ 1#1 ++ 2#2 ++ 0#1 ++ 0#1 ++ 1#1, .tcopy ⟨9, 6, 62, 2, true, 2, false, true⟩),
      (0x191#10 ++ 9#4 ++ 6#4 ++ 60#6 ++ 1#2 ++ 0#5 ++ 0#1, .gather ⟨9, 6, 60, 1, false⟩),
      (0x192#10 ++ 9#4 ++ 6#4 ++ 60#6 ++ 1#2 ++ 0#5 ++ 0#1, .scatter ⟨9, 6, 60, 1, false⟩),
      (0x193#10 ++ 9#4 ++ 6#4 ++ 60#6 ++ 1#2 ++ 0#5 ++ 0#1, .mcread ⟨9, 6, 60, 1, false⟩),
      (0x194#10 ++ 0#8 ++ 61#6 ++ 0#7 ++ 1#1, .rbinit ⟨61, true⟩),
      (0x195#10 ++ 0#8 ++ 62#6 ++ 0#7 ++ 1#1, .rbpop ⟨62, true⟩),
      (0x196#10 ++ 0#8 ++ 63#6 ++ 0#7 ++ 1#1, .rbfree ⟨63, true⟩),
      (0x197#10 ++ 0#8 ++ 62#6 ++ 0#6 ++ 1#1 ++ 0#1, .coinit ⟨62, true, false⟩),
      (0x198#10 ++ 0#8 ++ 62#6 ++ 0#7 ++ 1#1, .coexpect ⟨62, true⟩),
      (0x199#10 ++ 0#8 ++ 62#6 ++ 0#7 ++ 1#1, .coarrive ⟨62, true⟩),
      (0x19A#10 ++ 0#8 ++ 63#6 ++ 0#7 ++ 1#1, .codrop ⟨63, true⟩),
      (0x19B#10 ++ 0#8 ++ 61#6 ++ 0#8, .cowait ⟨61⟩),
      (0x19C#10 ++ 0#8 ++ 61#6 ++ 0#8, .cotest ⟨61⟩),
      (0x19D#10 ++ 9#4 ++ 6#4 ++ 63#6 ++ 1#2 ++ 0#5 ++ 0#1, .trsend ⟨9, 6, 63, 1, false⟩),
      (0x1A0#10 ++ 19#5 ++ 9#4 ++ 6#4 ++ 33#6 ++ 0#1 ++ 1#1 ++ 1#1, .mloopBf16 ⟨19, 9, 6, 33, false, true, true⟩)] :
    List (Word × Instr)), decodeWord p.1 = .ok p.2 ∧ p.2.wf = true ∧ encode p.2 = some p.1 := by decide +kernel

theorem test_words_LayoutEngineMatrixTask2 : ∀ p ∈ ([
      (0x1A1#10 ++ 19#5 ++ 9#4 ++ 6#4 ++ 33#6 ++ 0#1 ++ 1#1 ++ 1#1, .mloopF16 ⟨19, 9, 6, 33, false, true, true⟩),
      (0x1A2#10 ++ 19#5 ++ 9#4 ++ 6#4 ++ 33#6 ++ 0#1 ++ 1#1 ++ 1#1, .mloopE4m3 ⟨19, 9, 6, 33, false, true, true⟩),
      (0x1A3#10 ++ 19#5 ++ 9#4 ++ 6#4 ++ 33#6 ++ 0#1 ++ 1#1 ++ 1#1, .mloopE5m2 ⟨19, 9, 6, 33, false, true, true⟩),
      (0x1A4#10 ++ 19#5 ++ 9#4 ++ 6#4 ++ 33#6 ++ 0#1 ++ 1#1 ++ 1#1, .mloopI8 ⟨19, 9, 6, 33, false, true, true⟩),
      (0x1A5#10 ++ 19#5 ++ 9#4 ++ 6#4 ++ 33#6 ++ 0#1 ++ 1#1 ++ 1#1, .mloopHx4 ⟨19, 9, 6, 33, false, true, true⟩),
      (0x1A6#10 ++ 19#5 ++ 9#4 ++ 6#4 ++ 33#6 ++ 0#1 ++ 1#1 ++ 1#1, .mloopF64 ⟨19, 9, 6, 33, false, true, true⟩),
      (0x1A8#10 ++ 31#5 ++ 0#17, .mzero ⟨31⟩),
      (0x1A9#10 ++ 19#5 ++ 6#4 ++ 0#11 ++ 1#1 ++ 0#1, .mlda ⟨19, 6, true⟩),
      (0x1AA#10 ++ 19#5 ++ 6#4 ++ 0#11 ++ 1#1 ++ 0#1, .msta ⟨19, 6, true⟩),
      (0x1AB#10 ++ 19#5 ++ 49#7 ++ 0#8 ++ 1#1 ++ 0#1, .mrd ⟨19, 49, true⟩),
      (0x1AC#10 ++ 19#5 ++ 49#7 ++ 0#8 ++ 1#1 ++ 0#1, .mwr ⟨19, 49, true⟩),
      (0x1AD#10 ++ 19#5 ++ 0#8 ++ 33#6 ++ 0#3, .mstat ⟨19, 33⟩),
      (0x1B0#10 ++ 33#6 ++ 44#6 ++ 0#4 ++ 16#5 ++ 0#1, .spawn ⟨33, 44, 16, false⟩),
      (0x1B1#10 ++ 33#6 ++ 44#6 ++ 0#4 ++ 16#5 ++ 1#1, .spawnTry ⟨33, 44, 16, true⟩),
      (0x1B2#10 ++ 0#6 ++ 44#6 ++ 0#10, .close ⟨44⟩),
      (0x1B3#10 ++ 33#6 ++ 44#6 ++ 0#5 ++ 15#4 ++ 0#1, .tbset ⟨33, 44, 15, false⟩),
      (0x1B4#10 ++ 33#6 ++ 44#6 ++ 0#5 ++ 9#4 ++ 1#1, .tbclr ⟨33, 44, 9, true⟩),
      (0x1B5#10 ++ 33#6 ++ 44#6 ++ 0#5 ++ 6#4 ++ 0#1, .tbtest ⟨33, 44, 6⟩),
      (0x1B6#10 ++ 33#6 ++ 44#6 ++ 0#10, .join ⟨33, 44⟩),
      (0x1B7#10 ++ 0#22, .leave),
      (0x1B8#10 ++ 33#6 ++ 0#16, .bar ⟨33⟩),
      (0x1B9#10 ++ 33#6 ++ 44#6 ++ 0#9 ++ 1#1, .launch ⟨33, 44, true⟩),
      (0x1BA#10 ++ 0#6 ++ 44#6 ++ 0#10, .verdict ⟨44⟩)] :
    List (Word × Instr)), decodeWord p.1 = .ok p.2 ∧ p.2.wf = true ∧ encode p.2 = some p.1 := by decide +kernel

/-! ### Ill-formed terms and rejected words -/

/-- An instruction with each encoded value that R65's checks 5 and 6 turn away is ill-formed. -/
theorem test_ill_formed_words : ∀ i ∈ ([
    .icmp ⟨6, 0, 0, 0, false⟩, .icmpI64 ⟨7, 0, 0, 0, false⟩, .icmpWave ⟨6, 0, 0, 0⟩, .icmpI64Wave ⟨7, 0, 0, 0⟩,
    .frnd ⟨0, 0, 0, 5⟩, .cvt ⟨6, 0, 0, 1, false⟩, .cvt ⟨1, 0, 0, 6, false⟩, .qntHx4 ⟨5, 0, 0, 1⟩, .qntHx4 ⟨0, 4, 0, 4⟩,
    .qntE4m3 ⟨4, 0, 4⟩, .qntE5m2 ⟨4, 0, 4⟩, .unpack ⟨0, 0, 8⟩, .unpack ⟨0, 0, 0x24⟩, .unpack ⟨0, 0, 0x42⟩, .unpack ⟨0, 0, 0x60⟩,
    .bcast ⟨0, 0, 0x6F, false⟩, .ld ⟨7, 0, 0, 0, 0, 0, false⟩, .ld ⟨4, 0, 0, 3, 0, 0, false⟩, .ld ⟨4, 0, 0, 0, 0, 1, false⟩,
    .ld ⟨4, 0, 0, 0, 1, 0, false⟩, .ld ⟨4, 0, 0, 0, 1, 5, false⟩, .ld ⟨4, 0, 0, 0, 2, 1, false⟩, .st ⟨5, 0, 0, 0, 0, 0, false⟩,
    .st ⟨0, 0, 0, 0, 1, 1, false⟩, .lds ⟨0, 0, 0, 0, 1, 3, false⟩, .sts ⟨0, 0, 0, 0, 2, 3, false⟩, .sts ⟨5, 0, 0, 0, 0, 0, false⟩,
    .ldl ⟨0, 0, 0, 3, false, false⟩, .stl ⟨0, 0, 0, 3, false, false⟩, .ldw ⟨1, 0, 0, 0, 0, 0, false⟩, .ldw ⟨6, 0, 0, 0, 0, 0, false⟩,
    .atomAddI32 ⟨0, 0, 0, 0, 0, false⟩, .atomExchB64 ⟨0, 0, 0, 0, 5, false⟩, .casB32 ⟨0, 0, 3, 0, 1, false⟩, .casB64 ⟨0, 0, 0, 0, 0, false⟩,
    .fence ⟨0, 5⟩, .poll ⟨0, 0, 0, 2, 1, false⟩, .pref ⟨0, 3⟩, .cwb ⟨0, 2, false⟩, .cinv ⟨0, 5, false⟩, .ldef ⟨0, 52⟩,
    .lpart ⟨0, 0, 0, 6⟩, .lpart ⟨0, 0, 0, 15⟩, .lflat ⟨0, 0, 5⟩, .lget ⟨0, 0, 14⟩, .lchk ⟨0, 0, 6⟩, .hset ⟨56⟩,
    .tcopy ⟨0, 0, 63, 0, false, 0, false, false⟩, .tcopy ⟨0, 0, 0, 0, false, 3, false, false⟩, .gather ⟨0, 0, 61, 0, false⟩,
    .scatter ⟨0, 0, 61, 0, false⟩, .mcread ⟨0, 0, 63, 0, false⟩, .rbinit ⟨62, false⟩, .rbpop ⟨63, false⟩, .coinit ⟨63, false, false⟩,
    .coexpect ⟨63, false⟩, .coarrive ⟨63, false⟩, .cowait ⟨62⟩, .cotest ⟨62⟩, .mloopBf16 ⟨0, 0, 0, 0, true, false, false⟩,
    .spawn ⟨0, 0, 17, false⟩, .spawn ⟨0, 48, 13, false⟩, .spawnTry ⟨0, 61, 0, false⟩, .bra ⟨7, 0, 0⟩, .bra ⟨0, 1, 0⟩, .give ⟨0⟩,
    .give ⟨4⟩, .claim ⟨104⟩, .claimTry ⟨0, 12⟩, .srd ⟨0, 0x00B⟩, .srd ⟨0, 0x015⟩, .swr ⟨0, 0x02A⟩, .swr ⟨0, 0x400⟩,
    .ptew ⟨0, 0, false, false, 0, false⟩, .ptew ⟨0, 61, false, false, 1, false⟩, .lpinv ⟨0, false, 3, false⟩,
    .tlbinv ⟨0, false, 0, false⟩, .iinv ⟨0, false, 3, false⟩, .iinv ⟨62, false, 0, false⟩] : List Instr), i.wf = false := by decide +kernel

/-- An event that names a place no part has is ill-formed. -/
theorem test_ill_formed_events : ∀ i ∈ ([
    .vectorPass 768 0, .vectorPass 0 6, .objectApply 192 0 1, .objectApply 0 0 0, .matrixStepStart 768, .tileBufferApply 0,
    .crewOpApply 0 0, .queueDoorbell 64 0, .launchRecordIntake 72, .createContext 2, .qcfgWrite 64 0, .semaphoreWrite 0 16 0,
    .controlWindowWrite 0 0 3 0, .functionReady 32, .scratchpadError 192 0, .cacheArrayError 192] : List Instr), i.wf = false := by
  decide +kernel

/-- Words that R65 rejects, with their causes: a reserved selector is no decode matter, but an unassigned OP (R54), a reserved field of
each kind and an invalid encoded value are (R66). -/
theorem test_rejected_words : ∀ p ∈ ([
    (0x03D#10 ++ 0#22, .unassigned), (0x1FE#10 ++ 0#22, .unassigned), (0x1C2#10 ++ 1#6 ++ 0#16, .reservedD),
    (0x1C2#10 ++ 0#6 ++ 1#6 ++ 0#10, .reservedA), (0x1C2#10 ++ 0#12 ++ 1#9 ++ 0#1, .reservedB), (0x1C2#10 ++ 0#21 ++ 1#1, .reservedX),
    (0x00C#10 ++ 0#14 ++ 1#7 ++ 0#1, .reservedB), (0x100#10 ++ 0#21 ++ 1#1, .reservedX), (0x080#10 ++ 0#14 ++ 1#3 ++ 1#4 ++ 0#1, .reservedOther),
    (0x1D0#10 ++ 0#18 ++ 1#4, .reservedOther), (0x1C0#10 ++ 7#4 ++ 0#18, .badValue), (0x1AB#10 ++ 0#5 ++ 0#7 ++ 1#8 ++ 0#2, .reservedOther)] :
    List (Word × Reject)), decodeWord p.1 = .error p.2 := by decide +kernel

/-! ### Small states

`m0` is the machine about to issue the word 0 (IADD v0, v0, v0): one wave of 32 slots, all live, in user mode, with 96 registers, 32
tiles and 16 layout registers, of a launch and a cord that are under way, with region 1 mapped to device memory. -/

/-- The machine about to issue an instruction. -/
def m0 : State := State.reset.withFetchWord 32 0

/-- `m0` with its wave changed. -/
def withWave (f : Wave → Wave) : State := { m0 with w := f m0.w }

/-- A ring of four slots of 64 bytes, two of them filled, the next to take being slot 1. -/
def pad32 : Nat :=
  RingD.num { feed := 0, inuse := 0, filled := 2, free := 2, reti := 0, cons := 1, prod := 3, nslot := 4, ssize := 64, sbase := 512 }

/-- `m0` with 1,024 bytes of scratchpad, an initialised object at offset 16 and a ring of four slots at 32. -/
def withPad : State :=
  let r : Resv :=
    { launch := 0, core := 0, base := 0, size := 1024, mem := tsetRun [] 32 (leBytes pad32 16), sync := [0], objs := [16], rings := [32] }
  { m0 with resvs := [r] }

/-- `m0` with one slot in EXEC and the address of device byte 0x8000 in v0:v1 and in s0:s1. -/
def oneSlot : State :=
  withWave fun w => { w with exec := 1, v := [(0, 0x8000), (128, 0x01000000)], s := [(0, 0x8000), (1, 0x01000000)] }

/-- `m0` whose wave 's context has a handler, whose first packet is cached: a clause header. -/
def withHandler : State :=
  { m0 with
    ctxs := m0.ctxs.map fun c => { c with hentry := BitVec.ofNat 64 (2 ^ 56 + 0x10010) },
    icache := { core := 0, ctx := 0, va := 0x10010, bytes := leBytes 0x7FC003FC 4 ++ List.replicate 8 0 } :: m0.icache }

/-- `exec` answers a next state of which `p` holds. -/
def after (i : Instr) (s : State) (p : State → Bool) : Bool :=
  match exec i s with
  | .next t => p t
  | _ => false

/-! ### Witnesses: states and operands that meet the hypotheses of each statement -/

theorem test_witness_VectorWords :
    (0x67#7).toNat + 1 ≤ 0x68 ∧ (0x66#7).toNat + 2 ≤ 0x68 ∧ m0.w.width = 32 ∧ (0x3F#7).toNat + m0.w.width / 32 ≤ 0x40 := by
  decide +kernel

theorem test_witness_WaveWordsOfInteger : (0x3E#7).toNat + 2 ≤ 0x40 ∧ (7#3).toNat < 8 := by decide

theorem test_witness_RoundingIsCorrect :
    (FVal.fin true 3 0).isFin = true ∧ (FVal.fin false 0 0).isFin = true ∧ (1 : Nat) ≠ 0 ∧
      (fround .f32 .rne false false 1 (-149) false).2 / 4 % 2 = 0 ∧
      (fround .f32 .rup false false 0xFFFFFF 104 false).2 / 4 % 2 = 0 ∧
      fdecode .f32 1 = .fin false 1 (-149) ∧ fdecode .f32 0xFF7FFFFF = .fin true 0xFFFFFF 104 := by decide +kernel

theorem test_witness_FloatCornerCases :
    (fdecode .f32 0x7FC00000).isNan = true ∧ (fdecode .f32 0x7F7FFFFF).isNan = false ∧ (fdecode .f16 0xFFFF).isNan = true := by
  decide +kernel

theorem test_witness_ConversionsAndQuantising :
    (0x65#7).toNat + 3 ≤ 0x68 ∧ m0.w.width ≤ 128 ∧ m0.w.width % 32 = 0 ∧ (0x67#7).toNat < 0x68 ∧ (0x66#7).toNat < 0x68 ∧
      (0x67#7) ≠ (0x66#7) := by decide +kernel

theorem test_witness_ReductionsOverSlots : (0x3F#7).toNat + 1 ≤ 0x40 ∧ (0x3E#7).toNat + 2 ≤ 0x40 ∧ m0.w.width = 32 := by decide +kernel

/-- A memory word of `oneSlot` or `withPad` whose slots' addresses pass. -/
def passing (s : State) (m : MemW) (ptr : Nat → DWord) (data : Nat → List Byte) (agent : Nat → Nat) (slots : List Nat)
    (bump : Nat) : Bool :=
  !s.rd.replay && (memSlots m ptr data (fun k => k % 32) agent s.rd slots { s with freeN := s.freeN + bump }).2.2.isEmpty

theorem test_witness_LoadAndStoreWords :
    let w := fun (kind : MKind) (fk n : Nat) (dest : Dest) (write : Bool) =>
      ({ kind := kind, fk := fk, ask := { n := n, write := write, aligned := true, atom := none }, dest := dest, q := 0, sc := 0, hint := 0,
         l1 := false, flag := none } : MemW)
    let pair := fun k => pair64 (vRead oneSlot.rd 0 k) (vRead oneSlot.rd 1 k)
    let scratch := fun k => BitVec.ofNat 64 (0xFF * 2 ^ 56 + (vRead withPad.rd 0x7C k).toNat)
    passing oneSlot (w .load 0 16 (.thread 4 16 false) false) pair (fun _ => []) id oneSlot.rd.slots 0 = true ∧
      passing oneSlot (w .store 1 8 .none true) pair (stBytes oneSlot 2 8) id oneSlot.rd.slots 1 = true ∧
      passing withPad (w .load 0 16 (.thread 4 16 false) false) scratch (fun _ => []) id withPad.rd.slots 0 = true ∧
      passing withPad (w .store 1 1 .none true) scratch (stBytes withPad 2 1) id withPad.rd.slots 1 = true ∧
      passing oneSlot (w .load 4 32 (.wave 0 32) false) (fun _ => sReg64 oneSlot.rd 0) (fun _ => []) (fun _ => 128) [0] 0 = true ∧
      (0x6C#7).toNat < 0x70 ∧ (0x6C#7).toNat % 4 = 0 := by decide +kernel

theorem test_witness_AtomicAndFenceWords :
    let w := fun (kind : MKind) (fk n form : Nat) (write : Bool) =>
      ({ kind := kind, fk := fk, ask := { n := n, write := write, aligned := write, atom := if write then some (form, 1) else none },
         dest := .none, q := 0, sc := 1, hint := 0, l1 := false, flag := none } : MemW)
    let pair := fun k => pair64 (vRead oneSlot.rd 0 k) (vRead oneSlot.rd 1 k)
    passing oneSlot (w (.atom 0) 2 4 0 true) pair (fun _ => leBytes 1 4) id oneSlot.rd.slots 0 = true ∧
      passing oneSlot (w .cas 2 8 14 true) pair (fun _ => leBytes 1 16) id oneSlot.rd.slots 0 = true ∧
      passing oneSlot (w .poll 0 4 0 false) pair (fun _ => leBytes 1 4) id oneSlot.rd.slots 0 = true ∧
      passing oneSlot (w .cinv 6 1 0 false) pair (fun _ => []) id oneSlot.rd.slots 0 = true := by decide +kernel

/-- Pointers at each bound of R202's checks: the reserved bits, the aperture's end, alignment, the region. -/
theorem test_witness_AddressChecks :
    let n := 4
    let region := fun (p : Nat) => p / 2 ^ 56
    (region 0xFF00000100000000 = 0xFF ∧ 0xFF00000100000000 / 2 ^ 32 % 2 ^ 24 ≠ 0) ∧
      (region 0x0102000000000000 ≠ 0xFF ∧ 0x0102000000000000 / 2 ^ 49 % 2 ^ 7 ≠ 0) ∧
      (region 0x0200000000000000 ≠ 0xFF ∧ m0.ctxOf m0.w.ctx = some State.fetchCtx ∧
        regionOk State.fetchCtx 0x0200000000000000 n = false) ∧
      (0x800000 / 2 ^ 23 ≠ 0 ∧ 0x80000 / 2 ^ 19 % 2 ≠ 0 ∧ m0.resvOf m0.w.launch 0 = none) ∧
      (∃ r, withPad.resvOf withPad.w.launch 0 = some r ∧ r.size < 1021 % 2 ^ 19 + n ∧ 1020 % 2 ^ 19 + n ≤ r.size ∧ 1 % n ≠ 0 ∧
        1020 % n = 0 ∧ placeRules withPad withPad.w { n := n, write := true, aligned := true, atom := none } (.scr 0 1020) 0 = none) := by
  refine ⟨by decide +kernel, by decide +kernel, by decide +kernel, by decide +kernel, _, rfl, ?_⟩
  decide +kernel

/-- An access of four bytes at device byte 0x8000, not yet performed. -/
def acc0 : Acc :=
  { slot := 0, loc := .dev 0x8000 0, va := 0x0100000000008000, size := 4, voff := 0, kind := 0, data := leBytes 5 4, got := [],
    done := false, acked := false }

/-- A memory operation of `m0`'s wave, numbered 7. -/
def op0 : MemOp :=
  { id := 7, wave := 1, launch := 0, core := 0, quad := 0, ctx := 0, kind := .load, size := 4, seq := 7, dest := .thread 0x67 4 false,
    q := 0, sc := 0, hint := 0, l1 := false, flag := some 0, entries := 0, accs := [acc0], backoff := 0, token := none, sup := false,
    fwd := true, unsent := false }

/-- A state with one operation in flight. -/
def flying (s : State) (o : MemOp) : State := { s with memOps := [o] }

theorem test_witness_AccessesApply :
    let o := fun (s : State) (o : MemOp) (a : Acc) =>
      decide ((flying s o).memOps.find? (fun x => x.id == 7) = some o ∧ o.accs[0]? = some a) && mayApply (flying s o) o 0 &&
        o.token.isNone && !isPoisoned (flying s o) 0x8000 a.size
    let pad : Acc := { acc0 with loc := .scr 0 1020 }
    let two : Acc := { acc0 with data := leBytes 0 4 ++ leBytes 9 4 }
    let kinds : List MKind := .load :: .store :: (List.range 13).map .atom
    (kinds.all fun k => o m0 { op0 with kind := k } acc0) = true ∧
      (∃ r, withPad.resvOf 0 0 = some r) ∧ o withPad { op0 with accs := [pad] } pad = true ∧
      o withPad { op0 with kind := .store, accs := [pad] } pad = true ∧
      o m0 { op0 with kind := .cas, accs := [two] } two = true ∧ devBytes m0 0 0x8000 4 = two.data.take 4 ∧
      o m0 { op0 with kind := .cas } acc0 = true ∧ devBytes m0 0 0x8000 4 ≠ acc0.data.take 4 := by
  refine ⟨by decide +kernel, ⟨_, rfl⟩, ?_⟩
  decide +kernel

theorem test_witness_OperationsComplete :
    let a : Acc := { acc0 with done := true, acked := true, got := leBytes 5 4 }
    let ok := fun (o : MemOp) =>
      decide ((flying m0 o).memOps.find? (fun x => x.id == 7) = some o) && opReady (flying m0 o) o &&
        decide ((flying m0 o).findWave o.wave = some m0.w ∧ m0.w.uid = o.wave)
    ok { op0 with kind := .store, accs := [a] } = true ∧
      ok { op0 with accs := [a] } = true ∧ 0x67 + max 1 (4 / 4) ≤ 0x68 ∧ (∀ x ∈ [a], x.slot < 128) ∧
      ok { op0 with accs := [{ a with slot := 128 }], dest := .wave 63 4 } = true ∧ 63 + max 1 (4 / 4) ≤ 64 := by decide +kernel

/-- A write that a fabric port holds for host byte 0x40. -/
def held0 : HeldWrite := { die := 0, op := 7, acc := 0, loc := .host 0x40, data := [5], readers := [], va := 0x40 }

theorem test_witness_MemoryEvents :
    let o : MemOp := { op0 with kind := .poll, accs := [{ acc0 with acked := true }] }
    let f : Fill := { pa := 0x8000, sectors := 1, dirty := 0, prio := 1 }
    let l : L2Line :=
      { pa := 0x8000, comp := false, prio := 1, valid := 2, dirty := 0, half := 0, inv := false, token := none, grow := false }
    ((flying m0 o).memOps.find? (fun x => x.id == 7) = some o ∧ o.kind = .poll ∧ o.unsent = false ∧ o.accs.all (fun a => a.done || a.acked) = true ∧
      o.accs.any (fun a => !a.done) = true ∧ (flying m0 o).findWave o.wave = some m0.w ∧ m0.w.uid = o.wave) ∧
    (0x8000 % 512 = 0 ∧ 0x8000 ∈ ({ m0 with wbacks := [0x8000] } : State).wbacks) ∧
    (({ m0 with held := [held0] } : State).held[0]? = some held0 ∧ heldFirst { m0 with held := [held0] } 0 = true) ∧
    (let s : State := { m0 with fills := [f] }
     s.fills.find? (fun x => x.pa == lineOf 0x8000) = some f ∧ f.pa = lineOf f.pa ∧
      s.l2.find? (fun l => l.pa == f.pa && l.token.isNone) = none ∧ l2Room s f.pa (lineComp s none f.pa f.sectors) none [] = some (0, [])) ∧
    (({ m0 with fills := [f], l2 := [l] } : State).l2.find? (fun l => l.pa == f.pa && l.token.isNone) = some l ∧ l.comp = false) := by
  decide +kernel

theorem test_witness_TransfersAndLeaving :
    let s := withHandler
    let deep : State := { s with w := { s.w with rstack := List.replicate 8 (BitVec.ofNat 64 (2 ^ 56 + 0x10010)) } }
    (6#4).toNat < 7 ∧ badTarget s 0 0 (BitVec.ofNat 64 (2 ^ 56 + 0x10010)) = false ∧ badTarget s 0 0 (BitVec.ofNat 64 (2 ^ 56 + 0x1001C)) = true ∧
      s.w.rstack.length < 8 ∧ 8 ≤ deep.w.rstack.length ∧ (∃ a rest, deep.w.rstack = a :: rest ∧ badTarget deep 0 0 a = false) ∧
      coreOf s.w.quad = 0 ∧ s.w.ctx = 0 ∧ afterPkt s.w.pc = BitVec.ofNat 64 (2 ^ 56 + 0x10010) ∧ s.w.live &&& ~~~s.rd.exec = 0 ∧
      cordDone s s.w = false ∧ cordDone { s with cords := s.cords.map fun c => { c with closed := true } } s.w = true := by
  refine ⟨by decide +kernel, by decide +kernel, by decide +kernel, by decide +kernel, by decide +kernel, ⟨_, _, rfl, by decide +kernel⟩, ?_⟩
  decide +kernel

/-- The stoke step of `headers`: every clause of the statements, and a wave that finds fewer items than it has dark slots. -/
theorem test_witness_HeadersAndStoking :
    let c : Cord := { State.fetchCord with range := 2, plan := { State.fetchCord.plan with args := 3 } }
    let s : State := { m0 with
      cords := [c], launches := [{ State.fetchLaunch with argt := List.replicate 16 7 }]
      w := { m0.w with live := 0xFFFFFFF0, exec := 0xFFFFFFF0, args := 3 } }
    let with_ := fun (f : Wave → Wave) => ({ s with w := f s.w } : State)
    let empty : State := { m0 with w := { m0.w with live := 1, exec := 1 } }
    let shut : State := { empty with cords := m0.cords.map fun c => { c with closed := true } }
    let dark := (List.range s.w.width).filter fun i => !s.w.live.getLsbD i
    let words := argWords s c.launch c.plan.args
    let ready := ((List.range (c.range - c.taken)).map fun k => ({ ord := c.taken + k, args := words } : Item)) ++ c.items
    (fRead { m0.w with flags := [(11, 1)] } 11 ≠ 0 ∧ (0x800#12).getLsbD 11 = true ∧ m0.w.isNew = false ∧
      ({ m0.w with engFlags := 1 } : Wave).engFlags.getLsbD (fIdx m0.w 0) = true ∧ fRead m0.w 0 = 0) ∧
      ((with_ fun w => { w with supervisor := true }).w.supervisor = true ∧ (with_ fun w => { w with draining := true }).w.draining = true ∧
        (with_ fun w => { w with exec := 1 }).w.exec ≠ s.w.live ∧ takeItem empty empty.w = none ∧ empty.w.exec = empty.w.live ∧
        (∀ i, i < m0.w.width → m0.w.live.getLsbD i = true) ∧ m0.w.exec = m0.w.live ∧ m0.w.supervisor = false) ∧
      (empty.w.live ≠ 0 ∧ cordDone shut shut.w = true ∧ cordDone empty empty.w = false ∧ takeItem shut shut.w = none ∧
        (empty.cordOf empty.w.cord).any (fun c => !(c.closed && cordEmpty empty c)) = true ∧
        (shut.cordOf shut.w.cord).any (fun c => c.closed && cordEmpty shut c) = true) ∧
      ((∀ i, i < 12 → (0x800#12).getLsbD i = true → fRead s.w i = 0) ∧ s.w.supervisor = false ∧ s.w.draining = false ∧
        s.w.exec = s.w.live ∧ s.w.token = none ∧ s.cordOf s.w.cord = some c ∧ s.w.width ≤ 128 ∧ s.w.args ≤ 96 ∧
        (∀ x ∈ ready, x.args.length = s.w.args) ∧ s.w.live >>> s.w.width = 0 ∧ s.w.live ≠ 0 ∧ dark.zip ready ≠ [] ∧
        ready.length < dark.length) := by decide +kernel

theorem test_witness_IssueAndRegisterPools :
    let c : Cord := { State.fetchCord with range := 1 }
    let parked : Wave := { m0.w with status := .parked, live := 0, exec := 0 }
    let s : State := { m0 with w := parked, cords := [c] }
    let b : PipeBusy := { quad := 0, pipe := .vdp, left := 1 }
    let full : State := { m0 with w := { m0.w with nregs := 88 } }
    (s.findWave 1 = some parked ∧ parked.uid = 1 ∧ restokeReady s parked = true ∧ parked.supervisor = false ∧ 0 < parked.width) ∧
      (({ m0 with pipes := [b] } : State).pipes = b :: [] ∧ pipeNo 1 = b.pipe) ∧
      (88 + 8 ≤ m0.w.nregs ∧ 88 + 8 * ((m0.w.args + 7) / 8) ≤ m0.w.nregs) ∧ m0.w.nregs < 96 + 8 ∧ 96 < m0.w.nregs + 8 ∧
      (full.w.nregs + 8 ≤ 96 ∧ claimMet full full.w 8 = false) ∧ (63#6).toNat < 64 ∧
      (let pool : Pool := { launch := 0, quad := 0, rows := 8, line := [] }
       claimMet { full with pools := [pool] } full.w 8 = true ∧
         (let w : Wave := { full.w with status := .blocked, blocked := .claim 8 }
          let t : State := { full with w := w, pools := [{ pool with line := [(1, 1)] }] }
          t.findWave 1 = some w ∧ w.uid = 1 ∧ w.group = 0 ∧ claimMet t w 8 = true)) := by decide +kernel

/-- A trap of slots 0 and 31. -/
def trap0 : Trap :=
  { cls := 7, mask := 0x80000001, fpc := m0.w.pc, cont := m0.w.pc + 4, kind := .word,
    faults := [{ slot := 0, cause := 0x07020000, va := 5 }, { slot := 31, cause := 0x07020000, va := 6 }], wordBits := 0,
    escalates := false }

/-- The context of the issuing wave has a handler at `h`. -/
def handled (s : State) (h : DWord) : Bool :=
  match s.ctxOf s.w.ctx with
  | some c => decide (c.hentry = h ∧ h.toNat % 12 = 0) && (codeWord s (coreOf s.w.quad) s.w.ctx h).any isHeader
  | none => false

/-- `handled` is the hypothesis of the statements about the handler's entry. -/
theorem test_handled (s : State) (h : DWord) (hh : handled s h = true) : HandlerAt s h := by
  unfold handled at hh
  split at hh
  · rename_i c hc
    simp only [Bool.and_eq_true, decide_eq_true_eq, Option.any_eq_true] at hh
    obtain ⟨⟨h1, h2⟩, x, h3, h4⟩ := hh
    exact ⟨c, x, hc, h1, h3, h4, h2⟩
  · cases hh

theorem test_witness_TakingATrap :
    let s := withHandler
    let h : DWord := BitVec.ofNat 64 (2 ^ 56 + 0x10010)
    let w : Wave := { s.w with trap := some trap0 }
    let t : State := { s with w := w }
    (trap0.escalates = false ∧ (trap0.faults.map fun f => f.slot).Nodup ∧ (∀ f ∈ trap0.faults, f.slot < 128)) ∧
      (handled s h = true ∧ s.w.supervisor = false ∧ trap0.mask &&& s.w.live ≠ 0) ∧
      (t.findWave 1 = some w ∧ w.uid = 1 ∧ w.trap = some trap0 ∧ w.status = .running ∧ (∀ m ∈ w.marks, m.reg ≠ .fpsr) ∧ handled (checkOut t 1) h = true) ∧
      ({ trap0 with escalates := true } : Trap).escalates = true := by decide +kernel

theorem test_witness_TrapWords :
    let s := withHandler
    s.w.supervisor = false ∧ s.w.trap = none ∧ s.grpMore = 0 ∧ s.rd.exec &&& s.w.live ≠ 0 ∧ s.rd.width ≤ 128 ∧
      debugOn s s.w.ctx = false ∧ badTarget s 0 0 (afterPkt s.w.pc) = false ∧
      ({ s with w := { s.w with exec := 0 } } : State).rd.exec = 0 ∧
      (∀ m ∈ s.w.marks, m.reg ≠ .fpsr) ∧ (({ s.w with marks := [{ reg := .fpsr, pass := none, op := none }] } : Wave).marks.any fun m =>
        m.reg == .fpsr) = true ∧ s.rd.exec ≠ 0 ∧
      debugOn { s with ctxs := s.ctxs.map fun c => { c with ctxcfg := 1 } } s.w.ctx = true := by decide +kernel

theorem test_witness_ReturnsFromTheHandler :
    let h := fun (act : Word) (kind : TrapKind) => { withHandler.w with
      supervisor := true, hctl := act, frame := { withHandler.w.frame with trap := { trap0 with kind := kind } } }
    (∀ o ∈ withHandler.sysOps, o.wave ≠ withHandler.w.uid) ∧ (h 1 .word).hctl.toNat % 4 = 1 ∧ (h 1 .word).frame.trap.kind ≠ .packet ∧
      (h 3 .word).hctl.toNat % 4 = 3 ∧ (h 0 .word).frame.trap.cls ≠ 0x0C ∧ ({ trap0 with cls := 0x0C } : Trap).cls = 0x0C ∧ withHandler.w.trap = none ∧
      ({ withHandler.w with trap := some trap0 } : Wave).trap = some trap0 ∧ (h 0 .word).frame.trap.kind ≠ .header ∧
      (h 0 .header).frame.trap.kind = .header ∧ (h 2 .word).hctl.toNat % 4 = 2 := by decide +kernel

/-- A layout of four by two elements, both modes of level 0. -/
def lay0 : Layout :=
  { modes := [{ ext := 4, step := 1, lev := 0, die := false }, { ext := 2, step := 4, lev := 0, die := false }], km := 7, hidx := 0, sb := 0,
    sm := 0, ss := 0, origin := 0, dorg := 0 }

/-- A handle entry: 32 bytes of FP32 elements in a space, from a base. -/
def handle0 (space base : Nat) : BitVec 256 := BitVec.ofNat 256 (2 ^ 255 + 2 ^ 196 + space * 2 ^ 192 + 32 * 2 ^ 64 + base)

theorem test_witness_LayoutLocates :
    (¬ ∀ x ∈ lay0.modes.zip [4, 0], x.2 < x.1.ext) ∧ (∀ x ∈ lay0.modes.zip [3, 1], x.2 < x.1.ext) ∧
      layoutLocate { lay0 with origin := 2 ^ 47 } (handle0 1 64) [0, 0] = .fault 0x0D ∧
      layoutLocate lay0 0 [0, 0] = .fault 0x08 ∧ layoutLocate { lay0 with dorg := 1 } (handle0 1 64) [0, 0] = .fault 0x0C ∧
      layoutLocate { lay0 with dorg := 4 } (handle0 4 0) [0, 0] = .fault 0x0C ∧
      layoutLocate { lay0 with dorg := 3 } (handle0 4 0) [3, 1] = .at 3 28 1 7 ∧
      layoutLocate { lay0 with origin := -1 } (handle0 1 64) [0, 0] = .fault 0x0B ∧
      layoutLocate { lay0 with origin := 1 } (handle0 1 64) [3, 1] = .fault 0x0B ∧
      swz { lay0 with sb := 2, sm := 1, ss := 1 } 8 = 12 := by decide +kernel

theorem test_witness_LayoutMeaning :
    let d := fun (a b : Nat) (k : Nat) => if k = 9 then a else if k = 10 then b else 0
    let res := fun (a b : Nat) => (ldefOf (d a b)).toOption.isSome
    (res (57 + 2 ^ 24) 0 = false ∧ res 57 (2 ^ 20) = false ∧ res 0 0 = false ∧ res 57 0 = true) ∧
      (lpartOf lay0 (1 + 65536) 0).toOption.isSome = true ∧ (lpartOf lay0 1 9).toOption.isSome = true ∧
      (ltransOf lay0 1).toOption.isSome = true ∧ (lflatOf lay0 0).toOption.isSome = true ∧
      (let b : Layout := { lay0 with modes := [{ ext := 4, step := 2, lev := 0, die := false }] }
       (lchainOf lay0 b).toOption.isSome = true ∧ b.origin = 0 ∧ ∀ x ∈ lay0.modes, 0 < x.ext) := by decide +kernel

/-- `withPad` with layout register 1 naming the handle of 32 bytes from scratchpad offset 64. -/
def withLayout : State :=
  { withPad with
    ctxs := withPad.ctxs.map fun c => { c with handles := [(0, handle0 1 64), (1, handle0 1 512)] }
    w := { withPad.w with lays := [Layout.empty, lay0, { lay0 with hidx := 1 }] } }

theorem test_witness_LayoutWordsAndCheck :
    let v := fun (h : BitVec 256) => portCheck (hasTrestle 1) (wavBytes m0.w) lay0 h 3 true none
    (5#4).toNat < 6 ∧ (v (handle0 1 64)).absent = false ∧ (v (handle0 6 (64 + 2 ^ 20))).absent = true := by decide +kernel

theorem test_witness_ElementWordsAndHandles :
    let s := withLayout
    let l := layOf s.rd 1
    let h := handleOf s s.rd.ctx l
    let v := portCheck (hasTrestle s.part) (wavBytes s.rd) l h 4 true none
    let coord := fun (_ : Nat) => (List.range l.modes.length).map fun k => sRead s.clk s.rd (0x70 + BitVec.ofNat 7 k)
    let m : MemW := { kind := .store, fk := 3, ask := { n := 4, write := true, aligned := false, atom := none, direct := true }, dest := .none, q := 0,
                      sc := 0, hint := 0, l1 := false, flag := none }
    s.rd.replay = false ∧ v.verd ≠ 2 ∧ elemOf s.rd l h (coord 0) = .ptr (elemPtr s.rd h 0 16) ∧
      passing s m (fun _ => elemPtr s.rd h 0 16) (fun _ => leBytes 5 4) id s.rd.slots 0 = true ∧
      (2 ^ 12 ≤ (sReg (withWave fun w => { w with s := [(63, 0x1000)] }).rd 63).toNat) ∧ illFormed 0 = false ∧ isTrestle 0 = false ∧
      (isTrestle (handle0 6 (64 + 2 ^ 20)) = true ∧ illFormed (handle0 6 (64 + 2 ^ 20)) = false ∧ hasTrestle 1 = false) ∧
      (let h0 : HsetOp := { wave := 1, quad := 0, ctx := 0, idx := 0xFFF, entry := 0 }
       let t : State := { m0 with hsets := [h0] }
       t.hsets.find? (fun x => x.wave == 1) = some h0 ∧ t.ctxOf 0 = some State.fetchCtx ∧ t.findWave 1 = some t.w) := by decide +kernel

/-- `withLayout` with the four words of a parameter block in s60 to s63: no object, and the given words. -/
def withBlock (s : State) (p q r : Word) : State :=
  { s with w := { s.w with s := [(60, 0xFFFFFFFF), (61, p), (62, q), (63, r)] } }

/-- `withLayout` whose first handle lies in device memory, with rows of level 1. -/
def withRows : State :=
  let row : Layout := { lay0 with modes := [{ ext := 4, step := 1, lev := 0, die := false }, { ext := 2, step := 4, lev := 1, die := false }] }
  { withLayout with
    ctxs := withLayout.ctxs.map fun c => { c with handles := [(0, handle0 3 0x0100000000008000), (1, handle0 1 512)] }
    w := { withLayout.w with lays := [Layout.empty, row, { row with hidx := 1 }] } }

/-- `withLayout` whose second handle is a ring of the eastern neighbour of core 0, which holds it. -/
def withEast : State :=
  let ring : RingD := { feed := 4, inuse := 0, filled := 0, free := 4, reti := 0, cons := 0, prod := 0, nslot := 4, ssize := 64, sbase := 512 }
  let r : Resv :=
    { launch := 0, core := 4, base := 0, size := 1024, mem := tsetRun [] 32 (leBytes ring.num 16), sync := [0], objs := [], rings := [32] }
  { withLayout with
    resvs := withPad.resvs ++ [r]
    ctxs := withLayout.ctxs.map fun c => { c with handles := [(0, handle0 1 64), (1, handle0 6 (32 + 2 * 2 ^ 20))] } }

/-- Each data word's pairs pass their ports, and its parameter block is accepted: the conditions of R256 and R263 to R274 hold. -/
theorem test_witness_EngineWords :
    let port := fun (s : State) (n p : Nat) (w : Bool) => portCheck (hasTrestle s.part) (wavBytes s.rd) (layOf s.rd n) (handleOf s s.rd.ctx (layOf s.rd n)) p w none
    let ok := fun (s : State) (a p b q : Nat) => decide ((worstOf (port s a p false) (port s b q true)).verd ≠ 2)
    let tc := withBlock withLayout 0xFFFFFFFF 0 0
    let rows := withBlock withRows 2 0 0
    let mc := withBlock withRows 0 0 0
    let east := withBlock withEast 0 0 0
    (ok tc 1 2 2 3 = true ∧ (tcopyOp tc ⟨2, 1, 61, 1, false, 0, false, false⟩).toOption.isSome = true ∧
      tc.w.token = none ∧ objArg tc (sReg tc.rd 61) (isObject tc) = .ok none) ∧
    (ok rows 1 5 2 3 = true ∧ (rowsOp rows ⟨2, 1, 60, 0, false⟩ false).toOption.isSome = true) ∧
    (ok rows 2 2 1 5 = true ∧ (rowsOp rows ⟨1, 2, 60, 0, false⟩ true).toOption.isSome = true) ∧
    (ok mc 1 2 2 3 = true ∧ (mcreadOp mc ⟨2, 1, 60, 0, false⟩ 0).toOption.isSome = true) ∧
    (ok east 1 2 2 3 = true ∧ (trsendOp east ⟨2, 1, 60, 0, false⟩).toOption.isSome = true ∧ neighbour east.part 0 2 = some 4 ∧
      east.inSpan east.w.ctx 1 = true) ∧
    ok tc 0 2 2 3 = false ∧ (tcopyOp (withBlock withLayout 0xFFFFFFFF 8 0) ⟨2, 1, 61, 1, false, 0, false, false⟩).toOption.isSome = false := by
  decide +kernel

theorem test_witness_ObjectAndRingWords :
    let s := withPad
    let w := fun (a b c : Word) => ({ s with w := { s.w with s := [(61, a), (62, b), (63, c)] } } : State)
    let arg := fun (s : State) (known : Nat → Nat → Bool) => objArg s (sReg s.rd 61) known
    arg (w 16 0x7FFFFFFF 0) (objKnown (w 16 0 0)) = .ok (some (0, 16)) ∧ arg (w 48 0x7FFF 0) (fun _ _ => true) = .ok (some (0, 48)) ∧
      arg (w 8 0 0) (objKnown s) = .error 2 ∧ arg (w 0xFFFFFFFF 0 0) (objKnown s) = .ok none ∧
      rbinitBad (w 48 0x200 0x00040040) ⟨61, false⟩ = none ∧ (rbinitBad (w 48 0x80000 0x00040040) ⟨61, false⟩).isSome = true ∧
      ringKnown (w 32 0 0) 0 32 = true ∧ ringKnown (w 16 0 0) 0 16 = false ∧
      objKnown (w 16 0 0) 0 16 = true ∧ objKnown (w 48 0 0) 0 48 = false ∧ ringKnown (w 48 0 0) 0 48 = false ∧ arg (w 32 0 0) (fun _ _ => true) = .ok (some (0, 32)) := by
  decide +kernel

theorem test_witness_ObjectsAndWaits :
    let send := fun (off : Nat) (k : ObjKind) =>
      ({ wave := 1, quad := 0, engine := none, launch := 0, core := 0, off := off, kind := k, flag := some 0, seq := 9 } : ObjOp)
    let alone := fun (o : ObjOp) =>
      let s : State := { withPad with objOps := [o] }
      decide ((s.objOps.filter fun x => x.core == o.core && x.off == o.off && objMay s x) = [o] ∧ s.findWave o.wave = some s.w ∧ s.w.uid = o.wave) &&
        (match resvAt s 0 o.off with
         | some r => decide ((s.resvs.filter fun a => a.launch == r.launch && a.core == r.core) = [r])
         | none => false)
    let ring := ringOf (posRead withPad 0 32)
    let wait := fun (k : WaitKind) (off phase : Nat) =>
      let x : ObjWait := { wave := 1, launch := 0, core := 0, off := off, kind := k, phase := phase, dest := 63, flag := none, seq := 9 }
      let s : State := { withPad with objWaits := [x], asks := [{ core := 0, pos := off, op := 9, isB := false }] }
      waitReady s x && decide (s.objWaits.find? (fun y => y.wave == 1) = some x ∧ s.findWave 1 = some s.w)
    (alone (send 16 (.expect (2 ^ 31 - 1))) = true ∧ alone (send 16 (.arrive 0)) = true ∧ alone (send 16 .drop) = true ∧
      alone (send 16 (.engArrive 4 0 127)) = true ∧ alone (send 16 (.engArrive 4 1 0)) = true ∧ alone (send 16 .void) = true ∧ alone (send 16 (.coinit 0x7FFF false)) = true ∧
      alone (send 16 (.coinit 0 true)) = true ∧ isObject withPad 0 16 = true ∧ (objOf (posRead withPad 0 16)).exp < 2 ^ 15) ∧
    (alone (send 48 (.coinit 1 false)) = true ∧ alone (send 48 (.rbinit 0x7FFFF 0xFFFF 256 7)) = true ∧ isObject withPad 0 48 = false) ∧
    (alone (send 32 .rbfree) = true ∧ isRing withPad 0 32 = true ∧ 0 < ring.nslot ∧ ring.nslot ≤ 256 ∧ ring.inuse + ring.free < 512) ∧
    (wait .cowait 16 1 = true ∧ wait .cotest 16 0 = true ∧ wait .rbpop 32 0 = true ∧ ring.inuse < 511) := by decide +kernel

/-- A copy of `lay0`'s elements from the first handle to the second, started. -/
def eng0 : EngOp :=
  { newEng withLayout .tcopy 0x90 { lay0 with hidx := 1 } lay0 none false 0 with started := true }

theorem test_witness_EngineOperations :
    let s : State := { withLayout with engOps := [eng0] }
    let fresh : EngOp := { eng0 with started := false }
    let ended : EngOp := { eng0 with left := [] }
    let place := fun (l : Layout) (h : BitVec 256) (k : Nat) =>
      match layoutLocate l h (coordsOf l.modes k) with | .at 0 b _ _ => some (hBase h % 2 ^ 19 + b) | _ => none
    (s.engOps.find? (fun o => o.id == eng0.id) = some eng0 ∧ s.findWave eng0.wave = some s.w ∧ s.w.uid = eng0.wave) ∧
      (engCan { withLayout with engOps := [fresh] } fresh = true ∧ fresh.started = false ∧ hSpace fresh.hd ≠ 6) ∧
      (engCan s eng0 = true ∧ eng0.mode = 0 ∧ hSpace eng0.ha = 1 ∧ hSpace eng0.hd = 1 ∧ hFmt eng0.ha = hFmt eng0.hd ∧ hFmt eng0.hd ≠ 6 ∧
        hScaled eng0.ha = false ∧ hScaled eng0.hd = false ∧ (s.resvOf 0 0).isSome = true ∧
        eng0.fp = false ∧ eng0.left = List.range 8 ∧ (∀ k ∈ eng0.left, (place eng0.la eng0.ha k).any (fun b => decide (b + 4 ≤ 1024)) = true ∧
          (place eng0.ld eng0.hd k).any (fun b => decide (b + 4 ≤ 1024 ∧ ∀ i, i < 4 → (b + i) / 64 ≠ 0)) = true)) ∧
      (engDone { withLayout with engOps := [ended] } ended = true ∧ ended.kind ≠ .mlda ∧ ended.kind ≠ .msta ∧ ended.fp = false) := by decide +kernel

theorem test_witness_MulticastReads :
    let op : EngOp := { newEng withRows .mcread 0x93 (layOf withRows.w 2) (layOf withRows.w 1) none false 0 with started := true, expm := 1 }
    let s : State := { withRows with engOps := [op] }
    let x : Session :=
      { id := 3, slice := 0, group := 0, ctx := 0, key := 0, solo := false, lines := [(0x8000, 0), (0x8200, 0)], want := 1, members := [op.id],
        sending := true, sent := 0, replays := [], opened := 0 }
    let late : Session := { x with sent := 2, replays := [(op.id, 1)] }
    let m : McLine := { op := op.id, line := 0x8000, data := List.replicate 512 0 }
    (s.engOps.find? (fun o => o.id == op.id) = some op ∧ mcCan s op = true ∧
      (match mcTranslate s op (mcGranules op) with
       | (s1, .ok xl) => (match mcRest op xl (List.range op.ld.count) s1 with
          | (s2, .ok ()) => (s2.engOps.find? fun o => o.id == op.id).isSome && !(mcLinesOf op xl).isEmpty
          | _ => false)
       | _ => false) = true) ∧
      (({ s with sessions := [x] } : State).sessions.find? (fun y => y.id == 3) = some x ∧ x.lines[x.sent]? = some (0x8000, 0) ∧
        sessionMay { s with sessions := [x] } x = true ∧ x.sent + 1 < x.lines.length) ∧
      (({ s with sessions := [late] } : State).sessions.find? (fun y => y.id == 3) = some late ∧ late.lines[late.sent]? = none ∧
        sessionMay { s with sessions := [late] } late = true ∧ late.lines[1]? = some (0x8200, 0)) ∧
      ({ s with mcLines := [m] } : State).mcLines = m :: [] := by decide +kernel

/-- `m0` with an FP64 step tile for A and for B: rows of four elements, two steps. -/
def withTiles : State :=
  let l : Layout :=
    { modes := [{ ext := 4, step := 1, lev := 0, die := false }, { ext := 16, step := 8, lev := 0, die := false },
                { ext := 2, step := 128, lev := 1, die := false }],
      km := 2, hidx := 0, sb := 0, sm := 0, ss := 0, origin := 0, dorg := 0 }
  let h : BitVec 256 := BitVec.ofNat 256 (2 ^ 255 + 3 * 2 ^ 192 + 2048 * 2 ^ 64 + 0x0100000000008000)
  { m0 with
    ctxs := m0.ctxs.map fun c => { c with handles := [(0, h)] }
    w := { m0.w with lays := [l, l], s := [(62, 2), (63, 0)] } }

/-- `withTiles` with a ring of one slot of 512 bytes at scratchpad offset 32, which a handle of the local direction names. -/
def withRing : State :=
  let l : Layout :=
    { modes := [{ ext := 4, step := 1, lev := 0, die := false }, { ext := 16, step := 4, lev := 0, die := false },
                { ext := 1, step := 64, lev := 1, die := false }], km := 2, hidx := 1, sb := 0, sm := 0, ss := 0, origin := 0, dorg := 0 }
  let d : RingD := { feed := 0, inuse := 0, filled := 0, free := 1, reti := 0, cons := 0, prod := 0, nslot := 1, ssize := 512, sbase := 512 }
  let h : BitVec 256 := BitVec.ofNat 256 (2 ^ 255 + 6 * 2 ^ 192 + 512 * 2 ^ 64 + 32)
  { withTiles with
    resvs := [{ launch := 0, core := 0, base := 0, size := 1024, mem := tsetRun [] 32 (leBytes d.num 16), sync := [0], objs := [], rings := [32] }]
    ctxs := withTiles.ctxs.map fun c => { c with handles := c.handles ++ [(1, h), (2, h + 2 ^ 20)] }
    w := { withTiles.w with lays := [layOf withTiles.w 0, l, { l with hidx := 2 }, { l with origin := 1 }] } }

/-- Every form takes the path of each of its clauses; the FP64 form, whose operands `withTiles` holds, goes through. -/
theorem test_witness_MatrixLoops :
    let s := withTiles
    let la := layOf s.rd 0
    let ha := handleOf s s.w.ctx la
    let verd := fun (s : State) (a b : Nat) (c : Nat) => (mloopPorts s (layOf s.rd a) (layOf s.rd b) c).verd
    let many := fun (n : Nat) => ({ s with w := { s.w with s := [(62, BitVec.ofNat 32 n)] } } : State)
    let hnd := fun (n : Nat) => handleOf withRing withRing.w.ctx (layOf withRing.w n)
    let dir := fun (n : Nat) => (ringDesc withRing (hnd n)).map fun d => decide (d.feed = hfld (hnd n) 20 4)
    (s.rd.exec = s.rd.live ∧ (sReg s.rd 62).toNat = 2 ∧ (sReg s.rd 63).toNat = 0 ∧ hSparse ha = false ∧ verd s 0 0 2 ≠ 2 ∧ verd s 0 0 0 ≠ 2 ∧
      hFmt ha = 0 ∧ hSpace ha ≠ 6 ∧ 2 ≤ kmExt la) ∧
      ((withWave fun w => { w with exec := 1 }).rd.exec ≠ m0.rd.live ∧ 2 ^ 17 ≤ (sReg (many (2 ^ 17)).rd 62).toNat ∧
        65536 < (sReg (many 65537).rd 62).toNat ∧ kmExt la < 3 ∧
        (mloopPorts { s with ctxs := s.ctxs.map fun c => { c with handles := [] } } la la 2).verd = 2) ∧
      (hSpace (hnd 1) = 6 ∧ verd withRing 0 1 2 ≠ 2 ∧ dir 1 = some true ∧ verd withRing 0 2 2 ≠ 2 ∧ dir 2 = some false ∧
        verd withRing 0 3 2 = 2) := by decide +kernel

theorem test_witness_MatrixTileWords :
    let l : Layout := { lay0 with modes := [{ ext := 256, step := 1, lev := 0, die := false }] }
    let h : BitVec 256 := BitVec.ofNat 256 (2 ^ 255 + 2 ^ 196 + 2 ^ 192 + 1024 * 2 ^ 64)
    let tile : State := { m0 with
      ctxs := m0.ctxs.map fun c => { c with handles := [(0, h)] }, w := { m0.w with lays := [l] } }
    let port := fun (p : Nat) (w : Bool) => portCheck (hasTrestle 0) (wavBytes tile.rd) l h p w none
    m0.w.width = 32 ∧ m0.rd.width = m0.w.width ∧ (0x60#7).toNat + 256 / 32 ≤ 0x68 ∧ l.count = 256 ∧ handleOf tile 0 l = h ∧ hFmt h = 1 ∧
      hSpace h = 1 ∧ (port 2 false).verd ≠ 2 ∧ (port 3 true).verd ≠ 2 ∧ tile.w.token = none := by decide +kernel

theorem test_witness_StepSums :
    let c := FVal.fin false 1 0
    let small := FVal.fin false 1 (-23)
    (mulV (.inf false) (.fin false 0 0) = none ∧ (FVal.nan false).isNan = true) ∧
      (c.isFin = true ∧ small.isFin = true ∧ mulV small small = some (.fin false 1 (-46)) ∧ flog 1 0 = -47 + 47 ∧
        (-47 : Int) ≤ -46 ∧ flog 1 (-46) ≤ -47 + 47) := by decide +kernel

/-- The second step of `withTiles`'s MLOOP at the head of its queue. -/
def mat0 : MatOp :=
  let s := withTiles
  let l := layOf s.w 0
  let h := handleOf s 0 l
  { id := 7, wave := 1, launch := 0, ctx := 0, quad := 0, ty := 6, tile := 30, la := l, ha := h, lb := l, hb := h, count := 2, step := 1,
    busy := false, result := [], rflags := 0, flag := some 0, latch := none, reuseA := false, reuseB := false, slotA := none, slotB := none,
    seq := 7, token := none, kept := [], waiting := false, fwd := true, rows := [], begun := true }

theorem test_witness_MatrixEvents :
    let at1 := fun (m : MatOp) (pins : List Pin) => ({ withTiles with matOps := [m], pins := pins } : State)
    let pins := (matLines (at1 mat0 []) mat0 1).map fun pa => ({ quad := 0, op := 7, pa := pa } : Pin)
    let s := at1 mat0 pins
    let busy : MatOp := { mat0 with busy := true }
    let mv : TileMove := { wave := 1, toTile := false, flag := some 0, id := 9 }
    let load : EngOp := { eng0 with kind := .mlda, hd := 0 }
    let row := fun (x : Bool × Nat) => ({ isB := x.1, unit := 1, row := x.2, stat := 0, vals := List.replicate 4 (.fin false 1 0) } : OpRow)
    let rows := ((List.range 16).map fun i => row (false, i)) ++ (List.range 16).map fun i => row (true, i)
    let full : MatOp := { mat0 with rows := rows }
    let most : MatOp := { mat0 with rows := rows.drop 2 }
    let place := fun (k : Nat) =>
      match layoutLocate load.la load.ha (coordsOf load.la.modes k) with | .at 0 b _ _ => some (hBase load.ha % 2 ^ 19 + b) | _ => none
    ((pinNow (at1 mat0 []) mat0).isSome = true) ∧
      (matHead (at1 most pins) 0 = some most ∧ stepCan (at1 most pins) most = true ∧ slotAsk (at1 most pins) most false = none ∧
        slotAsk (at1 most pins) most true = none ∧ (readyRows (at1 { most with rows := rows.drop 1 } pins) { most with rows := rows.drop 1 }) = [(false, 1, 0)] ∧
        (readRow (at1 most pins) most false 1 0).2.toOption.isSome = true ∧ most.isRing false = false ∧
        stepFull { most with rows := most.rows ++ [row (false, 0)] } = false) ∧
      (matHead (at1 full pins) 0 = some full ∧ stepCan (at1 full pins) full = true ∧ stepFull full = true ∧ 0 < full.step ∧
        (at1 full pins).findWave mat0.wave = some s.w) ∧
      (matHead (at1 busy []) 0 = some busy ∧ busy.rflags < 2 ^ 31 ∧ busy.rflags % 2 ^ 17 = 0) ∧
      (({ m0 with moves := [mv] } : State).moves.filter fun x => x.wave == 1) = mv :: [] ∧
      (tlsCan { withLayout with engOps := [{ load with left := [] }] } { load with left := [] } = true ∧ hSpace load.hd ≠ 6) ∧
      (tlsCan { withLayout with engOps := [load] } load = true ∧ load.left = List.range 8 ∧ hSpace load.ha = 1 ∧ hFmt load.ha = 1 ∧
        (withLayout.resvOf load.launch load.core).any (fun r => decide (r.size = 1024)) = true ∧
        ∀ k ∈ load.left, (place k).any (fun b => decide (b + 4 ≤ 1024)) = true) := by
  decide +kernel

/-- `m0` with a context of 16 tile buffers, a template with one argument, an open cord 0 and a closed cord 1. -/
def withTasks : State :=
  let plan : Plan := { wq := 1, nregs := 96, acc := 32, nlay := 16, args := 1, scratch := 0 }
  { m0 with
    ctxs := m0.ctxs.map fun c => { c with tbBase := 8, tbCount := 16 }
    launches := [{ State.fetchLaunch with templates := [(State.fetchCord.entry, plan)] }]
    cords := [{ State.fetchCord with plan := plan }, { State.fetchCord with num := 1, closed := true, plan := plan }] }

theorem test_witness_Spawning :
    let s := withTasks
    let f : SpawnF := { sd := 63, sa := 59, n := 1, fs := false }
    let blk := fun (b r1 r3 : Nat) => ({ s with w := { s.w with
      s := [(59, BitVec.ofNat 32 b), (60, BitVec.ofNat 32 r1), (62, BitVec.ofNat 32 r3)] } } : State)
    let good := blk (2 ^ 9 + 2 ^ 12) 15 15
    let new := blk (2 ^ 31) 0 0
    let cause := fun (s : State) => match spawnOp s f false with | .ok _ => 0 | .error c => c
    let o : SpawnOp :=
      { wave := 1, launch := 0, ctx := 0, sd := 63, isTry := true, tmpl := none, cord := 0, args := [5], ins := [], out := none, flag := none,
        seq := 9 }
    let wait : SpawnOp := { o with ins := [8] }
    let made : SpawnOp := { o with tmpl := some 0 }
    let turn := fun (s : State) (o : SpawnOp) => decide (spawnTurn { s with spawns := [o] } 1 = some o)
    let all : State := { s with cords := (List.range 512).map fun n => { State.fetchCord with num := n } }
    ((s.ctxOf s.w.ctx).isSome = true ∧ cause good = 0 ∧ cause new = 0 ∧ cause (blk (2 ^ 13) 0 0) = 1 ∧ cause (blk (2 ^ 31 + 7) 0 0) = 2 ∧
      cause (blk 2 0 0) = 2 ∧ cause (blk 1 0 0) = 3 ∧ (2#5).toNat > 1 ∧ cause (blk (2 ^ 9) 16 0) = 5 ∧ cause (blk (2 ^ 12) 0 16) = 5 ∧
      (turn s o = true ∧ (s.cordOf 0).isSome = true) ∧ (turn s wait = true ∧ tget s.tb 8 = 0 ∧ s.pen.length < 16384) ∧
      (turn s made = true ∧ (s.launchOf 0).isSome = true ∧ (∀ c ∈ s.cords, c.num ≠ 2)) ∧ turn all made = true) ∧
      ∀ n, n < 512 → ∃ c ∈ all.cords, c.num = n :=
  ⟨by decide +kernel, fun _ h => ⟨_, List.mem_map_of_mem (List.mem_range.mpr h), rfl⟩⟩

theorem test_witness_TileBuffersAndCords :
    let s := withTasks
    let at63 := fun (v : Nat) => (sReg ({ s with w := { s.w with s := [(63, BitVec.ofNat 32 v)] } } : State).rd 63).toNat
    let c : Cord := { State.fetchCord with closing := [1] }
    let o : TbOp := { wave := 1, quad := 0, kind := 0, idx := 23, n := 1, sd := 63, flag := none, seq := 9 }
    let t : State := { s with tbOps := [o] }
    let k : Task := { cord := 0, args := [], ins := [], out := none, batch := 3 }
    let parked : Wave := { m0.w with status := .parked, draining := false }
    (at63 (2 ^ 31) / 2 ^ 9 % 2 ^ 22 = 0 ∧ at63 (2 ^ 9) / 2 ^ 9 % 2 ^ 22 ≠ 0 ∧ (s.cordOf s.w.cord).isSome = true ∧ s.cordOf 511 = none) ∧
      ((({ s with cords := [c] } : State).cords.filter fun x => x.num == 0) = [c] ∧ c.closing ≠ [] ∧ cordEmpty s c = true ∧
        cordEmpty s { c with range := 1 } = false ∧ cordUsed { s with w := Wave.init, waves := [] } 1 = false) ∧
      (at63 15 + 1 ≤ 16 ∧ 16 < at63 15 + 2 ∧ 2 ^ 16 ≤ at63 (2 ^ 16)) ∧
      (t.tbOps.filter (tbMay t) = [o] ∧ t.findWave o.wave = some t.w ∧ t.w.uid = o.wave ∧ o.sd < 64 ∧ o.n ≤ 16) ∧
      (enterBatch { s with released := [k] } = some 3 ∧ (s.cordOf 0).isSome = true ∧ enterBatch s = none ∧
        enterBatch { s with released := [k], cords := s.cords.map fun c => { c with items := List.replicate 65536 { ord := 0, args := [] } } } = none) ∧
      (parked.status = .parked ∧ parked.cord = 0 ∧ parked.token = none ∧ parked ∈ ({ s with saved := [parked] } : State).saved) := by decide +kernel

/-- A crew of waves 1 and 2 on core 0. -/
def crew0 : Crew :=
  { id := 5, launch := 0, scope := 0, place := 0, key := 3, members := [1, 2], isOpen := false, pend := 0, inPhase := [], waiting := [],
    deferred := [], phase := 0, returning := [] }

theorem test_witness_CrewsAndTheirBarriers :
    let member : Wave := { m0.w with crew := some 3 }
    let s : State := { m0 with w := member, crews := [crew0] }
    let o := fun (k : CrewKind) => ({ wave := 1, launch := 0, scope := 0, place := 0, key := 3, kind := k, seq := 9 } : CrewOp)
    let ready := fun (s : State) (o : CrewOp) =>
      decide (crewBatch { s with crewOps := [o] } 0 = [o] ∧ s.findWave o.wave = some s.w ∧ s.w.uid = o.wave)
    let waits : Crew := { crew0 with isOpen := true, pend := 1, inPhase := [1, 2], waiting := [(2, 0)] }
    let back : Crew := { crew0 with returning := [(1, 63, 7)] }
    let bar : Wave := { member with blocked := .bar }
    (m0.w.token = none ∧ m0.w.crew = none ∧ crewOf m0 m0.w = none ∧ crewOf s s.w = some crew0 ∧ hasArrived s crew0 1 = false ∧
      hasArrived { s with crews := [waits] } waits 2 = true) ∧
      (ready m0 (o (.join 63)) = true ∧ findCrew m0 0 0 0 3 = none) ∧
      (ready { m0 with crews := [crew0] } (o (.join 63)) = true ∧ findCrew s 0 0 0 3 = some crew0) ∧
      (ready s (o (.bar 63)) = true ∧ 1 ∈ crew0.members ∧ crew0.deferred = [] ∧ crew0.members.length ≠ 1) ∧
      (ready { s with crews := [waits] } (o (.bar 63)) = true ∧ 1 ∈ waits.inPhase ∧ waits.pend = 1) ∧
      (ready { s with crews := [{ crew0 with members := [1] }] } (o (.bar 63)) = true) ∧
      (ready s (o .leave) = true ∧ (s.crews.filter fun x => x.id == 5) = [crew0] ∧ crew0.members.all (fun x => x == 1) = false) ∧
      (let t : State := { m0 with w := bar, crews := [back] }
       t.findWave 1 = some bar ∧ bar.uid = 1 ∧ (t.crews.find? fun y => y.returning.any fun z => z.1 == 1) = some back ∧
        (back.returning.find? fun z => z.1 == 1) = some (1, 63, 7)) := by decide +kernel

theorem test_witness_SpecialRegisters :
    (m0.ctxOf m0.w.ctx).isSome = true ∧ (m0.launchOf m0.w.launch).isSome = true ∧ m0.rd.ctx = m0.w.ctx ∧
      m0.rd.launch = m0.w.launch ∧ (m0.spans[0]?).isSome = true ∧ (63#6).toNat + 1 ≤ 64 ∧ (62#6).toNat + 2 ≤ 64 ∧
      (0x033#10).toNat = 0x033 ∧ (0x3FF#10).toNat = 0x201 + 2 * 255 ∧ (0x025#10).toNat = 0x022 + 3 ∧ m0.w.width = 32 := by
  decide +kernel

/-- `m0` with a frame on the pool of its context, one system word in flight, and the page table at 0 with an empty entry of
level 3 for address 0x40020000. -/
def withSys (k : SysKind) : State :=
  { m0 with
    ctxs := m0.ctxs.map fun c => { c with pool := [0x50000] }
    mem := tsetRun (tsetRun (tsetRun m0.mem 0x2008 (leBytes 0x3001 8)) 0x3000 (leBytes 0x4001 8)) 0x4010 (leBytes 8 8)
    sysOps := [{ wave := 1, kind := k, sd := 62, flag := none, seq := 9 }] }

theorem test_witness_SystemWords :
    let s := fun (ptr : Nat) => withSys (.ptew (BitVec.ofNat 64 ptr) 0x51 3 false true)
    let place := fun (ptr : Nat) =>
      pteAt (s ptr) (ptr % 2 ^ 49) 3 0 ((s ptr).ctxOf 0 |>.elim 0 fun c => c.ptroot.toNat)
    let turn := fun (ptr : Nat) => (ptewTurn (s ptr) 1).isSome && decide ((s ptr).findWave 1 = some (s ptr).w ∧ (s ptr).w.uid = 1)
    (turn 0x40020000 = true ∧ place 0x40020000 = some 0x4010 ∧ (readPte (s 0) 0x4010).toOption = some 8 ∧ 0x4010 + 8 ≤ memLimit 0 ∧
        lateRead (softReads (s 0x40020000) ((s 0).w.quad + 1) (walkPas (s 0x40020000) State.fetchCtx 0x40020000)) = false) ∧
      (turn 0x8000000000 = true ∧ place 0x8000000000 = none) ∧ (turn (2 ^ 49) = true ∧ 2 ^ 49 / 2 ^ 49 % 2 ^ 7 ≠ 0) ∧
      ((sysFind (withSys (.poolpop 5)) 1 fun o => match o.kind with | .poolpop _ => true | _ => false).isSome = true ∧ 62 + 2 ≤ 64) ∧
      ((s 0).ctxOf 0).any (fun c => decide (c.pool ≠ [])) = true ∧ (m0.ctxOf 0).any (fun c => decide (c.pool = [])) = true := by
  decide +kernel

theorem test_witness_PageTablesWalked :
    let s := withSys (.poolpop 0)
    let c : Ctx := State.fetchCtx
    let pte := fun (pa : Nat) => (readPte s pa).toOption
    pte 0 = some 0x2001 ∧ pte 8 = some 0 ∧ pte 0x2000 = some 0x47 ∧ pte 0x2008 = some 0x3001 ∧ pte 0x3000 = some 0x4001 ∧ pte 0x4010 = some 8 ∧ walk s c 0 = .leaf 0x47 0 (2 ^ 30) ∧
      walk s c (2 ^ 39) = .fail 3 0 false ∧ walk s c (2 ^ 30 * 2) = .fail 3 1 false ∧ walk s c (2 ^ 30 + 2 ^ 21) = .fail 3 2 false ∧
      walk s c (2 ^ 30 + 2 ^ 16) = .fail 3 3 false ∧ walk s c (2 ^ 30 + 2 ^ 17) = .fail 3 3 true := by decide +kernel

theorem test_witness_TranslationsSwept :
    let turn := fun (k : SysKind) =>
      (sweepTurn (withSys k) 1).isSome && decide ((withSys k).findWave 1 = some (withSys k).w ∧ (withSys k).w.uid = 1)
    ((m0.ctxOf 0).isSome = true ∧ 3 / 4 = 0 ∧ laneHit m0 3 31 0 (0x8000 % 2 ^ 49) = none ∧ walk m0 State.fetchCtx 0x8000 = .leaf 0x47 0 (2 ^ 30) ∧
      walk m0 State.fetchCtx (2 ^ 39) = .fail 3 0 false ∧
        lateRead (softReads m0 1 (walkPas m0 State.fetchCtx 0x8000)) = false ∧
        lateRead (softReads { m0 with turns := [(0, 0, 250)] } 1 (walkPas m0 State.fetchCtx 0x8000)) = true) ∧ turn (.lpinv true 0 0) = true ∧ turn (.tlbinv false 2 0x8000) = true ∧
      turn (.swept []) = true ∧ m0.memOps = [] := by decide +kernel

theorem test_witness_FetchAndWatchdog :
    let miss : State := { m0 with icache := [] }
    let bad : DWord := BitVec.ofNat 64 (2 ^ 57 + 4)
    let lost : State := { miss with w := { m0.w with pc := bad } }
    let late : State := { withHandler with
      ctxs := withHandler.ctxs.map fun c => { c with ctxcfg := 0x100 }
      w := { m0.w with wdcnt := 65536, wdArmed := true, pc := BitVec.ofNat 64 (2 ^ 56 + 0x10010) } }
    let stuck : State := { late with w := { late.w with status := .blocked, blocked := .bar, blockArg := 2 ^ 56 + 0x10004 } }
    (codePlace miss 0 (BitVec.ofNat 64 (2 ^ 56 + 0x10004))).toOption.isSome = true ∧
      (codePlace lost 0 (BitVec.ofNat 64 (2 ^ 57 + 4))).toOption = none ∧ awaits lost 0 0 (2 ^ 57 + 4) lost.w = true ∧
      awaits lost 0 0 0 lost.w = false ∧
      (iinvTurn (withSys (.iinv false 1 0 12)) 1).isSome = true ∧
      (late.findWave 1 = some late.w ∧ (late.ctxOf 0).any (fun c => decide (c.ctxcfg.toNat / 2 ^ 8 ≠ 0 ∧
        c.ctxcfg.toNat / 2 ^ 8 * 65536 ≤ late.w.wdcnt.toNat)) = true ∧ (stopPoint late late.w).any (fun x => !x.2) = true) ∧
      (stopPoint stuck stuck.w).any (fun x => x.2) = true := by decide +kernel

/-- `m0` with a clause header at 0x10010, and a launch record at 0x8000: at its head in host queue 3, and in a LAUNCH of the wave. -/
def withRecord (plan ctrl : Nat) : State :=
  let q : Queue := { base := 0x8000, cfg := 0x80000001, head := 0, tail := 1 }
  let o : DevLaunch :=
    { wave := 1, ctx := 0, level := 7, sd := 63, flag := none, ptr := BitVec.ofNat 64 (2 ^ 56 + 0x8000), seq := 9 }
  let code := tsetRun m0.mem 0x10010 (leBytes 0x7FC003FC 4)
  { m0 with
    mem := tsetRun (tsetRun (tsetRun (tsetRun code 0x8000 (leBytes (2 ^ 56 + 0x10010) 8)) 0x8008 (leBytes plan 8)) 0x8018 (leBytes ctrl 8))
      0x8030 (leBytes (2 ^ 56 + 0x9000) 8)
    queues := m0.queues.set 3 q
    intake := [o] }

theorem test_witness_Launching :
    let good := withRecord 0x0801 0
    let bad := withRecord 0x0802 (2 ^ 63 + 2 ^ 27)
    let reason := fun (s : State) => rejectReason s 0 (devBytes s 0 0x8000 128) 0
    let host := fun (s : State) => (s.queues[3]?).any (queueReady s)
    let dev := fun (s : State) => match deviceTurn s 7 with
      | some o => decide (s.findWave o.wave = some s.w ∧ s.w.uid = o.wave ∧ o.sd < 64 ∧ ctxPlace s o.ctx o.ptr 128 false = some (.dev 0x8000 0))
      | none => false
    let tiled : State := { m0 with w := { m0.w with token := some 4 } }
    (m0.w.token = none ∧ m0.rd.replay = false ∧ ({ m0 with src := some { m0.w with replay := true } } : State).rd.replay = true ∧
      (checkPtr oneSlot oneSlot.rd 0 { n := 128, write := false, aligned := true, atom := none } (sReg64 oneSlot.rd 0)).2.toOption.isSome = true) ∧
      (tiled.w.token.isSome = true ∧ tiled.w.verdict = none ∧ ({ tiled.w with verdict := some 0 } : Wave).verdict.isSome = true) ∧
      (host good = true ∧ dev good = true ∧ reason good = 0) ∧ (host bad = true ∧ dev bad = true ∧ reason bad = 3) ∧
      ctxPlace bad 0 (BitVec.ofNat 64 (2 ^ 56 + 0x9000)) 16 true = some (.dev 0x9000 0) ∧ good.launches.length < 65536 ∧
      ctxPlace good 0 0 128 false = none := by decide +kernel

/-- `m0` with a guarded-surrogate launch: two tiles of ten items, one of them resolved, its exact cord 1, and tile token 4 in a phase. -/
def withTile (phase : Nat) : State :=
  let it : Item := { ord := 3, args := [] }
  let x : STile :=
    { token := 4, launch := 0, tile := 1, next := 10, stop := 15, waves := [], banked := [(0x8001, 0x105)], sectors := [(0x200, 0)],
      overrun := false, erred := false, bound := true, phase := phase, spilled := [] }
  { m0 with
    w := { m0.w with token := some 4 }
    launches := [{ State.fetchLaunch with
      sg := true, gang := 1, gscope := 1, titems := 10, range := 25, budget := 16384, tileNext := 2, exactCord := some 1, exactDue := [it] }]
    cords := [State.fetchCord, { State.fetchCord with num := 1, exact := true }]
    tiles := [x] }

theorem test_witness_SurrogateTiles :
    let s := { withTile 0 with tiles := [] }
    let f := fun (p : Nat) => decide ((withTile p).tiles.any fun x => x.token == 4 && x.phase == p) && ((withTile p).tileOf 4).isSome &&
      ((withTile p).launchOf 0).any fun l => l.ending.isNone && decide (l.exactDue ≠ [])
    (s.launchOf 0).any (fun l => mayReserve s l && decide (tileDue l = some 2)) = true ∧ f 1 = true ∧ f 2 = true ∧ f 3 = true ∧
      (withTile 3).tiles.all (tileEmpty (withTile 3)) = true ∧ tileStill (withTile 2) 4 = true ∧ tileStill (withTile 3) 4 = true ∧
      (0x8001 / 64, 0) ∈ [(0x200, 0)] ∧ 2 ^ 8 ≤ 0x105 ∧ (s.cordOf 1).any (fun c => decide (c.items.length < 65536)) = true := by
  decide +kernel

/-- `m0` with no wave, and its cord holding work: what a launch of the given gang waits for. -/
def waiting (gang gscope : Nat) : State :=
  { m0 with
    w := Wave.init, clk := 1000000
    launches := [{ State.fetchLaunch with gang := gang, gscope := gscope, scratch := 2, since := some 0, sinceG := some 0 }]
    cords := [{ State.fetchCord with range := 40, plan := { State.fetchCord.plan with nregs := 16, acc := 2, nlay := 4 } }]
    age := [(0, 3)], gangwait := [(0, 3)]
    slotTable := [(5, bindWord 7 0 0 0 9 0 none none)] }

theorem test_witness_WavesArePlaced :
    let s := waiting 3 2
    let w := (waiters s).find? fun w => w.cord.num == 0
    let r := (tget s.slotTable 5).toNat
    let st := waiting 2 1
    w.any (fun w => (mayPlace s (waiters s) w 63 fun _ => 0).isSome && decide ((w.queue, w.launch.id) ∉ s.raised ∧ w.queue = 64)) = true ∧
      (r / 2 ^ 127 = 1 ∧ r / 2 ^ 93 % 2 ^ 16 = 0 ∧ r / 2 ^ 109 % 2 ^ 9 = 0 ∧ r / 2 ^ 52 % 2 = 0) ∧ (s.launchOf 0).any (fun l => l.ending.isNone) = true ∧
      (s.cordOf 0).isSome = true ∧ w.any (fun w => decide ((tget s.age w.level).toNat = 3 ∧ waitedOver s w 3 = true)) = true ∧
      (st.launchOf 0).any (fun l => decide (bestSet st l = some 0) && (waiters st).any fun w =>
        w.launch.id == 0 && w.cord.num == l.main && longSince st l.sinceG (tget st.gangwait l.prio).toNat) = true ∧ st.closedSets = [] := by decide +kernel

theorem test_witness_WavesEndAndAreSaved :
    let done : State := { m0 with w := { m0.w with status := .retiring } }
    let ended : State := { m0 with
      w := Wave.init
      launches := [{ State.fetchLaunch with ending := some 2, done := BitVec.ofNat 64 (2 ^ 56 + 0x9000), irq := true }] }
    let low : Wave := { m0.w with quad := 191, status := .parked }
    let l : Launch := { State.fetchLaunch with id := 1, prio := 3, main := 1, gang := 2, gscope := 1, since := some 0 }
    let full : Cord :=
      { State.fetchCord with num := 1, launch := 1, range := 5, plan := { State.fetchCord.plan with wq := 4, acc := 0, nlay := 0 } }
    let small : State := { m0 with
      w := low, clk := 10000, ready := 0x80000000, launches := [State.fetchLaunch, l], cords := [State.fetchCord, full], age := [(3, 1)] }
    let chosen : State := { m0 with w := { low with group := 9 } }
    let saved : State := { m0 with w := Wave.init, saved := [{ low with group := 9 }] }
    let grows : State := { m0 with w := { low with group := 9 }, waves := [{ m0.w with uid := 2 }], crews := [{ crew0 with scope := 1 }] }
    let inTile : State := { small with
      w := { low with token := some 4 }
      tiles := [{ token := 4, launch := 0, tile := 0, next := 0, stop := 1, waves := [], banked := [], sectors := [], overrun := false, erred := false,
                  bound := true, phase := 0, spilled := [] }] }
    let one := fun (s : State) (g : Nat) => s.saved.any fun w =>
      match mayResume s (waiters s) w g 15 fun k => Config.choose (s.freeN + k) with
      | some xs => decide (xs.map (fun x => (x.1, x.2.1, x.2.2.1)) = [(w, g, 15)])
      | none => false
    let kept : Resv := { launch := 0, core := 47, base := 0, size := 1024, mem := [], sync := [], objs := [], rings := [] }
    ((done.findWave 1 = some done.w ∧ mayRetire done done.w = true ∧ crewOf done done.w = none ∧ done.w.token = none) ∧
      (ended.launchOf 0).any (fun l => mayEnd ended l) = true ∧
      ({ ended with saved := [low] } : State).findWave 1 = none ∧ cutOff { ended with saved := [low] } low = true ∧
      ctxPlace ended 0 (BitVec.ofNat 64 (2 ^ 56 + 0x9000)) 16 true = some (.dev 0x9000 0)) ∧
      ((victim small).any fun v => v.uid == 1) = true ∧ ((victim inTile).any fun v => v.uid == 1) = true ∧
      (grows.findWave 1 = some grows.w ∧ grows.w.group ≠ 0 ∧ groupGrows grows grows.w = true) ∧
      (chosen.findWave 1 = some chosen.w ∧ groupReady chosen chosen.w = true ∧
        Machine.chosen chosen 9 = [chosen.w] ∧ chosen.w.status = .parked ∧ coresLeft chosen 0 [1] = [] ∧
        coresLeft { chosen with resvs := [kept] } 0 [1] = [47]) ∧
      (saved.findWave 1 = none ∧ one saved 190 = true ∧
        (saved.saved.head?.any fun w => decide (ownResv { saved with resvs := [kept] } w = some kept)) = true) := by decide +kernel

/-- `CmdClean`, as a check. -/
def cleanBytes (bs : List Byte) (fields : List (Nat × Nat)) : Bool :=
  (List.range 56).all fun i => decide (2 ≤ i → ¬ (4 ≤ i ∧ i < 8) → (∀ f ∈ fields, ¬ (f.1 ≤ i ∧ i < f.1 + f.2)) → recAt bs i 1 = 0)

/-- The check is the hypothesis of the statements about commands. -/
theorem test_cleanBytes (bs : List Byte) (fs : List (Nat × Nat)) (h : cleanBytes bs fs = true) : CmdClean bs fs := by
  intro i h2 h56 h4 hf
  simp only [cleanBytes, List.all_eq_true, decide_eq_true_eq, List.mem_range] at h
  exact h i h56 h2 h4 hf

/-- `m0` with a record of the ring of port 1 as the next command: its bytes 0 to 7, 8 to 15 and 16 to 23. -/
def withCmd (head sel arg : Nat) : State :=
  { m0 with
    mem := tsetRun (tsetRun (tsetRun m0.mem 0x8FC0 (leBytes head 8)) 0x8FC8 (leBytes sel 8)) 0x8FD0 (leBytes arg 8)
    rings := [{ base := 0, size := 1, head := 0, tail := 0 }, { base := 0x8F80, size := 1, head := 1, tail := 0 }] }

/-- The record of `withCmd` has its turn at port 1, and it is clean but for some fields. -/
def cmdTurn (s : State) (fields : List (Nat × Nat)) : Bool :=
  decide (turnPort s = some 1) &&
    (s.rings[1]?).any fun r => decide (devBytes s 0 (ringPlace r) 64 = devBytes s 0 0x8FC0 64) && cleanBytes (devBytes s 0 (ringPlace r) 64) fields

theorem test_witness_ContextCommands :
    let idle : State := { withCmd 1 7 0 with w := Wave.init, launches := [] }
    let frames := [(8, 1), (0xA, 2), (0xC, 4), (0x10, 8)]
    let few : State := { withCmd 5 (4095 * 2 ^ 16 + 2 * 2 ^ 32) 0x9000 with mem := tsetRun (withCmd 5 (4095 * 2 ^ 16 + 2 * 2 ^ 32) 0x9000).mem 0x9008 (leBytes 0x20000 8) }
    let stopped : State := { withCmd 0xD (15 * 2 ^ 32 + 3 * 2 ^ 40) 0 with w := { m0.w with status := .suspended, wslot := 15 } }
    let busy : State := { stopped with sysOps := [{ wave := 1, kind := .poolpop 0, sd := 62, flag := none, seq := 9 }] }
    let open_ := fun (s : State) (pa n : Nat) => readable { s with ready := 0xFFFFFFFF } pa n
    (open_ few 0x9000 16 = true ∧ readable { few with ready := 0 } 0x9000 16 = false ∧ readable { few with ready := 0xFFFFFFFF, poison := [0x240] } 0x9000 16 = false ∧
      resumeHeld stopped (devBytes stopped 0 0x8FC0 64) = false ∧ resumeHeld busy (devBytes busy 0 0x8FC0 64) = true) ∧
      (cmdTurn (withCmd 1 7 0) [(8, 1)] = true ∧ (withCmd 1 7 0).ctxOf 63 = none ∧ (withCmd 1 7 0).ctxs.length = 1) ∧
      (cmdTurn { withCmd 1 7 0 with ctxs := (List.range 64).map fun n => { State.fetchCtx with num := n } } [(8, 1)] = true) ∧
      (cmdTurn (withCmd 2 0 0) [(8, 1)] = true ∧ ((withCmd 2 0 0).ctxOf 0).isSome = true ∧ (withCmd 2 0 0).launches.any (fun l => l.ctx == 0) = true) ∧
      (idle.launches = [] ∧ idle.allWaves = [] ∧ (idle.ctxOf 0).isSome = true) ∧
      cmdTurn (withCmd 3 0 0x2000) [(8, 1), (0x10, 8), (0x18, 8), (0x20, 4)] = true ∧
      cmdTurn (withCmd 4 (254 * 2 ^ 8) 0x8000) [(8, 1), (9, 1), (0x10, 16)] = true ∧
      (cmdTurn few frames = true ∧ ((List.range 2).map fun i => leNat (devBytes few 0 (0x9000 + 8 * i) 8)) = [0, 0x20000]) ∧
      (cmdTurn (withCmd 6 (65536 * 2 ^ 32) 0) [(8, 1), (0xC, 4)] = true ∧ tbRoom (withCmd 6 (65536 * 2 ^ 32) 0) 0 65536 = some 0) ∧
      cmdTurn (withCmd 7 (7 * 2 ^ 32) 0) [(8, 1), (9, 1), (0xA, 1), (0xC, 4)] = true ∧
      cmdTurn (withCmd 9 (4095 * 2 ^ 16) 0) [(8, 1), (0xA, 2), (0x10, 16)] = true ∧
      cmdTurn (withCmd 0xC 0 0) [(8, 1), (0xA, 2)] = true ∧
      (cmdTurn stopped [(8, 1), (0xA, 2), (0xC, 1), (0xD, 1)] = true ∧ (stopped.allWaves.find? fun w =>
        w.ctx == 0 && w.quad == 0 && w.wslot == 15 && w.status == .suspended) = some stopped.w) := by decide +kernel

theorem test_witness_CommandsOfTheDevice :
    let sel := [(8, 1), (9, 1), (0xA, 1), (0xC, 4)]
    let none8 : State := withCmd 2 63 0
    let dirty : State := withCmd (1 + 2 ^ 24) 0 0
    let empty : State := { withCmd 0xB (7 + 3 * 2 ^ 8 + 7 * 2 ^ 16 + 5 * 2 ^ 24 + 2 ^ 32 + 2 ^ 40) 0 with w := Wave.init }
    let cleanOf := fun (head sel arg : Nat) (fields : List (Nat × Nat)) => cmdTurn (withCmd head sel arg) fields
    (cleanOf 0 0 0 [] = true ∧ cleanOf 0xF 0 0 [] = true ∧ cmdTurn none8 [(8, 1)] = true ∧ none8.ctxOf 63 = none ∧
      turnPort dirty = some 1 ∧ recAt (devBytes dirty 0 0x8FC0 64) 3 1 ≠ 0) ∧
      cleanOf 7 (2 ^ 8 + 7 * 2 ^ 16 + 65535 * 2 ^ 32) 0 sel = true ∧ cleanOf 7 (2 * 2 ^ 8 + 65535 * 2 ^ 32) 0 sel = true ∧
      (cleanOf 8 4095 0x9000 [(8, 2), (0x10, 8)] = true ∧ keyNamed { withCmd 8 4095 0 with ctxs := [] } 4095 = false ∧ keyNamed m0 0 = true) ∧
      cleanOf 0xA (4095 * 2 ^ 16) (2 ^ 39) [(0xA, 2), (0x10, 32)] = true ∧
      (cmdTurn empty [(8, 6)] = true ∧ 7 + 1 ≤ 8 ∧ 5 + 1 ≤ 6 ∧ empty.allWaves = []) ∧
      cleanOf 0xE (4095 + 0xFF * 2 ^ 16) 0 [(8, 2), (0xA, 1)] = true ∧ cleanOf 0xE (4095 + 11 * 2 ^ 16) 0 [(8, 2), (0xA, 1)] = true := by
  decide +kernel

/-- An image shorter than its header does not pass the check. -/
theorem test_shortImage (img : List Byte) (h : img.length < 0x50) : imageOk img = false := by
  have : decide (0x50 ≤ img.length) = false := decide_eq_false (by omega)
  simp [imageOk, this]

theorem test_witness_WindowAndPower :
    let rec0 : State := { m0 with ready := 0x20000000, rlen := 4, recBuf := [(0, 1)] }
    (m0.queues[63]?).any (fun x => !x.cfg.getLsbD 31) = true ∧
      ((withRecord 0 0).queues[3]?).any (fun x => x.cfg.getLsbD 31) = true ∧ tget m0.sems 15 = 0 ∧
      (rec0.powered = true ∧ rec0.ready.getLsbD 29 = true ∧ (2 ^ 30) / 2 ^ 30 = 1 ∧ (2 ^ 31) / 2 ^ 30 = 2 ∧
        imageOk (rec0.image ++ tgetRun rec0.recBuf 0 rec0.rlen) = false) ∧
      m0.powered = true ∧ (m0.rings[0]?).isSome = true ∧ unitBit 0 30 = true ∧ unitBit 0 15 = false ∧ unitBit 0 11 = true ∧ unitBit 1 11 = false ∧ unitBit 0 23 = true ∧ unitBit 1 23 = false ∧
      (State.reset.powered = true ∧ State.reset.ready.getLsbD 31 = false ∧ State.reset.ready.getLsbD 29 = false) ∧
      ({ m0 with powered := false } : State).powered = false := by
  refine ⟨by decide +kernel, by decide +kernel, by decide +kernel, ⟨by decide +kernel, by decide +kernel, by decide, by decide, ?_⟩, ?_⟩
  · exact test_shortImage _ (by decide +kernel)
  · decide +kernel

/-- The registers read, and the vectors of the MSI-X table: masked, and pending. -/
theorem test_witness_RegistersAnswer :
    let held : State := { m0 with msix := [(2047, 2 ^ 96)], pba := [(2047, 1)] }
    ((m0.queues[63]?).isSome = true ∧ (m0.rings[1]?).isSome = true ∧ windowRead m0 8 3 = 2 ^ 24 - 1 ∧ windowRead m0 2 4 = 2 ^ 32 - 1) ∧
      windowRead { m0 with sems := [(15, 2)] } 0x13C 4 = 2 ∧ windowRead m0 0xFC 4 = 0 ∧
      (match execBarAccess { m0 with bars := [.atomic 0 2 0x13C 4 0 1] } with
        | .next t => decide (tget t.sems 15 = 1) && decide (t.reports = [.answer 0 0]) | _ => false) = true ∧
      (match execBarAccess { held with bars := [.write4 32764 0] } with
        | .next t => t.pba.isEmpty && decide (t.reports = [.msi 2047]) | _ => false) = true ∧
      (tget (sendMsi held true 2047).pba 2047 = 1 ∧ (sendMsi held true 2047).reports = [] ∧ (sendMsi m0 true 2047).reports = [.msi 2047]) ∧
      (events { m0 with stopped := true, bars := [.read 1 0 0 4] }).length = 1 := by decide +kernel

theorem test_witness_LinksAndErrors :
    let bad : FlitIn := { headerOk := false, payloadOk := false, ctx := 0 }
    let spent : State := { m0 with linkReplay := [(11, 8)] }
    let own := fun (s : State) (die i : Nat) => (s.spans[i]?).any fun p => spanOnDie s p die
    let e : BitVec 256 := BitVec.ofNat 256 (2 ^ 255 + 7 * 2 ^ 192 + 1 * 2 ^ 172 + 9 * 2 ^ 64 + 2 ^ 39)
    let s : State := { m0 with importTable := [(4095, e)] }
    let q : PeerReq := { src := 7, entry := 4095, gkey := 9, off := 65532, size := 4, form := 0, data := [] }
    let passes := fun (s : State) (q : PeerReq) =>
      let e := (tget s.importTable q.entry).toNat
      decide (e / 2 ^ 255 % 2 = 1 ∧ e / 2 ^ 192 % 2 ^ 12 = q.src ∧ e / 2 ^ 64 % 2 ^ 64 = q.gkey ∧ q.off + q.size ≤ e / 2 ^ 39 % 2 ^ 25 * 65536)
    let far : MemOp := { op0 with accs := [acc0, { acc0 with loc := .host 0x40 }] }
    let cut : MemOp := { op0 with accs := [acc0, { acc0 with loc := .imp 0 5 0x40 }] }
    let r : Resv := { launch := 0, core := 2, base := 512, size := 512, mem := [], sync := [], objs := [], rings := [] }
    (bad.headerOk = false ∧ (tget m0.linkReplay 11).toNat < 8 ∧ 8 ≤ (tget spent.linkReplay 11).toNat ∧ spent.tiles = [] ∧ own spent 3 0 = true ∧ (m0.ctxOf 0).any (fun c => decide (c.span = 0)) = true ∧ 11 % 3 = 2 ∧ 10 % 3 ≠ 2 ∧
      (spent.launches.map fun l => l.id).Nodup) ∧
      (passes s q = true ∧ passes s { q with off := 65533 } = false ∧ (tget s.importTable 4095).toNat / 2 ^ 254 % 2 = 0 ∧
        ((List.range q.size).mapM (fun i => ctxPlace s 0 (BitVec.ofNat 64 (2 ^ 56 + 65532 + i)) 1 false)).any
          (fun locs => locs.all fun l => !poisonedAt s l 1) = true) ∧
      ((flying m0 far).memOps.find? (fun x => x.id == 7) = some far ∧ far.token = none ∧ far.accs.any (fun a => a.loc.outside && !a.complete far.kind) = true ∧
        cut.accs.any (fun a => a.loc.outside && !reached m0 0 a.loc) = true) ∧
      memLimit 0 - 1 < memLimit m0.part ∧ (m0.findWave 1 = some m0.w ∧ m0.w.token = none) ∧
      ((withTile 0).w.token = some 4 ∧ ((withTile 0).tileOf 4).isSome = true) ∧
      ((({ m0 with resvs := [r] } : State).resvs.filter fun r => r.core == 2 && decide (r.base ≤ 1023) && decide (1023 < r.base + r.size)) = [r] ∧
        m0.tiles = []) := by decide +kernel

theorem test_witness_VectorBitsMovesAndCompares :
    (0x67#8).toNat < 104 ∧ 0x67 % 2 = 1 ∧ (0x66#8).toNat + 1 < 104 ∧ m0.rd.width = 32 ∧ m0.w.supervisor = false ∧ m0.rd.replay = false := by
  decide +kernel

theorem test_witness_DecodeAndEncode :
    (Instr.lea { sh := 2, d := 10, a := 0, b := 2, x := false }).wf = true ∧
      encode (.lea { sh := 2, d := 10, a := 0, b := 2, x := false }) = some 0x07850004 ∧
      (decodeWord 0x87850004).toOption = some (.lea { sh := 2, d := 10, a := 0, b := 2, x := false }) := by decide +kernel

theorem test_witness_StepRunsTheWord :
    let runs := fun (s : State) => s.powered && !inputMay (settle s) && !restokeDue (settle s) && (events (settle s)).isEmpty &&
      decide (issuable (settle s) = [1])
    let pair : State := { State.reset.withFetchWord 32 0x80000000 with
      icache := [{ core := 0, ctx := 0, va := 0x10004, bytes := leBytes 0x80000000 4 ++ leBytes 0x4E024925 4 ++ leBytes 0 4 }] }
    let word := fun (s : State) (k : Nat) => cachedWord (checkOut s 1) s.w (s.w.pc + BitVec.ofNat 64 (4 * k))
    let idle : State := { m0 with w := Wave.init }
    let one : State := { idle with wbacks := [0x8000] }
    let told : State := { idle with inputs := [.thermalThrottle] }
    let c : Cord := { State.fetchCord with items := [{ ord := 0, args := [] }] }
    let due : State := { m0 with w := { m0.w with status := .parked, live := 0, exec := 0 }, cords := [c] }
    let early := fun (s : State) => restokeEvents s ++ entryEvents s ++ exactEvents s
    (runs m0 = true ∧ m0.w.replay = false ∧ word m0 0 = some 0 ∧ (decodeWord 0).toOption.isSome = true ∧
      checkGroup (checkOut m0 1) m0.w (m0.w.pc.toNat % 12 / 4) [0] = none ∧ unmetClaim m0 [0] = none) ∧
      (runs pair = true ∧ word pair 0 = some 0x80000000 ∧ word pair 1 = some 0x4E024925 ∧ pair.w.pc.toNat % 12 < 8 ∧ chainBit 0x80000000 = true ∧
        checkGroup (checkOut pair 1) pair.w (pair.w.pc.toNat % 12 / 4) [0x80000000, 0x4E024925] = none ∧ unmetClaim pair [0x80000000, 0x4E024925] = none) ∧
      ((issuable one).isEmpty && !restokeDue one && !inputMay one && decide ((events one).length = 1)) = true ∧
      ((issuable told).isEmpty && (events told).isEmpty && !restokeDue told && inputMay told && isInput .thermalThrottle && told.powered) = true ∧
      ((issuable idle).isEmpty && (events idle).isEmpty && !restokeDue idle && !inputMay idle) = true ∧
      (restokeDue (settle due) && decide ((early (settle due)).length = 1)) = true := by decide +kernel

theorem test_witness_ChecksBeforeExecution :
    let w := m0.w
    let sup : Wave := { w with supervisor := true }
    let check := fun (pos : Nat) (last : Bool) (b : Word) => checkWord 0 w pos last b
    (w.supervisor = false ∧ 8 ≤ w.nregs ∧ w.nregs ≤ 0x60 ∧ (0x67#8).toNat < 0x68) ∧
      (check 0 true 0x7FC003FC = none ∧ check 1 true 0x7FC003FC = some (1, 0x0F)) ∧ check 0 true 0x80000000 = some (1, 0x0C) ∧
      check 0 true 0x74F20000 = some (3, 1) ∧ checkWord 0 sup 0 true 0x74F20000 = none := by decide +kernel

theorem test_witness_ModeChangesOnlyByTheRules :
    (encode (.trap { code := 0 })).isSome = true ∧ after (.trap { code := 0 }) withHandler (fun t => decide (t.w.uid = withHandler.w.uid)) = true ∧
      withHandler.w.supervisor = false ∧ ({ withHandler.w with supervisor := true } : Wave).supervisor = true := by decide +kernel

theorem test_witness_TimeAndProgress :
    let off : State := { m0 with powered := false }
    off.powered = false ∧ off.inputs = [] ∧ m0.powered = true ∧ m0.findWave 1 = some m0.w ∧ m0.w.status = .running ∧ stalled m0 m0.w = false ∧
      (let w : Wave := { m0.w with marks := sMarks m0.w 0 2 (some 3) ++ [{ reg := .v 0, pass := none, op := some 3 }] }
       ({ m0 with w := w } : State).findWave 1 = some w ∧ stalled { m0 with w := w } w = true) := by decide +kernel

theorem test_witness_EveryStepKeepsMemoryCanonical :
    Memory.wf m0.mem = true ∧ (match step m0 with | .next t => Memory.wf t.mem | _ => false) = true := by decide +kernel

/-! ### Worked examples of the spec, one word each -/

/-- A word of the encoding tables, decoded and executed in a state, leaves a state of which `p` holds. -/
def runsTo (b : Word) (s : State) (p : State → Bool) : Bool :=
  match decodeWord b with
  | .ok i => after i s p
  | .error _ => false

/-- `m0` with some slots in EXEC and v registers, keyed by 128 · register + slot. -/
def withV (exec : Mask) (v : Table 32) : State := withWave fun w => { w with exec := exec, v := v }

/-- The value of a v register in a slot. -/
def vAt (s : State) (n slot : Nat) : Word := tget s.w.v (128 * n + slot)

/-- LEA.x4 v10, v0, v2 with v2 = −4 (R110). -/
theorem test_lea : runsTo 0x07850004 (withV 1 [(0, 0x00010000), (128, 0x01004000), (256, 0xFFFFFFFC)])
    (fun t => decide (vAt t 10 0 = 0x0000FFF0 ∧ vAt t 11 0 = 0x01004000)) = true := by decide +kernel

/-- BFE.n32 with a field that runs past bit 31 (R108). -/
theorem test_bfe_cut : runsTo 0x06020002 (withV 1 [(0, 0xA0000000), (128, 0x0000081C)])
    (fun t => decide (vAt t 4 0 = 0xA)) = true := by decide +kernel

/-- MOVI and MOVHI build 0x24924925 in s4 (R109). -/
theorem test_movi_movhi : runsTo 0x4E024925 m0 (fun t => decide (sReg t.w 4 = 0x4925)) = true ∧
    runsTo 0x4E822492 (withWave fun w => { w with s := [(4, 0x4925)] }) (fun t => decide (sReg t.w 4 = 0x24924925)) = true := by
  decide +kernel

/-- A shift by 32 gives 0, or the sign (R107). -/
theorem test_shift_full : runsTo 0x04020002 (withV 1 [(0, 0x80000001), (128, 32)]) (fun t => decide (vAt t 4 0 = 0)) = true ∧
    runsTo 0x04820002 (withV 1 [(0, 0x80000001), (128, 32)]) (fun t => decide (vAt t 4 0 = 0xFFFFFFFF)) = true := by decide +kernel

/-- FRND.f32 of −0.5 toward zero (R128). -/
theorem test_frnd_keeps_sign : runsTo 0x19020004 (withV 1 [(0, 0xBF000000)]) (fun t => decide (vAt t 4 0 = 0x80000000)) = true := by
  decide +kernel

/-- CVT.i32.f64 of 3.0e9, with and without .sat (R147). -/
theorem test_cvt_above_range :
    runsTo 0x22820001 (withV 1 [(0, 0xC0000000), (128, 0x41E65A0B)]) (fun t => decide (vAt t 4 0 = 0x7FFFFFFF)) = true ∧
      runsTo 0x22820000 (withV 1 [(0, 0xC0000000), (128, 0x41E65A0B)]) (fun t => decide (vAt t 4 0 = 0x80000000)) = true := by decide +kernel

/-- UNPACK v9, v6, 0x13 takes nibble 3 as a signed integer (R151). -/
theorem test_unpack : runsTo 0x2BC48626 (withV 1 [(768, 0x12349678)]) (fun t => decide (vAt t 9 0 = 0xFFFFFFF9)) = true := by
  decide +kernel

/-- PSWAP transposes two slots (R160). -/
theorem test_pswap : runsTo 0x31020000 (withV 3 [(0, 0xBBBBAAAA), (1, 0xDDDDCCCC)])
    (fun t => decide (vAt t 4 0 = 0xCCCCAAAA ∧ vAt t 4 1 = 0xDDDDBBBB)) = true := by decide +kernel

/-- ISECT.bits of the two examples of R165. -/
theorem test_isect_bits : runsTo 0x33020002 (withV 3 [(0, 0x000000F0), (1, 0x0000000F), (128, 0x00000F30), (129, 0x000000F0)])
    (fun t => decide (vAt t 4 0 = 0x30 ∧ vAt t 5 0 = 0x04020604 ∧ vAt t 4 1 = 0 ∧ vAt t 5 1 = 0x80000404)) = true := by decide +kernel

/-- WRED.add.i32 of −11, −37, 0 and −126 (R168, the sparse example). -/
theorem test_wred_add : runsTo 0x37040000 (withV 0xF [(0, 0xFFFFFFF5), (1, 0xFFFFFFDB), (3, 0xFFFFFF82)])
    (fun t => decide (sReg t.w 8 = 0xFFFFFF52)) = true := by decide +kernel

/-- TRAP enters the handler in supervisor mode, with the user's EXEC saved (R369). -/
theorem test_trap_enters : after (.trap { code := 7 }) withHandler (fun t => t.w.supervisor &&
    decide (t.w.pc = BitVec.ofNat 64 (2 ^ 56 + 0x10010) ∧ t.w.fpc = withHandler.w.pc ∧ t.w.uexec = 0xFFFFFFFF)) = true := by
  decide +kernel

/-- One step of the machine runs the word at the PC, which moves on by 4 (R27, R102). -/
theorem test_step_iadd : (match step (withWave fun w => { w with v := [(0, 3), (31, 0x80000001)] }) with
    | .next t => decide (vAt t 0 0 = 6 ∧ vAt t 0 31 = 2 ∧ vAt t 0 1 = 0 ∧ t.w.pc = m0.w.pc + 4)
    | _ => false) = true := by decide +kernel

/-- The 8 by 8 layout divided by four and taken sixteen times (R188): modes (2, 4) and (8, 8). -/
theorem test_chain_divides :
    chainMode [{ ext := 8, step := 1, lev := 0, die := false }, { ext := 8, step := 8, lev := 0, die := false }]
        { ext := 16, step := 4, lev := 0, die := false } =
      some [{ ext := 2, step := 4, lev := 0, die := false }, { ext := 8, step := 8, lev := 0, die := false }] := by decide +kernel

/-- The unit that an operation does next is moved, and leaves these bytes at a place. -/
def leaves (s : State) (op : EngOp) (l : Loc) (bs : List Byte) : Bool :=
  let s := { s with engOps := [op] }
  engCan s op && slotHeld op && (match exec (.engineOpStart op.id) s with
    | .next t =>
      (t.engOps.find? fun o => o.id == op.id).any (fun o => !o.left.contains (nextUnit s op).2 && !o.stat.testBit 6) &&
        decide ((List.range bs.length).map (fun i => match l with
          | .scr core off => (t.resvOf 0 core).elim 0 fun r => tget r.mem (off + i)
          | .dev pa key => devByte t key (pa + i)
          | _ => 0) = bs)
    | _ => false)

/-- Every kind of unit is moved, the unit to come next being the only one left: 1.5 copied and converted, 1.5 + 2 summed, a block
quantised, a row gathered and one scattered, and an element sent to a slot of the neighbour's ring. -/
theorem test_witness_EngineUnits :
    let f32 := fun (x : Nat) => leBytes x 4
    let pad := fun (off : Nat) (bs : List Byte) (s : State) =>
      ({ s with resvs := s.resvs.map fun r => if r.core = 0 then { r with mem := tsetRun r.mem off bs } else r } : State)
    let fmtd := fun (h : BitVec 256) (f : Nat) => (h &&& ~~~BitVec.ofNat 256 (15 * 2 ^ 196)) ||| BitVec.ofNat 256 (f * 2 ^ 196)
    let one := pad 80 (f32 0x40000000) (pad 64 (f32 0x3FC00000) withLayout)
    let copy : EngOp := { eng0 with left := [0] }
    let narrow : EngOp := { copy with hd := fmtd copy.hd 2 }
    let sum : EngOp := { copy with mode := 2, rm := 1, ld := { copy.ld with modes := lay0.modes.take 1 }, count := 4 }
    let quant : EngOp := { copy with mode := 1, hd := fmtd copy.hd 4 ||| BitVec.ofNat 256 (2 ^ 216 + 2 ^ 224 + 600 * 2 ^ 128), count := 8 }
    let ring : EngOp :=
      { newEng withEast .trsend 0x95 { lay0 with hidx := 1 } lay0 none false 0 with started := true, slot := some 2, ringCore := 4, left := [0] }
    let rows := pad 512 (f32 0x40000000) (pad 256 (f32 1) { withRows with mem := tsetRun withRows.mem 0x8010 (f32 0x3FC00000) })
    let at_ : DWord := BitVec.ofNat 64 (0xFF * 2 ^ 56 + 256)
    let gather : EngOp :=
      { newEng withRows .gather 0x91 (layOf withRows.w 2) (layOf withRows.w 1) none false 0 with started := true, left := [0], list := at_ }
    let scatter : EngOp :=
      { newEng withRows .scatter 0x92 (layOf withRows.w 1) (layOf withRows.w 2) none false 0 with started := true, left := [0], list := at_ }
    leaves one copy (.scr 0 512) (f32 0x3FC00000) = true ∧ leaves one narrow (.scr 0 512) (leBytes 0x3E00 2) = true ∧
      leaves one sum (.scr 0 512) (f32 0x40600000) = true ∧ leaves one quant (.scr 0 512) [0x74] = true ∧ leaves one quant (.scr 0 600) [120] = true ∧
      leaves (pad 64 (f32 0x3FC00000) withEast) ring (.scr 4 640) (f32 0x3FC00000) = true ∧
      leaves rows gather (.scr 0 512) (f32 0x3FC00000) = true ∧ leaves rows scatter (.dev 0x8010 0) (f32 0x40000000) = true := by decide +kernel

/-- A fingerprinting copy that is done, and an operation into a ring that starts, that finds no slot, and that is done. -/
theorem test_witness_EngineRecords :
    let done : EngOp := { eng0 with fp := true, left := [], obj := some (0, 16), fpv := (List.range 8).map fun k => (k, 0x3FF8000000000000) }
    let s : State := { withPad with ctxs := withLayout.ctxs, w := withLayout.w }
    let has : EngOp := { done with fpv := ((List.range 8).foldl (fun t k => tset (tset t k 0x3FF8000000000000) (fpHas k) 1) []) }
    let send : EngOp := { newEng withEast .trsend 0x95 { lay0 with hidx := 1 } lay0 none false 0 with ringCore := 4 }
    let held : EngOp := { send with started := true, slot := some 0, left := [] }
    let at4 := fun (s : State) => match s.resvOf 0 4 with
      | some r => decide (resvAt s 4 (r.base + 32) = some r ∧ (s.resvs.filter fun a => a.launch == r.launch && a.core == r.core) = [r])
      | none => false
    let d := ringOf (posRead withEast 4 32)
    let full : State := { withEast with
      resvs := withEast.resvs.map fun r => { r with mem := tsetRun r.mem 32 (leBytes ({ d with free := 0 } : RingD).num 16) } }
    (engDone { s with engOps := [has] } has = true ∧ (∀ k, k < has.count → tget has.fpv (fpHas k) ≠ 0) ∧
      (match s.resvOf 0 0 with
       | some r => decide (resvAt s 0 16 = some r ∧ (s.resvs.filter fun a => a.launch == r.launch && a.core == r.core) = [r])
       | none => false) = true) ∧
      (hSpace send.hd = 6 ∧ hBase send.hd % 2 ^ 19 = 32 ∧ at4 withEast = true ∧ 0 < d.nslot ∧ d.nslot ≤ 256 ∧ 0 < d.free ∧ d.filled < 511 ∧
        engCan { withEast with engOps := [send] } send = true ∧ send.slot = none ∧
        engCan { full with engOps := [send] } send = true ∧ (ringOf (posRead full 4 32)).free = 0 ∧ engDone { withEast with engOps := [held] } held = true ∧
        held.fp = false) := by decide +kernel

/-- The compositions' clauses: each case of R185 to R188 is some layout's. -/
theorem test_witness_LayoutCompositions :
    let m := fun (e : Nat) (s : Int) => ({ ext := e, step := s, lev := 0, die := false } : LMode)
    let code := fun (r : Except Nat Layout) => match r with | .ok _ => 0 | .error c => c
    let wide : Layout := { lay0 with modes := [m 4 (2 ^ 30), m 2 4] }
    let far : Layout := { lay0 with origin := 2 ^ 47 - 1 }
    let die : Layout := { lay0 with modes := [{ m 4 1 with die := true }, m 2 4] }
    let lev : Layout := { lay0 with modes := [m 4 1, { m 2 4 with lev := 1 }] }
    let lb := fun (ms : List LMode) => ({ lay0 with modes := ms } : Layout)
    (code (lpartOf Layout.empty 0 0) = 2 ∧ code (lpartOf lay0 0 2) = 5 ∧ code (lpartOf lay0 2 0) = 5 ∧ code (lpartOf wide 1 8) = 0x0D ∧
      code (lpartOf die (1 + 65536) 0) = 0 ∧ code (lpartOf { die with dorg := 2 } (1 + 65536) 0) = 0x0C ∧ code (lpartOf far (1 + 65536) 0) = 0x0D ∧
      code (lpartOf lay0 (1 + 65536) 0) = 0) ∧
    (code (ltransOf lay0 64) = 1 ∧ code (ltransOf lay0 0) = 6 ∧ code (ltransOf lev 1) = 6 ∧ code (ltransOf lay0 1) = 0) ∧
    (code (lflatOf lay0 1) = 7 ∧ code (lflatOf lev 0) = 7 ∧ code (lflatOf lay0 0) = 0) ∧
    (code (lchainOf lay0 die) = 4 ∧ code (lchainOf lay0 (lb [m 4 3])) = 4 ∧ code (lchainOf lay0 (lb [m 4 2])) = 0 ∧
      code (lchainOf wide (lb [m 2 2])) = 0x0D ∧ code (lchainOf far (lb [m 2 1])) = 0) := by decide +kernel

/-- A request of the multicast that joins, one that opens a session beside others, and a line that is written to two elements. -/
theorem test_witness_MulticastJoins :
    let op : EngOp := { newEng withRows .mcread 0x93 (layOf withRows.w 2) (layOf withRows.w 1) none false 0 with started := true, expm := 2 }
    let s : State := { withRows with engOps := [op] }
    let joined : State := match exec (.mcreadRequestArrive op.id) s with | .next t => t | _ => s
    let op2 : EngOp := { op with id := op.id + 50 }
    let again : State := { joined with engOps := joined.engOps ++ [op2] }
    let line := (joined.sessions.head?.bind fun x => x.lines.head?).elim 0 fun x => x.1
    let m : McLine := { op := op.id, line := line, data := (List.range 512).map fun i => BitVec.ofNat 8 i }
    let late : State := { joined with mcLines := [m] }
    joined.sessions.length = 1 ∧ (joined.sessions.all fun x => !x.sending && x.members == [op.id]) = true ∧ mcCan again op2 = true ∧
      (match exec (.mcreadRequestArrive op2.id) again with
       | .next t => decide (t.sessions.length = 1) && t.sessions.all fun x => x.sending && x.members == [op.id, op2.id]
       | _ => false) = true ∧
      (late.engOps.find? fun o => o.id == op.id).any (fun o => (List.range o.ld.count).all fun k =>
        (mcBytes o o.xl k).any (fun bs => bs.length == 4 && bs.all fun x => !isPoisoned late x.1 1)) = true ∧
      (match exec (.mcreadLineWrite op.id) late with
       | .next t => (t.resvOf 0 0).any fun r => decide ((tgetRun r.mem 512 8).map (fun x => x.toNat) = [0, 1, 2, 3, 4, 5, 6, 7])
       | _ => false) = true := by decide +kernel

/-- Ordinary operands, rounded once (R117, R128, R129, R145): 1/3 and the root of 2 in the modes, 2.5 to an integral value, -2.5 to an integer. -/
theorem test_witness_CorrectlyRounded :
    fdiv .f32 .rne 0x3F800000 0x40400000 = (0x3EAAAAAB, 1) ∧ fdiv .f32 .rtz 0x3F800000 0x40400000 = (0x3EAAAAAA, 1) ∧
      fdecode .f32 0x40400000 ≠ .fin false 0 0 ∧ fsqrt .f32 .rne 0x40000000 = (0x3FB504F3, 1) ∧ fsqrt .f32 .rup 0x40000000 = (0x3FB504F4, 1) ∧
      frnd .f32 .rne 0x40200000 = (0x40000000, 0) ∧ frnd .f32 .rup 0x40200000 = (0x40400000, 0) ∧ fmtCode 10 = none ∧
      cvtElem 10 1 .rdn false 0xC0200000 = (0xFFFFFFFD, 1) ∧ cvtElem 10 1 .rne false 0x4F800000 = (0x80000000, 16) ∧
      cvtElem 10 1 .rne true 0x4F800000 = (0x7FFFFFFF, 16) ∧ cvtElem 2 1 .rne false 0x3FC00000 = (0x3E00, 0) := by decide +kernel

/-- The sum's clauses: infinite terms of one sign and of both, terms that are all -0, a term cut off, and one that is cut away. -/
theorem test_witness_SumsOfSteps :
    let v := FVal.fin
    stepSum (.inf false) [] [] = (0x7F800000, 0) ∧ stepSum (.inf false) [.inf true] [v false 1 0] = (0x7FC00000, 4) ∧
      stepSum (v true 0 0) [v true 0 0] [v false 1 0] = (0x80000000, 0) ∧ stepSum (v true 0 0) [v false 0 0] [v false 1 0] = (0, 0) ∧
      stepSum (v false 1 0) [v false 1 (-48)] [v false 1 0] = (0x3F800000, 1) ∧ stepSum (v false 1 0) [v false 1 (-47)] [v false 1 0] = (0x3F800000, 1) ∧
      flog 1 0 = -47 + 47 ∧ stepSum (v false 1 127) [v false 1 127] [v false 1 0] = (0x7F800000, 3) ∧ stepF64 7 [] [] = (7, 0) := by decide +kernel

/-- A scratchpad request of two slots of one pass, and a round of several requests: those of one bank group are served together. -/
theorem test_witness_RequestsOfAGroup :
    let a := fun (slot off : Nat) => ({ acc0 with slot := slot, loc := .scr 0 off } : Acc)
    let o : MemOp := { op0 with accs := [a 0 64, a 1 68, a 2 64] }
    (flying withPad o).memOps.find? (fun x => x.id == 7) = some o ∧ requestOf o 0 = [0, 1, 2] ∧ mayApply (flying withPad o) o 0 = true ∧
      (withPad.resvOf o.launch 0).isSome = true := by decide +kernel

/-- A fault of RFT's own group; a group that has begun before its wave's JOIN stopped; and supervisor mode taken by HANDLER_ENTRY. -/
theorem test_witness_ModesAndStops :
    let tr : Trap := { trap0 with kind := .partner, cls := 7 }
    let w : Wave := { withHandler.w with trap := some trap0 }
    let two : State := { withHandler with w := w, waves := [{ m0.w with uid := 2 }] }
    let again : Wave := { m0.w with again := some (m0.w.pc, m0.w.pc + 8) }
    (withHandler.ctxOf withHandler.w.ctx).isSome = true ∧ tr.kind = .partner ∧ tr.cls ≠ 0x0D ∧ withHandler.w.supervisor = false ∧
      ((two.w :: two.waves).map fun x => x.uid).Nodup ∧ two.findWave 1 = some w ∧
      (match exec (.handlerEntry 1) two with | .next t => (t.findWave 1).any fun x => x.supervisor | _ => false) = true ∧
      againOf again = some (m0.w.pc + 8) ∧ againOf m0.w = none ∧
      lateRead { m0 with turns := [(10, 0, 0)] } = true ∧ lateRead m0 = false := by decide +kernel

/-- A tile that resolves: one that passes, and one that fails by an overrun, an error, a verdict that is missing, wide or a NaN; and
one whose wave is still there. The wave of a tile, and a member of a crew, retire. -/
theorem test_witness_TilesResolve :
    let s0 := withTile 0
    let wave := fun (r : Option DWord) (gone : Bool) => ({ uid := 9, held := true, verdict := r, gone := gone } : TileWave)
    let s := fun (f : STile → STile) => ({ s0 with
      w := { m0.w with token := none }, tiles := s0.tiles.map f
      launches := s0.launches.map fun l => { l with tol := 0x3FF0000000000000 } } : State)
    let phase := fun (s : State) => ((settleTiles s).tileOf 4).map fun x => x.phase
    let r := fun (v : Option DWord) => s fun x => { x with waves := [wave v true] }
    let done : State := { m0 with w := { m0.w with status := .retiring, token := some 4, verdict := some 0 },
                                  launches := s0.launches, cords := s0.cords, tiles := s0.tiles.map fun x =>
                                    { x with waves := [{ uid := 1, held := true, verdict := none, gone := false }] } }
    let member : State := { m0 with
      w := { m0.w with status := .retiring, crew := some 3 }, crews := [{ crew0 with isOpen := true, pend := 1, inPhase := [1] }] }
    (phase (r (some 0xBFF0000000000000)) = some 1 ∧ phase (r (some 0x3FF0000000000001)) = some 2 ∧ phase (r (some 0x7FF8000000000000)) = some 2 ∧
      phase (r none) = some 2 ∧ phase (s fun x => { x with overrun := true, waves := [wave none false] }) = some 2 ∧
      phase (s fun x => { x with erred := true }) = some 2 ∧ phase (s fun x => { x with waves := [wave none false] }) = some 0) ∧
      tolOk (2 ^ 63) = true ∧ tolOk 0x7FF0000000000000 = false ∧ tolOk (2 ^ 63 + 1) = false ∧
      (mayRetire done done.w = true ∧ (done.tileOf 4).isSome = true ∧ (done.tiles.map fun y => y.token).Nodup) ∧
      (mayRetire member member.w = true ∧ (crewOf member member.w).any (fun c => decide ((member.crews.filter fun x => x.id == c.id) = [c])) &&
        (crewOf member member.w).any fun c => c.deferred.isEmpty && c.returning.isEmpty && c.waiting.isEmpty) = true ∧
      heldOpen s0 { State.fetchCord with num := 1, exact := true, closing := [1] } = true := by decide +kernel

/-- A guarded-surrogate record with its template, which is accepted: its tolerance is -0. -/
theorem test_witness_SurrogateRecord :
    let base := withRecord 0x0801 (2 ^ 3 + 2 ^ 6 + 2 ^ 8 + 2 ^ 20 + 2 ^ 28 + 2 ^ 37)
    let code := tsetRun (tsetRun base.mem 0x8010 (leBytes 4 8)) 0x8028 (leBytes (2 ^ 56 + 0x8100) 8)
    let s : State := { base with
      mem := tsetRun (tsetRun (tsetRun code 0x8100 (leBytes (2 ^ 56 + 0x10010) 8)) 0x8108 (leBytes 0x0801 8)) 0x8038 (leBytes (2 ^ 63) 8) }
    let reason := fun (s : State) => rejectReason s 0 (devBytes s 0 0x8000 128) 0
    reason s = 0 ∧ (templatesOf s 0 (BitVec.ofNat 64 (2 ^ 56 + 0x8100)) 1).any (fun ts => decide (ts.length = 1)) = true ∧
      reason { s with mem := tsetRun s.mem 0x8038 (leBytes (2 ^ 63 + 1) 8) } = 7 ∧ s.launches.length < 65536 ∧
      (s.queues[3]?).any (queueReady s) = true := by decide +kernel

/-- A launch that begins to wait, one that goes on, and one that ceases. -/
theorem test_witness_WaitsAreNoted :
    let s := waiting 3 2
    let with_ := fun (l : Launch → Launch) (c : Cord → Cord) => ({ s with launches := s.launches.map l, cords := s.cords.map c } : State)
    let noted := fun (s : State) => ((noteWaits s).launchOf 0).map fun l => (l.since, l.sinceX, l.sinceG)
    noted s = some (some 0, none, some 0) ∧ noted (with_ (fun l => { l with since := none, sinceG := none }) id) = some (some s.clk, none, some s.clk) ∧
      noted (with_ id fun c => { c with range := 0 }) = some (none, none, none) := by decide +kernel

/-- Atomics of the host on BAR2 and BAR4, and the timeouts of words that report none. -/
theorem test_witness_BarsAndTimeouts :
    let bars := fun (a : BarAccess) => match execBarAccess { m0 with bars := [a] } with | .next t => some t | _ => none
    let timed := fun (o : MemOp) => match exec (.fabricTimeout 7) (flying m0 o) with | .next t => decide (t = flying m0 o) | _ => false
    let far : MemOp := { op0 with accs := [{ acc0 with loc := .imp 0 5 0x40 }] }
    ((bars (.atomic 2 0 12288 4 0 1)).bind fun t => (t.queues[3]?).map fun q => q.tail) = some 1 ∧
      (bars (.atomic 4 1 92 4 0 1)).any (fun t => (tget t.msix 5).getLsbD 96) = true ∧
      (bars (.atomic 0 2 0x13C 4 7 1)).any (fun t => decide (tget t.sems 15 = 0)) = true ∧
      timed { far with kind := .pref } = true ∧ timed { far with kind := .cinv } = true ∧ timed far = false := by decide +kernel

/-- A ring's pair that leaves its slot: LCHK's verdict at port 0 is MLOOP's. -/
theorem test_witness_RingRanges :
    let s := withRing
    let v := fun (n : Nat) => slotRange s (layOf s.rd n) (handleOf s s.w.ctx (layOf s.rd n)) 0
      (portCheck (hasTrestle s.part) (wavBytes s.rd) (layOf s.rd n) (handleOf s s.rd.ctx (layOf s.rd n)) 0 false none)
    let long : State := { s with w := { s.w with lays := s.w.lays.map fun l => { l with origin := if l.hidx = 1 then l.origin + 8 else l.origin } } }
    (v 1).verd ≠ 2 ∧ hSpace (handleOf s 0 (layOf s.rd 1)) = 6 ∧ (ringDesc s (handleOf s 0 (layOf s.rd 1))).isSome = true ∧
      (slotRange long (layOf long.rd 1) (handleOf long 0 (layOf long.rd 1)) 0
        (portCheck (hasTrestle 0) (wavBytes long.rd) (layOf long.rd 1) (handleOf long 0 (layOf long.rd 1)) 0 false none)).why = 10 := by decide +kernel

end Sys2Proof.Tests
end

/-!
PROOFS. The integer functions of the model are those of R105 to R111 in the spec's words (`Spec`), and the vector words that
apply them in each EXEC slot complete with the vector effect (04_integer.md).
-/
namespace Sys2Proof.Machine

/-! ### Exact integers reduced to the word

Each operation on words is the exact one on integers, reduced by `BitVec.ofNat` or `BitVec.ofInt`. -/

theorem shiftLeft_eq_ofNat {n : Nat} (a : BitVec n) (k : Nat) : a <<< k = BitVec.ofNat n (a.toNat * 2 ^ k) :=
  BitVec.eq_of_toNat_eq (by rw [BitVec.toNat_shiftLeft, BitVec.toNat_ofNat, Nat.shiftLeft_eq])

theorem ushiftRight_eq_ofNat {n : Nat} (a : BitVec n) (k : Nat) : a >>> k = BitVec.ofNat n (a.toNat / 2 ^ k) := by
  apply BitVec.eq_of_toNat_eq
  rw [BitVec.toNat_ushiftRight, BitVec.toNat_ofNat, Nat.shiftRight_eq_div_pow,
    Nat.mod_eq_of_lt (Nat.lt_of_le_of_lt (Nat.div_le_self _ _) a.isLt)]

theorem ofInt_toNat {n : Nat} (a : BitVec n) : BitVec.ofInt n (a.toNat : Int) = a := by
  rw [BitVec.ofInt_natCast, BitVec.ofNat_toNat, BitVec.setWidth_eq]

theorem hi32_ofInt (z : Int) : hi32 (BitVec.ofInt 64 z) = BitVec.ofInt 32 (z / 2 ^ 32) := by
  apply BitVec.eq_of_toNat_eq
  simp only [hi32, BitVec.toNat_ofNat, BitVec.toNat_ofInt]
  omega

/-! ### Arithmetic (R105, R109, R110) -/

theorem add_eq_spec {n : Nat} (a b : BitVec n) : a + b = Spec.add a b :=
  BitVec.eq_of_toNat_eq (by rw [BitVec.toNat_add, Spec.add, BitVec.toNat_ofNat])

theorem sub_eq_spec {n : Nat} (a b : BitVec n) : a - b = Spec.sub a b := by
  rw [Spec.sub, Int.sub_eq_add_neg, BitVec.ofInt_add, BitVec.ofInt_neg, ofInt_toNat, ofInt_toNat, BitVec.sub_eq_add_neg]

theorem mul_eq_spec {n : Nat} (a b : BitVec n) : a * b = Spec.mulLo a b :=
  BitVec.eq_of_toNat_eq (by rw [BitVec.toNat_mul, Spec.mulLo, BitVec.toNat_ofNat])

theorem mulWideS_eq_spec (a b : Word) : mulWideS a b = Spec.mulWideS a b :=
  (BitVec.ofInt_mul a.toInt b.toInt).symm

theorem mulWideU_eq_spec (a b : Word) : mulWideU a b = Spec.mulWideU a b := by
  apply BitVec.eq_of_toNat_eq
  rw [mulWideU, Spec.mulWideU, BitVec.toNat_mul, BitVec.toNat_ofNat, BitVec.toNat_setWidth_of_le (by decide),
    BitVec.toNat_setWidth_of_le (by decide)]

theorem mulHiS_eq_spec (a b : Word) : mulHiS a b = Spec.mulHiS a b := by
  rw [Spec.mulHiS, ← hi32_ofInt]
  exact congrArg hi32 (mulWideS_eq_spec a b)

theorem mulHiU_eq_spec (a b : Word) : mulHiU a b = Spec.mulHiU a b := by
  have h : mulHiU a b = hi32 (BitVec.ofInt 64 ((a.toNat * b.toNat : Nat) : Int)) := by
    rw [BitVec.ofInt_natCast]; exact congrArg hi32 (mulWideU_eq_spec a b)
  rw [h, hi32_ofInt, Spec.mulHiU, ← BitVec.ofInt_natCast]
  rfl

theorem mad_eq_spec (d a b : Word) : a * b + d = Spec.mad d a b := by
  apply BitVec.eq_of_toNat_eq
  rw [BitVec.toNat_add, BitVec.toNat_mul, Spec.mad, BitVec.toNat_ofNat, Nat.mod_add_mod]

theorem minS_eq_spec {n : Nat} (a b : BitVec n) : minS a b = Spec.minS a b := by
  simp only [minS, Spec.minS, BitVec.sle_iff_toInt_le]

theorem maxS_eq_spec {n : Nat} (a b : BitVec n) : maxS a b = Spec.maxS a b := by
  simp only [maxS, Spec.maxS, BitVec.sle_iff_toInt_le]

theorem minU_eq_spec {n : Nat} (a b : BitVec n) : minU a b = Spec.minU a b := by
  simp only [minU, Spec.minU, BitVec.ule_iff_toNat_le]

theorem maxU_eq_spec {n : Nat} (a b : BitVec n) : maxU a b = Spec.maxU a b := by
  simp only [maxU, Spec.maxU, BitVec.ule_iff_toNat_le]

theorem absW_eq_spec {n : Nat} (a : BitVec n) : absW a = Spec.abs a := by
  simp only [absW, Spec.abs, BitVec.msb_eq_toInt, decide_eq_true_eq]
  split
  · next h => rw [Int.ofNat_natAbs_of_nonpos (by omega), BitVec.ofInt_neg, BitVec.ofInt_toInt]
  · next h => rw [Int.natAbs_of_nonneg (by omega), BitVec.ofInt_toInt]

theorem addImm_eq_spec (imm : BitVec 15) (d : Word) : d + imm.signExtend 32 = Spec.addImm imm d := by
  rw [Spec.addImm, BitVec.ofInt_add, ofInt_toNat]
  rfl

theorem leaW_eq_spec (k : Nat) (a : DWord) (b : Word) : leaW k a b = Spec.lea k a b := by
  have h : b.signExtend 64 <<< k = BitVec.ofInt 64 (b.toInt * 2 ^ k) := by
    rw [shiftLeft_eq_ofNat, ← BitVec.ofInt_natCast, Nat.cast_mul, BitVec.ofInt_mul, BitVec.ofInt_mul, ofInt_toNat, Nat.cast_pow]
    rfl
  rw [leaW, Spec.lea, BitVec.ofInt_add, BitVec.ofInt_toInt, h]

/-! ### Bits and shifts (R106, R107) -/

/-- Counting the set places of a list one by one. -/
theorem foldl_add_bitOf (f : Nat → Bool) (l : List Nat) :
    ∀ c, l.foldl (fun n i => n + bitOf (f i)) c = c + (l.filter f).length := by
  induction l with
  | nil => intro c; rfl
  | cons i l ih =>
    intro c
    rw [List.foldl_cons, ih]
    cases h : f i
    · simp [h, bitOf]
    · simp [h, bitOf]; omega

theorem popcW_eq_spec (a : Word) : popcW a = Spec.popc a := by
  rw [popcW, Spec.popc, foldl_add_bitOf, Nat.zero_add]

/-- When the places below `k` pass a test and place `k` fails it, `k` places of a range stand before the first that fails. -/
theorem length_takeWhile_range {p : Nat → Bool} {n k : Nat} (hk : k < n) (hp : ∀ i, i < k → p i = true) (hf : p k = false) :
    ((List.range n).takeWhile p).length = k := by
  have hfirst : (List.range n).findIdx (fun i => !p i) = k :=
    (List.findIdx_eq (by rwa [List.length_range])).2 ⟨by simp [hf], fun j hj => by simp [hp j hj]⟩
  rw [List.takeWhile_eq_take_findIdx_not, hfirst, List.length_take, List.length_range, Nat.min_eq_left (Nat.le_of_lt hk)]

theorem clzW_eq_spec (a : Word) : clzW a = Spec.clz a := by
  unfold clzW
  split
  · next h => subst h; decide
  · next h =>
    have h0 : a.toNat ≠ 0 := fun h1 => h (BitVec.eq_of_toNat_eq h1)
    have hlog : Nat.log2 a.toNat < 32 := (Nat.log2_lt h0).2 a.isLt
    -- The highest 1 bit is bit log2 a: the places above it are clear.
    rw [Spec.clz, length_takeWhile_range (k := 31 - Nat.log2 a.toNat) (by omega)]
    · intro i hi
      have hlt : a.toNat < 2 ^ (31 - i) := (Nat.log2_lt h0).1 (by omega)
      rw [← BitVec.testBit_toNat, Nat.testBit_lt_two_pow hlt, Bool.not_false]
    · rw [show 31 - (31 - Nat.log2 a.toNat) = Nat.log2 a.toNat by omega, ← BitVec.testBit_toNat, Nat.testBit_log2 h0, Bool.not_true]

/-- The sum of the powers of two at set places is the number that the fold of `maskOf` builds. -/
theorem sum_bits_eq_foldl (f : Nat → Bool) (l : List Nat) :
    (l.map fun i => bitOf (f i) * 2 ^ i).sum = l.foldl (fun a i => if f i then a + 2 ^ i else a) 0 := by
  rw [List.sum_eq_foldl, List.foldl_map]
  congr 1
  funext n i
  cases f i <;> simp [bitOf]

theorem brevW_eq_spec (a : Word) : brevW a = Spec.brev a := by
  have h : Spec.brev a = BitVec.setWidth 32 (maskOf 32 fun i => a.getLsbD (31 - i)) := by
    rw [Spec.brev, sum_bits_eq_foldl, maskOf, BitVec.setWidth_ofNat_of_le (by decide)]
  apply BitVec.eq_of_getLsbD_eq
  intro i hi
  rw [h, BitVec.getLsbD_setWidth, maskOf_bit _ _ _ (by decide), brevW, BitVec.getLsbD_reverse, BitVec.getMsbD_eq_getLsbD]
  simp [hi]

theorem shlW_eq_spec {n : Nat} (a : BitVec n) (c : Word) : shlW a c = Spec.shl a c := by
  rw [shlW, Spec.shl, shiftLeft_eq_ofNat]

theorem shrW_eq_spec {n : Nat} (a : BitVec n) (c : Word) : shrW a c = Spec.shr a c := by
  rw [shrW, Spec.shr, ushiftRight_eq_ofNat]

/-- A count of the width or more counts as the width less one. -/
theorem sarW_eq_spec {n : Nat} (a : BitVec n) (c : Word) : sarW a c = Spec.sar a c := by
  have h : (if n ≤ c.toNat then n - 1 else c.toNat) = min c.toNat (n - 1) := by split <;> omega
  rw [sarW, Spec.sar, h, BitVec.sshiftRight, Int.shiftRight_eq_div_pow]
  rfl

theorem rotW_eq_spec (a c : Word) : rotW a c = Spec.rot a c := by
  rw [rotW, Spec.rot, BitVec.rotateLeft_def, Nat.mod_mod, shiftLeft_eq_ofNat, ushiftRight_eq_ofNat]

/-! ### Fields and compares (R108, R111) -/

theorem bfWidth_eq_spec (c : Word) : bfWidth c = Spec.wid c := rfl

theorem bfeU_eq_spec (a c : Word) : bfeU a c = Spec.bfeU a c := rfl

theorem bfeS_eq_spec (a c : Word) : bfeS a c = Spec.bfeS a c := by
  rw [bfeS, Spec.bfeS, bfWidth_eq_spec]
  have hx : nbits a.toNat (c.toNat % 32) (Spec.wid c) = a.toNat / 2 ^ Spec.pos c % 2 ^ Spec.wid c := rfl
  rw [hx, sextNat, Nat.mod_mod]
  split
  · rfl
  · split <;> rfl

theorem bfiW_eq_spec (d a c : Word) : bfiW d a c = Spec.bfi d a c := by
  rw [bfiW, shiftLeft_eq_ofNat]
  rfl

theorem icmpW_eq_spec {n : Nat} (c : Nat) (a b : BitVec n) : icmpW c a b = Spec.cmp c a b := by
  have he : (a == b) = decide (a.toNat = b.toNat) := by rw [Bool.eq_iff_iff]; simp [BitVec.toNat_eq]
  match c with
  | 0 => exact he
  | 1 => exact (congrArg not he).trans decide_not.symm
  | 2 | 3 | 4 | _ + 5 => rfl

/-! ### Vector words with a given result -/

/-- A word that writes one register completes with every result equal to the one it computes. -/
theorem vecWord_of_vecOut {i : Instr} {s : State} {d : BitVec 7} {g r : Nat → Word} (hi : exec i s = .next (vecOut s .valu d g))
    (hr : ∀ k, g k = r k) : VecWord i s .valu d 1 fun k => [r k] := by
  obtain rfl : g = r := funext hr
  exact fun hd => ⟨_, hi, vecOut_effect s .valu d g hd⟩

/-- A word that writes a pair completes with every result equal to the one it computes. -/
theorem vecWord_of_vecOut64 {i : Instr} {s : State} {d : BitVec 7} {g r : Nat → DWord}
    (hi : exec i s = .next (vecOut64 s .valu d g)) (hr : ∀ k, g k = r k) :
    VecWord i s .valu d 2 fun k => [lo32 (r k), hi32 (r k)] := by
  obtain rfl : g = r := funext hr
  exact fun hd => ⟨_, hi, vecOut64_effect s .valu d g hd⟩

/-- A word that writes a mask completes with every condition equal to the one it computes. -/
theorem maskWord_of_maskOut {i : Instr} {s : State} {d : BitVec 7} {g r : Nat → Bool}
    (hi : exec i s = .next (maskOut s .valu d g)) (hr : ∀ k, g k = r k) : MaskWord i s .valu d r 0 := by
  obtain rfl : g = r := funext hr
  exact fun hw hd => ⟨_, hi, maskOut_effect s .valu d g hw hd⟩

/-! ### R105: the arithmetic words -/

theorem vectorArithmetic : Claims.VectorArithmetic := by
  intro s f u m on
  exact ⟨vecWord_of_vecOut rfl fun _ => add_eq_spec _ _,
    vecWord_of_vecOut rfl fun _ => sub_eq_spec _ _,
    vecWord_of_vecOut rfl fun _ => mul_eq_spec _ _,
    vecWord_of_vecOut rfl fun _ => mulHiS_eq_spec _ _,
    vecWord_of_vecOut rfl fun _ => mulHiU_eq_spec _ _,
    vecWord_of_vecOut rfl fun _ => mad_eq_spec _ _ _,
    vecWord_of_vecOut rfl fun _ => minS_eq_spec _ _,
    vecWord_of_vecOut rfl fun _ => maxS_eq_spec _ _,
    vecWord_of_vecOut rfl fun _ => minU_eq_spec _ _,
    vecWord_of_vecOut rfl fun _ => maxU_eq_spec _ _,
    vecWord_of_vecOut rfl fun _ => absW_eq_spec _,
    vecWord_of_vecOut rfl fun _ => addImm_eq_spec _ _⟩

theorem vectorPairArithmetic : Claims.VectorPairArithmetic := by
  intro s f u two wide on
  exact ⟨vecWord_of_vecOut64 rfl fun _ => mulWideS_eq_spec _ _,
    vecWord_of_vecOut64 rfl fun _ => mulWideU_eq_spec _ _,
    vecWord_of_vecOut64 rfl fun _ => add_eq_spec _ _,
    vecWord_of_vecOut64 rfl fun _ => sub_eq_spec _ _,
    vecWord_of_vecOut64 rfl fun _ => mul_eq_spec _ _,
    vecWord_of_vecOut64 rfl fun _ => minS_eq_spec _ _,
    vecWord_of_vecOut64 rfl fun _ => maxS_eq_spec _ _,
    vecWord_of_vecOut64 rfl fun _ => minU_eq_spec _ _,
    vecWord_of_vecOut64 rfl fun _ => maxU_eq_spec _ _,
    vecWord_of_vecOut64 rfl fun _ => absW_eq_spec _⟩

/-! ### R106 to R111: bits, shifts, fields, moves, addresses and compares -/

theorem vectorBitsAndShifts : Claims.VectorBitsAndShifts := by
  intro s f u on un sh
  exact ⟨vecWord_of_vecOut rfl fun _ => rfl,
    vecWord_of_vecOut rfl fun _ => rfl,
    vecWord_of_vecOut rfl fun _ => rfl,
    vecWord_of_vecOut rfl fun _ => rfl,
    vecWord_of_vecOut rfl fun _ => popcW_eq_spec _,
    vecWord_of_vecOut rfl fun _ => clzW_eq_spec _,
    vecWord_of_vecOut rfl fun _ => brevW_eq_spec _,
    vecWord_of_vecOut rfl fun _ => shlW_eq_spec _ _,
    vecWord_of_vecOut rfl fun _ => shrW_eq_spec _ _,
    vecWord_of_vecOut rfl fun _ => sarW_eq_spec _ _,
    vecWord_of_vecOut rfl fun _ => rotW_eq_spec _ _,
    vecWord_of_vecOut64 rfl fun _ => shlW_eq_spec _ _,
    vecWord_of_vecOut64 rfl fun _ => shrW_eq_spec _ _,
    vecWord_of_vecOut64 rfl fun _ => sarW_eq_spec _ _⟩

theorem vectorFieldsMovesAddresses : Claims.VectorFieldsMovesAddresses := by
  intro s f u m l on two
  exact ⟨vecWord_of_vecOut rfl fun _ => bfeU_eq_spec _ _,
    vecWord_of_vecOut rfl fun _ => bfeS_eq_spec _ _,
    vecWord_of_vecOut rfl fun _ => bfiW_eq_spec _ _ _,
    vecWord_of_vecOut rfl fun _ => rfl,
    vecWord_of_vecOut64 rfl fun _ => rfl,
    vecWord_of_vecOut rfl fun _ => rfl,
    vecWord_of_vecOut rfl fun _ => rfl,
    vecWord_of_vecOut64 rfl fun _ => leaW_eq_spec _ _ _⟩

theorem vectorCompares : Claims.VectorCompares := by
  intro s f
  exact ⟨maskWord_of_maskOut rfl fun _ => icmpW_eq_spec _ _ _,
    maskWord_of_maskOut rfl fun _ => icmpW_eq_spec _ _ _⟩

/-- Settles O1: each word runs the shared vector operation on the spec's function of its operands. -/
theorem vectorIntegerArithmetic : Obligations.VectorIntegerArithmetic :=
  ⟨vectorArithmetic, vectorPairArithmetic⟩

/-- Settles O2: as O1, and a compare runs the shared mask operation on the spec's condition. -/
theorem vectorBitsMovesAndCompares : Obligations.VectorBitsMovesAndCompares :=
  ⟨vectorBitsAndShifts, vectorFieldsMovesAddresses, vectorCompares⟩

end Sys2Proof.Machine

/-!
PROOFS. The words that move values between slots give each EXEC slot what R159 to R166 say, and the ballots and votes condense
the wave as R162 says (07_crosslane.md).
-/
namespace Sys2Proof.Machine

/-! ### Counts of bits (R163 to R165) -/

theorem toNat_popcW (a : Word) : (popcW a).toNat = ((List.range 32).filter fun i => a.getLsbD i).length := by
  have h : ((List.range 32).filter fun i => a.getLsbD i).length ≤ 32 :=
    (List.length_filter_le _ _).trans_eq List.length_range
  rw [popcW_eq_spec, Spec.popc, BitVec.toNat_ofNat, Nat.mod_eq_of_lt (by omega)]

theorem toNat_popcW_eq_zero_iff (a : Word) : (popcW a).toNat = 0 ↔ a = 0 := by
  rw [toNat_popcW, List.length_eq_zero_iff, List.filter_eq_nil_iff]
  constructor
  · exact fun h => BitVec.eq_of_getLsbD_eq fun i hi => by simpa using h i (List.mem_range.2 hi)
  · rintro rfl; simp

/-- Words added one by one, from any start, are the exact sum reduced to the word. -/
theorem add_foldl_eq_ofNat (v : Nat → Word) (l : List Nat) : ∀ b c : Word,
    b + l.foldl (fun n t => n + v t) c = BitVec.ofNat 32 (b.toNat + c.toNat + (l.map fun t => (v t).toNat).sum) := by
  induction l with
  | nil => exact add_eq_spec
  | cons t l ih =>
    intro b c
    rw [List.foldl_cons, ih, List.map_cons, List.sum_cons]
    apply BitVec.eq_of_toNat_eq
    simp only [BitVec.toNat_ofNat, BitVec.toNat_add]
    omega

/-- The prefix count of PPOP over the slots of `l`. -/
theorem add_foldl_popcW_eq (b : Word) (v : Nat → Word) (l : List Nat) :
    b + l.foldl (fun n t => n + popcW (v t)) 0 =
      BitVec.ofNat 32 (b.toNat + (l.map fun j => ((List.range 32).filter fun i => (v j).getLsbD i).length).sum) := by
  rw [add_foldl_eq_ofNat]
  simp only [toNat_popcW]
  rfl

/-! ### The count words and the hits of ISECT (R164 to R166) -/

theorem countWord_eq (adva advb ncom first : Nat) :
    countWord adva advb ncom first =
      BitVec.ofNat 32 (adva + advb * 2 ^ 8 + ncom * 2 ^ 16 + first * 2 ^ 24 + (if ncom = 0 then 2 ^ 31 else 0)) := by
  unfold countWord bitOf
  by_cases h : ncom = 0 <;> simp [h]

/-- ISECT.bits: the intersection of two bitmap words has no element just where their AND is 0. -/
theorem countWord_bits_eq (x y : Word) :
    countWord (popcW x).toNat (popcW y).toNat (popcW (x &&& y)).toNat (lowBit (x &&& y)) =
      BitVec.ofNat 32 (((List.range 32).filter fun i => x.getLsbD i).length +
        ((List.range 32).filter fun i => y.getLsbD i).length * 2 ^ 8 +
        ((List.range 32).filter fun i => (x &&& y).getLsbD i).length * 2 ^ 16 +
        ((List.range 32).find? fun i => (x &&& y).getLsbD i).getD 0 * 2 ^ 24 + (if x &&& y = 0 then 2 ^ 31 else 0)) := by
  rw [countWord_eq, if_congr (toNat_popcW_eq_zero_iff _) rfl rfl, toNat_popcW, toNat_popcW, toNat_popcW, lowBit]

/-- Elements are compared unsigned. -/
theorem isectHit_eq (s : State) (f : RBin) (k : Nat) :
    isectHit s f k = s.rd.slots.find? fun t => (bRead s f.b f.x t).toNat == (vRead s.rd f.a k).toNat := by
  simp only [isectHit, beq_eq_decide, BitVec.toNat_inj]

theorem isectCount_eq (s : State) (f : RBin) :
    let sl := s.rd.slots
    let av := fun j => (vRead s.rd f.a j).toNat
    let bv := fun j => (bRead s f.b f.x j).toNat
    let lim := min ((sl.map av).foldl max 0) ((sl.map bv).foldl max 0)
    let hits := sl.filter fun j => (sl.find? fun j2 => bv j2 == av j).isSome
    isectCount s f = BitVec.ofNat 32 ((sl.filter fun j => decide (av j ≤ lim)).length +
      (sl.filter fun j => decide (bv j ≤ lim)).length * 2 ^ 8 + hits.length * 2 ^ 16 + hits.headD 0 * 2 ^ 24 +
      (if hits.length = 0 then 2 ^ 31 else 0)) := by
  intro sl av bv lim hits
  rw [isectCount, countWord_eq]
  simp only [isectHit_eq, List.foldl_map, lim, hits, sl, av, bv]

/-! ### Words that write two given words, or a predicate -/

/-- A word that writes a pair of words completes with both equal to the ones it computes. -/
theorem vecWord_of_vecOut_pair {i : Instr} {s : State} {d : BitVec 7} {x y x' y' : Nat → Word}
    (hi : exec i s = .next (vecOut64 s .valu d fun k => pair64 (x k) (y k))) (hx : ∀ k, x k = x' k) (hy : ∀ k, y k = y' k) :
    VecWord i s .valu d 2 fun k => [x' k, y' k] := by
  obtain rfl : x = x' := funext hx
  obtain rfl : y = y' := funext hy
  simpa only [lo32_pair64, hi32_pair64] using vecWord_of_vecOut64 hi fun _ => rfl

/-- A word that writes a predicate completes with the truth of any proposition its bit decides. -/
theorem predWord_of_predOut {i : Instr} {s : State} {p : Pipe} {passes n : Nat} {b : Bool} {P : Prop} [Decidable P]
    (hi : exec i s = .next (predOut s p passes n b)) (hb : b = true ↔ P) : PredWord i s p passes n (decide P) := by
  obtain rfl : b = decide P := Bool.eq_iff_iff.2 (hb.trans decide_eq_true_iff.symm)
  exact fun hn => ⟨_, hi, predOut_effect s p passes n _ hn⟩

/-! ### R159 to R166: the words -/

/-- In order: SHFL, BCAST, PSWAP, PPOP, ISECT.bits, ISECT.list. -/
theorem movesBetweenSlots : Claims.MovesBetweenSlots := by
  intro s f b u a takes bits low
  exact ⟨vecWord_of_vecOut rfl fun _ => rfl,
    vecWord_of_vecOut rfl fun _ => rfl,
    vecWord_of_vecOut rfl fun _ => if_congr (Bool.not_eq_true' _).to_iff rfl rfl,
    vecWord_of_vecOut rfl fun _ => add_foldl_popcW_eq _ _ _,
    vecWord_of_vecOut_pair rfl (fun _ => rfl) fun _ => countWord_bits_eq _ _,
    vecWord_of_vecOut_pair rfl
      (fun k => congrArg (fun | some j => BitVec.ofNat 32 j | none => 0xFFFFFFFF) (isectHit_eq s b k))
      fun _ => isectCount_eq s b⟩

/-- In order: BALLOT, VOTE.any, VOTE.all, VOTE.uni. -/
theorem ballotAndVotes : Claims.BallotAndVotes := by
  intro s u v
  exact ⟨maskWord_of_maskOut rfl fun _ => Bool.eq_iff_iff.2 (bne_iff_ne.trans decide_eq_true_iff.symm),
    predWord_of_predOut rfl (by simp only [List.any_eq_true, bne_iff_ne]),
    predWord_of_predOut rfl (by simp only [List.all_eq_true, bne_iff_ne]),
    predWord_of_predOut rfl (by simp only [List.all_eq_true, beq_iff_eq])⟩

/-- Settles O8: each word runs a shared operation on the spec's function of the slots; the counts are exact sums that fit. -/
theorem wordsBetweenSlots : Obligations.WordsBetweenSlots :=
  ⟨movesBetweenSlots, ballotAndVotes⟩

end Sys2Proof.Machine
